-- ==== Sys2Proof/Word.lean ====
section
/-! DEFINITION. The byte of a frame and the table: a list of numbered entries, the one container State uses for
everything the spec numbers (cells, lanes, machine slots, lines, zones, marks, notice classes). -/

namespace Sys2Proof

/-- One byte of a frame (R170: 8 data bits). -/
abbrev Byte := BitVec 8

/-- Numbered entries, kept in rising number order. A number that is not listed has no entry. -/
abbrev Table (α : Type) := List (Nat × α)

end Sys2Proof
end

