-- ==== Sys2Proof/Syntax.lean ====
section
/-! DEFINITION. The commands of the block: one constructor for each row of spec/opcode_table.json, in the table's order.
A host command carries the ref byte and the body of its frame, a machine record its slot byte and body (R170, R183), a
frame event the bytes that reach the port, a timer or line event the number of the cell, slot or line concerned, a
sample whether current flows in the input. -/

namespace Sys2Proof

/-- A frame's contents once its CRC has checked (R170). On the fleet port `ref` is the slot byte. -/
structure Record where
  kind : Byte
  ref : Byte
  body : List Byte
deriving DecidableEq, Repr, Inhabited

/-- A frame that a port has read, from its lead byte to its last CRC byte (R87, R170); `crc` is the check word
received. -/
structure Frame where
  kind : Byte
  ref : Byte
  body : List Byte
  crc : BitVec 16
deriving DecidableEq, Repr, Inhabited

inductive Instr where
  | cellDefine (ref : Byte) (body : List Byte)
  | laneDefine (ref : Byte) (body : List Byte)
  | lineSetup (ref : Byte) (body : List Byte)
  | timingSetup (ref : Byte) (body : List Byte)
  | machineEnroll (ref : Byte) (body : List Byte)
  | fleetReset (ref : Byte) (body : List Byte)
  | nightBegin (ref : Byte) (body : List Byte)
  | dryingSetup (ref : Byte) (body : List Byte)
  | environmentSet (ref : Byte) (body : List Byte)
  | markSet (ref : Byte) (body : List Byte)
  | markClear (ref : Byte) (body : List Byte)
  | noticeControl (ref : Byte) (body : List Byte)
  | noticeClear (ref : Byte) (body : List Byte)
  | noticeRead (ref : Byte) (body : List Byte)
  | cellRead (ref : Byte) (body : List Byte)
  | machineRead (ref : Byte) (body : List Byte)
  | laneRead (ref : Byte) (body : List Byte)
  | lineRead (ref : Byte) (body : List Byte)
  | countersRead (ref : Byte) (body : List Byte)
  | mapCheck (ref : Byte) (body : List Byte)
  | nightRecall (ref : Byte) (body : List Byte)
  | nightContinue (ref : Byte) (body : List Byte)
  | nightEnd (ref : Byte) (body : List Byte)
  | resumeAll (ref : Byte) (body : List Byte)
  | clockSet (ref : Byte) (body : List Byte)
  | legLoad (ref : Byte) (body : List Byte)
  | legCancel (ref : Byte) (body : List Byte)
  | machineHalt (ref : Byte) (body : List Byte)
  | machineResume (ref : Byte) (body : List Byte)
  | machineRestore (ref : Byte) (body : List Byte)
  | machineWithdraw (ref : Byte) (body : List Byte)
  | zoneClose (ref : Byte) (body : List Byte)
  | zoneOpen (ref : Byte) (body : List Byte)
  | supervisoryUnknownKind (kind ref : Byte) (body : List Byte)
  | supervisoryFrame (bytes : List Byte)
  | supervisoryGapTimeout
  | supervisoryBreak
  | fleetFrame (bytes : List Byte)
  | fleetGapTimeout
  | fleetBreak
  | fleetUnknownKind (kind slot : Byte) (body : List Byte)
  | beacon (slot : Byte) (body : List Byte)
  | arrive (slot : Byte) (body : List Byte)
  | request (slot : Byte) (body : List Byte)
  | ack (slot : Byte) (body : List Byte)
  | faultStop (slot : Byte) (body : List Byte)
  | restart (slot : Byte) (body : List Byte)
  | fleetFrameSent (slot : Nat)
  | replyWindowExpiry (slot : Nat)
  | beaconTimerExpiry (slot : Nat)
  | progressTimerExpiry (slot : Nat)
  | guardExpiry (cell : Nat)
  | wetExpiry (cell : Nat)
  | filteredActiveEdge (line : Nat)
  | filteredInactiveEdge (line : Nat)
  | lineStuck (line : Nat) (flow : Bool)
  | holdExpiry (line : Nat)
  | clearOutExpiry (line : Nat)
  | evacuationActiveEdge
  | evacuationInactiveEdge
  | hostSilenceExpiry
  | clockAdvance
  | fullReset
  | inputSample (input : Nat) (flow : Bool)
  | resetInputHeld
  | powerLoss
deriving DecidableEq, Repr

end Sys2Proof
end

