-- ==== Sys2Proof/Decode.lean ====
section
/-! DEFINITION. The commands that a word of bits spells. Every row of spec/opcode_table.json has an empty field list, so
no word spells a command (log 3). -/

/-- The command that a word spells by the table's bits: none. -/
def Sys2Proof.decodeTableWord (_nbits _w : Nat) : Option Sys2Proof.Instr := none
end

