-- ==== Sys2Proof/Config.lean ====
section
/-! DEFINITION. What the hardware fixes (the sizes of its tables and queues), and the free values: constants with no
body, so that nothing can be proved of the value itself (notes/assumptions/16.md, 17.md). -/

namespace Sys2Proof.Config

/-- R1: cell numbers 0 to 511. -/
def cellCount : Nat := 512
/-- R54: lanes 0 to 15. -/
def laneCount : Nat := 16
/-- R7: zones 0 to 31. -/
def zoneCount : Nat := 32
/-- R137: approach lines 0 to 15. -/
def lineCount : Nat := 16
/-- R103: slots 1 to 24. -/
def slotCount : Nat := 24
/-- R166: marks 0 to 15. -/
def markCount : Nat := 16
/-- R176: notice classes 0 to 11. -/
def classCount : Nat := 12
/-- R171: frames in the command receive queue. -/
def commandQueueRoom : Nat := 4
/-- R88: records in the fleet receive queue. -/
def fleetQueueRoom : Nat := 16
/-- R170: the length byte is 0..250. -/
def bodyRoom : Nat := 250
/-- R164: the night clock's last value. -/
def clockLast : Nat := 86399
/-- R92, R175: every counter of two bytes holds here. -/
def counterLast : Nat := 65535

/-- FREE VALUE (log 16). The code of the reason sent for a refuge wait on the machine's own stop cell, by cell and
moment: none of rows 1 to 4 of Table 2-4 fails and the cell is not FREE, so R133 gives no reason. -/
opaque selfRefugeReason : Nat → Nat → BitVec 3

/-- FREE VALUE (log 17). The two time bytes that a reply gives for a timer that is stopped (R152, R175). -/
opaque stoppedTimerTime : BitVec 16

/-- FREE VALUE (log 17). The count byte that MACHINE READ gives for a refuge wait, which has no count (R23, R124). -/
opaque refugeWaitCount : BitVec 8

/-- FREE VALUE (log 17). The code by which a DRYING SETUP refusal names "the limit part as a whole" (R52). -/
opaque limitPartItem : BitVec 8

end Sys2Proof.Config
end

