-- ==== Sys2Proof/Machine/State.lean ====
section
/-! DEFINITION. Every piece of state the spec gives the block, as plain data, and the block right after a full reset.
A `moment` is a count of milliseconds on the model's time base `Control.now`; a running timer is held as the moment it
expires, a stopped one as none. -/

namespace Sys2Proof.Machine

/-- R2: the kind of a cell, OPEN or DOCK. -/
inductive CellKind where
  | openFloor
  | dock
deriving DecidableEq, Repr, Inhabited

/-- R19, Table 2-1: who has the cell, or why no one may yet have it. -/
inductive Occupancy where
  | free
  | held (machine : Nat)
  | guarded (expiry : Nat)
  | wet (expiry : Nat) (slow : Bool)
  | blocked (machine : Nat)
deriving DecidableEq, Repr, Inhabited

/-- R23: an entry of a cell's wait list, marked refuge or ordinary. -/
structure Waiter where
  slot : Nat
  refuge : Bool
deriving DecidableEq, Repr, Inhabited

/-- R1, R18: one cell record, static part (Table 1-1) and dynamic part (Table 2-1). -/
structure Cell where
  kind : CellKind
  owner : Option Nat
  zone : Nat
  floorClass : Nat
  band : BitVec 16
  neighbours : List Nat
  refuge : Option Nat
  lane : Option (Nat × Nat)
  occ : Occupancy
  embargo : Nat
  waiters : List Waiter
  washes : Nat
  lastWashed : Option Nat
deriving DecidableEq, Repr, Inhabited

/-- R57: a direction of travel in a lane. -/
inductive Dir where
  | up
  | down
deriving DecidableEq, Repr, Inhabited

/-- R54, Table 4-1: a lane record. `dir = none` is direction FREE. -/
structure Lane where
  cells : List Nat
  dir : Option Dir
  holders : Nat
  waiters : List Nat
deriving DecidableEq, Repr, Inhabited

/-- R67, Table 5-1: a leg record. -/
structure Leg where
  tag : Nat
  flow : Nat
  homing : Bool
  cells : List Nat
deriving DecidableEq, Repr, Inhabited

/-- R67: the active leg with its position index. -/
structure ActiveLeg where
  leg : Leg
  index : Nat
deriving DecidableEq, Repr, Inhabited

/-- R29: the reason of an ANSWER WAIT, in the order of Table 2-4. -/
inductive WaitReason where
  | occupied
  | wet
  | guarded
  | blocked
  | embargo
  | closed
  | lane
deriving DecidableEq, Repr, Inhabited

/-- R27, Table 2-5: the reason of an ANSWER REFUSED. -/
inductive RefuseReason where
  | notAllowed
  | withdrawPending
  | noLeg
  | aheadFull
  | cycle
deriving DecidableEq, Repr, Inhabited

/-- R93: the answer an ANSWER order carries. -/
inductive Answer where
  | grant (cells : List Nat) (refuge : Bool)
  | wait (reason : WaitReason)
  | refused (reason : RefuseReason)
  | legEnd
deriving DecidableEq, Repr, Inhabited

/-- R93, Table 6-5: an order with its contents. -/
inductive Order where
  | leg (tag flow : Nat) (homing : Bool) (cells : List Nat)
  | answer (answer : Answer)
  | motion (resume : Bool)
  | withdraw (cancel : Bool) (refuge : Option Nat)
deriving DecidableEq, Repr, Inhabited

/-- R29: a wait target is one cell or one lane. -/
inductive Target where
  | cell (number : Nat)
  | lane (number : Nat)
deriving DecidableEq, Repr, Inhabited

/-- R23: the pending request of a WAITING machine, or the refuge wait of a machine driven from a band. -/
inductive Pending where
  | ordinary (count : Nat) (target : Target)
  | refuge (cell : Nat)
deriving DecidableEq, Repr, Inhabited

/-- R126: the pending withdrawal. -/
structure Withdrawal where
  cancel : Bool
  refuge : Option Nat
  deferred : Bool
deriving DecidableEq, Repr, Inhabited

/-- R103, R115: the four halt reasons. -/
inductive HaltReason where
  | host
  | evac
  | machine
  | position
deriving DecidableEq, Repr, Inhabited

/-- R115: the halt set of a machine. -/
structure Halts where
  host : Bool := false
  evac : Bool := false
  machine : Bool := false
  position : Bool := false
deriving DecidableEq, Repr, Inhabited

/-- R104: the states of an enrolled machine. A slot that the machine table does not list is ABSENT. -/
inductive MState where
  | idle
  | running
  | waiting
  | halted
  | stalled
  | lost
  | stoodDown
deriving DecidableEq, Repr, Inhabited

/-- R103, Table 7-1: the record of an enrolled machine, an autonomous floor scrubber. -/
structure Scrubber where
  rank : Nat
  dock : Nat
  state : MState
  halts : Halts
  current : Nat
  ahead : List Nat
  refuge : Option Nat
  request : Option Pending
  withdrawal : Option Withdrawal
  laneDirs : Table Dir
  active : Option ActiveLeg
  staged : Option Leg
  queue : List Order
  outstanding : Option Order
  replyWindow : Option Nat
  misses : Nat
  lastBeacon : Option Nat
  safeStops : Nat
  lastFault : Option Nat
  battery : Option Nat
  water : Option Nat
  low : Bool
  heard : Bool
  reported : Option Nat
  beaconTimer : Option Nat
  progress : Option Nat
  earlyBeacons : Nat
  duplicates : Nat
deriving DecidableEq, Repr, Inhabited

/-- R97: an order frame handed to the fleet transmitter and not yet sent. -/
structure FleetOut where
  slot : Nat
  order : Order
deriving DecidableEq, Repr, Inhabited

/-- R92, Table 6-4: the fleet link counters. -/
structure FleetCounters where
  framing : Nat := 0
  breaks : Nat := 0
  crc : Nat := 0
  overruns : Nat := 0
  unknown : Nat := 0
  lengths : Nat := 0
  strays : Nat := 0
  strayAcks : Nat := 0
  repeats : Nat := 0
  discarded : Nat := 0
deriving DecidableEq, Repr, Inhabited

/-- R175: the supervisory link counters. -/
structure SupCounters where
  framing : Nat := 0
  breaks : Nat := 0
  crc : Nat := 0
  overruns : Nat := 0
  unknown : Nat := 0
  lengths : Nat := 0
deriving DecidableEq, Repr, Inhabited

/-- R137, Table 9-3: the embargo and clearance state of a line. -/
inductive LineState where
  | quiet
  | clearing
  | clear
  | breach
deriving DecidableEq, Repr, Inhabited

/-- R137, Table 9-1: the configuration of a line; the defaults are the values after a full reset. -/
structure LineConfig where
  enabled : Bool := false
  activeLow : Bool := false
  pulseMode : Bool := false
  threshold : Nat := 20
  runt : Nat := 50
  maxWidth : Nat := 2000
  holdTime : Nat := 30
  clearOut : Nat := 45
deriving DecidableEq, Repr, Inhabited

/-- R137, Tables 9-1 and 9-2: a line record; the defaults are the values after a full reset. -/
structure Line where
  cfg : LineConfig := {}
  counter : Nat := 0
  level : Bool := false
  pulse : Option Nat := none
  hold : Option Nat := none
  clearTimer : Option Nat := none
  stuck : Bool := false
  state : LineState := .quiet
  runts : Nat := 0
  stucks : Nat := 0
  breaches : Nat := 0
  lastStart : Option Nat := none
  lastEnd : Option Nat := none
  clearOutput : Bool := true
deriving DecidableEq, Repr, Inhabited

/-- R153: the filter of the evacuation input. -/
structure EvacInput where
  counter : Nat := 0
  level : Bool := false
deriving DecidableEq, Repr, Inhabited

/-- R155: the part modes. -/
inductive Mode where
  | standby
  | night
  | recalling
  | evacuation
deriving DecidableEq, Repr, Inhabited

/-- R155: the saved mode, NIGHT or RECALL. -/
inductive SavedMode where
  | night
  | recalling
deriving DecidableEq, Repr, Inhabited

/-- R155: the recall reasons. -/
inductive RecallReason where
  | host
  | mark
  | silent
deriving DecidableEq, Repr, Inhabited

/-- R174, Table 11-3: the twelve timing settings; the defaults are the values after a full reset. -/
structure Timing where
  beaconInterval : Nat := 5
  earlyLimit : Nat := 1000
  lostThreshold : Nat := 4
  replyWindow : Nat := 400
  progressLimit : Nat := 60
  openGuard : Nat := 5
  laneGuard : Nat := 10
  standDown : Nat := 3
  batteryReserve : Nat := 20
  waterReserve : Nat := 10
  hostSilence : Nat := 120
  evacFilter : Nat := 50
deriving DecidableEq, Repr, Inhabited

/-- R44, Table 3-1: the settings of the Drying Calculator; the defaults are the values after a full reset. -/
structure Drying where
  base : List Nat := [600, 600, 600, 600, 600, 600, 600, 600]
  low : Nat := 60
  lowSet : Nat := 120
  high : Nat := 3600
  highSet : Nat := 3600
  humidity : Nat := 50
  temperature : Int := 15
deriving DecidableEq, Repr, Inhabited

/-- R166: the action of a mark. -/
inductive MarkAction where
  | zoneClose (zone : Nat)
  | zoneOpen (zone : Nat)
  | recalling
  | noticeOnly
deriving DecidableEq, Repr, Inhabited

/-- R166: a mark, EMPTY, or ARMED or FIRED with its time and action. -/
inductive Mark where
  | empty
  | armed (time : Nat) (action : MarkAction)
  | fired (time : Nat) (action : MarkAction)
deriving DecidableEq, Repr, Inhabited

/-- R176, Table 11-4: the notice classes, in the order of their numbers. -/
inductive NoticeClass where
  | evacuation
  | edgeBreach
  | machineLost
  | machineFault
  | standDown
  | cycle
  | lineFault
  | legAborted
  | legEnd
  | stageFree
  | slowDry
  | modeMark
deriving DecidableEq, Repr, Inhabited

/-- Table 11-4: the reason of a cause, with its value where the class has one. -/
inductive NoticeReason where
  | evacActive
  | evacInactive
  | breach (occupied : Nat)
  | beaconTimer
  | earlyBeacon
  | reply
  | stall
  | faultStop (code : Nat)
  | position (cell : Nat)
  | stoodDown (code : Nat)
  | waitRefused
  | refugeRing
  | runt (width : Nat)
  | stuck
  | declined
  | cancelled
  | embargo
  | underrun
  | legRecall
  | legLow
  | highClamp (floorClass : Nat)
  | recalled (reason : RecallReason)
  | fired
deriving DecidableEq, Repr, Inhabited

/-- R176: one notice class record; the defaults are a clear, enabled class. -/
structure Notice where
  pending : Bool := false
  enabled : Bool := true
  sent : Bool := false
  count : Nat := 0
  first : Option Nat := none
  last : Option Nat := none
  reason : Option NoticeReason := none
  clock : Option Nat := none
deriving DecidableEq, Repr, Inhabited

/-- R173, Table 11-1: the reply statuses, in the order of their codes. -/
inductive Status where
  | done
  | doneClamped
  | refusedMode
  | refusedBusy
  | refusedState
  | badValue
  | notDefined
  | mapFault
  | unknownKind
  | badLength
deriving DecidableEq, Repr, Inhabited

/-- R16, Table 1-3: the subject of a map fault: a cell, a lane and index, or a slot. -/
inductive MapSubject where
  | cell (number : Nat)
  | lane (id index : Nat)
  | slot (number : Nat)
deriving DecidableEq, Repr, Inhabited

/-- R15: the fault report of the map check. -/
structure MapFault where
  code : Nat
  subject : MapSubject
  other : Option Nat
deriving DecidableEq, Repr, Inhabited

/-- R155: the mode record as a reply carries it, with the clock. `silence` is the time remaining in seconds. -/
structure ModeRecord where
  mode : Mode
  saved : Option SavedMode
  recallReason : Option RecallReason
  silence : Option Nat
  clock : Nat
  clockRunning : Bool
deriving DecidableEq, Repr, Inhabited

/-- R52: the item that a refused DRYING SETUP names. -/
inductive DryingItem where
  | floorClass (number : Nat)
  | limits
deriving DecidableEq, Repr, Inhabited

/-- R173: the data of a reply, as the owning rules give them. Records that a query reports are copied as they stand;
`now` turns their deadlines into times remaining when the reply is written out (Replies.lean). -/
inductive ReplyData where
  | nothing
  | entryRefused (position : Nat)
  | entriesApplied (count : Nat)
  | laneRefused (cell : Nat)
  | laneCells (count : Nat)
  | lineSet (cfg : LineConfig) (state : LineState)
  | timing (settings : Timing)
  | timingRefused (position : Nat)
  | drying (settings : Drying) (failing : Option DryingItem)
  | environment (humidity : Nat) (temperature : Int)
  | mark (mark : Mark)
  | noticeControl (enabled : List Bool) (ceiling : Nat)
  | noticeCopies (records : Table Notice)
  | noticesAll (records : Table Notice) (ceiling : Nat)
  | cell (number : Nat) (record : Cell) (now : Nat)
  | machineAbsent
  | machine (record : Scrubber)
  | lane (record : Lane) (holding : List Nat)
  | line (record : Line) (now bandCells bandTaken : Nat)
  | evacuationInput (threshold : Nat) (input : EvacInput)
  | counters (mode : ModeRecord) (zones : Table Bool) (marks : Table Mark) (supervisory : SupCounters)
      (fleet : FleetCounters)
  | mapPass (cells lanes : Nat)
  | mapFault (fault : MapFault)
  | modeRecord (record : ModeRecord)
  | nightBeginFault (record : ModeRecord) (fault : MapFault)
  | nightEndBusy (record : ModeRecord) (slot : Nat)
  | clockSet (record : ModeRecord) (fired : Nat)
  | legLoaded (tag : Nat) (active : Bool)
  | legRefused (position code : Option Nat)
  | legCancelled (started : Bool)
  | machinesChanged (count : Nat)
  | cellsReleased (count : Nat)
  | zoneState (opened : Bool)
  | fleetReset (enrolled madeAbsent : Nat)
deriving DecidableEq, Repr, Inhabited

/-- R173: a frame of the supervisory transmitter's backlog. -/
inductive SupOut where
  | reply (kind ref : Byte) (status : Status) (data : ReplyData)
  | notice (number : Nat) (record : Notice)
deriving DecidableEq, Repr, Inhabited

/-- The Mode Controller, the Night Clock, the zones' open states and the settings: what the floor's work reads and does
not change (R155, R164, R163, R174, R44). `now` is the model's own time base (log 1). -/
structure Control where
  now : Nat := 0
  timing : Timing := {}
  drying : Drying := {}
  mode : Mode := .standby
  saved : Option SavedMode := none
  recallReason : Option RecallReason := none
  silence : Option Nat := none
  clock : Nat := 0
  clockRunning : Bool := false
  clockDue : Nat := 0
  zones : Table Bool
deriving DecidableEq, Repr, Inhabited

/-- What the Floor Arbiter, the Leg Store, the Machine Supervisor, the Approach Line Unit, the Fleet Port's sending side
and the Notice Unit change while an event is taken: cells, lanes, machines, lines, orders handed to the fleet
transmitter, fleet counters, notices, and the frames handed to the supervisory transmitter. -/
structure Floor where
  cells : Table Cell := []
  lanes : Table Lane := []
  machines : Table Scrubber := []
  lines : Table Line
  fleetTx : List FleetOut := []
  fleetCounters : FleetCounters := {}
  notices : Table Notice
  ceiling : Nat := 12
  supTx : List SupOut := []
deriving DecidableEq, Repr, Inhabited

/-- The receiving sides of the two ports (R87, R88, R171, R175) and the flash counts of the HOST and FLEET indicators
(R182). `supReading` and `fleetReading` are the bytes of the frame being read at the port, from its lead byte on; they
are empty between frames. -/
structure Ports where
  supReading : List Byte := []
  cmdQueue : List Record := []
  supCounters : SupCounters := {}
  fleetReading : List Byte := []
  fleetQueue : List Record := []
  hostFlashes : Nat := 0
  fleetFlashes : Nat := 0
deriving DecidableEq, Repr, Inhabited

/-- The block. `pending` is the queue of commands waiting to be taken (log 3). -/
structure State where
  pending : List Instr
  powered : Bool
  resetHeld : Bool
  control : Control
  floor : Floor
  marks : Table Mark
  evac : EvacInput
  ports : Ports
deriving DecidableEq, Repr, Inhabited

/-- Why the model stops at a command. Every one is raised for a command that the hardware cannot meet, and every one is
SAFE: the model stops where the hardware has nothing to do. -/
inductive Fault where
  /-- Raised by FLEET_FRAME_SENT and the three machine timer expiries for a slot outside 1..24 (R103). Safe. -/
  | noSuchSlot
  /-- Raised by GUARD_EXPIRY and WET_EXPIRY for a cell number above 511 (R1). Safe. -/
  | noSuchCell
  /-- Raised by the line events for a line above 15, and by INPUT_SAMPLE for an input above 16 (R137, R153). Safe. -/
  | noSuchLine
  /-- Raised by the two unknown-kind rows for a kind that is known, which is another row's (R172, R89). Safe. -/
  | kindIsKnown
deriving DecidableEq, Repr

/-- Refusals: the one below is raised by no meaning. Safe. -/
inductive Refusal where
  /-- An arm of exec that has no meaning yet, by its row's mnemonic. No arm is left so. Safe. -/
  | notModelled (mnemonic : String)
deriving DecidableEq, Repr

/-- The block right after a full reset (R1, R7, R18, R44, R54, R88, R92, R107, R137, R153, R155, R164, R166, R171, R174,
R176): the map is empty, every slot ABSENT, every line at its defaults with its clear output asserted, the part in
STANDBY, the clock 0 and stopped, every mark EMPTY, every notice class clear and enabled. `now`, `clockDue` and the
flash counts are the model's own and start at 0 (DESIGN CHOICE, log 1, log 14). -/
def State.reset : State where
  pending := []
  powered := true
  resetHeld := false
  control := { zones := (List.range Config.zoneCount).map fun z => (z, true) }
  floor :=
    { lines := (List.range Config.lineCount).map fun k => (k, ({} : Line))
      notices := (List.range Config.classCount).map fun n => (n, ({} : Notice)) }
  marks := (List.range Config.markCount).map fun i => (i, Mark.empty)
  evac := {}
  ports := {}

end Sys2Proof.Machine
end

