-- ==== Sys2Proof/Machine/Drying.lean ====
section
/-! DEFINITION. The Drying Calculator (chapter 3): flow factor, raw time, clamps. -/

namespace Sys2Proof.Machine

/-- R47, Table 3-2: the flow factor in sixteenths. Level 0 has no factor and is never computed (R45). -/
def flowFactor : Nat → Nat
  | 1 => 12
  | 2 => 16
  | 3 => 22
  | _ => 0

/-- R48: the exact quotient rounded up. The temperature is -10..40, so 48 + T is at least 38. -/
def rawDryingTime (base flow humidity : Nat) (temperature : Int) : Nat :=
  let numerator := base * flowFactor flow * (64 + humidity) * 60
  let denominator := 1536 * (48 + temperature).toNat
  if numerator % denominator = 0 then numerator / denominator else numerator / denominator + 1

/-- R48: the applied time, and whether the high clamp was applied. -/
def clampDryingTime (d : Drying) (raw : Nat) : Nat × Bool :=
  if raw < d.low then (d.lowSet, false) else if d.high < raw then (d.highSet, true) else (raw, false)

/-- R45: the Calculator's answer for one cell. -/
def dryingAnswer (d : Drying) (floorClass flow : Nat) : Nat × Bool :=
  clampDryingTime d (rawDryingTime (d.base.getD floorClass 0) flow d.humidity d.temperature)

end Sys2Proof.Machine
end

