-- ==== Sys2Proof/Machine/Flags.lean ====
section
/-! DEFINITION. The flags and sets of flags of the records: halt sets, the LOW flag, occupancy tests, the state changes
that hang on them, and the saturating counts. -/

namespace Sys2Proof.Machine

/-- R92, R175, R151: a two-byte counter rises by one and holds at 65,535. -/
def bump (n : Nat) : Nat := if n < Config.counterLast then n + 1 else n

/-- R22, R118, R177: a count rises by one and holds at `last`. -/
def bumpTo (last n : Nat) : Nat := if n < last then n + 1 else n

/-- R147, R149: the cell is HELD or BLOCKED. -/
def Occupancy.taken : Occupancy → Bool
  | .held _ => true
  | .blocked _ => true
  | _ => false

/-- R59: the cell is HELD or BLOCKED by machine `m`. -/
def Occupancy.ownedBy (o : Occupancy) (m : Nat) : Bool := decide (o = .held m) || decide (o = .blocked m)

/-- R115: the reason stands in the set. -/
def Halts.has (h : Halts) : HaltReason → Bool
  | .host => h.host
  | .evac => h.evac
  | .machine => h.machine
  | .position => h.position

/-- The set with one reason written. -/
def Halts.write (h : Halts) (value : Bool) : HaltReason → Halts
  | .host => { h with host := value }
  | .evac => { h with evac := value }
  | .machine => { h with machine := value }
  | .position => { h with position := value }

/-- R104: the set is empty. -/
def Halts.isEmpty (h : Halts) : Bool := !(h.host || h.evac || h.machine || h.position)

/-- R112: the LOW flag after a recording of battery and water. -/
def lowFlag (t : Timing) (battery water : Nat) (before : Bool) : Bool :=
  if battery < t.batteryReserve ∨ water < t.waterReserve then true
  else if t.batteryReserve + 5 ≤ battery ∧ t.waterReserve + 5 ≤ water then false
  else before

/-- R178: the class is due for sending. -/
def Notice.due (n : Notice) (number ceiling : Nat) : Bool :=
  n.pending && n.enabled && !n.sent && decide (number < ceiling)

/-- Table 11-4: the class's number. -/
def NoticeClass.number : NoticeClass → Nat
  | .evacuation => 0
  | .edgeBreach => 1
  | .machineLost => 2
  | .machineFault => 3
  | .standDown => 4
  | .cycle => 5
  | .lineFault => 6
  | .legAborted => 7
  | .legEnd => 8
  | .stageFree => 9
  | .slowDry => 10
  | .modeMark => 11

/-- R94: the kind of an order, as Table 11-9 numbers the kinds in an ACK. -/
def Order.kind : Order → Nat
  | .leg .. => 1
  | .answer _ => 2
  | .motion _ => 3
  | .withdraw .. => 4

/-- R113: the progress timer runs exactly while the state is RUNNING or WAITING and the ahead list is not empty: it
starts when that comes to hold, goes on while it holds, and stops when it ceases. -/
def Scrubber.settle (x : Scrubber) (now limit : Nat) : Scrubber :=
  if (x.state = .running ∨ x.state = .waiting) ∧ x.ahead ≠ [] then
    { x with progress := some (x.progress.getD (now + limit * 1000)) }
  else { x with progress := none }

/-- R30, R32: RUNNING with ahead cells, IDLE without. -/
def Scrubber.resting (x : Scrubber) : MState := if x.ahead = [] then .idle else .running

/-- R79, R81, R84, R132: the machine becomes IDLE, but stays HALTED, STOOD_DOWN or LOST. -/
def MState.toIdle : MState → MState
  | .halted => .halted
  | .stoodDown => .stoodDown
  | .lost => .lost
  | _ => .idle

/-- R24: the machine has a refuge wait. -/
def Scrubber.refugeWait (x : Scrubber) : Bool :=
  match x.request with
  | some (.refuge _) => true
  | _ => false

/-- R127, R133: the machine holds a refuge grant or has a refuge wait. -/
def Scrubber.refugeInHand (x : Scrubber) : Bool := x.refuge.isSome || x.refugeWait

/-- R68: the machine's anchor. -/
def Scrubber.anchor (x : Scrubber) : Nat :=
  match x.active with
  | some a => a.leg.cells.getLastD x.current
  | none => x.current

/-- The wait reason of a three-bit code, for the free value `Config.selfRefugeReason` (log 16). -/
def WaitReason.ofCode (code : BitVec 3) : WaitReason :=
  match code.toNat with
  | 0 => .occupied
  | 1 => .wet
  | 2 => .guarded
  | 3 => .blocked
  | 4 => .embargo
  | 5 => .closed
  | _ => .lane

/-- R166: the mark is ARMED for this time. -/
def Mark.armedFor : Mark → Option (Nat × MarkAction)
  | .armed time action => some (time, action)
  | _ => none

end Sys2Proof.Machine
end

