-- ==== Sys2Proof/Machine/Tables.lean ====
section
/-! DEFINITION. The operations over tables. -/

namespace Sys2Proof

/-- The entry numbered `k`, if the table lists one. -/
def Table.look {α : Type} : Table α → Nat → Option α
  | [], _ => none
  | (j, v) :: rest, k => if j = k then some v else Table.look rest k

/-- Writes entry `k`, in its place by rising number. -/
def Table.put {α : Type} : Table α → Nat → α → Table α
  | [], k, v => [(k, v)]
  | (j, w) :: rest, k, v =>
    if k < j then (k, v) :: (j, w) :: rest
    else if k = j then (k, v) :: rest
    else (j, w) :: Table.put rest k v

/-- Changes entry `k` where the table lists one. -/
def Table.upd {α : Type} (t : Table α) (k : Nat) (g : α → α) : Table α :=
  t.map fun e => if e.1 = k then (e.1, g e.2) else e

/-- Removes entry `k`. -/
def Table.del {α : Type} (t : Table α) (k : Nat) : Table α := t.filter fun e => !decide (e.1 = k)

/-- Changes every entry, each with its number in hand. -/
def Table.each {α : Type} (t : Table α) (g : Nat → α → α) : Table α := t.map fun e => (e.1, g e.1 e.2)

/-- The numbers listed, rising. -/
def Table.keys {α : Type} (t : Table α) : List Nat := t.map fun e => e.1

/-- The numbers of the entries that pass a test, rising. -/
def Table.keysWhere {α : Type} (t : Table α) (p : α → Bool) : List Nat :=
  (t.filter fun e => p e.2).map fun e => e.1

/-- The table's one canonical form: numbers strictly rising, each below `bound`. -/
def Table.wf {α : Type} (bound : Nat) (t : Table α) : Bool :=
  decide ((Table.keys t).Pairwise (· < ·)) && (Table.keys t).all fun k => decide (k < bound)

end Sys2Proof
end

