-- ==== Sys2Proof/Machine/Ops.lean ====
section
/-! DEFINITION. The named operations that every block uses: the time base, records of cells and machines, notice causes
and their sending, order queues and their delivery, wait lists, and a change of occupancy with what it hands on. -/

namespace Sys2Proof.Machine

/-! ### The part as a whole -/

/-- The module runs: it has its supply and its reset input is not held (R149, R182, log 6). -/
def State.live (s : State) : Bool := s.powered && !s.resetHeld

/-- Runs floor work on the state; everything but the floor stands. -/
def State.onFloor (s : State) (g : Control → Floor → Floor) : State := { s with floor := g s.control s.floor }

/-- Changes the control part; everything else stands. -/
def State.onControl (s : State) (g : Control → Control) : State := { s with control := g s.control }

/-- The time base reaches `t`; it never runs back (log 2). -/
def State.advanceTo (s : State) (t : Nat) : State := s.onControl fun k => { k with now := max k.now t }

/-- R145, R146, R177: the night clock's value when the clock is running, absent when it is not. -/
def Control.stamp (k : Control) : Option Nat := if k.clockRunning then some k.clock else none

/-- R69, R77: the part mode that tests of new legs read; in EVACUATION the saved mode. -/
def Control.legMode (k : Control) : Mode :=
  match k.mode, k.saved with
  | .evacuation, some .night => .night
  | .evacuation, some .recalling => .recalling
  | mode, _ => mode

/-- R7, R163: the zone is open. -/
def Control.zoneOpen (k : Control) (zone : Nat) : Bool := (k.zones.look zone).getD true

/-- Whole seconds remaining to a moment, a part second counting as a whole one (R18, R152, R175). -/
def secondsTo (now deadline : Nat) : Nat := (deadline - now + 999) / 1000

/-- R155: the mode record as a reply carries it. -/
def Control.modeRecord (k : Control) : ModeRecord :=
  { mode := k.mode, saved := k.saved, recallReason := k.recallReason, silence := k.silence.map (secondsTo k.now),
    clock := k.clock, clockRunning := k.clockRunning }

/-- R159: the host silence timer starts for its full length; with a setting of 0 it does not start. -/
def Control.startSilence (k : Control) : Control :=
  { k with
    silence := if k.timing.hostSilence = 0 then none else some (k.now + k.timing.hostSilence * 1000) }

/-! ### Machines -/

/-- Changes machine `m`'s record where the slot is enrolled. -/
def Floor.modMachine (f : Floor) (m : Nat) (g : Scrubber → Scrubber) : Floor :=
  { f with machines := f.machines.upd m g }

/-- Changes machine `m`'s record and keeps its progress timer to R113. -/
def Floor.modSettled (k : Control) (f : Floor) (m : Nat) (g : Scrubber → Scrubber) : Floor :=
  f.modMachine m fun x => (g x).settle k.now k.timing.progressLimit

/-! ### Notices (R176 to R178) -/

/-- R178: sends the class when it is due: one NOTICE with the record as it stands, then the sent flag. -/
def Floor.sendIfDue (f : Floor) (number : Nat) : Floor :=
  match f.notices.look number with
  | none => f
  | some n =>
    if n.due number f.ceiling then
      { f with
        supTx := f.supTx ++ [.notice number n]
        notices := f.notices.upd number fun r => { r with sent := true } }
    else f

/-- R178: the sending test for every class, in ascending number. -/
def Floor.sendAllDue (f : Floor) : Floor := (List.range Config.classCount).foldl Floor.sendIfDue f

/-- R177: a class record with one more cause. -/
def Notice.withCause (n : Notice) (subject : Option Nat) (reason : Option NoticeReason) (clock : Option Nat) : Notice :=
  if n.pending then { n with count := bumpTo 255 n.count, last := subject }
  else { n with pending := true, count := 1, first := subject, last := subject, reason := reason, clock := clock }

/-- R177, R178: raises a cause on a class and makes the sending test for it. -/
def Floor.raise (k : Control) (f : Floor) (cls : NoticeClass) (subject : Option Nat) (reason : Option NoticeReason) :
    Floor :=
  Floor.sendIfDue
    { f with notices := f.notices.upd cls.number fun n => n.withCause subject reason k.stamp } cls.number

/-- R176: a class made clear; the enabled flag is kept. -/
def Notice.cleared (n : Notice) : Notice := { enabled := n.enabled }

/-! ### Orders (R93 to R101) -/

/-- R97: where nothing is outstanding, the head of the queue becomes outstanding and is handed to the transmitter. -/
def Floor.deliver (f : Floor) (m : Nat) : Floor :=
  match f.machines.look m with
  | none => f
  | some x =>
    match x.outstanding, x.queue with
    | none, o :: rest =>
      { f.modMachine m (fun y => { y with outstanding := some o, queue := rest }) with
        fleetTx := f.fleetTx ++ [{ slot := m, order := o }] }
    | _, _ => f

/-- R95, R96: what stands in the queue's place of the new order's kind: the two WITHDRAW orders merged, or the new
order. -/
def Order.merge : Order → Order → Order
  | .withdraw c1 r1, .withdraw c2 r2 => .withdraw (c1 || c2) (if r2.isSome then r2 else r1)
  | _, new => new

/-- R95: the queued order is an ANSWER GRANT of the refuge grant that the machine holds. -/
def Order.guardsRefuge (o : Order) (x : Scrubber) : Bool :=
  match o, x.refuge with
  | .answer (.grant cells true), some r => decide (cells = [r])
  | _, _ => false

/-- R92, R94: one more order discarded. -/
def Floor.countDiscarded (f : Floor) : Floor :=
  { f with fleetCounters := { f.fleetCounters with discarded := bump f.fleetCounters.discarded } }

/-- R94: an order is handed to the Fleet Port for machine `m`. -/
def Floor.order (f : Floor) (m : Nat) (o : Order) : Floor :=
  match f.machines.look m with
  | none => f.countDiscarded
  | some x =>
    if x.state = .lost then f.countDiscarded
    else
      match x.queue.find? fun q => decide (q.kind = o.kind) with
      | some q =>
        if q.guardsRefuge x then f.countDiscarded
        else
          (f.modMachine m fun y =>
            { y with queue := y.queue.map fun q' => if q'.kind = o.kind then q'.merge o else q' }).deliver m
      | none => (f.modMachine m fun y => { y with queue := y.queue ++ [o] }).deliver m

/-- R98, R101: the outstanding slot is emptied, the reply window stops, and a frame of the order that still waits for
the transmitter is not sent: so R101 says of a flush, and log 8 of an acknowledgement. -/
def Floor.clearOutstanding (f : Floor) (m : Nat) : Floor :=
  { f.modMachine m (fun x => { x with outstanding := none, replyWindow := none }) with
    fleetTx := f.fleetTx.filter fun o => !decide (o.slot = m) }

/-- R101: the order queue and the outstanding slot are flushed. -/
def Floor.flushOrders (f : Floor) (m : Nat) : Floor :=
  (f.clearOutstanding m).modMachine m fun x => { x with queue := [] }

/-! ### Wait lists (R23, R24) -/

/-- R23: a cell's wait list with a new entry: refuge entries before ordinary entries, each kind in joining order. -/
def joinWaiters (ws : List Waiter) (w : Waiter) : List Waiter :=
  if w.refuge then (ws.takeWhile fun v => v.refuge) ++ w :: (ws.dropWhile fun v => v.refuge) else ws ++ [w]

/-- R23: machine `m` joins the target's wait list. -/
def Floor.joinList (f : Floor) (m : Nat) (refuge : Bool) : Target → Floor
  | .cell c => { f with cells := f.cells.upd c fun x => { x with waiters := joinWaiters x.waiters ⟨m, refuge⟩ } }
  | .lane l => { f with lanes := f.lanes.upd l fun x => { x with waiters := x.waiters ++ [m] } }

/-- R24: machine `m` is taken off the target's wait list. -/
def Floor.quitList (f : Floor) (m : Nat) : Target → Floor
  | .cell c =>
    { f with cells := f.cells.upd c fun x => { x with waiters := x.waiters.filter fun w => !decide (w.slot = m) } }
  | .lane l =>
    { f with lanes := f.lanes.upd l fun x => { x with waiters := x.waiters.filter fun w => !decide (w = m) } }

/-- R23: the target a pending request names. -/
def Pending.target : Pending → Target
  | .ordinary _ t => t
  | .refuge c => .cell c

/-- R24: the machine leaves its wait list, and its pending request or refuge wait is removed. -/
def Floor.leaveWait (f : Floor) (m : Nat) : Floor :=
  match (f.machines.look m).bind fun x => x.request with
  | none => f
  | some p => (f.quitList m p.target).modMachine m fun x => { x with request := none }

/-- R24: the machine leaves an ordinary wait; a refuge wait is kept. -/
def Floor.leaveOrdinary (f : Floor) (m : Nat) : Floor :=
  match (f.machines.look m).bind fun x => x.request with
  | some (.ordinary _ _) => f.leaveWait m
  | _ => f

/-! ### Bands, clearance and clear outputs (R6, R43, R147, R149) -/

/-- R6: the cell is in the band of line `i`. -/
def Cell.inBand (c : Cell) (i : Nat) : Bool := c.band.getLsbD i

/-- R148, R152: how many cells of line `i`'s band are HELD or BLOCKED. -/
def Floor.bandTaken (f : Floor) (i : Nat) : Nat :=
  (f.cells.keysWhere fun c => c.inBand i && c.occ.taken).length

/-- R147, R149: the clear output follows the band's occupancy, and a line in CLEARING or BREACH whose band is empty
becomes CLEAR. -/
def Line.review (l : Line) (taken : Nat) : Line :=
  let l := { l with clearOutput := decide (taken = 0) }
  if taken = 0 ∧ (l.state = .clearing ∨ l.state = .breach) then { l with state := .clear, clearTimer := none } else l

/-- R43: the Approach Line Unit re-evaluates each line that the band names. -/
def Floor.reviewBand (f : Floor) (band : BitVec 16) : Floor :=
  { f with lines := f.lines.each fun i l => if band.getLsbD i then l.review (f.bandTaken i) else l }

/-- R19, R43: a change of occupancy, handed to the Approach Line Unit where it makes the cell taken or no longer
taken. -/
def Floor.setOcc (f : Floor) (c : Nat) (occ : Occupancy) : Floor :=
  match f.cells.look c with
  | none => f
  | some x =>
    let g := { f with cells := f.cells.upd c fun y => { y with occ := occ } }
    if x.occ.taken = occ.taken then g else g.reviewBand x.band

/-- R19, R36: the cells HELD or BLOCKED by machine `m`, ascending. -/
def Floor.cellsOf (f : Floor) (m : Nat) : List Nat := f.cells.keysWhere fun c => c.occ.ownedBy m

/-- R7: the member list of a zone, ascending. -/
def Floor.zoneMembers (f : Floor) (zone : Nat) : List Nat := f.cells.keysWhere fun c => decide (c.zone = zone)

/-- R11, R18, R21: how many lines of the band are not QUIET. -/
def Floor.embargoFor (f : Floor) (band : BitVec 16) : Nat :=
  (f.lines.filter fun e => band.getLsbD e.1 && !decide (e.2.state = .quiet)).length

end Sys2Proof.Machine
end

