-- ==== Sys2Proof/Machine/Arbiter.lean ====
section
/-! DEFINITION. The Floor Arbiter (chapters 2 and 4): lanes, grantability, span grants, waits, the cycle check, releases
and offers. `k` is what the floor's work reads of the part: mode, clock, zones, settings. -/

namespace Sys2Proof.Machine

/-! ### Lanes (R57 to R61) -/

/-- R57: the direction of travel of a step onto a cell at index `i` of lane `l`. -/
def stepDir (l i : Nat) (before : Option (Nat × Nat)) : Dir :=
  match before with
  | some (l', j) => if l' = l then (if j < i then .up else .down) else if i = 0 then .up else .down
  | none => if i = 0 then .up else .down

/-- R5: the lane field of a cell, absent for an undefined cell. -/
def Floor.laneOf (f : Floor) (c : Nat) : Option (Nat × Nat) := (f.cells.look c).bind fun x => x.lane

/-- R57: the direction of travel at `c`, stepped onto from `p`; none where `c` is in no lane. -/
def Floor.travel (f : Floor) (p c : Nat) : Option (Nat × Dir) :=
  (f.laneOf c).map fun li => (li.1, stepDir li.1 li.2 (f.laneOf p))

/-- R59: machine `m` has some cell of lane `l` HELD or BLOCKED. -/
def Floor.hasLaneCell (f : Floor) (m l : Nat) : Bool :=
  f.cells.any fun e => e.2.occ.ownedBy m && (match e.2.lane with | some (l', _) => decide (l' = l) | none => false)

/-- R59: machine `m` becomes a holder of lane `l` in direction `d`, unless it holds the lane already. -/
def Floor.enterLane (f : Floor) (m l : Nat) (d : Dir) : Floor :=
  match f.machines.look m with
  | none => f
  | some x =>
    if (x.laneDirs.look l).isSome then f
    else
      { f.modMachine m (fun y => { y with laneDirs := y.laneDirs.put l d }) with
        lanes := f.lanes.upd l fun r =>
          { r with holders := r.holders + 1, dir := if r.holders = 0 then some d else r.dir } }

/-- R60: machine `m`, left with no cell of lane `l`, stops being a holder; the last holder leaves the lane FREE. -/
def Floor.quitLane (f : Floor) (m l : Nat) : Floor :=
  match f.machines.look m with
  | none => f
  | some x =>
    if (x.laneDirs.look l).isSome && !f.hasLaneCell m l then
      { f.modMachine m (fun y => { y with laneDirs := y.laneDirs.del l }) with
        lanes := f.lanes.upd l fun r =>
          { r with holders := r.holders - 1, dir := if r.holders ≤ 1 then none else r.dir } }
    else f

/-- R61: a placement of machine `m` on cell `c`. -/
def Floor.place (f : Floor) (m c : Nat) : Floor :=
  match f.laneOf c with
  | none => f
  | some (l, i) =>
    match f.lanes.look l with
    | none => f
    | some r => f.enterLane m l (r.dir.getD (if i + 1 = r.cells.length then .down else .up))

/-! ### Releases (R34, R35, R64) -/

/-- R34, R64: what a cell released without wetting becomes: GUARD for the lane or open guard, or FREE when that is 0. -/
def Floor.guardOcc (k : Control) (f : Floor) (c : Nat) : Occupancy :=
  let guard := if (f.laneOf c).isSome then k.timing.laneGuard else k.timing.openGuard
  if guard = 0 then .free else .guarded (k.now + guard * 1000)

/-- R60: the lane of cell `c` after machine `m` has given `c` up. -/
def Floor.quitLaneOf (f : Floor) (m c : Nat) : Floor :=
  match f.laneOf c with
  | some (l, _) => f.quitLane m l
  | none => f

/-- R35: machine `m` releases `c` without wetting. -/
def Floor.release (k : Control) (m : Nat) (f : Floor) (c : Nat) : Floor :=
  (f.setOcc c (f.guardOcc k c)).quitLaneOf m c

/-- R34, R22, R49: machine `m` releases `c` behind a washing leg. -/
def Floor.releaseWet (k : Control) (m flow : Nat) (f : Floor) (c : Nat) : Floor :=
  match f.cells.look c with
  | none => f
  | some x =>
    let answer := dryingAnswer k.drying x.floorClass flow
    let g := (f.setOcc c (.wet (k.now + answer.1 * 1000) answer.2)).quitLaneOf m c
    let g := { g with cells := g.cells.upd c fun y =>
      { y with washes := bumpTo 255 y.washes, lastWashed := some k.clock } }
    if answer.2 then g.raise k .slowDry (some c) (some (.highClamp x.floorClass)) else g

/-- R34: machine `m` releases `c` on an arrival, under the flow level of its active leg. -/
def Floor.releaseBehind (k : Control) (m flow : Nat) (f : Floor) (c : Nat) : Floor :=
  if flow = 0 then f.release k m c else f.releaseWet k m flow c

/-! ### Spans and grantability (R25 to R29, R73) -/

/-- R73: the cells of the active leg beyond the last held one. -/
def Scrubber.remaining (x : Scrubber) : List Nat :=
  match x.active with
  | some a => a.leg.cells.drop (a.index + x.ahead.length + 1)
  | none => []

/-- R73: the span of a request with this count. -/
def Scrubber.span (x : Scrubber) (count : Nat) : List Nat :=
  x.remaining.take (min count (min (4 - x.ahead.length) x.remaining.length))

/-- R73: the last cell the machine holds along its route, from which the span starts. -/
def Scrubber.lastHeld (x : Scrubber) : Nat := x.ahead.getLastD x.current

/-- R28: a lane's direction, as if the earlier cells of the span had already been granted. -/
def tentativeDir (f : Floor) (taken : List (Nat × Dir)) (l : Nat) : Option Dir :=
  match taken.find? fun e => decide (e.1 = l) with
  | some e => some e.2
  | none => (f.lanes.look l).bind fun r => r.dir

/-- R25, Table 2-4: the first failing row for cell `c`, stepped onto from `p`; `taken` holds the directions that earlier
cells of the span have fixed. A cell that is undefined is not grantable (log 22). -/
def Floor.failingRow (k : Control) (f : Floor) (m p c : Nat) (taken : List (Nat × Dir)) : Option WaitReason :=
  match f.cells.look c with
  | none => some .occupied
  | some x =>
    match x.occ with
    | .wet .. => some .wet
    | .guarded _ => some .guarded
    | .blocked _ => some .blocked
    | occ =>
      if occ ≠ .free ∧ occ ≠ .held m then some .occupied
      else if x.embargo ≠ 0 then some .embargo
      else if k.zoneOpen x.zone = false then some .closed
      else
        match f.travel p c with
        | none => none
        | some (l, d) =>
          match tentativeDir f taken l with
          | none => none
          | some d' => if d' = d then none else some .lane

/-- R28, R29: the first cell of the span that is not grantable, as wait target and reason; none where the whole span is
grantable. -/
def Floor.firstFail (k : Control) (f : Floor) (m : Nat) : Nat → List Nat → List (Nat × Dir) → Option (Target × WaitReason)
  | _, [], _ => none
  | p, c :: rest, taken =>
    match f.failingRow k m p c taken with
    | some .lane => some (((f.laneOf c).map fun li => Target.lane li.1).getD (.cell c), .lane)
    | some reason => some (.cell c, reason)
    | none => f.firstFail k m c rest ((f.travel p c).toList ++ taken)

/-- R28, R59: the span's cells become HELD by `m` and its lanes are entered, in span order. -/
def Floor.takeSpan (m : Nat) : Floor → Nat → List Nat → Floor
  | f, _, [] => f
  | f, p, c :: rest =>
    let g := f.setOcc c (.held m)
    let g := match f.travel p c with
      | some (l, d) => g.enterLane m l d
      | none => g
    Floor.takeSpan m g c rest

/-- R28: the whole span is granted: cells and lanes, the ahead list, RUNNING with its progress timer, and ANSWER GRANT
with the whole ahead list. -/
def Floor.grant (k : Control) (f : Floor) (m : Nat) (x : Scrubber) (span : List Nat) : Floor :=
  let g := Floor.takeSpan m f x.lastHeld span
  let g := g.modSettled k m fun y => { y with ahead := y.ahead ++ span, state := .running }
  g.order m (.answer (.grant (x.ahead ++ span) false))

/-! ### The cycle check (R31 to R33) -/

/-- R31, R32: the holders of a wait target: the machine of a HELD cell, the holders of a lane, none otherwise. -/
def Floor.holdersOf (f : Floor) : Target → List Nat
  | .cell c =>
    match (f.cells.look c).map Cell.occ with
    | some (.held n) => [n]
    | _ => []
  | .lane l => f.machines.keys.filter fun n => f.hasLaneCell n l

/-- R31: the machines that machine `n` waits for. -/
def Floor.edges (f : Floor) (n : Nat) : List Nat :=
  match (f.machines.look n).bind fun x => x.request with
  | some p => f.holdersOf p.target
  | none => []

/-- `xs` added to `seen`, each once. -/
def addNew (seen : List Nat) : List Nat → List Nat
  | [] => seen
  | x :: rest => if x ∈ seen then addNew seen rest else addNew (seen ++ [x]) rest

/-- R32: breadth first, one level of edges at a time. -/
def Floor.reach (f : Floor) : Nat → List Nat → List Nat
  | 0, seen => seen
  | n + 1, seen => f.reach n (addNew seen (seen.flatMap f.edges))

/-- R32: `m` is in the start set of the target, or is reached from it over at most 24 machines. -/
def Floor.closesRing (f : Floor) (m : Nat) (t : Target) : Bool :=
  decide (m ∈ f.reach Config.slotCount (addNew [] (f.holdersOf t)))

/-! ### Waits (R29, R32, R39) -/

/-- R29, R32: machine `m`, on no wait list, begins an ordinary wait, or is refused by the cycle check. -/
def Floor.beginWait (k : Control) (f : Floor) (m count : Nat) (t : Target) (reason : WaitReason) : Floor :=
  if f.closesRing m t then
    let g := f.modSettled k m fun y => { y with state := y.resting }
    let g := g.order m (.answer (.refused .cycle))
    g.raise k .cycle (some m) (some .waitRefused)
  else
    let g := f.joinList m false t
    let g := g.modSettled k m fun y => { y with request := some (.ordinary count t), state := .waiting }
    g.order m (.answer (.wait reason))

/-! ### Refuge grants (R26) -/

/-- R26: `c` is granted to `m` as its refuge. -/
def Floor.grantRefuge (f : Floor) (m c : Nat) : Floor :=
  let g := (f.setOcc c (.held m)).place m c
  let g := g.modMachine m fun y => { y with refuge := some c }
  g.order m (.answer (.grant [c] true))

/-! ### Offers (R37 to R40, R63) -/

/-- R38: the rank at which a waiter is examined. -/
def Floor.rankOf (f : Floor) (m : Nat) : Nat := ((f.machines.look m).map fun x => x.rank).getD 0

/-- R38: ordinary waiters in ascending rank and, within one rank, in joining order. -/
def Floor.byRank (f : Floor) (ms : List Nat) : List Nat :=
  (List.range 4).flatMap fun r => ms.filter fun m => decide (f.rankOf m = r)

/-- R39: one ordinary waiter is examined: granted, moved, or refused by the cycle check. The second value says
granted. -/
def Floor.examine (k : Control) (f : Floor) (m : Nat) : Floor × Bool :=
  match f.machines.look m with
  | none => (f, false)
  | some x =>
    match x.request with
    | some (.ordinary count _) =>
      let g := f.leaveWait m
      match g.firstFail k m x.lastHeld (x.span count) [] with
      | none => (g.grant k m x (x.span count), true)
      | some (t, reason) => (g.beginWait k m count t reason, false)
    | _ => (f, false)

/-- R39: ordinary waiters are examined in turn until one is granted. -/
def Floor.examineAll (k : Control) : Floor → List Nat → Floor
  | f, [] => f
  | f, m :: rest =>
    match f.examine k m with
    | (g, true) => g
    | (g, false) => Floor.examineAll k g rest

/-- R38, R39: the offer of cell `c` to the waiters `ws`. -/
def Floor.offerTo (k : Control) (f : Floor) (c : Nat) (x : Cell) : Floor :=
  match x.waiters.find? fun w => w.refuge with
  | some w => (f.leaveWait w.slot).grantRefuge w.slot c
  | none =>
    if k.mode = .evacuation ∨ k.zoneOpen x.zone = false then f
    else f.examineAll k (f.byRank (x.waiters.map fun w => w.slot))

/-- R37: cell `c` is offered when it is FREE with embargo count 0 and has waiters; otherwise nothing is done
(log 10). -/
def Floor.offerCell (k : Control) (f : Floor) (c : Nat) : Floor :=
  match f.cells.look c with
  | none => f
  | some x => if x.occ = .free ∧ x.embargo = 0 ∧ x.waiters ≠ [] then f.offerTo k c x else f

/-- R63: lane `l` is offered when its holder count is 0 and it has waiters, unless the part is in EVACUATION. A lane that
an earlier offer or a placement of the same event has taken again is not offered (log 10). -/
def Floor.offerLane (k : Control) (f : Floor) (l : Nat) : Floor :=
  match f.lanes.look l with
  | none => f
  | some r =>
    if r.holders = 0 ∧ r.waiters ≠ [] ∧ k.mode ≠ .evacuation then f.examineAll k (f.byRank r.waiters) else f

/-- R37: cells made available by one event are offered in the event's order. -/
def Floor.offerCells (k : Control) (f : Floor) (cs : List Nat) : Floor := cs.foldl (Floor.offerCell k) f

/-- R60: the lanes of the cells released by one event are offered after the cells, in ascending lane id. -/
def Floor.offerLanes (k : Control) (f : Floor) (cs : List Nat) : Floor :=
  ((List.range Config.laneCount).filter fun l =>
    cs.any fun c => match f.laneOf c with | some (l', _) => decide (l' = l) | none => false).foldl (Floor.offerLane k) f

/-- R34, R60: the offers that follow the releases of one event. -/
def Floor.offerReleased (k : Control) (f : Floor) (cs : List Nat) : Floor := (f.offerCells k cs).offerLanes k cs

/-! ### Requests (R27 to R30) -/

/-- R30: a request from a WAITING machine first takes it off its wait list. -/
def Floor.dropWait (k : Control) (f : Floor) (m : Nat) : Floor :=
  match f.machines.look m with
  | some x =>
    if x.state = .waiting then (f.leaveWait m).modSettled k m fun y => { y with state := y.resting } else f
  | none => f

/-- R27, Table 2-5: rows 1 to 5, where one applies, as the answer. -/
def Scrubber.earlyAnswer (k : Control) (x : Scrubber) : Option Answer :=
  if k.mode = .standby ∨ k.mode = .evacuation ∨ x.state = .halted ∨ x.state = .stalled ∨ x.state = .stoodDown ∨
      x.state = .lost then some (.refused .notAllowed)
  else if x.withdrawal.isSome then some (.refused .withdrawPending)
  else if x.active.isNone then some (.refused .noLeg)
  else if x.remaining = [] then some (if x.ahead = [] then .legEnd else .grant x.ahead false)
  else if 4 ≤ x.ahead.length then some (.refused .aheadFull)
  else none

/-- R27: a request with this count is decided, for a machine that is not WAITING. -/
def Floor.decideRequest (k : Control) (f : Floor) (m count : Nat) : Floor :=
  match f.machines.look m with
  | none => f
  | some x =>
    match x.earlyAnswer k with
    | some a => f.order m (.answer a)
    | none =>
      match f.firstFail k m x.lastHeld (x.span count) [] with
      | none => f.grant k m x (x.span count)
      | some (t, reason) => f.beginWait k m count t reason

/-- R27, R30: a request from machine `m`. -/
def Floor.request (k : Control) (f : Floor) (m count : Nat) : Floor := (f.dropWait k m).decideRequest k m count

end Sys2Proof.Machine
end

