-- ==== Sys2Proof/Machine/LegStore.lean ====
section
/-! DEFINITION. The Leg Store (chapter 5): promotion and completion, accepted arrivals, and the route tests of a leg. -/

namespace Sys2Proof.Machine

/-! ### Promotion and completion (R76 to R81) -/

/-- R77: the first condition that holds a leg back: the part is recalling (or will return to RECALL) and the leg is not
homing. -/
def Leg.heldByRecall (leg : Leg) (k : Control) : Bool := decide (k.legMode = .recalling) && !leg.homing

/-- R77: the leg may be promoted for machine `x`. -/
def Leg.promotable (leg : Leg) (k : Control) (x : Scrubber) : Bool := !leg.heldByRecall k && (!x.low || leg.homing)

/-- R78: the staged leg becomes active at position 0 and a LEG order is queued; `tell` raises STAGE FREE, which the
attempt within LEG LOAD does not (R72). -/
def Floor.promote (k : Control) (f : Floor) (m : Nat) (leg : Leg) (tell : Bool) : Floor :=
  let g := f.modMachine m fun x => { x with active := some ⟨leg, 0⟩, staged := none }
  let g := g.order m (.leg leg.tag leg.flow leg.homing leg.cells)
  if tell then g.raise k .stageFree (some m) none else g

/-- R79: the machine becomes IDLE, or stays HALTED, and LEG END is raised. -/
def Floor.endLeg (k : Control) (f : Floor) (m : Nat) (reason : NoticeReason) : Floor :=
  (f.modSettled k m fun x => { x with state := x.state.toIdle }).raise k .legEnd (some m) (some reason)

/-- R76 to R79: the decision whether the staged leg follows a completed one. -/
def Floor.decidePromotion (k : Control) (f : Floor) (m : Nat) : Floor :=
  match f.machines.look m with
  | none => f
  | some x =>
    match x.staged with
    | none => f.endLeg k m .underrun
    | some leg =>
      if leg.promotable k x then f.promote k m leg true
      else f.endLeg k m (if leg.heldByRecall k then .legRecall else .legLow)

/-- R80: the machine is ready for a promotion attempt. -/
def Scrubber.readyToPromote (x : Scrubber) : Bool :=
  decide (x.state = .idle) && x.active.isNone && x.withdrawal.isNone

/-- R80: a promotion attempt for machine `m`, where it is ready for one. -/
def Floor.attempt (k : Control) (tell : Bool) (f : Floor) (m : Nat) : Floor :=
  match f.machines.look m with
  | none => f
  | some x =>
    match x.staged with
    | none => f
    | some leg => if x.readyToPromote && leg.promotable k x then f.promote k m leg tell else f

/-- R76, R81: the active leg of machine `m` is complete. -/
def Floor.completeLeg (k : Control) (f : Floor) (m : Nat) : Floor :=
  let g := f.modMachine m fun x => { x with safeStops := 0, active := none }
  match (g.machines.look m).bind fun x => x.withdrawal with
  | some _ =>
    g.modSettled k m fun x =>
      { x with
        state := x.state.toIdle
        withdrawal := x.withdrawal.map fun w => { w with deferred := true } }
  | none => g.decidePromotion k m

/-! ### Arrivals (R74, R75) -/

/-- R34, R74: the cells an arrival at ahead position `j` leaves behind, in route order. -/
def Scrubber.leftBehind (x : Scrubber) (j : Nat) : List Nat := x.current :: x.ahead.take j

/-- R74: the record after an accepted arrival at ahead position `j`, before any completion. -/
def Scrubber.arrivedAt (x : Scrubber) (j : Nat) : Scrubber :=
  { x with
    current := x.ahead.getD j x.current
    ahead := x.ahead.drop (j + 1)
    active := x.active.map fun a => { a with index := a.index + (j + 1) }
    state := if x.state = .stalled then .running else x.state
    progress := none }

/-- R76: the position index is the last position of the active leg. -/
def Scrubber.legDone (x : Scrubber) : Bool :=
  match x.active with
  | some a => decide (a.index + 1 = a.leg.cells.length)
  | none => false

/-- R74 to R76: an accepted arrival of machine `m` at ahead position `j`: releases, position, completion and promotion.
The offers that follow are the caller's. -/
def Floor.acceptArrival (k : Control) (f : Floor) (m : Nat) (x : Scrubber) (j : Nat) : Floor :=
  let flow := (x.active.map fun a => a.leg.flow).getD 0
  let g := (x.leftBehind j).foldl (Floor.releaseBehind k m flow) f
  let g := g.modSettled k m fun y => y.arrivedAt j
  if (x.arrivedAt j).legDone then g.completeLeg k m else g

/-! ### Loading a leg (R57, R58, R69 to R71) -/

/-- R58 rule 5: the machine's reference direction in the lane of its anchor. -/
def Floor.referenceDir (f : Floor) (x : Scrubber) (l : Nat) : Option Dir :=
  match x.active with
  | some a =>
    match a.leg.cells.reverse with
    | last :: before :: _ => (f.travel before last).map fun e => e.2
    | _ => none
  | none => x.laneDirs.look l

/-- The cell at position `i` is in lane `l`. -/
def Floor.inLane (f : Floor) (l c : Nat) : Bool :=
  match f.laneOf c with
  | some (l', _) => decide (l' = l)
  | none => false

/-- R70 code 8: the direction of travel at the leg's first cell of lane `l`, entered from outside. -/
def Floor.entryDir (f : Floor) (l : Nat) : List Nat → Option Dir
  | p :: c :: rest => if f.inLane l c then (f.travel p c).map fun e => e.2 else f.entryDir l (c :: rest)
  | _ => none

/-- The index is the low or the high end of lane `l`. -/
def Floor.isEnd (f : Floor) (l i : Nat) : Bool :=
  match f.lanes.look l with
  | some r => decide (i = 0) || decide (i + 1 = r.cells.length)
  | none => decide (i = 0)

/-- R70, Table 5-3: the tests of the step from `p` to `c` that concern lanes, codes 5 to 9, in code order. -/
def Floor.laneFault (f : Floor) (x : Scrubber) (cells : List Nat) (p c : Nat) : Option Nat :=
  let here := f.laneOf c
  let before := f.laneOf p
  let entryBad := match here with
    | some (l, i) => !f.inLane l p && !f.isEnd l i
    | none => false
  let exitBad := match before with
    | some (l, i) => !f.inLane l c && !f.isEnd l i
    | none => false
  let stepBad := match here, before with
    | some (l, i), some (l', j) => decide (l = l') && !(decide (i = j + 1) || decide (j = i + 1))
    | _, _ => false
  if entryBad then some 5
  else if exitBad then some 6
  else if stepBad then some 7
  else
    match f.travel p c with
    | none => none
    | some (l, d) =>
      if f.inLane l (cells.headD 0) then if f.referenceDir x l = some d then none else some 9
      else if f.entryDir l cells = some d then none
      else some 8

/-- R70, Table 5-3: the first test that fails at position `i` of the leg, as its code. -/
def Floor.routeFaultAt (f : Floor) (m : Nat) (x : Scrubber) (cells : List Nat) (i : Nat) : Option Nat :=
  let c := cells.getD i 0
  let p := cells.getD (i - 1) 0
  let owned := match f.cells.look c with
    | some r => decide (r.kind = .openFloor) || decide (r.owner = some m)
    | none => true
  let adjacent := match f.cells.look p with
    | some r => r.neighbours.contains c
    | none => false
  if i = 0 ∧ c ≠ x.anchor then some 1
  else if i ≠ 0 ∧ adjacent = false then some 2
  else if c ∈ (cells.take i).drop (i - 5) then some 3
  else if owned = false then some 4
  else if i = 0 then none
  else f.laneFault x cells p c

/-- R70: the first position of the leg at which a route test fails, with the code. -/
def Floor.routeFault (f : Floor) (m : Nat) (x : Scrubber) (cells : List Nat) : Option (Nat × Nat) :=
  (List.range cells.length).findSome? fun i => (f.routeFaultAt m x cells i).map fun code => (i, code)

end Sys2Proof.Machine
end

