-- ==== Sys2Proof/Machine/Supervisor.lean ====
section
/-! DEFINITION. The Machine Supervisor and withdrawals (chapters 7 and 8): halt reasons, misses and loss, stand-down,
arrivals off the route, the pending withdrawal and its acknowledgement, the decline of a leg. -/

namespace Sys2Proof.Machine

/-! ### Halts (R115, R116) -/

/-- R115: a halt reason is added to machine `m`. -/
def Floor.addHalt (k : Control) (reason : HaltReason) (f : Floor) (m : Nat) : Floor :=
  match f.machines.look m with
  | none => f
  | some x =>
    if x.halts.has reason then f
    else
      let g := f.modMachine m fun y => { y with halts := y.halts.write true reason }
      if x.halts.isEmpty then
        let g :=
          if x.state = .lost ∨ x.state = .stoodDown then g
          else (g.leaveOrdinary m).modSettled k m fun y => { y with state := .halted }
        if reason = .machine ∨ x.state = .lost then g else g.order m (.motion false)
      else g

/-- R116: the state of a machine whose halt set has become empty. -/
def Scrubber.resumed (x : Scrubber) : MState := if x.active.isSome ∨ x.ahead ≠ [] then .running else .idle

/-- R116: a halt reason is removed from machine `m`. -/
def Floor.removeHalt (k : Control) (reason : HaltReason) (f : Floor) (m : Nat) : Floor :=
  match f.machines.look m with
  | none => f
  | some x =>
    if x.halts.has reason then
      let g := f.modMachine m fun y => { y with halts := y.halts.write false reason }
      if (x.halts.write false reason).isEmpty then
        if x.state = .lost then g
        else
          let g := g.order m (.motion true)
          if x.state = .stoodDown then g
          else (g.modSettled k m fun y => { y with state := y.resumed }).attempt k true m
      else g
    else f

/-! ### Loss (R109, R110) -/

/-- R36: every cell HELD by machine `m` becomes BLOCKED by it. -/
def Floor.blockCells (f : Floor) (m : Nat) : Floor :=
  (f.cells.keysWhere fun c => decide (c.occ = .held m)).foldl (fun g c => g.setOcc c (.blocked m)) f

/-- R110: machine `m` becomes LOST; `source` is the source of the final miss. R95: a refuge grant is given up by loss
(log 26). -/
def Floor.lose (k : Control) (f : Floor) (m : Nat) (source : NoticeReason) : Floor :=
  let g := ((f.blockCells m).leaveWait m).flushOrders m
  let g := g.modSettled k m fun x =>
    { x with
      refuge := none, withdrawal := none, active := none, staged := none, beaconTimer := none, state := .lost }
  g.raise k .machineLost (some m) (some source)

/-- R109: a miss is counted for machine `m`, which may make it LOST. -/
def Floor.countMiss (k : Control) (f : Floor) (m : Nat) (source : NoticeReason) : Floor :=
  let g := f.modMachine m fun x => { x with misses := x.misses + 1 }
  match g.machines.look m with
  | none => g
  | some x => if k.timing.lostThreshold ≤ x.misses then g.lose k m source else g

/-- R109: machine `m` is LOST. -/
def Floor.isLost (f : Floor) (m : Nat) : Bool :=
  match f.machines.look m with
  | some x => decide (x.state = .lost)
  | none => false

/-! ### Supplies (R112) -/

/-- R112: battery and water are recorded and the LOW flag evaluated; clearing it leads to a promotion attempt. -/
def Floor.recordSupplies (k : Control) (f : Floor) (m battery water : Nat) : Floor :=
  match f.machines.look m with
  | none => f
  | some x =>
    let low := lowFlag k.timing battery water x.low
    let g := f.modMachine m fun y => { y with battery := some battery, water := some water, low := low }
    if x.low && !low then g.attempt k true m else g

/-! ### Stand-down (R119) -/

/-- R119: machine `m` is stood down for the fault code. -/
def Floor.standDown (k : Control) (f : Floor) (m code : Nat) : Floor :=
  let g := (f.leaveOrdinary m).modSettled k m fun x => { x with active := none, staged := none, state := .stoodDown }
  g.raise k .standDown (some m) (some (.stoodDown code))

/-! ### Arrivals off the route, at the refuge, and as a whole (R121, R135, R74, R184) -/

/-- R184: a reported cell number above 511 is recorded as 512. -/
def reportedCell (c : Nat) : Nat := if c < Config.cellCount then c else Config.cellCount

/-- R121, R130: an unexpected arrival, or an invalid stop cell. -/
def Floor.unexpected (k : Control) (f : Floor) (m c : Nat) : Floor :=
  let g := f.modMachine m fun x => { x with reported := some (reportedCell c) }
  let g := g.addHalt k .position m
  g.raise k .machineFault (some m) (some (.position (reportedCell c)))

/-- R135: an arrival on the refuge grant `r`, and the offers that follow it. -/
def Floor.refugeArrival (k : Control) (f : Floor) (m : Nat) (x : Scrubber) (r : Nat) : Floor :=
  let g := f.release k m x.current
  let g := g.modMachine m fun y => { y with current := r, refuge := none }
  g.offerReleased k [x.current]

/-- R74: the position of `c` in the ahead list. -/
def Scrubber.aheadPos (x : Scrubber) (c : Nat) : Option Nat := x.ahead.findIdx? fun a => decide (a = c)

/-- R74, R91: the arrival part of an ARRIVE. -/
def Floor.arrival (k : Control) (f : Floor) (m c : Nat) : Floor :=
  match f.machines.look m with
  | none => f
  | some x =>
    match x.aheadPos c with
    | some j => (f.acceptArrival k m x j).offerReleased k (x.leftBehind j)
    | none =>
      if x.refuge = some c then f.refugeArrival k m x c
      else if x.current = c then f.modMachine m fun y => { y with duplicates := bump y.duplicates }
      else f.unexpected k m c

/-- R91: an ARRIVE with a request count above 0 is the arrival and then the request. -/
def Floor.arrive (k : Control) (f : Floor) (m c count : Nat) : Floor :=
  let g := f.arrival k m c
  if count = 0 then g else g.request k m count

/-! ### Starting a withdrawal (R126 to R128) -/

/-- R126: the pending withdrawal after one more WITHDRAW order. -/
def mergeWithdrawal (cancel : Bool) (refuge : Option Nat) : Option Withdrawal → Withdrawal
  | none => { cancel := cancel, refuge := refuge, deferred := false }
  | some w => { w with cancel := w.cancel || cancel, refuge := if refuge.isSome then refuge else w.refuge }

/-- R128: a withdrawal is started for machine `m`. -/
def Floor.startWithdrawal (k : Control) (cancel : Bool) (refuge : Option Nat) (f : Floor) (m : Nat) : Floor :=
  match f.machines.look m with
  | none => f
  | some x =>
    if x.state = .lost then f
    else
      let g :=
        if x.state = .waiting then (f.leaveWait m).modSettled k m fun y => { y with state := .running } else f
      let g := g.modMachine m fun y => { y with withdrawal := some (mergeWithdrawal cancel refuge y.withdrawal) }
      g.order m (.withdraw cancel refuge)

/-! ### The acknowledgement of a WITHDRAW (R130 to R133) -/

/-- R132: the WITHDRAW order still queued for the machine. -/
def Scrubber.queuedWithdraw (x : Scrubber) : Option (Bool × Option Nat) :=
  match x.queue.find? fun o => decide (o.kind = 4) with
  | some (.withdraw cancel refuge) => some (cancel, refuge)
  | _ => none

/-- R132: the pending withdrawal ends, or continues with the flags of the queued order. -/
def Floor.settleWithdrawal (f : Floor) (m : Nat) : Floor :=
  f.modMachine m fun x =>
    { x with
      withdrawal := match x.queuedWithdraw with
        | none => none
        | some (cancel, refuge) => x.withdrawal.map fun w => { w with cancel := cancel, refuge := refuge } }

/-- R133: the reason sent with a refuge wait on `r`: the first failing row among rows 1 to 4, or EMBARGO for a FREE
cell. Where `r` is the machine's own stop cell the spec gives none: a free value (log 16). -/
def refugeReason (now m r : Nat) : Occupancy → WaitReason
  | .free => .embargo
  | .held n => if n = m then WaitReason.ofCode (Config.selfRefugeReason r now) else .occupied
  | .guarded _ => .guarded
  | .wet .. => .wet
  | .blocked _ => .blocked

/-- R133 step 3, R33: machine `m` joins the wait list of its refuge `r`. DESIGN CHOICE (log 27): where `m` itself holds `r`
it stands in the start set of the search, and that counts as reached: REFUGE RING is raised. -/
def Floor.waitForRefuge (k : Control) (f : Floor) (m r : Nat) (occ : Occupancy) : Floor :=
  let g := (f.joinList m true (.cell r)).modMachine m fun x => { x with request := some (.refuge r) }
  let g := if g.closesRing m (.cell r) then g.raise k .cycle (some m) (some .refugeRing) else g
  g.order m (.answer (.wait (refugeReason k.now m r occ)))

/-- R133: the refuge `r` of the embargoed stop cell is settled; `kept` says that it was one of the ahead cells beyond
the stop cell and is still HELD by `m`. -/
def Floor.settleRefuge (k : Control) (f : Floor) (m r : Nat) (kept : Bool) : Floor :=
  match f.cells.look r with
  | none => f
  | some c =>
    if kept then
      (f.modMachine m fun x => { x with refuge := some r }).order m (.answer (.grant [r] true))
    else if c.occ = .free ∧ c.embargo = 0 then f.grantRefuge m r
    else f.waitForRefuge k m r c.occ

/-- R132: the state of a machine whose legs are kept at the acknowledgement. -/
def Scrubber.afterKeep (x : Scrubber) : MState :=
  if x.state = .running ∨ x.state = .stalled ∨ x.state = .idle then
    if x.active.isSome then .running else .idle
  else x.state

/-- R132: both legs are discarded at the acknowledgement. -/
def Floor.discardLegs (k : Control) (f : Floor) (m : Nat) (reason : NoticeReason) : Floor :=
  match f.machines.look m with
  | none => f
  | some x =>
    let g := f.modSettled k m fun y =>
      { y with
        active := none
        staged := none
        state := y.state.toIdle
        withdrawal := y.withdrawal.map fun w => { w with deferred := false } }
    if x.active.isSome ∨ x.staged.isSome then g.raise k .legAborted (some m) (some reason) else g

/-- R132: legs and state, the end or continuation of the pending withdrawal, and the promotion decision that a
completion deferred. -/
def Floor.settleLegs (k : Control) (f : Floor) (m : Nat) (cancel embargoed : Bool) : Floor :=
  if cancel || embargoed then
    (f.discardLegs k m (if embargoed then .embargo else .cancelled)).settleWithdrawal m
  else
    let g := f.modSettled k m fun x => { x with state := x.afterKeep }
    let deferred := ((g.machines.look m).bind fun x => x.withdrawal).any fun w => w.deferred
    let g := g.settleWithdrawal m
    let ended := ((g.machines.look m).bind fun x => x.withdrawal).isNone
    if deferred && ended then g.decidePromotion k m else g

/-- Numbers in ascending order, each once. -/
def ascending (xs : List Nat) : List Nat := (List.range Config.cellCount).filter fun n => xs.contains n

/-- R131 to R133: the acknowledgement with a valid stop cell; `j` is its position in the ahead list, none where it is the
current cell. -/
def Floor.stopAt (k : Control) (f : Floor) (m : Nat) (x : Scrubber) (cancel : Bool) (s : Nat) (j : Option Nat) : Floor :=
  let left := match j with | some j => x.leftBehind j | none => []
  let beyond := match j with | some j => x.ahead.drop (j + 1) | none => x.ahead
  let g := match j with | some j => f.acceptArrival k m x j | none => f
  let stop := g.cells.look s
  let embargoed := (stop.map fun c => decide (c.embargo ≠ 0)).getD false
  let refuge : Option Nat := if embargoed && !x.refugeInHand then stop.bind Cell.refuge else none
  let kept := (refuge.map fun r => beyond.contains r).getD false
  let given := (ascending beyond).filter fun c => !(kept && decide (refuge = some c))
  let g := given.foldl (Floor.release k m) g
  let g := g.modSettled k m fun y => { y with ahead := [] }
  let g := g.settleLegs k m cancel embargoed
  let g := match refuge with
    | some r => g.settleRefuge k m r kept
    | none => g
  g.offerReleased k (left ++ given)

/-- R130 to R133: the effects of an ACK of a WITHDRAW with stop cell `s`. -/
def Floor.ackWithdraw (k : Control) (f : Floor) (m : Nat) (cancel : Bool) (s : Nat) : Floor :=
  match f.machines.look m with
  | none => f
  | some x =>
    match x.aheadPos s with
    | some j => f.stopAt k m x cancel s (some j)
    | none =>
      if x.current = s then f.stopAt k m x cancel s none
      else (f.unexpected k m s).settleWithdrawal m

/-! ### The decline of a leg (R84) -/

/-- R84: the active slot still holds the leg of the declined order, the same tag and the same cells. -/
def Scrubber.drives (x : Scrubber) (tag : Nat) (cells : List Nat) : Bool :=
  match x.active with
  | some a => decide (a.leg.tag = tag) && decide (a.leg.cells = cells)
  | none => false

/-- R84: the decline of a LEG order. -/
def Floor.decline (k : Control) (f : Floor) (m tag : Nat) (cells : List Nat) : Floor :=
  match f.machines.look m with
  | none => f
  | some x =>
    if x.drives tag cells then
      let g := f.modMachine m fun y => { y with active := none }
      let g := g.raise k .legAborted (some m) (some .declined)
      let g := g.modMachine m fun y => { y with staged := none }
      if x.ahead = [] then
        (g.leaveOrdinary m).modSettled k m fun y => { y with state := y.state.toIdle }
      else g.startWithdrawal k true none m
    else f

/-! ### Acknowledgements (R98) -/

/-- R98: the effects of an ACK of the outstanding order. -/
def Floor.ackEffects (k : Control) (f : Floor) (m : Nat) (stop : Nat) (declined : Bool) : Order → Floor
  | .leg tag _ _ cells => if declined then f.decline k m tag cells else f
  | .withdraw cancel _ => f.ackWithdraw k m cancel stop
  | .answer _ => f
  | .motion _ => f

/-- R98: an ACK from machine `m`, matched by kind. The outstanding slot is emptied once the effects are applied, so that
no order they form is sent before the whole event is done (log 9). -/
def Floor.ack (k : Control) (f : Floor) (m kind stop : Nat) (declined : Bool) : Floor :=
  match (f.machines.look m).bind fun x => x.outstanding with
  | some o =>
    if o.kind = kind then ((f.ackEffects k m stop declined o).clearOutstanding m).deliver m
    else { f with fleetCounters := { f.fleetCounters with strayAcks := bump f.fleetCounters.strayAcks } }
  | none => { f with fleetCounters := { f.fleetCounters with strayAcks := bump f.fleetCounters.strayAcks } }

end Sys2Proof.Machine
end

