-- ==== Sys2Proof/Machine/Approach.lean ====
section
/-! DEFINITION. The Approach Line Unit (chapter 9): embargo start and end, LEVEL and PULSE judgement, the filters. -/

namespace Sys2Proof.Machine

/-- Changes line `i`'s record. -/
def Floor.modLine (f : Floor) (i : Nat) (g : Line → Line) : Floor := { f with lines := f.lines.upd i g }

/-! ### Embargo start and end (R127, R145, R146) -/

/-- R127: the cells of machine `x` that an embargo start raised from 0: its ahead cells, and its current cell unless it
has its refuge in hand. -/
def Scrubber.raisedCells (x : Scrubber) (raised : List Nat) : List Nat :=
  (if x.refugeInHand then x.ahead else x.current :: x.ahead).filter fun c => raised.contains c

/-- R127, R145 step 2: the withdrawal that an embargo start on the cells `raised` starts for machine `m`. -/
def Floor.withdrawRaised (k : Control) (raised : List Nat) (f : Floor) (m : Nat) : Floor :=
  match f.machines.look m with
  | none => f
  | some x =>
    let hit := x.raisedCells raised
    if hit = [] ∨ x.state = .lost then f
    else if hit.contains x.current then
      f.startWithdrawal k true ((f.cells.look x.current).bind fun c => c.refuge) m
    else f.startWithdrawal k false none m

/-- R145: an embargo starts on line `i`. -/
def Floor.startEmbargo (k : Control) (f : Floor) (i : Nat) : Floor :=
  let raised := f.cells.keysWhere fun c => c.inBand i && decide (c.embargo = 0)
  let g := { f with cells := f.cells.each fun _ c => if c.inBand i then { c with embargo := c.embargo + 1 } else c }
  let g := g.machines.keys.foldl (Floor.withdrawRaised k raised) g
  let taken := g.bandTaken i
  g.modLine i fun l =>
    { l with
      state := if taken = 0 then .clear else .clearing
      clearTimer := if taken = 0 then none else some (k.now + l.cfg.clearOut * 1000)
      lastStart := k.stamp }

/-- R146: the embargo on line `i` ends, and the band cells made available are offered in ascending cell number. -/
def Floor.endEmbargo (k : Control) (f : Floor) (i : Nat) : Floor :=
  let band := f.cells.keysWhere fun c => c.inBand i
  let g := { f with cells := f.cells.each fun _ c => if c.inBand i then { c with embargo := c.embargo - 1 } else c }
  let g := g.modLine i fun l => { l with state := .quiet, clearTimer := none, hold := none, lastEnd := k.stamp }
  g.offerCells k band

/-- R141, R143, R144: the embargo starts in QUIET; in any other state it continues, with its state unchanged. -/
def Floor.startIfQuiet (k : Control) (f : Floor) (i : Nat) : Floor :=
  match f.lines.look i with
  | none => f
  | some l => if l.state = .quiet then f.startEmbargo k i else f

/-- R146: the embargo ends where one is in force. -/
def Floor.endIfInForce (k : Control) (f : Floor) (i : Nat) : Floor :=
  match f.lines.look i with
  | none => f
  | some l => if l.state = .quiet then f else f.endEmbargo k i

/-! ### The judge (R141 to R144) -/

/-- R141, R142: what a filtered active edge of line `i` does, once the filter has moved. -/
def Floor.activeEdge (k : Control) (f : Floor) (i : Nat) : Floor :=
  match f.lines.look i with
  | none => f
  | some l =>
    if l.cfg.pulseMode then f.modLine i fun r => { r with pulse := some 1 }
    else if l.state = .quiet then f.startEmbargo k i
    else f.modLine i fun r => { r with hold := none }

/-- R141, R143, R144: the hold timer of line `i` starts, or restarts, for the hold time. -/
def Floor.startHold (k : Control) (f : Floor) (i : Nat) : Floor :=
  f.modLine i fun l => { l with hold := some (k.now + l.cfg.holdTime * 1000) }

/-- R141 to R144: what a filtered inactive edge of line `i` does, once the filter has moved. -/
def Floor.inactiveEdge (k : Control) (f : Floor) (i : Nat) : Floor :=
  match f.lines.look i with
  | none => f
  | some l =>
    if l.cfg.pulseMode then
      let g := f.modLine i fun r => { r with pulse := none, stuck := false }
      if l.stuck then g.startHold k i
      else
        let width := l.pulse.getD 0
        if width ≤ l.cfg.runt then
          (g.modLine i fun r => { r with runts := bump r.runts }).raise k .lineFault (some i) (some (.runt width))
        else (g.startHold k i).startIfQuiet k i
    else if l.cfg.holdTime = 0 then f.endIfInForce k i
    else f.startHold k i

/-- R144: line `i` is stuck. -/
def Floor.stuckLine (k : Control) (f : Floor) (i : Nat) : Floor :=
  let g := f.modLine i fun l => { l with stuck := true, pulse := none, hold := none }
  let g := g.startIfQuiet k i
  (g.modLine i fun l => { l with stucks := bump l.stucks }).raise k .lineFault (some i) (some .stuck)

/-! ### The filter (R139, R153) -/

/-- R139: the filter counter after a sample, and the filtered level. -/
def filterSample (threshold counter : Nat) (level active : Bool) : Nat × Bool :=
  let c := if active then min (counter + 1) threshold else counter - 1
  (c, if c = threshold then true else if c = 0 then false else level)

/-- R139: the raw level of a sample, taken through the polarity. -/
def LineConfig.rawActive (cfg : LineConfig) (flow : Bool) : Bool := if cfg.activeLow then !flow else flow

/-- R142, R144: a sample of a filtered active level in PULSE mode counts one millisecond of the pulse; past the maximum
width the line is stuck. -/
def Floor.countPulse (k : Control) (f : Floor) (i : Nat) : Floor :=
  match f.lines.look i with
  | none => f
  | some l =>
    match l.pulse with
    | none => f
    | some w => if l.cfg.maxWidth ≤ w then f.stuckLine k i else f.modLine i fun r => { r with pulse := some (w + 1) }

/-- R139: one sample of line `i`. A sample that changes the filtered level is an edge and reaches the judge (log 13). -/
def Floor.sampleLine (k : Control) (f : Floor) (i : Nat) (flow : Bool) : Floor :=
  match f.lines.look i with
  | none => f
  | some l =>
    if l.cfg.enabled then
      let next := filterSample l.cfg.threshold l.counter l.level (l.cfg.rawActive flow)
      let g := f.modLine i fun r => { r with counter := next.1, level := next.2 }
      if next.2 = l.level then (if l.level then g.countPulse k i else g)
      else if next.2 then g.activeEdge k i
      else g.inactiveEdge k i
    else f

/-- R141 to R143: the filtered active edge of line `i` as an event: the sample that brings the counter to the threshold
(log 13). -/
def Floor.activeEdgeEvent (k : Control) (f : Floor) (i : Nat) : Floor :=
  match f.lines.look i with
  | none => f
  | some l =>
    if l.cfg.enabled && !l.level then
      (f.modLine i fun r => { r with counter := r.cfg.threshold, level := true }).activeEdge k i
    else f

/-- R141 to R144: the filtered inactive edge of line `i` as an event: the sample that brings the counter to 0
(log 13). -/
def Floor.inactiveEdgeEvent (k : Control) (f : Floor) (i : Nat) : Floor :=
  match f.lines.look i with
  | none => f
  | some l =>
    if l.cfg.enabled && l.level then
      (f.modLine i fun r => { r with counter := 0, level := false }).inactiveEdge k i
    else f

/-- R144: the sample at which the pulse timer passes the maximum width with the filtered level still active; `flow` is
its raw sample, which moves the filter counter but not the level. It makes the line stuck at whatever count the running
pulse timer stands (log 12). -/
def Floor.stuckEvent (k : Control) (f : Floor) (i : Nat) (flow : Bool) : Floor :=
  match f.lines.look i with
  | none => f
  | some l =>
    if l.cfg.enabled && l.cfg.pulseMode && l.level && l.pulse.isSome then
      let next := filterSample l.cfg.threshold l.counter l.level (l.cfg.rawActive flow)
      if next.2 then (f.modLine i fun r => { r with counter := next.1 }).stuckLine k i else f
    else f

/-! ### Clearance (R148) -/

/-- R148: the clear-out timer of line `i` expires in CLEARING. -/
def Floor.breach (k : Control) (f : Floor) (i : Nat) : Floor :=
  let taken := f.bandTaken i
  (f.modLine i fun l => { l with state := .breach, clearTimer := none, breaches := bump l.breaches }).raise k
    .edgeBreach (some i) (some (.breach taken))

/-! ### Setting up a line (R138) -/

/-- R138: an accepted LINE SETUP: the new configuration, the end of an embargo in force, and the restart. -/
def Floor.setupLine (k : Control) (f : Floor) (i : Nat) (cfg : LineConfig) : Floor :=
  let g := f.modLine i fun l => { l with cfg := cfg }
  let g := g.endIfInForce k i
  g.modLine i fun l =>
    { l with counter := 0, level := false, pulse := none, hold := none, clearTimer := none, stuck := false }

end Sys2Proof.Machine
end

