-- ==== Sys2Proof/Machine/Night.lean ====
section
/-! DEFINITION. The Mode Controller, the Night Clock, marks and zones (chapter 10): what each event does to the whole
state. -/

namespace Sys2Proof.Machine

/-! ### Zones (R163, R41) -/

/-- R163: the zone becomes closed. -/
def State.closeZone (z : Nat) (s : State) : State :=
  s.onControl fun k => { k with zones := k.zones.upd z fun _ => false }

/-- R163, R41: the zone becomes open; where it was closed, its available members with waiters are offered. -/
def State.openZone (z : Nat) (s : State) : State :=
  if s.control.zoneOpen z then s
  else
    (s.onControl fun k => { k with zones := k.zones.upd z fun _ => true }).onFloor fun k f =>
      f.offerCells k (f.zoneMembers z)

/-- R163: every zone is open. -/
def Control.openZones (k : Control) : Control := { k with zones := k.zones.each fun _ _ => true }

/-! ### Recall (R157) -/

/-- R157: the part enters RECALL from NIGHT. -/
def State.enterRecall (reason : RecallReason) (subject : Option Nat) (s : State) : State :=
  let s := s.onControl fun k => { k with mode := .recalling, recallReason := some reason, silence := none }
  if reason = .host then s
  else s.onFloor fun k f => f.raise k .modeMark subject (some (.recalled reason))

/-! ### Marks (R164 to R167) -/

/-- R167 step 3: a mark's action is taken. -/
def State.takeAction (i : Nat) : MarkAction → State → State
  | .zoneClose z, s => s.closeZone z
  | .zoneOpen z, s => s.openZone z
  | .recalling, s => if s.control.mode = .night then s.enterRecall .mark (some i) else s
  | .noticeOnly, s => s

/-- R167: mark `i` fires, where it is ARMED. -/
def State.fireMark (s : State) (i : Nat) : State :=
  match s.marks.look i with
  | some (.armed time action) =>
    let s := { s with marks := s.marks.upd i fun _ => .fired time action }
    (s.onFloor fun k f => f.raise k .modeMark (some i) (some .fired)).takeAction i action
  | _ => s

/-- R167: the marks listed fire in turn, each taken to its end before the next. -/
def State.fireMarks (is : List Nat) (s : State) : State := is.foldl State.fireMark s

/-- R164: the ARMED marks set for exactly this time, in ascending index. -/
def State.marksAt (s : State) (time : Nat) : List Nat :=
  s.marks.keysWhere fun m => match m with | .armed t _ => decide (t = time) | _ => false

/-- The time of an ARMED mark. -/
def State.armedTime (s : State) (i : Nat) : Option Nat := (s.marks.look i).bind fun m => m.armedFor.map fun e => e.1

/-- One mark index put into a list by ascending time, before the entries of equal or later time. -/
def State.insertByTime (s : State) (i : Nat) : List Nat → List Nat
  | [] => [i]
  | j :: rest => if (s.armedTime i).getD 0 ≤ (s.armedTime j).getD 0 then i :: j :: rest else j :: s.insertByTime i rest

/-- R165: the ARMED marks with times above `old` and at or below `new`, in ascending time, equal times by index. -/
def State.marksBetween (s : State) (old new : Nat) : List Nat :=
  (s.marks.keysWhere fun m => match m with | .armed t _ => decide (old < t) && decide (t ≤ new) | _ => false).foldr
    s.insertByTime []

/-- R166: NIGHT BEGIN re-arms every mark that is not EMPTY. -/
def Mark.rearmed : Mark → Mark
  | .empty => .empty
  | .armed t a => .armed t a
  | .fired t a => .armed t a

/-- R164: the running clock advances one second and the marks it reaches fire; at 86,399 it holds. -/
def State.clockTick (s : State) : State :=
  if s.control.clockRunning then
    let s := s.advanceTo s.control.clockDue
    let s := s.onControl fun k => { k with clockDue := k.clockDue + 1000 }
    if s.control.clock < Config.clockLast then
      let s := s.onControl fun k => { k with clock := k.clock + 1 }
      s.fireMarks (s.marksAt s.control.clock)
    else s
  else s

/-! ### Evacuation (R160, R153) -/

/-- R160: entry to EVACUATION from NIGHT or RECALL. -/
def State.enterEvacuation (saved : SavedMode) (s : State) : State :=
  let s := s.onControl fun k => { k with mode := .evacuation, saved := some saved, silence := none }
  s.onFloor fun k f =>
    (f.machines.keys.filter fun m => !f.isLost m).foldl (Floor.addHalt k .evac) f

/-- R153, R160: a filtered edge of the evacuation input: the cause, then the Mode Controller. -/
def State.evacEdge (active : Bool) (s : State) : State :=
  let s := s.onFloor fun k f => f.raise k .evacuation none (some (if active then .evacActive else .evacInactive))
  if active then
    match s.control.mode with
    | .night => s.enterEvacuation .night
    | .recalling => s.enterEvacuation .recalling
    | _ => s
  else s

/-- R153: one sample of the evacuation input; active when no loop current flows. -/
def State.sampleEvac (flow : Bool) (s : State) : State :=
  let next := filterSample s.control.timing.evacFilter s.evac.counter s.evac.level (!flow)
  let t := { s with evac := { counter := next.1, level := next.2 } }
  if next.2 = s.evac.level then t else t.evacEdge next.2

/-- R153: a filtered edge of the evacuation input as an event (log 13). -/
def State.evacEdgeEvent (active : Bool) (s : State) : State :=
  if s.evac.level = active then s
  else
    { s with evac := { counter := if active then s.control.timing.evacFilter else 0, level := active } }.evacEdge active

/-! ### Beginning and ending the night (R156, R158, R161, R162) -/

/-- R156 step 6, R107: NIGHT BEGIN starts a machine's beacon timer and clears its counts. -/
def Scrubber.beginNight (x : Scrubber) (k : Control) : Scrubber :=
  { x with
    misses := 0
    lastBeacon := none
    beaconTimer := if x.state = .lost then x.beaconTimer else some (k.now + k.timing.beaconInterval * 1000) }

/-- R156 steps 5 and 6 over the floor. -/
def Floor.beginNight (k : Control) (f : Floor) : Floor :=
  { f with
    cells := f.cells.each fun _ c => { c with washes := 0, lastWashed := none }
    machines := f.machines.each fun _ x => x.beginNight k }

/-- R156: the steps of an accepted NIGHT BEGIN, in order. -/
def State.beginNight (s : State) : State :=
  let s := s.onControl fun k =>
    { k with mode := .night, clock := 0, clockRunning := true, clockDue := k.now + 1000 }
  let s := (s.onControl Control.openZones).onFloor fun k f => f.offerCells k f.cells.keys
  let s := { s with marks := s.marks.each fun _ m => m.rearmed }
  let s := s.onFloor Floor.beginNight
  let s := s.onControl Control.startSilence
  s.fireMarks (s.marksAt 0)

/-- R80, R158: a promotion attempt for every machine ready for one, in ascending slot number. -/
def Floor.attemptAll (k : Control) (f : Floor) : Floor := f.machines.keys.foldl (Floor.attempt k true) f

/-- R161, R40: the offers made when the part leaves EVACUATION. -/
def Floor.offerEverything (k : Control) (f : Floor) : Floor :=
  (List.range Config.laneCount).foldl (Floor.offerLane k) (f.offerCells k f.cells.keys)

/-- R161 step 1: the saved mode as a part mode. -/
def SavedMode.mode : SavedMode → Mode
  | .night => .night
  | .recalling => .recalling

/-- R161: the steps of an accepted RESUME ALL, in order. -/
def State.resumeAll (saved : SavedMode) (s : State) : State :=
  let s := s.onControl fun k => { k with mode := saved.mode, saved := none }
  let s := if saved = .night then s.onControl Control.startSilence else s
  let s := s.onFloor fun k f => f.machines.keys.foldl (Floor.removeHalt k .evac) f
  s.onFloor Floor.offerEverything

/-- R162 check 2: the machine lets the night end. -/
def Scrubber.home (x : Scrubber) : Bool :=
  decide (x.state = .lost) || decide (x.state = .stoodDown) ||
    (decide (x.state = .idle) && decide (x.current = x.dock) && x.withdrawal.isNone)

/-- R162: what NIGHT END does to a machine record. -/
def Scrubber.endNight (x : Scrubber) : Scrubber :=
  { x with
    active := none
    staged := none
    beaconTimer := none
    misses := if x.state = .lost then x.misses else 0 }

/-- R162: the steps of an accepted NIGHT END. -/
def State.endNight (s : State) : State :=
  let s := s.onFloor fun _ f => { f with machines := f.machines.each fun _ x => x.endNight }
  s.onControl fun k => { k with clockRunning := false, mode := .standby, recallReason := none }

/-! ### FLEET RESET (R168) -/

/-- R105, Table 7-1: the record of a machine at enrolment; its lane directions come from the placement of its dock. -/
def Scrubber.enrolled (rank dock : Nat) : Scrubber :=
  { rank := rank, dock := dock, state := .idle, halts := {}, current := dock, ahead := [], refuge := none,
    request := none, withdrawal := none, laneDirs := [], active := none, staged := none, queue := [],
    outstanding := none, replyWindow := none, misses := 0, lastBeacon := none, safeStops := 0, lastFault := none,
    battery := none, water := none, low := false, heard := false, reported := none, beaconTimer := none,
    progress := none, earlyBeacons := 0, duplicates := 0 }

/-- R17, R107: the dock is a defined DOCK cell owned by slot `m`. -/
def Floor.dockFit (f : Floor) (m dock : Nat) : Bool :=
  match f.cells.look dock with
  | some c => decide (c.kind = .dock) && decide (c.owner = some m)
  | none => false

/-- R105, R168 step 5: the dock becomes HELD by the machine and is placed in its lane. -/
def Floor.dockMachine (f : Floor) (m : Nat) : Floor :=
  match f.machines.look m with
  | some x => (f.setOcc x.dock (.held m)).place m x.dock
  | none => f

/-- R18, R168 step 3: a cell after FLEET RESET, before docks and embargo counts. -/
def Cell.fleetReset (c : Cell) : Cell := { c with occ := .free, waiters := [], washes := 0, lastWashed := none }

/-- R137, R168 step 7: a line after FLEET RESET; `taken` is how many of its band's cells the reset leaves HELD. -/
def Line.fleetReset (l : Line) (now taken : Nat) : Line :=
  let l := { l with runts := 0, stucks := 0, breaches := 0, lastStart := none, lastEnd := none,
                    clearOutput := decide (taken = 0) }
  if l.state = .quiet then l
  else if taken = 0 then { l with state := .clear, clearTimer := none }
  else { l with state := .clearing, clearTimer := some (now + l.cfg.clearOut * 1000) }

/-- R168: steps 1 to 7 and 9 over the floor, in order. -/
def Floor.fleetReset (k : Control) (f : Floor) : Floor :=
  let f := { f with fleetTx := [], fleetCounters := {} }
  let fit : Table Scrubber := f.machines.filter fun e => f.dockFit e.1 e.2.dock
  let f := { f with machines := fit.each fun _ x => Scrubber.enrolled x.rank x.dock }
  let f := { f with cells := f.cells.each fun _ c => c.fleetReset }
  let f := { f with lanes := f.lanes.each fun _ r => { r with dir := none, holders := 0, waiters := [] } }
  let f := f.machines.keys.foldl Floor.dockMachine f
  let f := { f with cells := f.cells.each fun _ c => { c with embargo := f.embargoFor c.band } }
  let f := { f with lines := f.lines.each fun i l => l.fleetReset k.now (f.bandTaken i) }
  { f with notices := f.notices.each fun _ n => n.cleared }

/-- R168: an accepted FLEET RESET. The command receive queue and the backlog of the supervisory transmitter stand (R171,
R173). -/
def State.fleetReset (s : State) : State :=
  let s := { s with ports := { s.ports with fleetQueue := [], supCounters := {} } }
  let s := s.onFloor Floor.fleetReset
  s.onControl fun k => { k.openZones with clock := 0, clockRunning := false }

end Sys2Proof.Machine
end

