-- ==== Sys2Proof/WellFormed.lean ====
section
/-! DEFINITION. Which commands the hardware can meet: bodies that fit a frame, units that exist, unknown kinds that are
unknown. -/

namespace Sys2Proof

/-- Table 11-8: the kind byte is that of a command. The NOTICE kind is the module's own and counts as unknown (R172). -/
def isCommandKind (kind : Byte) : Bool :=
  let k := kind.toNat
  (1 ≤ k && k ≤ 7) || (16 ≤ k && k ≤ 21) || (24 ≤ k && k ≤ 30) || (32 ≤ k && k ≤ 44)

/-- Table 11-9: the kind byte is that of a machine record (R89, check 1). -/
def isMachineKind (kind : Byte) : Bool :=
  let k := kind.toNat
  65 ≤ k && k ≤ 70

/-- R170: a body fits the length byte's range. -/
def bodyFits (body : List Byte) : Bool := decide (body.length ≤ Config.bodyRoom)

/-- R103: the slot exists. -/
def isSlot (n : Nat) : Bool := decide (1 ≤ n) && decide (n ≤ Config.slotCount)

/-- R1: the cell number exists. -/
def isCell (n : Nat) : Bool := decide (n < Config.cellCount)

/-- R137: the approach line exists. -/
def isLine (n : Nat) : Bool := decide (n < Config.lineCount)

namespace Instr

/-- The command is one that the hardware can meet. Any run of bytes can reach a port (R87). -/
def wellFormed : Instr → Bool
  | .cellDefine _ b | .laneDefine _ b | .lineSetup _ b | .timingSetup _ b | .machineEnroll _ b | .fleetReset _ b
  | .nightBegin _ b | .dryingSetup _ b | .environmentSet _ b | .markSet _ b | .markClear _ b | .noticeControl _ b
  | .noticeClear _ b | .noticeRead _ b | .cellRead _ b | .machineRead _ b | .laneRead _ b | .lineRead _ b
  | .countersRead _ b | .mapCheck _ b | .nightRecall _ b | .nightContinue _ b | .nightEnd _ b | .resumeAll _ b
  | .clockSet _ b | .legLoad _ b | .legCancel _ b | .machineHalt _ b | .machineResume _ b | .machineRestore _ b
  | .machineWithdraw _ b | .zoneClose _ b | .zoneOpen _ b => bodyFits b
  | .beacon _ b | .arrive _ b | .request _ b | .ack _ b | .faultStop _ b | .restart _ b => bodyFits b
  | .supervisoryUnknownKind k _ b => bodyFits b && !isCommandKind k
  | .fleetUnknownKind k _ b => bodyFits b && !isMachineKind k
  | .supervisoryFrame _ | .fleetFrame _ => true
  | .fleetFrameSent m | .replyWindowExpiry m | .beaconTimerExpiry m | .progressTimerExpiry m => isSlot m
  | .guardExpiry c | .wetExpiry c => isCell c
  | .filteredActiveEdge k | .filteredInactiveEdge k | .lineStuck k _ | .holdExpiry k | .clearOutExpiry k => isLine k
  | .inputSample k _ => decide (k ≤ Config.lineCount)
  | .supervisoryGapTimeout | .supervisoryBreak | .fleetGapTimeout | .fleetBreak | .evacuationActiveEdge
  | .evacuationInactiveEdge | .hostSilenceExpiry | .clockAdvance | .fullReset | .resetInputHeld | .powerLoss => true

end Instr

end Sys2Proof
end

