-- ==== Sys2Proof/Machine/Operands.lean ====
section
/-! DEFINITION. Reading the fields of a record's body (R183, Tables 11-8 and 11-9): numbers high byte first, absent
values, flags, enumerated fields and lists. -/

namespace Sys2Proof.Machine

/-- R183: a two-byte number, high byte first. -/
def be16 (hi lo : Byte) : Nat := hi.toNat * 256 + lo.toNat

/-- R183: a three-byte number, high byte first. -/
def be24 (hi mid lo : Byte) : Nat := hi.toNat * 65536 + mid.toNat * 256 + lo.toNat

/-- R183: an absent one-byte field has every bit set. -/
def optional8 (b : Byte) : Option Nat := if b = 0xFF#8 then none else some b.toNat

/-- R183: an absent two-byte field has every bit set. -/
def optional16 (hi lo : Byte) : Option Nat := if be16 hi lo = 0xFFFF then none else some (be16 hi lo)

/-- R183: a list of two-byte numbers, as many as the bytes give. -/
def be16s : List Byte → List Nat
  | hi :: lo :: rest => be16 hi lo :: be16s rest
  | _ => []

/-- The list holds some number twice. -/
def hasRepeat : List Nat → Bool
  | [] => false
  | x :: rest => rest.contains x || hasRepeat rest

/-- One entry of a CELL DEFINE body, as its bytes stand (Table 11-8): kind byte 0 VOID, 1 OPEN, 2 DOCK. -/
structure CellEntry where
  number : Nat
  kind : Nat
  owner : Option Nat
  zone : Nat
  floorClass : Nat
  band : BitVec 16
  refuge : Option Nat
  neighbours : List Nat
deriving DecidableEq, Repr, Inhabited

/-- Reads one CELL DEFINE entry and answers the bytes after it. An entry of kind OPEN or DOCK has its neighbour count in
its eleventh byte; an entry of any other kind is three bytes long (Table 11-8; log 20 for unknown kinds). -/
def readEntry : List Byte → Option (CellEntry × List Byte)
  | n1 :: n0 :: kind :: rest =>
    if kind = 1#8 ∨ kind = 2#8 then
      match rest with
      | owner :: zone :: cls :: b1 :: b0 :: r1 :: r0 :: count :: tail =>
        let size := 2 * count.toNat
        if tail.length < size then none
        else some
          ({ number := be16 n1 n0, kind := kind.toNat, owner := optional8 owner, zone := zone.toNat,
             floorClass := cls.toNat, band := BitVec.ofNat 16 (be16 b1 b0), refuge := optional16 r1 r0,
             neighbours := be16s (tail.take size) }, tail.drop size)
      | _ => none
    else some
      ({ number := be16 n1 n0, kind := kind.toNat, owner := none, zone := 0, floorClass := 0, band := 0#16,
         refuge := none, neighbours := [] }, rest)
  | _ => none

/-- Reads `n` entries that take the bytes up exactly (R8: the body length agrees with the count and the kinds). -/
def readEntries : Nat → List Byte → Option (List CellEntry)
  | 0, [] => some []
  | 0, _ :: _ => none
  | n + 1, bytes =>
    match readEntry bytes with
    | none => none
    | some (entry, rest) => (readEntries n rest).map fun es => entry :: es

/-- R183: a flag byte of a command, none where it is neither 0 nor 1. -/
def flagByte (b : Byte) : Option Bool := if b = 0#8 then some false else if b = 1#8 then some true else none

/-- R183: a flag byte of a fleet record; any byte other than 0 is read as set. -/
def fleetFlag (b : Byte) : Bool := !decide (b = 0#8)

/-- R183: an enumerated field of two values, encoded 1 and 2; true for the second. -/
def secondOfTwo (b : Byte) : Option Bool := if b = 1#8 then some false else if b = 2#8 then some true else none

/-- R166, R183: a mark's action and zone byte. For RECALL and NOTICE ONLY the zone byte is not read. -/
def readAction (action zone : Byte) : Option MarkAction :=
  if action = 1#8 then if zone.toNat < Config.zoneCount then some (.zoneClose zone.toNat) else none
  else if action = 2#8 then if zone.toNat < Config.zoneCount then some (.zoneOpen zone.toNat) else none
  else if action = 3#8 then some .recalling
  else if action = 4#8 then some .noticeOnly
  else none

/-- R138: the configuration fields of a LINE SETUP body, where each lies in its range. -/
def readLineConfig (enabled polarity mode threshold r1 r0 m1 m0 h1 h0 c1 c0 : Byte) : Option LineConfig :=
  match flagByte enabled, secondOfTwo polarity, secondOfTwo mode with
  | some en, some low, some pulse =>
    let cfg : LineConfig :=
      { enabled := en, activeLow := low, pulseMode := pulse, threshold := threshold.toNat, runt := be16 r1 r0,
        maxWidth := be16 m1 m0, holdTime := be16 h1 h0, clearOut := be16 c1 c0 }
    if 1 ≤ cfg.threshold ∧ cfg.runt ≤ 1000 ∧ cfg.runt + 1 ≤ cfg.maxWidth ∧ cfg.maxWidth ≤ 10000 ∧
        cfg.holdTime ≤ 1800 ∧ (pulse = true → 1 ≤ cfg.holdTime) ∧ 5 ≤ cfg.clearOut ∧ cfg.clearOut ≤ 300 then
      some cfg
    else none
  | _, _, _ => none

/-- R174: the twelve settings of a full TIMING SETUP body, none where the body is not 18 bytes. -/
def readTiming : List Byte → Option Timing
  | [bi, e1, e0, lost, w1, w0, p1, p0, o1, o0, l1, l0, sd, br, wr, h1, h0, ef] =>
    some { beaconInterval := bi.toNat, earlyLimit := be16 e1 e0, lostThreshold := lost.toNat, replyWindow := be16 w1 w0,
           progressLimit := be16 p1 p0, openGuard := be16 o1 o0, laneGuard := be16 l1 l0, standDown := sd.toNat,
           batteryReserve := br.toNat, waterReserve := wr.toNat, hostSilence := be16 h1 h0, evacFilter := ef.toNat }
  | _ => none

/-- Table 11-3: which of the twelve settings lie in their ranges, by position. The early limit is checked against the
beacon interval of the same command (R174). -/
def timingChecks (t : Timing) : List Bool :=
  [ decide (2 ≤ t.beaconInterval ∧ t.beaconInterval ≤ 60),
    decide (t.earlyLimit ≤ 4999 ∧ t.earlyLimit < t.beaconInterval * 1000),
    decide (1 ≤ t.lostThreshold ∧ t.lostThreshold ≤ 15),
    decide (50 ≤ t.replyWindow ∧ t.replyWindow ≤ 2000),
    decide (5 ≤ t.progressLimit ∧ t.progressLimit ≤ 600),
    decide (t.openGuard ≤ 60),
    decide (t.laneGuard ≤ 60),
    decide (1 ≤ t.standDown ∧ t.standDown ≤ 14),
    decide (t.batteryReserve ≤ 90),
    decide (t.waterReserve ≤ 90),
    decide (t.hostSilence = 0 ∨ (10 ≤ t.hostSilence ∧ t.hostSilence ≤ 600)),
    decide (1 ≤ t.evacFilter) ]

/-- The position, counted from 1, of the first check that fails. -/
def firstFalse (checks : List Bool) : Option Nat :=
  let n := (checks.takeWhile fun ok => ok).length
  if n < checks.length then some (n + 1) else none

end Sys2Proof.Machine
end

