-- ==== Sys2Proof/Machine/MapOps.lean ====
section
/-! DEFINITION. The Concourse Map (chapters 1 and 4): CELL DEFINE's checks and effects, LANE DEFINE's, and the map
check. -/

namespace Sys2Proof.Machine

/-! ### CELL DEFINE (R8 to R13) -/

/-- R9: the entry is well formed. -/
def CellEntry.wellFormed (e : CellEntry) : Bool :=
  if e.kind = 0 then isCell e.number
  else
    decide (e.kind = 1 ∨ e.kind = 2) && isCell e.number && decide (e.zone < Config.zoneCount) &&
      decide (e.floorClass < 8) && decide (1 ≤ e.neighbours.length) && decide (e.neighbours.length ≤ 6) &&
      e.neighbours.all isCell && !hasRepeat e.neighbours &&
      (match e.refuge with
        | some r => !decide (e.band = 0#16) && isCell r
        | none => decide (e.band = 0#16)) &&
      (match e.owner with
        | some m => decide (e.kind = 2) && isSlot m
        | none => decide (e.kind = 1))

/-- The position, counted from 1, of the first element that passes the test. -/
def firstPosition {α : Type} (xs : List α) (bad : α → Bool) : Option Nat := (xs.findIdx? bad).map fun i => i + 1

/-- R8, Table 1-2, checks 3 to 7: the first that fails, with the position of the first entry that fails it. For check 4
the first entry is the first whose number also stands in another entry (log 19). -/
def Floor.cellChecks (f : Floor) (es : List CellEntry) : Option (Status × Nat) :=
  let numbers := es.map fun e => e.number
  let checks : List (Status × (CellEntry → Bool)) :=
    [ (.badValue, fun e => !e.wellFormed),
      (.badValue, fun e => decide (2 ≤ numbers.count e.number)),
      (.notDefined, fun e => decide (e.kind = 0) && (f.cells.look e.number).isNone),
      (.refusedState, fun e => decide (e.kind = 0) && (f.laneOf e.number).isSome),
      (.refusedBusy, fun e =>
        match f.cells.look e.number with
        | some c => !(decide (c.occ = .free) && decide (c.waiters = []))
        | none => false) ]
  checks.findSome? fun check => (firstPosition es check.2).map fun p => (check.1, p)

/-- R11, R12: the static part that an OPEN or DOCK entry writes, over the record as it stands. -/
def CellEntry.over (e : CellEntry) (c : Cell) (embargo : Nat) : Cell :=
  { c with
    kind := if e.kind = 2 then .dock else .openFloor
    owner := e.owner
    zone := e.zone
    floorClass := e.floorClass
    band := e.band
    neighbours := e.neighbours
    refuge := e.refuge
    embargo := embargo }

/-- R11: the dynamic part of a new cell: FREE, no waiters, unwashed, no lane field. -/
def Cell.fresh : Cell :=
  { kind := .openFloor, owner := none, zone := 0, floorClass := 0, band := 0#16, neighbours := [], refuge := none,
    lane := none, occ := .free, embargo := 0, waiters := [], washes := 0, lastWashed := none }

/-- R11 to R13: one accepted entry takes effect. -/
def Floor.applyEntry (f : Floor) (e : CellEntry) : Floor :=
  if e.kind = 0 then { f with cells := f.cells.del e.number }
  else
    let c := (f.cells.look e.number).getD Cell.fresh
    { f with cells := f.cells.put e.number (e.over c (f.embargoFor e.band)) }

/-- R8: CELL DEFINE on its entries. -/
def State.cellDefine (es : List CellEntry) (s : State) : State × Status × ReplyData :=
  if s.control.mode ≠ .standby then (s, .refusedMode, .entryRefused 0)
  else if es.length = 0 ∨ 8 < es.length then (s, .badValue, .entryRefused 0)
  else
    match s.floor.cellChecks es with
    | some (status, position) => (s, status, .entryRefused position)
    | none => (s.onFloor fun _ f => es.foldl Floor.applyEntry f, .done, .entriesApplied es.length)

/-! ### LANE DEFINE (R55, R56) -/

/-- R55 check 6: the first cell from index 1 on that is not in the neighbour list of the cell before it. -/
def Floor.laneGap (f : Floor) : List Nat → Option Nat
  | p :: c :: rest =>
    if ((f.cells.look p).map fun x => x.neighbours.contains c).getD false then f.laneGap (c :: rest) else some c
  | _ => none

/-- R55 check 7: the cell is not FREE with an empty wait list. -/
def Floor.busyCell (f : Floor) (c : Nat) : Bool :=
  match f.cells.look c with
  | some x => !(decide (x.occ = .free) && decide (x.waiters = []))
  | none => false

/-- R55, Table 4-2, checks 2 to 7: the first that fails, with the cell the refusal carries. For check 3 the first cell is
the first that is out of range or whose number stands twice in the list (log 19). -/
def Floor.laneChecks (f : Floor) (l : Nat) (cs : List Nat) : Option (Status × Option Nat) :=
  let old := f.lanes.look l
  let members := cs ++ ((old.map fun r => r.cells).getD []).filter fun c => !cs.contains c
  let fails (status : Status) (c : Option Nat) : Option (Status × Option Nat) := c.map fun c => (status, some c)
  if ¬ (l < Config.laneCount) ∨ ¬ (cs.length = 0 ∨ (2 ≤ cs.length ∧ cs.length ≤ 16)) then some (.badValue, none)
  else
    (fails .badValue (cs.find? fun c => !isCell c || decide (2 ≤ cs.count c))).or
    ((fails .notDefined (cs.find? fun c => (f.cells.look c).isNone)).or
    ((if cs = [] ∧ old.isNone then some (.notDefined, none) else none).or
    ((fails .refusedState (cs.find? fun c => match f.laneOf c with | some (l', _) => !decide (l' = l) | none => false)).or
    ((fails .badValue (f.laneGap cs)).or
    ((match old with
      | some r => if r.holders ≠ 0 ∨ r.waiters ≠ [] then some (Status.refusedBusy, none) else none
      | none => none).or
    (fails .refusedBusy (members.find? f.busyCell)))))))

/-- R56: the lane field of a cell after LANE DEFINE. -/
def Cell.joinLane (c : Cell) (l : Nat) (position : Option Nat) : Cell :=
  match position with
  | some i => { c with lane := some (l, i) }
  | none => if (match c.lane with | some (l', _) => decide (l' = l) | none => false) then { c with lane := none } else c

/-- R56: an accepted LANE DEFINE. -/
def Floor.defineLane (f : Floor) (l : Nat) (cs : List Nat) : Floor :=
  { f with
    cells := f.cells.each fun n c => c.joinLane l (cs.findIdx? fun m => decide (m = n))
    lanes := if cs = [] then f.lanes.del l
             else f.lanes.put l { cells := cs, dir := none, holders := 0, waiters := [] } }

/-- R55: LANE DEFINE on its fields. -/
def State.laneDefine (l : Nat) (cs : List Nat) (s : State) : State × Status × ReplyData :=
  if s.control.mode ≠ .standby then (s, .refusedMode, .nothing)
  else
    match s.floor.laneChecks l cs with
    | some (status, some c) => (s, status, .laneRefused c)
    | some (status, none) => (s, status, .nothing)
    | none => (s.onFloor fun _ f => f.defineLane l cs, .done, .laneCells cs.length)

/-! ### The map check (R15 to R17) -/

/-- R16, Table 1-3: the first of tests 1 to 9 that cell `n` fails. -/
def Floor.cellFault (f : Floor) (n : Nat) (c : Cell) : Option MapFault :=
  let fault (code : Nat) (other : Option Nat) : MapFault := ⟨code, .cell n, other⟩
  let refuge := if c.band = 0#16 then none else c.refuge
  let refugeIs (test : Cell → Bool) : Bool := ((refuge.bind f.cells.look).map test).getD false
  let lists (b : Nat) : Bool := ((f.cells.look b).map fun x => x.neighbours.contains n).getD true
  ((c.neighbours.find? fun b => decide (b = n)).map fun b => fault 1 (some b)).or
  (((c.neighbours.find? fun b => (f.cells.look b).isNone).map fun b => fault 2 (some b)).or
  (((c.neighbours.find? fun b => !lists b).map fun b => fault 3 (some b)).or
  ((if refuge.isSome ∧ (refuge.bind f.cells.look).isNone then some (fault 4 refuge) else none).or
  ((if (refuge.map fun r => !c.neighbours.contains r).getD false then some (fault 5 refuge) else none).or
  ((if refugeIs fun r => !decide (r.band = 0#16) then some (fault 6 refuge) else none).or
  ((if refugeIs fun r => r.lane.isSome then some (fault 7 refuge) else none).or
  ((if refugeIs fun r => decide (r.kind = .dock) then some (fault 8 refuge) else none).or
  (if c.kind = .dock ∧ c.band ≠ 0#16 then some (fault 9 none) else none))))))))

/-- R17: the first index of the lane, from 1 on, whose cell is not a neighbour of the cell before it. -/
def Floor.laneFaultFrom (f : Floor) (l : Nat) : Nat → List Nat → Option MapFault
  | i, p :: c :: rest =>
    if ((f.cells.look p).map fun x => x.neighbours.contains c).getD false then f.laneFaultFrom l (i + 1) (c :: rest)
    else some ⟨10, .lane l i, some p⟩
  | _, _ => none

/-- R15 to R17: the first fault of the map, in the order of cells, lanes and docks. -/
def Floor.mapFault (f : Floor) : Option MapFault :=
  (f.cells.findSome? fun e => f.cellFault e.1 e.2).or
  ((f.lanes.findSome? fun e => f.laneFaultFrom e.1 1 e.2.cells).or
  (f.machines.findSome? fun e =>
    if f.dockFit e.1 e.2.dock then none else some ⟨11, .slot e.1, some e.2.dock⟩))

end Sys2Proof.Machine
end

