-- ==== Sys2Proof/Machine/PortOps.lean ====
section
/-! DEFINITION. The two ports (chapters 6 and 11): the CRC, assembling frames from bytes, completed and abandoned frames,
taking a command and replying to it, taking a machine record with its checks, and the frame of every event: what a
module that is unpowered or held in reset does not take. -/

namespace Sys2Proof.Machine

/-- The outcome of every meaning, by type. -/
abbrev Result := Host.Outcome State Fault Refusal

/-- An event changes the state by `g`. A module without supply or with its reset input held takes no event (log 6). -/
def event (g : State → State) (s : State) : Result := .next (if s.live then g s else s)

/-! ### The CRC (R170) -/

/-- R170: one bit of the CRC: polynomial 0x1021, most significant bit first. -/
def crcBit (r : BitVec 16) : BitVec 16 := if r.msb then (r <<< 1) ^^^ 0x1021#16 else r <<< 1

/-- R170: one byte of the CRC. -/
def crcByte (r : BitVec 16) (b : Byte) : BitVec 16 :=
  crcBit (crcBit (crcBit (crcBit (crcBit (crcBit (crcBit (crcBit (r ^^^ (b.zeroExtend 16 <<< 8)))))))))

/-- R170: the CRC of a run of bytes, from 0xFFFF. -/
def crc16 (bytes : List Byte) : BitVec 16 := bytes.foldl crcByte 0xFFFF#16

/-- R170: the CRC of a frame: over length, kind, ref and body. -/
def frameCrc (kind ref : Byte) (body : List Byte) : BitVec 16 :=
  crc16 (BitVec.ofNat 8 body.length :: kind :: ref :: body)

/-! ### Assembling frames (R87, R170, R171) -/

/-- R87, R170: the frame that a run of bytes spells, from lead byte to CRC, with nothing after it. -/
def readFrame : List Byte → Option Frame
  | lead :: length :: kind :: ref :: rest =>
    if lead = 0xB5#8 ∧ rest.length = length.toNat + 2 then
      match rest.drop length.toNat with
      | [hi, lo] => some { kind := kind, ref := ref, body := rest.take length.toNat, crc := BitVec.ofNat 16 (be16 hi lo) }
      | _ => none
    else none
  | _ => none

/-- R87: what one more byte can end: a frame with a length byte above 250, or a frame read to its last CRC byte. -/
inductive Assembled where
  | overlong
  | whole (frame : Frame)
deriving DecidableEq, Repr

/-- R87, R170: the port reads one byte. Between frames (`reading` is empty) every byte but the lead byte is ignored;
within a frame every byte is data, until the length byte proves too long or the last CRC byte is read. -/
def assemble (reading : List Byte) (b : Byte) : List Byte × Option Assembled :=
  match reading with
  | [] => (if b = 0xB5#8 then [b] else [], none)
  | [lead] => if Config.bodyRoom < b.toNat then ([], some .overlong) else ([lead, b], none)
  | _ =>
    match readFrame (reading ++ [b]) with
    | some fr => ([], some (.whole fr))
    | none => (reading ++ [b], none)

/-! ### The supervisory port (R171 to R173) -/

/-- Changes the supervisory counters. -/
def State.supCount (s : State) (g : SupCounters → SupCounters) : State :=
  { s with ports := { s.ports with supCounters := g s.ports.supCounters } }

/-- R171: a frame's last byte has been read at the supervisory port. -/
def State.supFrame (fr : Frame) (s : State) : State :=
  if frameCrc fr.kind fr.ref fr.body = fr.crc then
    let s := { s with ports := { s.ports with hostFlashes := s.ports.hostFlashes + 1 } }
    let s := if s.control.silence.isSome then s.onControl Control.startSilence else s
    if s.ports.cmdQueue.length < Config.commandQueueRoom then
      { s with ports := { s.ports with cmdQueue := s.ports.cmdQueue ++ [⟨fr.kind, fr.ref, fr.body⟩] } }
    else s.supCount fun c => { c with overruns := bump c.overruns }
  else s.supCount fun c => { c with crc := bump c.crc }

/-- R171: the supervisory port reads one byte. -/
def State.supByte (s : State) (b : Byte) : State :=
  let next := assemble s.ports.supReading b
  let s := { s with ports := { s.ports with supReading := next.1 } }
  match next.2 with
  | none => s
  | some .overlong => s.supCount fun c => { c with framing := bump c.framing }
  | some (.whole fr) => s.supFrame fr

/-- R171: bytes reach the supervisory port, each within 2 ms of the one before. -/
def State.supBytes (bytes : List Byte) (s : State) : State := bytes.foldl State.supByte s

/-- R171: the frame being read at the supervisory port, if any, is abandoned. -/
def State.supAbandon (s : State) : State := { s with ports := { s.ports with supReading := [] } }

/-- R172, R88: it is the turn of `r`: it heads its queue. DESIGN CHOICE (log 4): with no frame waiting `r` is a frame that
has just completed and is taken at once; what its completion does (R159, R171, R182, R87) belongs to the rows
SUPERVISORY_FRAME and FLEET_FRAME alone, and taking it does none of that. -/
def isNext (queue : List Record) (r : Record) : Bool :=
  match queue with
  | h :: _ => decide (h = r)
  | [] => true

/-- R172: the module runs, and `r` is the frame that the Supervisory Port takes next. -/
def State.takesCommand (s : State) (r : Record) : Bool := s.live && isNext s.ports.cmdQueue r

/-- R88: the module runs, and `r` is the record that the Fleet Port takes next. -/
def State.takesRecord (s : State) (r : Record) : Bool := s.live && isNext s.ports.fleetQueue r

/-- The frame is a reply. -/
def SupOut.isReply : SupOut → Bool
  | .reply .. => true
  | .notice .. => false

/-- R172, R173: when a command is taken, the reply to the one before has been sent in full, and every frame formed
before that reply; what is left of the backlog is what was formed after it (log 7). -/
def unsent (backlog : List SupOut) : List SupOut := (backlog.reverse.takeWhile fun o => !o.isReply).reverse

/-- R172: the frame at the head is taken from the command receive queue. DESIGN CHOICE (log 4): where the queue is empty the
frame is one that has just completed, and taking it neither restarts a running host silence timer (R159) nor flashes the
HOST indicator (R182) nor asks for room (R171): `State.supFrame` alone does that, at the completion. -/
def State.takeFrame (s : State) : State :=
  { s with
    ports := { s.ports with cmdQueue := s.ports.cmdQueue.tail }
    floor := { s.floor with supTx := unsent s.floor.supTx } }

/-- R173: the reply is formed and handed to the transmitter. -/
def State.reply (kind ref : Byte) (status : Status) (data : ReplyData) (s : State) : State :=
  { s with floor := { s.floor with supTx := s.floor.supTx ++ [.reply kind ref status data] } }

/-- A command's action: the state it leaves, its reply's status and data. -/
abbrev Action := State → State × Status × ReplyData

/-- R172: a body whose length does not suit the kind. -/
def badLength : Action := fun s =>
  (s.supCount fun c => { c with lengths := bump c.lengths }, .badLength, .nothing)

/-- A refused command: no state changes (R173). -/
def refuse (status : Status) (data : ReplyData) : Action := fun s => (s, status, data)

/-- R172: a command is taken whole and answered by one reply. Frames are taken from the head of the queue, so a command
whose turn has not come changes nothing. DESIGN CHOICE (log 4): a command given with the queue empty is a frame just
completed, whose completion stands in no row: the host silence timer (R159), the HOST indicator (R182) and the room of
the queue (R171) are SUPERVISORY_FRAME's alone. -/
def command (kind ref : Byte) (body : List Byte) (act : Action) (s : State) : Result :=
  .next (if s.takesCommand ⟨kind, ref, body⟩ then
    let answer := act s.takeFrame
    answer.1.reply kind ref answer.2.1 answer.2.2
  else s)

/-- A command without a body (Table 11-8). -/
def withoutBody (body : List Byte) (act : Action) : Action := if body = [] then act else badLength

/-! ### The fleet port (R87 to R92) -/

/-- Changes the fleet counters. -/
def State.fleetCount (s : State) (g : FleetCounters → FleetCounters) : State :=
  { s with floor := { s.floor with fleetCounters := g s.floor.fleetCounters } }

/-- R87: a frame's last byte has been read at the fleet port. -/
def State.fleetFrame (fr : Frame) (s : State) : State :=
  if frameCrc fr.kind fr.ref fr.body = fr.crc then
    let s := { s with ports := { s.ports with fleetFlashes := s.ports.fleetFlashes + 1 } }
    if s.ports.fleetQueue.length < Config.fleetQueueRoom then
      { s with ports := { s.ports with fleetQueue := s.ports.fleetQueue ++ [⟨fr.kind, fr.ref, fr.body⟩] } }
    else s.fleetCount fun c => { c with overruns := bump c.overruns }
  else s.fleetCount fun c => { c with crc := bump c.crc }

/-- R87: the fleet port reads one byte. -/
def State.fleetByte (s : State) (b : Byte) : State :=
  let next := assemble s.ports.fleetReading b
  let s := { s with ports := { s.ports with fleetReading := next.1 } }
  match next.2 with
  | none => s
  | some .overlong => s.fleetCount fun c => { c with framing := bump c.framing }
  | some (.whole fr) => s.fleetFrame fr

/-- R87: bytes reach the fleet port, each within 2 ms of the one before. -/
def State.fleetBytes (bytes : List Byte) (s : State) : State := bytes.foldl State.fleetByte s

/-- R87: the frame being read at the fleet port, if any, is abandoned. -/
def State.fleetAbandon (s : State) : State := { s with ports := { s.ports with fleetReading := [] } }

/-- R88: the record at the head is taken from the fleet receive queue. DESIGN CHOICE (log 4): where the queue is empty the
record is one that has just completed, and taking it neither flashes the FLEET indicator (R182) nor asks for room (R88):
`State.fleetFrame` alone does that, at the completion. -/
def State.takeRecord (s : State) : State := { s with ports := { s.ports with fleetQueue := s.ports.fleetQueue.tail } }

/-- R89: one more stray. -/
def State.stray (s : State) : State := s.fleetCount fun c => { c with strays := bump c.strays }

/-- R89, R90: a record of a known kind is taken. `parsed` is none where the body length does not suit the kind; it holds
what the machine's owners do with the record, or the count of a failed check 5 or 6. A record from a LOST machine sets
its heard-while-lost flag and goes to no other block (R111). Records are taken from the head of the queue, so a record
whose turn has not come changes nothing; one given with the queue empty is a record just completed, without the effects
of its completion (R88, log 4). -/
def machineRecord (kind slot : Byte) (body : List Byte) (parsed valid : Option (State → State)) (s : State) : Result :=
  .next (if s.takesRecord ⟨kind, slot, body⟩ then
    let s := s.takeRecord
    match parsed with
    | none => s.fleetCount fun c => { c with lengths := bump c.lengths }
    | some act =>
      if isSlot slot.toNat = false then s.stray
      else
        match s.floor.machines.look slot.toNat with
        | none => s.stray
        | some x =>
          match valid with
          | some failed => failed s
          | none =>
            if x.state = .lost then s.onFloor fun _ f => f.modMachine slot.toNat fun y => { y with heard := true }
            else act s
  else s)

/-- R90: a percentage above 100 is taken as 100. -/
def percent (b : Byte) : Nat := min b.toNat 100

/-- R90: a request count above 4 is taken as 4. -/
def requestCount (b : Byte) : Nat := min b.toNat 4

/-! ### What waits to be taken (R172, R88) -/

/-- Table 11-8: the command of each command kind. -/
def hostCommands : List (Byte × (Byte → List Byte → Instr)) :=
  [ (0x01#8, .cellDefine), (0x02#8, .laneDefine), (0x03#8, .lineSetup), (0x04#8, .timingSetup),
    (0x05#8, .machineEnroll), (0x06#8, .fleetReset), (0x07#8, .nightBegin), (0x10#8, .dryingSetup),
    (0x11#8, .environmentSet), (0x12#8, .markSet), (0x13#8, .markClear), (0x14#8, .noticeControl),
    (0x15#8, .noticeClear), (0x18#8, .cellRead), (0x19#8, .machineRead), (0x1A#8, .laneRead), (0x1B#8, .lineRead),
    (0x1C#8, .countersRead), (0x1D#8, .noticeRead), (0x1E#8, .mapCheck), (0x20#8, .nightRecall),
    (0x21#8, .nightContinue), (0x22#8, .nightEnd), (0x23#8, .resumeAll), (0x24#8, .clockSet), (0x25#8, .legLoad),
    (0x26#8, .legCancel), (0x27#8, .machineHalt), (0x28#8, .machineResume), (0x29#8, .machineRestore),
    (0x2A#8, .machineWithdraw), (0x2B#8, .zoneClose), (0x2C#8, .zoneOpen) ]

/-- Table 11-9: the record of each kind of machine record. -/
def machineRecords : List (Byte × (Byte → List Byte → Instr)) :=
  [ (0x41#8, .beacon), (0x42#8, .arrive), (0x43#8, .request), (0x44#8, .ack), (0x45#8, .faultStop),
    (0x46#8, .restart) ]

/-- R172: the command that a frame of the command receive queue is, by its kind byte. -/
def hostCommand (r : Record) : Instr :=
  match hostCommands.find? fun e => decide (e.1 = r.kind) with
  | some e => e.2 r.ref r.body
  | none => .supervisoryUnknownKind r.kind r.ref r.body

/-- R89: the machine record that a frame of the fleet receive queue is, by its kind byte. -/
def machineCommand (r : Record) : Instr :=
  match machineRecords.find? fun e => decide (e.1 = r.kind) with
  | some e => e.2 r.ref r.body
  | none => .fleetUnknownKind r.kind r.ref r.body

/-- R172, R88: what the ports of a running module take next: the frame at the head of the command receive queue, else the
record at the head of the fleet receive queue (log 1). -/
def State.nextTaken (s : State) : Option Instr :=
  if s.live then (s.ports.cmdQueue.head?.map hostCommand).or (s.ports.fleetQueue.head?.map machineCommand) else none

end Sys2Proof.Machine
end

