-- ==== Sys2Proof/Machine/FleetPort.lean ====
section
/-! DEFINITION. The meanings of the fleet port's own events. -/

namespace Sys2Proof.Machine

/-- FLEET FRAME, R87: bytes reach the port, up to the completion of a frame or beyond (log 24). -/
def execFleetFrame (bytes : List Byte) (s : State) : Result := event (State.fleetBytes bytes) s

/-- FLEET GAP TIMEOUT, R87: the frame being read is abandoned and counted. With no frame being read there is no gap
between two bytes of one frame, and nothing changes (log 5). -/
def execFleetGapTimeout (s : State) : Result :=
  event (fun s =>
    if s.ports.fleetReading = [] then s else s.fleetAbandon.fleetCount fun c => { c with framing := bump c.framing }) s

/-- FLEET BREAK, R87: counted during a frame, which it abandons, and between frames. -/
def execFleetBreak (s : State) : Result :=
  event (fun s => s.fleetAbandon.fleetCount fun c => { c with breaks := bump c.breaks }) s

/-- R89: one more record of unknown kind, or ACK that names an unknown order kind. -/
def State.unknownRecord (s : State) : State := s.fleetCount fun c => { c with unknown := bump c.unknown }

/-- FLEET UNKNOWN KIND, R89 check 1. A known kind belongs to another row, and the model stops (log 5). -/
def execFleetUnknownKind (kind slot : Byte) (body : List Byte) (s : State) : Result :=
  if isMachineKind kind then .fault .kindIsKnown
  else .next (if s.takesRecord ⟨kind, slot, body⟩ then s.takeRecord.unknownRecord else s)

/-- R97: an order frame for machine `m` waits for the transmitter. -/
def Floor.inTransit (f : Floor) (m : Nat) : Bool := f.fleetTx.any fun o => decide (o.slot = m)

/-- R97: the frame for machine `m` has been sent, and its reply window starts. DESIGN CHOICE (log 28): the frame may stand
anywhere in the backlog, also behind one that became ready earlier. -/
def Floor.frameSent (k : Control) (f : Floor) (m : Nat) : Floor :=
  if f.inTransit m then
    { f with fleetTx := f.fleetTx.filter fun o => !decide (o.slot = m) }.modMachine m fun x =>
      { x with replyWindow := some (k.now + k.timing.replyWindow) }
  else f

/-- FLEET FRAME SENT, R97. With no frame waiting for the slot nothing has been sent, and nothing changes (log 5). -/
def execFleetFrameSent (slot : Nat) (s : State) : Result :=
  if isSlot slot then event (fun s => s.onFloor fun k f => f.frameSent k slot) s else .fault .noSuchSlot

/-- R99: a reply window expiry with an order outstanding: the miss, the loss check, the repeat. -/
def Floor.replyExpiry (k : Control) (f : Floor) (m : Nat) : Floor :=
  let g := f.modMachine m fun x => { x with replyWindow := none }
  let g := if k.mode = .standby then g else g.countMiss k m .reply
  match (g.machines.look m).bind fun x => x.outstanding with
  | some o =>
    { g with
      fleetTx := g.fleetTx ++ [{ slot := m, order := o }]
      fleetCounters := { g.fleetCounters with repeats := bump g.fleetCounters.repeats } }
  | none => g

/-- R99: the moment at which machine `m`'s reply window expires. -/
def Floor.replyDeadline (f : Floor) (m : Nat) : Option Nat := (f.machines.look m).bind fun x => x.replyWindow

/-- An expiry: the time base reaches the deadline and `g` acts; a stopped timer does not expire (R103, log 2, log 5). -/
def State.expire (deadline : Option Nat) (g : Control → Floor → Floor) (s : State) : State :=
  match deadline with
  | some t => (s.advanceTo t).onFloor g
  | none => s

/-- REPLY WINDOW EXPIRY, R99. -/
def execReplyWindowExpiry (slot : Nat) (s : State) : Result :=
  if isSlot slot then
    event (fun s => s.expire (s.floor.replyDeadline slot) fun k f => f.replyExpiry k slot) s
  else .fault .noSuchSlot

end Sys2Proof.Machine
end

