-- ==== Sys2Proof/Machine/Lines.lean ====
section
/-! DEFINITION. The meanings of the events of the approach lines and of the evacuation input. -/

namespace Sys2Proof.Machine

/-- FILTERED ACTIVE EDGE, R141 and R142. A line that is disabled or already active has no such edge (log 5). -/
def execFilteredActiveEdge (line : Nat) (s : State) : Result :=
  if isLine line then event (fun s => s.onFloor fun k f => f.activeEdgeEvent k line) s else .fault .noSuchLine

/-- FILTERED INACTIVE EDGE, R141 to R144. A line that is disabled or already inactive has no such edge (log 5). -/
def execFilteredInactiveEdge (line : Nat) (s : State) : Result :=
  if isLine line then event (fun s => s.onFloor fun k f => f.inactiveEdgeEvent k line) s else .fault .noSuchLine

/-- LINE STUCK, R144. -/
def execLineStuck (line : Nat) (flow : Bool) (s : State) : Result :=
  if isLine line then event (fun s => s.onFloor fun k f => f.stuckEvent k line flow) s else .fault .noSuchLine

/-- R141: the moment at which the hold timer of line `i` expires. -/
def Floor.holdDeadline (f : Floor) (i : Nat) : Option Nat := (f.lines.look i).bind fun l => l.hold

/-- R141, R143: the hold timer of line `i` expires, and its embargo ends. -/
def Floor.holdExpiry (k : Control) (f : Floor) (i : Nat) : Floor :=
  (f.modLine i fun l => { l with hold := none }).endIfInForce k i

/-- HOLD EXPIRY, R141 and R143. -/
def execHoldExpiry (line : Nat) (s : State) : Result :=
  if isLine line then event (fun s => s.expire (s.floor.holdDeadline line) fun k f => f.holdExpiry k line) s
  else .fault .noSuchLine

/-- R148: the moment at which the clear-out timer of line `i` expires in CLEARING. -/
def Floor.clearOutDeadline (f : Floor) (i : Nat) : Option Nat :=
  match f.lines.look i with
  | some l => if l.state = .clearing then l.clearTimer else none
  | none => none

/-- CLEAR OUT EXPIRY, R148. -/
def execClearOutExpiry (line : Nat) (s : State) : Result :=
  if isLine line then event (fun s => s.expire (s.floor.clearOutDeadline line) fun k f => f.breach k line) s
  else .fault .noSuchLine

/-- EVACUATION ACTIVE EDGE, R160 and R153. -/
def execEvacuationActiveEdge (s : State) : Result := event (State.evacEdgeEvent true) s

/-- EVACUATION INACTIVE EDGE, R160 and R153. -/
def execEvacuationInactiveEdge (s : State) : Result := event (State.evacEdgeEvent false) s

/-- INPUT SAMPLE, R139 and R153: inputs 0 to 15 are the approach lines, 16 the evacuation input. `flow` says that current
flows. -/
def execInputSample (input : Nat) (flow : Bool) (s : State) : Result :=
  if isLine input then event (fun s => s.onFloor fun k f => f.sampleLine k input flow) s
  else if input = Config.lineCount then event (State.sampleEvac flow) s
  else .fault .noSuchLine

end Sys2Proof.Machine
end

