-- ==== Sys2Proof/Machine/MachineCommands.lean ====
section
/-! DEFINITION. The meanings of the commands that name a machine: legs, halts, restore, withdrawal of the slot. -/

namespace Sys2Proof.Machine

/-! ### LEG LOAD (R69 to R72) -/

/-- R69: the fields of a LEG LOAD; `homing` is none for a byte other than 0 and 1. -/
structure LegFields where
  slot : Nat
  tag : Nat
  flow : Nat
  homing : Option Bool
  cells : List Nat
deriving DecidableEq, Repr, Inhabited

/-- R69 check 2: the fields lie in their ranges. -/
def LegFields.inRange (a : LegFields) : Bool :=
  isSlot a.slot && decide (2 ≤ a.cells.length) && decide (a.cells.length ≤ 32) && decide (a.flow ≤ 3) &&
    a.homing.isSome && a.cells.all isCell

/-- R67: the leg of the fields. -/
def LegFields.leg (a : LegFields) : Leg :=
  { tag := a.tag, flow := a.flow, homing := a.homing.getD false, cells := a.cells }

/-- R69 check 4: the staged slot is full, a withdrawal with the cancel flag is pending, or a refuge is in hand. -/
def Scrubber.legBusy (x : Scrubber) : Bool :=
  x.staged.isSome || (x.withdrawal.any fun w => w.cancel) || x.refugeInHand

/-- R69, Table 5-2: checks 1 to 7 in order; the first that fails gives the status, position and code. The position is
the cell's place in the list as sent, also beyond 31 in a list of more than 32 cells (log 19). -/
def State.legFault (a : LegFields) (s : State) : Option (Status × Option Nat × Option Nat) :=
  if s.control.mode = .standby then some (.refusedMode, none, none)
  else if a.inRange = false then some (.badValue, a.cells.findIdx? fun c => !isCell c, none)
  else
    match s.floor.machines.look a.slot with
    | none => some (.refusedState, none, none)
    | some x =>
      if x.state = .lost ∨ x.state = .stoodDown then some (.refusedState, none, none)
      else if x.legBusy then some (.refusedBusy, none, none)
      else if a.leg.heldByRecall s.control then some (.refusedMode, none, none)
      else
        match a.cells.findIdx? fun c => (s.floor.cells.look c).isNone with
        | some i => some (.notDefined, some i, none)
        | none => (s.floor.routeFault a.slot x a.cells).map fun e => (.badValue, some e.1, some e.2)

/-- R72: the leg is staged and a promotion attempted, without STAGE FREE. -/
def Floor.loadLeg (k : Control) (f : Floor) (m : Nat) (leg : Leg) : Floor :=
  (f.modMachine m fun x => { x with staged := some leg }).attempt k false m

/-- R72: the staged slot of machine `m` is empty, so the leg just loaded is active. -/
def Floor.stageEmpty (f : Floor) (m : Nat) : Bool := ((f.machines.look m).bind fun x => x.staged).isNone

/-- R69, R72: LEG LOAD on its fields. -/
def State.legLoad (a : LegFields) : Action := fun s =>
  match s.legFault a with
  | some (status, position, code) => (s, status, .legRefused position code)
  | none =>
    let t := s.onFloor fun k f => f.loadLeg k a.slot a.leg
    (t, .done, .legLoaded a.tag (t.floor.stageEmpty a.slot))

/-- LEG LOAD, R69. -/
def execLegLoad (ref : Byte) (body : List Byte) (s : State) : Result :=
  command 0x25#8 ref body
    (match body with
      | slot :: t1 :: t0 :: flow :: homing :: count :: bytes =>
        if bytes.length = 2 * count.toNat then
          State.legLoad ⟨slot.toNat, be16 t1 t0, flow.toNat, flagByte homing, be16s bytes⟩
        else badLength
      | _ => badLength) s

/-! ### LEG CANCEL (R82, R83) -/

/-- R82, R83: an accepted cancel: the staged leg is discarded; with scope ALL an active leg is withdrawn. -/
def Floor.cancelLeg (k : Control) (f : Floor) (m : Nat) (withdraw : Bool) : Floor :=
  let g := f.modMachine m fun x => { x with staged := none }
  if withdraw then g.startWithdrawal k true none m else g

/-- R82, R83: LEG CANCEL on its fields; `all` is the scope, none for a scope that is neither. -/
def State.legCancel (m : Nat) (all : Option Bool) : Action := fun s =>
  if s.control.mode = .standby then (s, .refusedMode, .nothing)
  else
    match all with
    | none => (s, .badValue, .nothing)
    | some all =>
      if isSlot m = false then (s, .badValue, .nothing)
      else
        match s.floor.machines.look m with
        | none => (s, .refusedState, .nothing)
        | some x =>
          if x.staged.isNone && (!all || x.active.isNone) then (s, .refusedState, .nothing)
          else
            let withdraw := all && x.active.isSome
            (s.onFloor fun k f => f.cancelLeg k m withdraw, .done,
              if all then .legCancelled withdraw else .nothing)

/-- LEG CANCEL, R82 and R83. -/
def execLegCancel (ref : Byte) (body : List Byte) (s : State) : Result :=
  command 0x26#8 ref body
    (match body with
      | [slot, scope] => State.legCancel slot.toNat (secondOfTwo scope)
      | _ => badLength) s

/-! ### MACHINE HALT and MACHINE RESUME (R117) -/

/-- R117: the machines that a halt or resume names, ascending; none for a refusal with its status. -/
def State.haltTargets (slot : Byte) (s : State) : Except Status (List Nat) :=
  if s.control.mode = .standby then .error .refusedMode
  else if slot = 0xFF#8 then .ok (s.floor.machines.keysWhere fun x => !decide (x.state = .lost))
  else if isSlot slot.toNat = false then .error .badValue
  else
    match s.floor.machines.look slot.toNat with
    | some x => if x.state = .lost then .error .refusedState else .ok [slot.toNat]
    | none => .error .refusedState

/-- R117: how many of the machines `ms` have or lack HOST in their halt sets. -/
def Floor.countHost (f : Floor) (ms : List Nat) (value : Bool) : Nat :=
  (ms.filter fun m => decide (((f.machines.look m).map fun x => x.halts.host) = some value)).length

/-- R117: MACHINE HALT on its slot byte. -/
def State.machineHalt (slot : Byte) : Action := fun s =>
  match s.haltTargets slot with
  | .error status => (s, status, .nothing)
  | .ok ms =>
    (s.onFloor fun k f => ms.foldl (Floor.addHalt k .host) f, .done, .machinesChanged (s.floor.countHost ms false))

/-- MACHINE HALT, R117. -/
def execMachineHalt (ref : Byte) (body : List Byte) (s : State) : Result :=
  command 0x27#8 ref body
    (match body with
      | [slot] => State.machineHalt slot
      | _ => badLength) s

/-- R117: MACHINE RESUME on its slot byte. -/
def State.machineResume (slot : Byte) : Action := fun s =>
  match s.haltTargets slot with
  | .error status => (s, status, .nothing)
  | .ok ms =>
    (s.onFloor fun k f => ms.foldl (Floor.removeHalt k .host) f, .done, .machinesChanged (s.floor.countHost ms true))

/-- MACHINE RESUME, R117. -/
def execMachineResume (ref : Byte) (body : List Byte) (s : State) : Result :=
  command 0x28#8 ref body
    (match body with
      | [slot] => State.machineResume slot
      | _ => badLength) s

/-! ### MACHINE RESTORE (R122, R123) -/

/-- R122 check 5: the cell may be given to machine `m` by a restore. -/
def Cell.restorable (c : Cell) (m : Nat) : Bool :=
  (c.occ.ownedBy m || (decide (c.occ = .free) && decide (c.embargo = 0))) &&
    !(decide (c.kind = .dock) && !decide (c.owner = some m))

/-- R122: the first check that fails. -/
def State.restoreFault (m c : Nat) (s : State) : Option Status :=
  if isSlot m = false ∨ isCell c = false then some .badValue
  else
    match s.floor.machines.look m with
    | none => some .refusedState
    | some x =>
      if ¬ (x.state = .lost ∨ x.state = .stoodDown ∨ x.halts.position = true) then some .refusedState
      else if x.withdrawal.isSome then some .refusedBusy
      else
        match s.floor.cells.look c with
        | none => some .notDefined
        | some cell => if cell.restorable m then none else some .refusedState

/-- R123: the record of a machine restored on cell `c`, with POSITION still in its halt set. -/
def Scrubber.restored (x : Scrubber) (k : Control) (c : Nat) : Scrubber :=
  { x with
    current := c
    ahead := []
    refuge := none
    active := none
    staged := none
    misses := 0
    safeStops := 0
    heard := false
    reported := none
    lastBeacon := none
    state := if x.halts.isEmpty then .idle else .halted
    beaconTimer := if k.mode = .standby then none else some (k.now + k.timing.beaconInterval * 1000) }

/-- R123: the cells of machine `m` other than `c`, ascending. -/
def Floor.otherCells (f : Floor) (m c : Nat) : List Nat := (f.cellsOf m).filter fun d => !decide (d = c)

/-- R123: an accepted restore of machine `m` on cell `c`. The machine has left LOST when POSITION is removed, so the
removal forms MOTION RESUME where it empties the set (log 11). -/
def Floor.restore (k : Control) (f : Floor) (m c : Nat) : Floor :=
  let others := f.otherCells m c
  let g := others.foldl (Floor.release k m) (f.leaveWait m)
  let g := (g.setOcc c (.held m)).place m c
  let g := g.modSettled k m fun x => x.restored k c
  let g := g.removeHalt k .position m
  let g :=
    match g.cells.look c with
    | some cell => if cell.embargo = 0 then g else g.startWithdrawal k true cell.refuge m
    | none => g
  g.offerReleased k others

/-- R122, R123: MACHINE RESTORE on its fields. -/
def State.machineRestore (m c : Nat) : Action := fun s =>
  match s.restoreFault m c with
  | some status => (s, status, .nothing)
  | none => (s.onFloor fun k f => f.restore k m c, .done, .nothing)

/-- MACHINE RESTORE, R122 and R123. -/
def execMachineRestore (ref : Byte) (body : List Byte) (s : State) : Result :=
  command 0x29#8 ref body
    (match body with
      | [slot, c1, c0] => State.machineRestore slot.toNat (be16 c1 c0)
      | _ => badLength) s

/-! ### MACHINE WITHDRAW (R106) -/

/-- R106: an accepted withdraw of machine `m`. -/
def Floor.withdraw (k : Control) (f : Floor) (m : Nat) : Floor :=
  let cells := f.cellsOf m
  let g := cells.foldl (Floor.release k m) ((f.leaveWait m).flushOrders m)
  { g with machines := g.machines.del m }.offerReleased k cells

/-- R106: MACHINE WITHDRAW of slot `m`. -/
def State.machineWithdraw (m : Nat) : Action := fun s =>
  if isSlot m = false then (s, .badValue, .nothing)
  else
    match s.floor.machines.look m with
    | none => (s, .refusedState, .nothing)
    | some x =>
      if x.state = .lost ∨ x.state = .stoodDown ∨ (x.state = .idle ∧ s.control.mode = .standby) then
        (s.onFloor fun k f => f.withdraw k m, .done, .cellsReleased (s.floor.cellsOf m).length)
      else (s, .refusedState, .nothing)

/-- MACHINE WITHDRAW, R106. -/
def execMachineWithdraw (ref : Byte) (body : List Byte) (s : State) : Result :=
  command 0x2A#8 ref body
    (match body with
      | [slot] => State.machineWithdraw slot.toNat
      | _ => badLength) s

end Sys2Proof.Machine
end

