-- ==== Sys2Proof/Machine/MachineRecords.lean ====
section
/-! DEFINITION. The meanings of the machine records (R89, R90). -/

namespace Sys2Proof.Machine

/-! ### BEACON (R108) -/

/-- R108: the beacon of machine `x` is valid at `now`. -/
def Scrubber.beaconValid (x : Scrubber) (k : Control) : Bool :=
  match x.lastBeacon with
  | none => true
  | some t => decide (k.timing.earlyLimit ≤ k.now - t)

/-- R108: a beacon of machine `m`, which is not LOST. -/
def Floor.beacon (k : Control) (f : Floor) (m battery water : Nat) : Floor :=
  match f.machines.look m with
  | none => f
  | some x =>
    if k.mode = .standby then f.recordSupplies k m battery water
    else if x.beaconValid k then
      (f.modMachine m fun y =>
        { y with
          misses := 0
          lastBeacon := some k.now
          beaconTimer := some (k.now + k.timing.beaconInterval * 1000) }).recordSupplies k m battery water
    else (f.modMachine m fun y => { y with earlyBeacons := bump y.earlyBeacons }).countMiss k m .earlyBeacon

/-- BEACON, R108. -/
def execBeacon (slot : Byte) (body : List Byte) (s : State) : Result :=
  machineRecord 0x41#8 slot body
    (match body with
      | [battery, water] =>
        some fun s => s.onFloor fun k f => f.beacon k slot.toNat (percent battery) (percent water)
      | _ => none) none s

/-! ### ARRIVE, REQUEST, ACK -/

/-- ARRIVE, R74 and R91. -/
def execArrive (slot : Byte) (body : List Byte) (s : State) : Result :=
  machineRecord 0x42#8 slot body
    (match body with
      | [c1, c0, count] => some fun s => s.onFloor fun k f => f.arrive k slot.toNat (be16 c1 c0) (requestCount count)
      | _ => none) none s

/-- REQUEST, R27; R89 check 5 on the count. -/
def execRequest (slot : Byte) (body : List Byte) (s : State) : Result :=
  machineRecord 0x43#8 slot body
    (match body with
      | [count] => some fun s => s.onFloor fun k f => f.request k slot.toNat (requestCount count)
      | _ => none)
    (if body = [0#8] then some State.stray else none) s

/-- R89 check 6: the ACK names an order kind. -/
def ackNamesOrder : List Byte → Bool
  | kind :: _ => decide (1 ≤ kind.toNat) && decide (kind.toNat ≤ 4)
  | [] => true

/-- ACK, R98; R89 check 6 on the order kind. -/
def execAck (slot : Byte) (body : List Byte) (s : State) : Result :=
  machineRecord 0x44#8 slot body
    (match body with
      | [kind, s1, s0, decline] =>
        some fun s => s.onFloor fun k f => f.ack k slot.toNat kind.toNat (be16 s1 s0) (fleetFlag decline)
      | _ => none)
    (if ackNamesOrder body then none else some State.unknownRecord) s

/-! ### FAULT STOP and RESTART (R118, R120) -/

/-- R118: a fault stop of machine `m`, which is not LOST. -/
def Floor.faultStop (k : Control) (f : Floor) (m code : Nat) : Floor :=
  match f.machines.look m with
  | none => f
  | some x =>
    let count := bumpTo 15 x.safeStops
    let g := f.modMachine m fun y => { y with safeStops := count, lastFault := some code }
    if x.state = .stoodDown then g
    else if k.timing.standDown < count then g.standDown k m code
    else (g.addHalt k .machine m).raise k .machineFault (some m) (some (.faultStop code))

/-- FAULT STOP, R118; R89 check 5 on the code. -/
def execFaultStop (slot : Byte) (body : List Byte) (s : State) : Result :=
  machineRecord 0x45#8 slot body
    (match body with
      | [code] => some fun s => s.onFloor fun k f => f.faultStop k slot.toNat code.toNat
      | _ => none)
    (if body = [0#8] then some State.stray else none) s

/-- R120: a restart of machine `m`, which is not LOST. -/
def Floor.restart (k : Control) (f : Floor) (m : Nat) : Floor :=
  match f.machines.look m with
  | none => f
  | some x => if x.state = .stoodDown then f else f.removeHalt k .machine m

/-- RESTART, R120. -/
def execRestart (slot : Byte) (body : List Byte) (s : State) : Result :=
  machineRecord 0x46#8 slot body
    (if body = [] then some fun s => s.onFloor fun k f => f.restart k slot.toNat else none) none s

end Sys2Proof.Machine
end

