-- ==== Sys2Proof/Machine/Module.lean ====
section
/-! DEFINITION. The meanings of the events of the module as a whole: supply, reset input, full reset; and the front
panel's mode indicator. -/

namespace Sys2Proof.Machine

/-- R149: every clear output is open. -/
def Floor.openOutputs (f : Floor) : Floor := { f with lines := f.lines.each fun _ l => { l with clearOutput := false } }

/-- FULL RESET, R182: every block takes the state that its rules give after a full reset; the module is powered and its
reset input released. The commands waiting in the model's own queue stand. -/
def execFullReset (s : State) : Result := .next { State.reset with pending := s.pending }

/-- RESET INPUT HELD, R182: every clear output is open, and no event is taken until the reset that follows (log 6). -/
def execResetInputHeld (s : State) : Result :=
  .next { s with resetHeld := true, floor := s.floor.openOutputs }

/-- POWER LOSS, R149 and R182: every clear output is open and the PWR indicator is out (log 6). -/
def execPowerLoss (s : State) : Result := .next { s with powered := false, floor := s.floor.openOutputs }

/-- R182, Table 11-6: what the MODE indicator shows. -/
inductive Indicator where
  | off
  | steady
  | slowFlash
  | fastFlash
deriving DecidableEq, Repr

/-- R182, Table 11-6: the MODE indicator; a module without supply lights nothing. -/
def State.modeIndicator (s : State) : Indicator :=
  if s.powered then
    match s.control.mode with
    | .standby => .off
    | .night => .steady
    | .recalling => .slowFlash
    | .evacuation => .fastFlash
  else .off

end Sys2Proof.Machine
end

