-- ==== Sys2Proof/Machine/SetupCommands.lean ====
section
/-! DEFINITION. The meanings of the setting-up commands: map, lanes, lines, timing, enrolment, FLEET RESET, NIGHT BEGIN,
drying, environment, marks, notices. Each takes the ref byte and the body of its frame. -/

namespace Sys2Proof.Machine

/-- CELL DEFINE, R8 to R13. -/
def execCellDefine (ref : Byte) (body : List Byte) (s : State) : Result :=
  command 0x01#8 ref body
    (match body with
      | count :: bytes =>
        match readEntries count.toNat bytes with
        | some es => State.cellDefine es
        | none => badLength
      | [] => badLength) s

/-- LANE DEFINE, R55 and R56. -/
def execLaneDefine (ref : Byte) (body : List Byte) (s : State) : Result :=
  command 0x02#8 ref body
    (match body with
      | lane :: count :: bytes =>
        if bytes.length = 2 * count.toNat then State.laneDefine lane.toNat (be16s bytes) else badLength
      | _ => badLength) s

/-- R138: LINE SETUP on its fields; `cfg` is none where a field lies outside its range. -/
def State.lineSetup (i : Nat) (cfg : Option LineConfig) : Action := fun s =>
  if s.control.mode ≠ .standby then (s, .refusedMode, .nothing)
  else
    match cfg with
    | none => (s, .badValue, .nothing)
    | some cfg =>
      if i < Config.lineCount then
        let t := s.onFloor fun k f => f.setupLine k i cfg
        (t, .done, .lineSet cfg (((t.floor.lines.look i).map Line.state).getD .quiet))
      else (s, .badValue, .nothing)

/-- LINE SETUP, R138. -/
def execLineSetup (ref : Byte) (body : List Byte) (s : State) : Result :=
  command 0x03#8 ref body
    (match body with
      | [line, en, pol, mode, thr, r1, r0, m1, m0, h1, h0, c1, c0] =>
        State.lineSetup line.toNat (readLineConfig en pol mode thr r1 r0 m1 m0 h1 h0 c1 c0)
      | _ => badLength) s

/-- R174: the twelve settings are replaced, with the two changes that take effect at once: a lost threshold that has
changed (R109), and an evacuation filter threshold below the filter counter (R153). -/
def State.replaceTiming (t : Timing) (s : State) : State :=
  let changed := !decide (t.lostThreshold = s.control.timing.lostThreshold)
  let s := s.onControl fun k => { k with timing := t }
  let s := s.onFloor fun _ f =>
    { f with machines := f.machines.each fun _ x =>
        if changed && decide (x.state = .lost) then { x with misses := t.lostThreshold } else x }
  { s with evac := { s.evac with counter := min s.evac.counter t.evacFilter } }

/-- R174: TIMING SETUP with a full body. -/
def State.timingSetup (t : Timing) : Action := fun s =>
  if s.control.mode ≠ .standby then (s, .refusedMode, .nothing)
  else
    match firstFalse (timingChecks t) with
    | some position => (s, .badValue, .timingRefused position)
    | none => (s.replaceTiming t, .done, .timing t)

/-- TIMING SETUP, R174. -/
def execTimingSetup (ref : Byte) (body : List Byte) (s : State) : Result :=
  command 0x04#8 ref body
    (if body = [] then fun s => (s, .done, .timing s.control.timing)
     else
      match readTiming body with
      | some t => State.timingSetup t
      | none => badLength) s

/-- R105: the enrolment itself. -/
def Floor.enroll (f : Floor) (m rank dock : Nat) : Floor :=
  { f with machines := f.machines.put m (Scrubber.enrolled rank dock) }.dockMachine m

/-- R105: MACHINE ENROLL on its fields. -/
def State.enroll (m rank dock : Nat) : Action := fun s =>
  if s.control.mode ≠ .standby then (s, .refusedMode, .nothing)
  else if isSlot m = false ∨ 3 < rank ∨ isCell dock = false then (s, .badValue, .nothing)
  else if (s.floor.machines.look m).isSome then (s, .refusedState, .nothing)
  else
    match s.floor.cells.look dock with
    | none => (s, .notDefined, .nothing)
    | some c =>
      if s.floor.dockFit m dock = false then (s, .badValue, .nothing)
      else if c.occ = .free ∧ c.embargo = 0 then (s.onFloor fun _ f => f.enroll m rank dock, .done, .nothing)
      else (s, .refusedBusy, .nothing)

/-- MACHINE ENROLL, R105. -/
def execMachineEnroll (ref : Byte) (body : List Byte) (s : State) : Result :=
  command 0x05#8 ref body
    (match body with
      | [slot, rank, d1, d0] => State.enroll slot.toNat rank.toNat (be16 d1 d0)
      | _ => badLength) s

/-- FLEET RESET, R168. -/
def execFleetReset (ref : Byte) (body : List Byte) (s : State) : Result :=
  command 0x06#8 ref body
    (withoutBody body fun s =>
      if s.control.mode ≠ .standby then (s, .refusedMode, .nothing)
      else
        let t := s.fleetReset
        let left := t.floor.machines.length
        (t, .done, .fleetReset left (s.floor.machines.length - left))) s

/-- R155: the answer of a command of chapter 10, whose reply carries the mode record (log 18). -/
def State.modeAnswer (s : State) (status : Status) : State × Status × ReplyData :=
  (s, status, .modeRecord s.control.modeRecord)

/-- NIGHT BEGIN, R156. -/
def execNightBegin (ref : Byte) (body : List Byte) (s : State) : Result :=
  command 0x07#8 ref body
    (withoutBody body fun s =>
      if s.control.mode ≠ .standby then s.modeAnswer .refusedMode
      else if s.evac.level then s.modeAnswer .refusedState
      else
        match s.floor.mapFault with
        | some fault => (s, .mapFault, .nightBeginFault s.control.modeRecord fault)
        | none => s.beginNight.modeAnswer .done) s

/-- R51: the four limits, *L*, *Ls*, *U*, *Us*. -/
structure Limits where
  low : Nat
  lowSet : Nat
  high : Nat
  highSet : Nat
deriving DecidableEq, Repr, Inhabited

/-- R51 check 2: the limit part as a set. -/
def Limits.fit (p : Limits) : Bool :=
  decide (1 ≤ p.low) && decide (p.low ≤ 7200) && decide (p.low ≤ p.high) && decide (p.high ≤ 7200) &&
    decide (p.low ≤ p.lowSet) && decide (p.lowSet ≤ p.high) && decide (p.high ≤ p.highSet) && decide (p.highSet ≤ 7200)

/-- R51: the first failing item of a DRYING SETUP. -/
def dryingFault (classes : Option (List Nat)) (limits : Option Limits) : Option DryingItem :=
  match (classes.getD []).findIdx? fun b => !(decide (30 ≤ b) && decide (b ≤ 3600)) with
  | some i => some (.floorClass i)
  | none => if limits.all Limits.fit then none else some .limits

/-- R51: the settings with the present parts replaced. -/
def Drying.replace (d : Drying) (classes : Option (List Nat)) (limits : Option Limits) : Drying :=
  let d := { d with base := classes.getD d.base }
  match limits with
  | some p => { d with low := p.low, lowSet := p.lowSet, high := p.high, highSet := p.highSet }
  | none => d

/-- R51, R52: DRYING SETUP on its parts. -/
def State.dryingSetup (classes : Option (List Nat)) (limits : Option Limits) : Action := fun s =>
  match dryingFault classes limits with
  | some item => (s, .badValue, .drying s.control.drying (some item))
  | none =>
    let d := s.control.drying.replace classes limits
    (s.onControl fun k => { k with drying := d }, .done, .drying d none)

/-- Table 11-8: the limit part's eight bytes. -/
def readLimits : List Byte → Option Limits
  | [l1, l0, a1, a0, u1, u0, b1, b0] => some ⟨be16 l1 l0, be16 a1 a0, be16 u1 u0, be16 b1 b0⟩
  | _ => none

/-- DRYING SETUP, R51 and R52. Bits of the parts byte other than 0 and 1 name no part and are not read (log 18). -/
def execDryingSetup (ref : Byte) (body : List Byte) (s : State) : Result :=
  command 0x10#8 ref body
    (match body with
      | parts :: bytes =>
        let classSize := if parts.getLsbD 0 then 16 else 0
        let limitSize := if parts.getLsbD 1 then 8 else 0
        if bytes.length = classSize + limitSize then
          State.dryingSetup (if parts.getLsbD 0 then some (be16s (bytes.take 16)) else none)
            (if parts.getLsbD 1 then readLimits (bytes.drop classSize) else none)
        else badLength
      | [] => badLength) s

/-- R53: a temperature clamped into its range. -/
def clampTemperature (t : Int) : Int := if t < -10 then -10 else if 40 < t then 40 else t

/-- R53: ENVIRONMENT SET on its fields. -/
def State.environmentSet (humidity : Option Nat) (temperature : Option Int) : Action := fun s =>
  let d := s.control.drying
  let h := (humidity.map fun h => min h 100).getD d.humidity
  let t := (temperature.map clampTemperature).getD d.temperature
  let clamped := (humidity.any fun h => decide (100 < h)) || (temperature.any fun t => decide (clampTemperature t ≠ t))
  (s.onControl fun k => { k with drying := { k.drying with humidity := h, temperature := t } },
    if clamped then .doneClamped else .done, .environment h t)

/-- ENVIRONMENT SET, R53. Bits of the present byte other than 0 and 1 name no field and are not read (log 18). -/
def execEnvironmentSet (ref : Byte) (body : List Byte) (s : State) : Result :=
  command 0x11#8 ref body
    (match body with
      | [present, h, t] =>
        State.environmentSet (if present.getLsbD 0 then some h.toNat else none)
          (if present.getLsbD 1 then some t.toInt else none)
      | _ => badLength) s

/-- R166: mark `i` written. -/
def State.writeMark (i : Nat) (m : Mark) : Action := fun s =>
  if i < Config.markCount then ({ s with marks := s.marks.upd i fun _ => m }, .done, .mark m)
  else (s, .badValue, .nothing)

/-- R166: MARK SET on its fields; `action` is none for an unknown action or a zone out of range. -/
def State.markSet (i time : Nat) (action : Option MarkAction) : Action :=
  match action with
  | some a => if time ≤ Config.clockLast then State.writeMark i (.armed time a) else refuse .badValue .nothing
  | none => refuse .badValue .nothing

/-- MARK SET, R166. -/
def execMarkSet (ref : Byte) (body : List Byte) (s : State) : Result :=
  command 0x12#8 ref body
    (match body with
      | [index, t2, t1, t0, action, zone] => State.markSet index.toNat (be24 t2 t1 t0) (readAction action zone)
      | _ => badLength) s

/-- MARK CLEAR, R166. -/
def execMarkClear (ref : Byte) (body : List Byte) (s : State) : Result :=
  command 0x13#8 ref body
    (match body with
      | [index] => State.writeMark index.toNat .empty
      | _ => badLength) s

/-- R179: NOTICE CONTROL on its fields. -/
def State.noticeControl (mask : BitVec 16) (ceiling : Nat) : Action := fun s =>
  if Config.classCount < ceiling then (s, .badValue, .nothing)
  else
    let s := s.onFloor fun _ f =>
      Floor.sendAllDue
        { f with ceiling := ceiling, notices := f.notices.each fun n r => { r with enabled := mask.getLsbD n } }
    (s, .done, .noticeControl (s.floor.notices.map fun e => e.2.enabled) s.floor.ceiling)

/-- NOTICE CONTROL, R179. Bits 12 to 15 of the mask name no class and are not read (log 18). -/
def execNoticeControl (ref : Byte) (body : List Byte) (s : State) : Result :=
  command 0x14#8 ref body
    (match body with
      | [e1, e0, ceiling] => State.noticeControl (BitVec.ofNat 16 (be16 e1 e0)) ceiling.toNat
      | _ => badLength) s

/-- R180: NOTICE CLEAR of the classes that `named` picks. -/
def State.noticeClear (named : Nat → Bool) : Action := fun s =>
  (s.onFloor fun _ f =>
      Floor.sendAllDue { f with notices := f.notices.each fun n r => if named n then r.cleared else r },
    .done, .noticeCopies (s.floor.notices.filter fun e => named e.1))

/-- NOTICE CLEAR, R180. -/
def execNoticeClear (ref : Byte) (body : List Byte) (s : State) : Result :=
  command 0x15#8 ref body
    (match body with
      | [cls] =>
        if cls = 0xFF#8 then State.noticeClear fun _ => true
        else if cls.toNat < Config.classCount then State.noticeClear fun n => decide (n = cls.toNat)
        else refuse .badValue .nothing
      | _ => badLength) s

end Sys2Proof.Machine
end

