-- ==== Sys2Proof/Machine/NightCommands.lean ====
section
/-! DEFINITION. The meanings of the commands that move the part mode, the night clock and the zones. -/

namespace Sys2Proof.Machine

/-- R157: NIGHT RECALL by the part mode it finds. -/
def State.nightRecall (s : State) : State × Status × ReplyData :=
  match s.control.mode, s.control.saved with
  | .standby, _ => s.modeAnswer .refusedMode
  | .night, _ => (s.enterRecall .host none).modeAnswer .done
  | .evacuation, some .night =>
    (s.onControl fun k => { k with saved := some .recalling, recallReason := some .host }).modeAnswer .done
  | .evacuation, _ => s.modeAnswer .done
  | .recalling, _ => s.modeAnswer .done

/-- NIGHT RECALL, R157. -/
def execNightRecall (ref : Byte) (body : List Byte) (s : State) : Result :=
  command 0x20#8 ref body (withoutBody body State.nightRecall) s

/-- R158: NIGHT CONTINUE by the part mode it finds. -/
def State.nightContinue (s : State) : State × Status × ReplyData :=
  match s.control.mode, s.control.saved with
  | .standby, _ => s.modeAnswer .refusedMode
  | .recalling, _ =>
    let s := s.onControl fun k => { k with mode := .night, recallReason := none }
    ((s.onControl Control.startSilence).onFloor Floor.attemptAll).modeAnswer .done
  | .evacuation, some .recalling =>
    ((s.onControl fun k => { k with saved := some .night, recallReason := none }).onFloor Floor.attemptAll).modeAnswer
      .done
  | .evacuation, _ => s.modeAnswer .done
  | .night, _ => s.modeAnswer .done

/-- NIGHT CONTINUE, R158. -/
def execNightContinue (ref : Byte) (body : List Byte) (s : State) : Result :=
  command 0x21#8 ref body (withoutBody body State.nightContinue) s

/-- R162 check 2: the lowest slot whose machine does not let the night end. -/
def Floor.awayFromHome (f : Floor) : Option Nat := (f.machines.keysWhere fun x => !x.home).head?

/-- NIGHT END, R162. -/
def execNightEnd (ref : Byte) (body : List Byte) (s : State) : Result :=
  command 0x22#8 ref body
    (withoutBody body fun s =>
      if s.control.mode ≠ .recalling then s.modeAnswer .refusedMode
      else
        match s.floor.awayFromHome with
        | some m => (s, .refusedBusy, .nightEndBusy s.control.modeRecord m)
        | none => s.endNight.modeAnswer .done) s

/-- R161: RESUME ALL. A part in EVACUATION has a saved mode (R155); without one NIGHT is restored (log 22). -/
def State.resumeAllCommand (s : State) : State × Status × ReplyData :=
  if s.control.mode ≠ .evacuation then s.modeAnswer .refusedMode
  else if s.evac.level then s.modeAnswer .refusedState
  else (s.resumeAll (s.control.saved.getD .night)).modeAnswer .done

/-- RESUME ALL, R161. -/
def execResumeAll (ref : Byte) (body : List Byte) (s : State) : Result :=
  command 0x23#8 ref body (withoutBody body State.resumeAllCommand) s

/-- R165: the clock set to `v`, and the marks that this fires. The clock stands at `v` while they fire (log 23). -/
def State.setClock (v : Nat) (s : State) : State × Nat :=
  let fired := if s.control.clock < v then s.marksBetween s.control.clock v else []
  let s := s.onControl fun k => { k with clock := v, clockDue := k.now + 1000 }
  (s.fireMarks fired, fired.length)

/-- R165: CLOCK SET on its field. -/
def State.clockSet (v : Nat) : Action := fun s =>
  if s.control.mode = .standby then s.modeAnswer .refusedMode
  else if Config.clockLast < v then s.modeAnswer .badValue
  else
    let r := s.setClock v
    (r.1, .done, .clockSet r.1.control.modeRecord r.2)

/-- CLOCK SET, R165. -/
def execClockSet (ref : Byte) (body : List Byte) (s : State) : Result :=
  command 0x24#8 ref body
    (match body with
      | [v2, v1, v0] => State.clockSet (be24 v2 v1 v0)
      | _ => badLength) s

/-- R163: a zone command's checks, and its reply with the open state after it. -/
def State.zoneCommand (z : Nat) (g : State → State) : Action := fun s =>
  if s.control.mode = .standby then (s, .refusedMode, .nothing)
  else if z < Config.zoneCount then
    let t := g s
    (t, .done, .zoneState (t.control.zoneOpen z))
  else (s, .badValue, .nothing)

/-- ZONE CLOSE, R163. -/
def execZoneClose (ref : Byte) (body : List Byte) (s : State) : Result :=
  command 0x2B#8 ref body
    (match body with
      | [zone] => State.zoneCommand zone.toNat (State.closeZone zone.toNat)
      | _ => badLength) s

/-- ZONE OPEN, R163. -/
def execZoneOpen (ref : Byte) (body : List Byte) (s : State) : Result :=
  command 0x2C#8 ref body
    (match body with
      | [zone] => State.zoneCommand zone.toNat (State.openZone zone.toNat)
      | _ => badLength) s

end Sys2Proof.Machine
end

