-- ==== Sys2Proof/Machine/QueryCommands.lean ====
section
/-! DEFINITION. The meanings of the queries. Each is accepted in every mode and changes no state; the records it reports
are those that stand when the command is taken. -/

namespace Sys2Proof.Machine

/-- NOTICE READ, R180. -/
def execNoticeRead (ref : Byte) (body : List Byte) (s : State) : Result :=
  command 0x1D#8 ref body (withoutBody body fun s => (s, .done, .noticesAll s.floor.notices s.floor.ceiling)) s

/-- R14: CELL READ of cell `c`. -/
def State.cellRead (c : Nat) : Action := fun s =>
  if isCell c = false then (s, .badValue, .nothing)
  else
    match s.floor.cells.look c with
    | some x => (s, .done, .cell c x s.control.now)
    | none => (s, .notDefined, .nothing)

/-- CELL READ, R14. -/
def execCellRead (ref : Byte) (body : List Byte) (s : State) : Result :=
  command 0x18#8 ref body
    (match body with
      | [c1, c0] => State.cellRead (be16 c1 c0)
      | _ => badLength) s

/-- R124: MACHINE READ of slot `m`. -/
def State.machineRead (m : Nat) : Action := fun s =>
  if isSlot m = false then (s, .badValue, .nothing)
  else
    match s.floor.machines.look m with
    | some x => (s, .done, .machine x)
    | none => (s, .done, .machineAbsent)

/-- MACHINE READ, R124. -/
def execMachineRead (ref : Byte) (body : List Byte) (s : State) : Result :=
  command 0x19#8 ref body
    (match body with
      | [slot] => State.machineRead slot.toNat
      | _ => badLength) s

/-- R66: LANE READ of lane `l`. -/
def State.laneRead (l : Nat) : Action := fun s =>
  if l < Config.laneCount then
    match s.floor.lanes.look l with
    | some r => (s, .done, .lane r (s.floor.machines.keys.filter fun m => s.floor.hasLaneCell m l))
    | none => (s, .notDefined, .nothing)
  else (s, .badValue, .nothing)

/-- LANE READ, R66. -/
def execLaneRead (ref : Byte) (body : List Byte) (s : State) : Result :=
  command 0x1A#8 ref body
    (match body with
      | [lane] => State.laneRead lane.toNat
      | _ => badLength) s

/-- R152: how many cells the band of line `i` has. -/
def Floor.bandCells (f : Floor) (i : Nat) : Nat := (f.cells.keysWhere fun c => c.inBand i).length

/-- R152: LINE READ of number `i`; 16 names the evacuation input. -/
def State.lineRead (i : Nat) : Action := fun s =>
  if i = Config.lineCount then (s, .done, .evacuationInput s.control.timing.evacFilter s.evac)
  else
    match s.floor.lines.look i with
    | some l => (s, .done, .line l s.control.now (s.floor.bandCells i) (s.floor.bandTaken i))
    | none => (s, .badValue, .nothing)

/-- LINE READ, R152. -/
def execLineRead (ref : Byte) (body : List Byte) (s : State) : Result :=
  command 0x1B#8 ref body
    (match body with
      | [line] => State.lineRead line.toNat
      | _ => badLength) s

/-- COUNTERS READ, R175. -/
def execCountersRead (ref : Byte) (body : List Byte) (s : State) : Result :=
  command 0x1C#8 ref body
    (withoutBody body fun s =>
      (s, .done,
        .counters s.control.modeRecord s.control.zones s.marks s.ports.supCounters s.floor.fleetCounters)) s

/-- MAP CHECK, R15. -/
def execMapCheck (ref : Byte) (body : List Byte) (s : State) : Result :=
  command 0x1E#8 ref body
    (withoutBody body fun s =>
      (s, .done,
        match s.floor.mapFault with
        | some fault => .mapFault fault
        | none => .mapPass s.floor.cells.length s.floor.lanes.length)) s

end Sys2Proof.Machine
end

