-- ==== Sys2Proof/Machine/SupervisoryPort.lean ====
section
/-! DEFINITION. The meanings of the supervisory port's own events. -/

namespace Sys2Proof.Machine

/-- R172: the answer to a frame whose kind is no command. -/
def unknownKind : Action := fun s =>
  (s.supCount fun c => { c with unknown := bump c.unknown }, .unknownKind, .nothing)

/-- SUPERVISORY UNKNOWN KIND, R172. A known kind belongs to another row, and the model stops (log 5). -/
def execSupervisoryUnknownKind (kind ref : Byte) (body : List Byte) (s : State) : Result :=
  if isCommandKind kind then .fault .kindIsKnown else command kind ref body unknownKind s

/-- SUPERVISORY FRAME, R171: bytes reach the port, up to the completion of a frame or beyond (log 24). -/
def execSupervisoryFrame (bytes : List Byte) (s : State) : Result := event (State.supBytes bytes) s

/-- SUPERVISORY GAP TIMEOUT, R171: the frame being read is abandoned and counted. With no frame being read there is no
gap between two bytes of one frame, and nothing changes (log 5). -/
def execSupervisoryGapTimeout (s : State) : Result :=
  event (fun s =>
    if s.ports.supReading = [] then s else s.supAbandon.supCount fun c => { c with framing := bump c.framing }) s

/-- SUPERVISORY BREAK, R171: counted during a frame, which it abandons, and between frames. -/
def execSupervisoryBreak (s : State) : Result :=
  event (fun s => s.supAbandon.supCount fun c => { c with breaks := bump c.breaks }) s

end Sys2Proof.Machine
end

