-- ==== Sys2Proof/Machine/Timers.lean ====
section
/-! DEFINITION. The meanings of the timer expiries of machines, cells and the part. An expiry of a timer that is stopped
changes nothing (R103, log 5). -/

namespace Sys2Proof.Machine

/-! ### Machines (R109, R114) -/

/-- The moment at which machine `m`'s beacon timer expires. -/
def Floor.beaconDeadline (f : Floor) (m : Nat) : Option Nat := (f.machines.look m).bind fun x => x.beaconTimer

/-- R109: the beacon timer of machine `m` expires: a miss, and the timer restarts unless the machine becomes LOST. -/
def Floor.beaconExpiry (k : Control) (f : Floor) (m : Nat) : Floor :=
  (f.modMachine m fun x => { x with beaconTimer := some (k.now + k.timing.beaconInterval * 1000) }).countMiss k m
    .beaconTimer

/-- BEACON TIMER EXPIRY, R109. -/
def execBeaconTimerExpiry (slot : Nat) (s : State) : Result :=
  if isSlot slot then
    event (fun s => s.expire (s.floor.beaconDeadline slot) fun k f => f.beaconExpiry k slot) s
  else .fault .noSuchSlot

/-- The moment at which machine `m`'s progress timer expires. -/
def Floor.progressDeadline (f : Floor) (m : Nat) : Option Nat := (f.machines.look m).bind fun x => x.progress

/-- R114: machine `m` becomes STALLED. -/
def Floor.stall (k : Control) (f : Floor) (m : Nat) : Floor :=
  ((f.leaveOrdinary m).modSettled k m fun x => { x with state := .stalled }).raise k .machineFault (some m) (some .stall)

/-- PROGRESS TIMER EXPIRY, R114. -/
def execProgressTimerExpiry (slot : Nat) (s : State) : Result :=
  if isSlot slot then
    event (fun s => s.expire (s.floor.progressDeadline slot) fun k f => f.stall k slot) s
  else .fault .noSuchSlot

/-! ### Cells (R20) -/

/-- R20: the moment at which the GUARD interval of cell `c` runs out. -/
def Floor.guardDeadline (f : Floor) (c : Nat) : Option Nat :=
  match (f.cells.look c).map Cell.occ with
  | some (.guarded t) => some t
  | _ => none

/-- R20: the moment at which the WET interval of cell `c` runs out. -/
def Floor.wetDeadline (f : Floor) (c : Nat) : Option Nat :=
  match (f.cells.look c).map Cell.occ with
  | some (.wet t _) => some t
  | _ => none

/-- R20, R37: cell `c` becomes FREE and is offered when it is available. -/
def Floor.freeCell (k : Control) (f : Floor) (c : Nat) : Floor := (f.setOcc c .free).offerCell k c

/-- GUARD EXPIRY, R20. -/
def execGuardExpiry (cell : Nat) (s : State) : Result :=
  if isCell cell then
    event (fun s => s.expire (s.floor.guardDeadline cell) fun k f => f.freeCell k cell) s
  else .fault .noSuchCell

/-- WET EXPIRY, R20. -/
def execWetExpiry (cell : Nat) (s : State) : Result :=
  if isCell cell then
    event (fun s => s.expire (s.floor.wetDeadline cell) fun k f => f.freeCell k cell) s
  else .fault .noSuchCell

/-! ### The part (R159, R164) -/

/-- R159, R157: the host silence timer expires. -/
def State.silenceExpiry (s : State) : State :=
  match s.control.silence with
  | some t => (s.advanceTo t).enterRecall .silent none
  | none => s

/-- HOST SILENCE EXPIRY, R159. -/
def execHostSilenceExpiry (s : State) : Result := event State.silenceExpiry s

/-- CLOCK ADVANCE, R164. A stopped clock does not advance. -/
def execClockAdvance (s : State) : Result := event State.clockTick s

end Sys2Proof.Machine
end

