-- ==== Sys2Proof/Machine/Dispatch.lean ====
section
/-! DEFINITION. The dispatch: one arm for each command. -/

namespace Sys2Proof.Machine

open Sys2Proof

def exec (i : Instr) (s : State) : Host.Outcome State Fault Refusal :=
  match i with
  | .cellDefine ref body => Sys2Proof.Machine.execCellDefine ref body s
  | .laneDefine ref body => Sys2Proof.Machine.execLaneDefine ref body s
  | .lineSetup ref body => Sys2Proof.Machine.execLineSetup ref body s
  | .timingSetup ref body => Sys2Proof.Machine.execTimingSetup ref body s
  | .machineEnroll ref body => Sys2Proof.Machine.execMachineEnroll ref body s
  | .fleetReset ref body => Sys2Proof.Machine.execFleetReset ref body s
  | .nightBegin ref body => Sys2Proof.Machine.execNightBegin ref body s
  | .dryingSetup ref body => Sys2Proof.Machine.execDryingSetup ref body s
  | .environmentSet ref body => Sys2Proof.Machine.execEnvironmentSet ref body s
  | .markSet ref body => Sys2Proof.Machine.execMarkSet ref body s
  | .markClear ref body => Sys2Proof.Machine.execMarkClear ref body s
  | .noticeControl ref body => Sys2Proof.Machine.execNoticeControl ref body s
  | .noticeClear ref body => Sys2Proof.Machine.execNoticeClear ref body s
  | .noticeRead ref body => Sys2Proof.Machine.execNoticeRead ref body s
  | .cellRead ref body => Sys2Proof.Machine.execCellRead ref body s
  | .machineRead ref body => Sys2Proof.Machine.execMachineRead ref body s
  | .laneRead ref body => Sys2Proof.Machine.execLaneRead ref body s
  | .lineRead ref body => Sys2Proof.Machine.execLineRead ref body s
  | .countersRead ref body => Sys2Proof.Machine.execCountersRead ref body s
  | .mapCheck ref body => Sys2Proof.Machine.execMapCheck ref body s
  | .nightRecall ref body => Sys2Proof.Machine.execNightRecall ref body s
  | .nightContinue ref body => Sys2Proof.Machine.execNightContinue ref body s
  | .nightEnd ref body => Sys2Proof.Machine.execNightEnd ref body s
  | .resumeAll ref body => Sys2Proof.Machine.execResumeAll ref body s
  | .clockSet ref body => Sys2Proof.Machine.execClockSet ref body s
  | .legLoad ref body => Sys2Proof.Machine.execLegLoad ref body s
  | .legCancel ref body => Sys2Proof.Machine.execLegCancel ref body s
  | .machineHalt ref body => Sys2Proof.Machine.execMachineHalt ref body s
  | .machineResume ref body => Sys2Proof.Machine.execMachineResume ref body s
  | .machineRestore ref body => Sys2Proof.Machine.execMachineRestore ref body s
  | .machineWithdraw ref body => Sys2Proof.Machine.execMachineWithdraw ref body s
  | .zoneClose ref body => Sys2Proof.Machine.execZoneClose ref body s
  | .zoneOpen ref body => Sys2Proof.Machine.execZoneOpen ref body s
  | .supervisoryUnknownKind kind ref body => Sys2Proof.Machine.execSupervisoryUnknownKind kind ref body s
  | .supervisoryFrame bytes => Sys2Proof.Machine.execSupervisoryFrame bytes s
  | .supervisoryGapTimeout => Sys2Proof.Machine.execSupervisoryGapTimeout s
  | .supervisoryBreak => Sys2Proof.Machine.execSupervisoryBreak s
  | .fleetFrame bytes => Sys2Proof.Machine.execFleetFrame bytes s
  | .fleetGapTimeout => Sys2Proof.Machine.execFleetGapTimeout s
  | .fleetBreak => Sys2Proof.Machine.execFleetBreak s
  | .fleetUnknownKind kind slot body => Sys2Proof.Machine.execFleetUnknownKind kind slot body s
  | .beacon slot body => Sys2Proof.Machine.execBeacon slot body s
  | .arrive slot body => Sys2Proof.Machine.execArrive slot body s
  | .request slot body => Sys2Proof.Machine.execRequest slot body s
  | .ack slot body => Sys2Proof.Machine.execAck slot body s
  | .faultStop slot body => Sys2Proof.Machine.execFaultStop slot body s
  | .restart slot body => Sys2Proof.Machine.execRestart slot body s
  | .fleetFrameSent slot => Sys2Proof.Machine.execFleetFrameSent slot s
  | .replyWindowExpiry slot => Sys2Proof.Machine.execReplyWindowExpiry slot s
  | .beaconTimerExpiry slot => Sys2Proof.Machine.execBeaconTimerExpiry slot s
  | .progressTimerExpiry slot => Sys2Proof.Machine.execProgressTimerExpiry slot s
  | .guardExpiry cell => Sys2Proof.Machine.execGuardExpiry cell s
  | .wetExpiry cell => Sys2Proof.Machine.execWetExpiry cell s
  | .filteredActiveEdge line => Sys2Proof.Machine.execFilteredActiveEdge line s
  | .filteredInactiveEdge line => Sys2Proof.Machine.execFilteredInactiveEdge line s
  | .lineStuck line flow => Sys2Proof.Machine.execLineStuck line flow s
  | .holdExpiry line => Sys2Proof.Machine.execHoldExpiry line s
  | .clearOutExpiry line => Sys2Proof.Machine.execClearOutExpiry line s
  | .evacuationActiveEdge => Sys2Proof.Machine.execEvacuationActiveEdge s
  | .evacuationInactiveEdge => Sys2Proof.Machine.execEvacuationInactiveEdge s
  | .hostSilenceExpiry => Sys2Proof.Machine.execHostSilenceExpiry s
  | .clockAdvance => Sys2Proof.Machine.execClockAdvance s
  | .fullReset => Sys2Proof.Machine.execFullReset s
  | .inputSample input flow => Sys2Proof.Machine.execInputSample input flow s
  | .resetInputHeld => Sys2Proof.Machine.execResetInputHeld s
  | .powerLoss => Sys2Proof.Machine.execPowerLoss s

end Sys2Proof.Machine
end

