-- ==== Sys2Proof/Machine/Step.lean ====
section
/-! DEFINITION. One step of the block: the command at the front of the queue is taken whole, or what waits in a receive
queue is taken, or a millisecond passes. -/

namespace Sys2Proof.Machine

/-- The command at the front of the queue is run with the queue's rest. With none there the block takes what waits at the
head of a receive queue (R172, R88); with nothing waiting it idles for one millisecond of its time base: nothing else
changes, and no timer expires of itself (DESIGN CHOICE, log 1). -/
def step (s : State) : Host.Outcome State Fault Refusal :=
  match s.pending with
  | c :: rest => exec c { s with pending := rest }
  | [] =>
    match s.nextTaken with
    | some c => exec c s
    | none => .next (s.onControl fun k => { k with now := k.now + 1 })

/-- The command that a word spells put at the front of the queue; no word spells one (log 3). -/
def State.withFetchWord (s : State) (nbits w : Nat) : State :=
  match Sys2Proof.decodeTableWord nbits w with
  | some c => { s with pending := c :: s.pending }
  | none => s

end Sys2Proof.Machine
end

