-- ==== Sys2Proof/Machine/Replies.lean ====
section
/-! DEFINITION. The bytes of what the module sends (R170, R173, R183, Tables 11-7 to 11-9): fields, orders, notices,
replies, frames. What R183 and the tables do not state outright is listed in logs 18, 29 and 30; free values are those of
log 17. -/

namespace Sys2Proof.Machine

/-! ### Fields (R183) -/

/-- A one-byte number. -/
def byte (n : Nat) : List Byte := [BitVec.ofNat 8 n]

/-- A two-byte number, high byte first. -/
def bytes2 (n : Nat) : List Byte := [BitVec.ofNat 8 (n / 256), BitVec.ofNat 8 n]

/-- A three-byte number, high byte first. -/
def bytes3 (n : Nat) : List Byte := [BitVec.ofNat 8 (n / 65536), BitVec.ofNat 8 (n / 256), BitVec.ofNat 8 n]

/-- An optional one-byte field, every bit set when absent. -/
def optByte (n : Option Nat) : List Byte := byte (n.getD 0xFF)

/-- An optional two-byte field, every bit set when absent. -/
def optBytes2 (n : Option Nat) : List Byte := bytes2 (n.getD 0xFFFF)

/-- An optional three-byte field, every bit set when absent. -/
def optBytes3 (n : Option Nat) : List Byte := bytes3 (n.getD 0xFFFFFF)

/-- A flag. -/
def flag (b : Bool) : List Byte := byte (if b then 1 else 0)

/-- An enumerated field of two values: the first where the test holds, else the second. -/
def oneOrTwo (b : Bool) : List Byte := byte (if b then 1 else 2)

/-- A list of two-byte numbers, preceded by its count byte. -/
def list2 (ns : List Nat) : List Byte := byte ns.length ++ ns.flatMap bytes2

/-- A list of one-byte numbers, preceded by its count byte. -/
def list1 (ns : List Nat) : List Byte := byte ns.length ++ ns.flatMap byte

/-- A mask, with bit *n* standing for entry *n*. -/
def maskOf (flags : Table Bool) : Nat := (flags.map fun e => if e.2 then 2 ^ e.1 else 0).sum

/-- R152, R155: a timer: whether it runs, and its time. DESIGN CHOICE (log 29): whether it runs is a flag, 1 running and 0
stopped. The time of a stopped timer is free (log 17). -/
def timerBytes (time : Option Nat) : List Byte :=
  match time with
  | some t => flag true ++ bytes2 t
  | none => flag false ++ bytes2 Config.stoppedTimerTime.toNat

/-! ### Frames (R170, Table 11-7) -/

/-- The frame of a record, from the lead byte to the CRC. -/
def frameWire (kind ref : Byte) (body : List Byte) : List Byte :=
  0xB5#8 :: BitVec.ofNat 8 body.length :: kind :: ref :: body ++ bytes2 (frameCrc kind ref body).toNat

/-! ### Orders (R93, Table 11-9) -/

/-- R183: WAIT reasons in their order. -/
def WaitReason.code : WaitReason → Nat
  | .occupied => 1
  | .wet => 2
  | .guarded => 3
  | .blocked => 4
  | .embargo => 5
  | .closed => 6
  | .lane => 7

/-- R183: REFUSED reasons in their order. -/
def RefuseReason.code : RefuseReason → Nat
  | .notAllowed => 1
  | .withdrawPending => 2
  | .noLeg => 3
  | .aheadFull => 4
  | .cycle => 5

/-- Table 11-9: the body of an ANSWER order. -/
def Answer.body : Answer → List Byte
  | .grant cells refuge => byte 1 ++ flag refuge ++ list2 cells
  | .wait reason => byte 2 ++ byte reason.code ++ list2 []
  | .refused reason => byte 3 ++ byte reason.code ++ list2 []
  | .legEnd => byte 4 ++ byte 0 ++ list2 []

/-- Table 11-9: the kind byte of an order's frame. -/
def Order.wireKind : Order → Byte
  | .leg .. => 0x51#8
  | .answer _ => 0x52#8
  | .motion _ => 0x53#8
  | .withdraw .. => 0x54#8

/-- Table 11-9: the body of an order's frame. -/
def Order.body : Order → List Byte
  | .leg tag flow homing cells => bytes2 tag ++ byte flow ++ flag homing ++ list2 cells
  | .answer a => a.body
  | .motion resume => byte (if resume then 2 else 1)
  | .withdraw cancel refuge => flag cancel ++ optBytes2 refuge

/-- R97: the frame of an order, with the machine's slot in its ref byte. -/
def FleetOut.wire (o : FleetOut) : List Byte := frameWire o.order.wireKind (BitVec.ofNat 8 o.slot) o.order.body

/-! ### Records in replies (11.8) -/

/-- 11.8: an occupancy. -/
def Occupancy.bytes (o : Occupancy) (now : Nat) : List Byte :=
  match o with
  | .free => byte 1 ++ optByte none ++ optBytes2 none ++ optByte none
  | .held m => byte 2 ++ byte m ++ optBytes2 none ++ optByte none
  | .guarded t => byte 3 ++ optByte none ++ bytes2 (secondsTo now t) ++ optByte none
  | .wet t slow => byte 4 ++ optByte none ++ bytes2 (secondsTo now t) ++ flag slow
  | .blocked m => byte 5 ++ byte m ++ optBytes2 none ++ optByte none

/-- 11.8: a wait list. -/
def waiterBytes (ws : List Waiter) : List Byte := byte ws.length ++ ws.flatMap fun w => byte w.slot ++ flag w.refuge

/-- R14: the fields of a cell. -/
def Cell.bytes (number : Nat) (c : Cell) (now : Nat) : List Byte :=
  bytes2 number ++ oneOrTwo (decide (c.kind = .openFloor)) ++ optByte c.owner ++ byte c.zone ++ byte c.floorClass ++
    bytes2 c.band.toNat ++ list2 c.neighbours ++ optBytes2 c.refuge ++ optByte (c.lane.map fun e => e.1) ++
    optByte (c.lane.map fun e => e.2) ++ c.occ.bytes now ++ byte c.embargo ++ waiterBytes c.waiters ++ byte c.washes ++
    optBytes3 c.lastWashed

/-- R183: the states of Table 7-2 in their order; ABSENT is 1. -/
def MState.code : MState → Nat
  | .idle => 2
  | .running => 3
  | .waiting => 4
  | .halted => 5
  | .stalled => 6
  | .lost => 7
  | .stoodDown => 8

/-- 11.8: a halt set. -/
def Halts.mask (h : Halts) : Nat :=
  (if h.host then 1 else 0) + (if h.evac then 2 else 0) + (if h.machine then 4 else 0) + (if h.position then 8 else 0)

/-- 11.8: a wait target. -/
def Target.bytes : Target → List Byte
  | .cell c => byte 1 ++ bytes2 c
  | .lane l => byte 2 ++ bytes2 l

/-- 11.8: a pending request, every byte set when absent; the count of a refuge wait is free (log 17). -/
def pendingBytes : Option Pending → List Byte
  | some (.ordinary count target) => byte count ++ target.bytes ++ flag false
  | some (.refuge c) => byte Config.refugeWaitCount.toNat ++ (Target.cell c).bytes ++ flag true
  | none => List.replicate 5 0xFF#8

/-- R124: a pending withdrawal, every byte set when absent. -/
def withdrawalBytes : Option Withdrawal → List Byte
  | some w => flag w.cancel ++ optBytes2 w.refuge ++ flag w.deferred
  | none => List.replicate 4 0xFF#8

/-- 11.8: the recorded lane directions. -/
def laneDirBytes (dirs : Table Dir) : List Byte :=
  bytes2 (maskOf (dirs.map fun e => (e.1, true))) ++ dirs.flatMap fun e => oneOrTwo (decide (e.2 = .up))

/-- R124: the fields of a leg slot, every byte set when empty. -/
def legBytes : Option Leg → List Byte
  | some l => bytes2 l.tag ++ byte l.flow ++ flag l.homing ++ byte l.cells.length
  | none => List.replicate 5 0xFF#8

/-- R124: the fields of an enrolled machine, in the rule's order; the position index follows the fields of both leg
slots (log 18), and whether the beacon and progress timers run is a flag each (log 29). -/
def Scrubber.bytes (x : Scrubber) : List Byte :=
  byte x.rank ++ bytes2 x.dock ++ byte x.state.code ++ byte x.halts.mask ++ bytes2 x.current ++ list2 x.ahead ++
    optBytes2 x.refuge ++ pendingBytes x.request ++ withdrawalBytes x.withdrawal ++ laneDirBytes x.laneDirs ++
    legBytes (x.active.map fun a => a.leg) ++ legBytes x.staged ++ optByte (x.active.map fun a => a.index) ++
    list1 (x.queue.map Order.kind) ++ optByte (x.outstanding.map Order.kind) ++ byte x.misses ++ byte x.safeStops ++
    byte (x.lastFault.getD 0) ++ optByte x.battery ++ optByte x.water ++ flag x.low ++ flag x.heard ++
    optBytes2 x.reported ++ flag x.beaconTimer.isSome ++ flag x.progress.isSome ++ bytes2 x.earlyBeacons ++
    bytes2 x.duplicates

/-- R66: the fields of a lane. -/
def Lane.bytes (r : Lane) (holding : List Nat) : List Byte :=
  list2 r.cells ++ byte (match r.dir with | none => 1 | some .up => 2 | some .down => 3) ++ byte r.holders ++
    list1 holding ++ waiterBytes (r.waiters.map fun m => ⟨m, false⟩)

/-- Table 9-1: a line's configuration. -/
def LineConfig.bytes (c : LineConfig) : List Byte :=
  flag c.enabled ++ oneOrTwo (!c.activeLow) ++ oneOrTwo (!c.pulseMode) ++ byte c.threshold ++ bytes2 c.runt ++
    bytes2 c.maxWidth ++ bytes2 c.holdTime ++ bytes2 c.clearOut

/-- R183: the line states in their order. -/
def LineState.code : LineState → Nat
  | .quiet => 1
  | .clearing => 2
  | .clear => 3
  | .breach => 4

/-- R152: the fields of a line. The filter counter takes the two bytes of a counter, and so do the two numbers of band
cells, which one byte cannot hold (R183, log 18). -/
def Line.bytes (l : Line) (now bandCells taken : Nat) : List Byte :=
  l.cfg.bytes ++ bytes2 l.counter ++ oneOrTwo l.level ++ byte l.state.code ++ flag l.stuck ++ timerBytes l.pulse ++
    timerBytes (l.hold.map (secondsTo now)) ++ timerBytes (l.clearTimer.map (secondsTo now)) ++ bytes2 l.runts ++
    bytes2 l.stucks ++ bytes2 l.breaches ++ optBytes3 l.lastStart ++ optBytes3 l.lastEnd ++ oneOrTwo l.clearOutput ++
    bytes2 bandCells ++ bytes2 taken

/-- Table 11-3: the twelve settings, 18 bytes. -/
def Timing.bytes (t : Timing) : List Byte :=
  byte t.beaconInterval ++ bytes2 t.earlyLimit ++ byte t.lostThreshold ++ bytes2 t.replyWindow ++
    bytes2 t.progressLimit ++ bytes2 t.openGuard ++ bytes2 t.laneGuard ++ byte t.standDown ++ byte t.batteryReserve ++
    byte t.waterReserve ++ bytes2 t.hostSilence ++ byte t.evacFilter

/-- R52: the settings of a DRYING SETUP reply, and the failing item of a refusal (log 17 for the limit part); an accepted
command carries no byte for it (log 30). -/
def dryingBytes (d : Drying) (failing : Option DryingItem) : List Byte :=
  d.base.flatMap bytes2 ++ bytes2 d.low ++ bytes2 d.lowSet ++ bytes2 d.high ++ bytes2 d.highSet ++
    (match failing with
      | none => []
      | some (.floorClass i) => byte i
      | some .limits => byte Config.limitPartItem.toNat)

/-- R166, R175: a mark, with its fields absent when EMPTY and its zone absent for RECALL and NOTICE ONLY. -/
def actionBytes : MarkAction → List Byte
  | .zoneClose z => byte 1 ++ byte z
  | .zoneOpen z => byte 2 ++ byte z
  | .recalling => byte 3 ++ optByte none
  | .noticeOnly => byte 4 ++ optByte none

/-- R166: a mark. -/
def Mark.bytes : Mark → List Byte
  | .empty => byte 1 ++ List.replicate 5 0xFF#8
  | .armed t a => byte 2 ++ bytes3 t ++ actionBytes a
  | .fired t a => byte 3 ++ bytes3 t ++ actionBytes a

/-- R155: the part modes in their order. -/
def Mode.code : Mode → Nat
  | .standby => 1
  | .night => 2
  | .recalling => 3
  | .evacuation => 4

/-- R155: the saved modes in their order. -/
def SavedMode.code : SavedMode → Nat
  | .night => 1
  | .recalling => 2

/-- R155: the recall reasons in their order. -/
def RecallReason.code : RecallReason → Nat
  | .host => 1
  | .mark => 2
  | .silent => 3

/-- R155: the mode record, the night clock's value and whether the clock runs, a flag as for the timers (log 29). -/
def ModeRecord.bytes (r : ModeRecord) : List Byte :=
  byte r.mode.code ++ optByte (r.saved.map SavedMode.code) ++ optByte (r.recallReason.map RecallReason.code) ++
    timerBytes r.silence ++ bytes3 r.clock ++ flag r.clockRunning

/-- Table 11-4: a reason's number among the reasons of its class, and its value. -/
def NoticeReason.code : NoticeReason → Nat × Option Nat
  | .evacActive => (1, none)
  | .evacInactive => (2, none)
  | .breach n => (1, some n)
  | .beaconTimer => (1, none)
  | .earlyBeacon => (2, none)
  | .reply => (3, none)
  | .stall => (1, none)
  | .faultStop code => (2, some code)
  | .position c => (3, some c)
  | .stoodDown code => (1, some code)
  | .waitRefused => (1, none)
  | .refugeRing => (2, none)
  | .runt width => (1, some width)
  | .stuck => (2, none)
  | .declined => (1, none)
  | .cancelled => (2, none)
  | .embargo => (3, none)
  | .underrun => (1, none)
  | .legRecall => (2, none)
  | .legLow => (3, none)
  | .highClamp floorClass => (1, some floorClass)
  | .recalled reason => (1, some reason.code)
  | .fired => (2, none)

/-- Table 11-8: a class record, 13 bytes. -/
def Notice.bytes (number : Nat) (n : Notice) : List Byte :=
  byte number ++
    byte ((if n.pending then 1 else 0) + (if n.enabled then 2 else 0) + (if n.sent then 4 else 0)) ++ byte n.count ++
    optBytes2 n.first ++ optBytes2 n.last ++ optByte (n.reason.map fun r => r.code.1) ++
    optBytes2 (n.reason.bind fun r => r.code.2) ++ optBytes3 n.clock

/-- R92, Table 6-4: the ten fleet counters. -/
def FleetCounters.bytes (c : FleetCounters) : List Byte :=
  [c.framing, c.breaks, c.crc, c.overruns, c.unknown, c.lengths, c.strays, c.strayAcks, c.repeats, c.discarded].flatMap
    bytes2

/-- R175: the six supervisory counters. -/
def SupCounters.bytes (c : SupCounters) : List Byte :=
  [c.framing, c.breaks, c.crc, c.overruns, c.unknown, c.lengths].flatMap bytes2

/-- R16, 11.8: the fault report of the map check. -/
def MapFault.bytes (e : MapFault) : List Byte :=
  byte e.code ++
    (match e.subject with
      | .cell c => bytes2 c
      | .lane l i => byte l ++ byte i
      | .slot m => bytes2 m) ++
    optBytes2 e.other

/-- R173: the bytes of a reply's data. Where a refusal of chapter 10 carries the mode record and something more, the
mode record stands first; the number of defined cells takes two bytes (log 18). DESIGN CHOICE (log 30): every refused LEG
LOAD carries a position and a route fault code, every bit set where its check gives none (R69); the data of other
replies that a check does not give are left out, as the cell number of a refused LANE DEFINE is (R55). -/
def ReplyData.bytes : ReplyData → List Byte
  | .nothing => []
  | .entryRefused position => byte position
  | .entriesApplied count => byte count
  | .laneRefused c => bytes2 c
  | .laneCells count => byte count
  | .lineSet cfg state => cfg.bytes ++ byte state.code
  | .timing t => t.bytes
  | .timingRefused position => byte position
  | .drying d failing => dryingBytes d failing
  | .environment h t => byte h ++ [BitVec.ofInt 8 t]
  | .mark m => m.bytes
  | .noticeControl enabled ceiling => bytes2 (maskOf ((List.range enabled.length).zip enabled)) ++ byte ceiling
  | .noticeCopies records => records.flatMap fun e => e.2.bytes e.1
  | .noticesAll records ceiling => (records.flatMap fun e => e.2.bytes e.1) ++ byte ceiling
  | .cell number record now => record.bytes number now
  | .machineAbsent => byte 1
  | .machine record => record.bytes
  | .lane record holding => record.bytes holding
  | .line record now bandCells taken => record.bytes now bandCells taken
  | .evacuationInput threshold input => byte threshold ++ bytes2 input.counter ++ oneOrTwo input.level
  | .counters mode zones marks sup fleet =>
    let zoneMask := maskOf zones
    mode.bytes ++ bytes2 (zoneMask / 65536) ++ bytes2 zoneMask ++ (marks.flatMap fun e => e.2.bytes) ++ sup.bytes ++
      fleet.bytes
  | .mapPass cells lanes => byte 1 ++ bytes2 cells ++ byte lanes
  | .mapFault e => byte 2 ++ e.bytes
  | .modeRecord r => r.bytes
  | .nightBeginFault r e => r.bytes ++ e.bytes
  | .nightEndBusy r slot => r.bytes ++ byte slot
  | .clockSet r fired => r.bytes ++ byte fired
  | .legLoaded tag active => bytes2 tag ++ oneOrTwo active
  | .legRefused position code => optByte position ++ optByte code
  | .legCancelled started => flag started
  | .machinesChanged count => byte count
  | .cellsReleased count => byte count
  | .zoneState opened => oneOrTwo opened
  | .fleetReset enrolled madeAbsent => byte enrolled ++ byte madeAbsent

/-- Table 11-1: the reply statuses. -/
def Status.code : Status → Nat
  | .done => 0
  | .doneClamped => 1
  | .refusedMode => 2
  | .refusedBusy => 3
  | .refusedState => 4
  | .badValue => 5
  | .notDefined => 6
  | .mapFault => 7
  | .unknownKind => 8
  | .badLength => 9

/-- R173: the frame of a reply or of a NOTICE. -/
def SupOut.wire : SupOut → List Byte
  | .reply kind ref status data => frameWire kind ref (byte status.code ++ data.bytes)
  | .notice number record => frameWire 0x7E#8 0#8 (record.bytes number)

end Sys2Proof.Machine
end

