-- ==== Sys2Proof/Safety.lean ====
section
/-! DEFINITION. What the statements call well kept: the laws of the spec that no step may break, each over one record or
over the whole state, and the words the statements share. -/

namespace Sys2Proof.Safety

open Sys2Proof.Machine

/-! ### Records -/

/-- R94: at most one queued order of each kind, and nothing queued or outstanding for a LOST machine. -/
def OrdersKept (x : Scrubber) : Prop :=
  (x.queue.map Order.kind).Nodup ∧ (x.state = .lost → x.queue = [] ∧ x.outstanding = none)

/-- R113: the progress timer runs exactly while the state is RUNNING or WAITING and the ahead list is not empty. -/
def ProgressKept (x : Scrubber) : Prop :=
  x.progress.isSome = true ↔ (x.state = .running ∨ x.state = .waiting) ∧ x.ahead ≠ []

/-- R118, R108, R121: the saturating counts of a machine hold at their last values. -/
def CountsKept (x : Scrubber) : Prop := x.safeStops ≤ 15 ∧ x.earlyBeacons ≤ 65535 ∧ x.duplicates ≤ 65535

/-- R176: a class that is not pending is clear, and a pending class has a count of 1 to 255. -/
def NoticeKept (n : Notice) : Prop :=
  (n.pending = true → 1 ≤ n.count ∧ n.count ≤ 255) ∧ (n.pending = false → n = { enabled := n.enabled })

/-- R151: the three counters of a line hold at 65,535. -/
def LineCountsKept (l : Line) : Prop := l.runts ≤ 65535 ∧ l.stucks ≤ 65535 ∧ l.breaches ≤ 65535

/-! ### The whole state -/

/-- The tables have their canonical form: numbers rising, each in its range, slot 0 not enrolled; every line, notice
class, mark and zone has its record (R1, R54, R103, R137, R176, R166, R7). -/
def TablesKept (s : State) : Prop :=
  s.floor.cells.wf Config.cellCount = true ∧ s.floor.lanes.wf Config.laneCount = true ∧
    s.floor.machines.wf (Config.slotCount + 1) = true ∧ 0 ∉ s.floor.machines.keys ∧
    s.floor.lines.keys = List.range Config.lineCount ∧ s.floor.notices.keys = List.range Config.classCount ∧
    s.marks.keys = List.range Config.markCount ∧ s.control.zones.keys = List.range Config.zoneCount

/-- R155, R159, R164: the mode record, the host silence timer, the clock and the evacuation level agree. -/
def ModeKept (s : State) : Prop :=
  (s.control.saved.isSome = true ↔ s.control.mode = .evacuation) ∧
    (s.control.recallReason.isSome = true ↔
      s.control.mode = .recalling ∨ (s.control.mode = .evacuation ∧ s.control.saved = some .recalling)) ∧
    (s.control.silence.isSome = true → s.control.mode = .night) ∧
    (s.control.clockRunning = true ↔ s.control.mode ≠ .standby) ∧
    (s.control.mode = .night ∨ s.control.mode = .recalling → s.evac.level = false) ∧
    s.control.clock ≤ Config.clockLast

/-- R88, R171: neither receive queue holds more than it has room for. -/
def QueuesKept (s : State) : Prop :=
  s.ports.cmdQueue.length ≤ Config.commandQueueRoom ∧ s.ports.fleetQueue.length ≤ Config.fleetQueueRoom

/-- R94: the order law for every enrolled machine. -/
def AllOrdersKept (s : State) : Prop := ∀ m x, s.floor.machines.look m = some x → OrdersKept x

/-- R113: the progress law for every enrolled machine. -/
def AllProgressKept (s : State) : Prop := ∀ m x, s.floor.machines.look m = some x → ProgressKept x

/-- R176: the class law for every notice class. -/
def AllNoticesKept (s : State) : Prop := ∀ n r, s.floor.notices.look n = some r → NoticeKept r

/-- R92: the ten fleet counters hold at 65,535. -/
def FleetCountersKept (c : FleetCounters) : Prop :=
  c.framing ≤ 65535 ∧ c.breaks ≤ 65535 ∧ c.crc ≤ 65535 ∧ c.overruns ≤ 65535 ∧ c.unknown ≤ 65535 ∧
    c.lengths ≤ 65535 ∧ c.strays ≤ 65535 ∧ c.strayAcks ≤ 65535 ∧ c.repeats ≤ 65535 ∧ c.discarded ≤ 65535

/-- R175: the six supervisory counters hold at 65,535. -/
def SupCountersKept (c : SupCounters) : Prop :=
  c.framing ≤ 65535 ∧ c.breaks ≤ 65535 ∧ c.crc ≤ 65535 ∧ c.overruns ≤ 65535 ∧ c.unknown ≤ 65535 ∧ c.lengths ≤ 65535

/-- R22, R118, R108, R121, R151, R92, R175: every count of cells, machines, lines and ports stays in its range. -/
def CountersKept (s : State) : Prop :=
  (∀ c x, s.floor.cells.look c = some x → x.washes ≤ 255) ∧
    (∀ m x, s.floor.machines.look m = some x → CountsKept x) ∧
    (∀ i l, s.floor.lines.look i = some l → LineCountsKept l) ∧
    FleetCountersKept s.floor.fleetCounters ∧ SupCountersKept s.ports.supCounters

/-- R21: the embargo count of every cell is the number of lines over it that are not QUIET; each line is listed once. -/
def EmbargoKept (s : State) : Prop :=
  s.floor.lines.keys.Nodup ∧ ∀ c x, s.floor.cells.look c = some x → x.embargo = s.floor.embargoFor x.band

/-- R44, Table 3-1: the drying settings lie in their ranges. -/
def DryingKept (s : State) : Prop :=
  let d := s.control.drying
  d.base.length = 8 ∧ (∀ b ∈ d.base, 30 ≤ b ∧ b ≤ 3600) ∧ 1 ≤ d.low ∧ d.low ≤ d.lowSet ∧ d.lowSet ≤ d.high ∧
    d.high ≤ d.highSet ∧ d.highSet ≤ 7200 ∧ d.humidity ≤ 100 ∧ -10 ≤ d.temperature ∧ d.temperature ≤ 40

/-- R145 to R149: while a line is not QUIET its state is CLEAR exactly when no cell of its band is HELD or BLOCKED, and
the clear-out timer runs only in CLEARING; in a running module the clear output is asserted exactly when no cell of the
band is HELD or BLOCKED. -/
def BandsKept (s : State) : Prop :=
  ∀ i l, s.floor.lines.look i = some l →
    (l.state ≠ .quiet → (l.state = .clear ↔ s.floor.bandTaken i = 0)) ∧
      (l.clearTimer.isSome = true → l.state = .clearing) ∧
      (s.live = true → l.clearOutput = decide (s.floor.bandTaken i = 0))

/-! ### The concourse: what stands together (R19, R23, R59, R68) -/

/-- The order is a WITHDRAW. -/
def isWithdraw : Order → Bool
  | .withdraw .. => true
  | _ => false

/-- R104, R126, R84: what a machine's state says of its record. HALTED is the state of a non-empty halt set, unless LOST
or STOOD_DOWN stands over it; an IDLE machine has no ahead cells; a WITHDRAW order in hand belongs to a pending
withdrawal, and a machine with one is not WAITING; a completion is deferred only where no leg and no ahead cell is left;
ahead cells without an active leg are those of a machine being withdrawn under the cancel flag, or one that only
MACHINE RESTORE or MACHINE WITHDRAW can set going again; a STOOD_DOWN machine has no legs. -/
def StandingKept (x : Scrubber) : Prop :=
  (x.state = .halted → x.halts.isEmpty = false) ∧
    (x.halts.isEmpty = false → x.state = .halted ∨ x.state = .lost ∨ x.state = .stoodDown) ∧
    (x.state = .idle → x.ahead = []) ∧
    ((x.queue ++ x.outstanding.toList).any isWithdraw = true → x.withdrawal.isSome = true) ∧
    (x.withdrawal.isSome = true → x.state ≠ .waiting ∧ x.state ≠ .lost) ∧
    ((x.withdrawal.any fun w => w.deferred) = true → x.active = none ∧ x.ahead = []) ∧
    (x.active = none → x.ahead ≠ [] →
      ((x.withdrawal.any fun w => w.cancel) = true ∧ x.staged = none) ∨ x.halts.position = true ∨
        x.state = .stoodDown ∨ x.state = .lost) ∧
    (x.state = .stoodDown → x.active = none ∧ x.staged = none)

/-- R71: no cell stands twice in any six consecutive positions. -/
def NoReturn (cells : List Nat) : Prop := ∀ (i j : Nat) c, i < j → j ≤ i + 5 → cells[i]? = some c → cells[j]? ≠ some c

/-- R68: an active leg is tied to the machine's holding, and a staged leg begins at the anchor; a machine halted by an
unexpected arrival, which may have been driving without a leg (R75), has its staged leg discarded by its restore. -/
def LegsKept (x : Scrubber) : Prop :=
  (∀ a, x.active = some a → NoReturn a.leg.cells ∧ a.leg.cells[a.index]? = some x.current ∧
      a.index + x.ahead.length < a.leg.cells.length ∧
      x.ahead = (a.leg.cells.drop (a.index + 1)).take x.ahead.length) ∧
    (∀ leg, x.staged = some leg → NoReturn leg.cells ∧ 2 ≤ leg.cells.length ∧
      (leg.cells.head? = some x.anchor ∨
        (x.halts.position = true ∧ x.active = none ∧ (x.withdrawal.any fun w => w.deferred) = false)))

/-- R19: the cells that a machine which is not LOST holds: its current cell, its ahead list, its refuge grant. -/
def holding (x : Scrubber) : List Nat := x.current :: x.ahead ++ x.refuge.toList

/-- R69, R85: no machine has a leg in STANDBY, and every cell of a leg is defined. -/
def RoutesKept (s : State) : Prop :=
  ∀ m x, s.floor.machines.look m = some x →
    (s.control.mode = .standby → x.active = none ∧ x.staged = none) ∧
      (∀ a, x.active = some a → ∀ c ∈ a.leg.cells, (s.floor.cells.look c).isSome = true) ∧
      ∀ leg, x.staged = some leg → ∀ c ∈ leg.cells, (s.floor.cells.look c).isSome = true

/-- R19, R68, R133: the cells HELD by a machine that is not LOST are exactly its current cell, its ahead list and its refuge
grant, five at most and each once; a LOST machine has no cell HELD, and only a LOST machine has cells BLOCKED; a refuge
grant goes with no leg and no ahead cell. A LOST machine has no legs (R110), and no refuge grant: that is the model's
reading of R36, R95 and R110 (log 26). -/
def HoldingsKept (s : State) : Prop :=
  RoutesKept s ∧ (∀ m x, s.floor.machines.look m = some x →
    StandingKept x ∧ LegsKept x ∧ x.ahead.length ≤ 4 ∧
      (x.refuge.isSome = true → x.ahead = [] ∧ x.active = none ∧ x.staged = none) ∧
      (x.state ≠ .lost → (holding x).Nodup ∧
        ∀ c, (s.floor.cells.look c).map Cell.occ = some (.held m) ↔ c ∈ holding x) ∧
      (x.state = .lost → x.refuge = none ∧ x.active = none ∧ x.staged = none)) ∧
    ∀ c z m, s.floor.cells.look c = some z →
      (z.occ = .held m → ∃ x, s.floor.machines.look m = some x ∧ x.state ≠ .lost) ∧
        (z.occ = .blocked m → ∃ x, s.floor.machines.look m = some x ∧ x.state = .lost)

/-- R23: a machine stands on a wait list exactly when it is WAITING or has a refuge wait, on one list and once; a cell's
refuge entries stand before its ordinary ones; a WAITING machine asks for 1 to 4 cells of an active leg that has cells
left; a refuge wait goes with no leg, no ahead cell and no refuge grant. -/
def WaitsKept (s : State) : Prop :=
  (∀ m x, s.floor.machines.look m = some x →
    (x.state = .waiting ↔ ∃ count target, x.request = some (.ordinary count target)) ∧
      (∀ count target, x.request = some (.ordinary count target) → 1 ≤ count ∧ count ≤ 4 ∧ x.remaining ≠ []) ∧
      (∀ c, x.request = some (.refuge c) →
        x.state ≠ .lost ∧ x.refuge = none ∧ x.ahead = [] ∧ x.active = none ∧ x.staged = none)) ∧
    (∀ c z, s.floor.cells.look c = some z → (z.waiters.map Waiter.slot).Nodup ∧
      z.waiters.Pairwise (fun v w => w.refuge = true → v.refuge = true)) ∧
    (∀ l r, s.floor.lanes.look l = some r → r.waiters.Nodup) ∧
    (∀ m c refuge, (∃ z, s.floor.cells.look c = some z ∧ ⟨m, refuge⟩ ∈ z.waiters) ↔
      ∃ x p, s.floor.machines.look m = some x ∧ x.request = some p ∧ p.target = .cell c ∧ x.refugeWait = refuge) ∧
    ∀ m l, (∃ r, s.floor.lanes.look l = some r ∧ m ∈ r.waiters) ↔
      ∃ x count, s.floor.machines.look m = some x ∧ x.request = some (.ordinary count (.lane l))

/-- R5, R59 to R62: a cell's lane field is its place in the lane's cell list; a machine has a recorded direction in
exactly the lanes of which it has some cell HELD or BLOCKED, and it is the lane's; the holder count is the number of
those machines, and the lane's direction is FREE exactly when it is 0. -/
def LanesKept (s : State) : Prop :=
  (∀ c l i, s.floor.laneOf c = some (l, i) ↔ ∃ r, s.floor.lanes.look l = some r ∧ r.cells[i]? = some c) ∧
    (∀ m x, s.floor.machines.look m = some x → x.laneDirs.wf Config.laneCount = true ∧
      ∀ l, (x.laneDirs.look l).isSome = s.floor.hasLaneCell m l) ∧
    ∀ l r, s.floor.lanes.look l = some r →
      r.holders = s.floor.machines.countP (fun e => (e.2.laneDirs.look l).isSome) ∧
        (r.dir = none ↔ r.holders = 0) ∧
        ∀ m x d, s.floor.machines.look m = some x → x.laneDirs.look l = some d → r.dir = some d

/-- The laws of the concourse, which stand together: each is kept where all of them stand. -/
def ConcourseLaws (s : State) : Prop :=
  TablesKept s ∧ AllProgressKept s ∧ HoldingsKept s ∧ WaitsKept s ∧ LanesKept s

/-! ### Words of the statements -/

/-- The static part of a cell (Table 1-1), which only CELL DEFINE and LANE DEFINE write. -/
def staticPart (c : Cell) : CellKind × Option Nat × Nat × Nat × BitVec 16 × List Nat × Option Nat × Option (Nat × Nat) :=
  (c.kind, c.owner, c.zone, c.floorClass, c.band, c.neighbours, c.refuge, c.lane)

/-- R172, R173: the outcome of a command that a running module takes: its frame leaves the head of the queue and what was
sent leaves the backlog, `g` gives its effects, and one reply joins the backlog. That a frame just completed is taken from
an empty queue, without the effects that its completion has, is the model's (log 4), and so is what of the backlog has
been sent by then (log 7). -/
def answers (kind ref : Byte) (status : Status) (data : ReplyData) (g : State → State) (s : State) : Machine.Result :=
  .next ((g s.takeFrame).reply kind ref status data)

/-- R88: the outcome of a machine record that a running module takes: it leaves the head of the queue, and `g` gives what
its owners do. That a record just completed is taken from an empty queue, without the effects that its completion has, is
the model's (log 4). -/
def takes (g : State → State) (s : State) : Machine.Result := .next (g s.takeRecord)

/-- R94: the order stands queued or outstanding for the machine. -/
def InHand (x : Scrubber) (o : Order) : Prop := o ∈ x.queue ∨ x.outstanding = some o

/-- R96: the refuge that a WITHDRAW already queued for the machine names, which a new WITHDRAW without one keeps; none
where none is queued or it names none. -/
def queuedRefuge (x : Scrubber) : Option Nat := x.queuedWithdraw.bind fun w => w.2

/-- The kind, ref and body of a host command's frame (Table 11-8). -/
def hostFrame : Instr → Option Record
  | .cellDefine r b => some ⟨0x01#8, r, b⟩
  | .laneDefine r b => some ⟨0x02#8, r, b⟩
  | .lineSetup r b => some ⟨0x03#8, r, b⟩
  | .timingSetup r b => some ⟨0x04#8, r, b⟩
  | .machineEnroll r b => some ⟨0x05#8, r, b⟩
  | .fleetReset r b => some ⟨0x06#8, r, b⟩
  | .nightBegin r b => some ⟨0x07#8, r, b⟩
  | .dryingSetup r b => some ⟨0x10#8, r, b⟩
  | .environmentSet r b => some ⟨0x11#8, r, b⟩
  | .markSet r b => some ⟨0x12#8, r, b⟩
  | .markClear r b => some ⟨0x13#8, r, b⟩
  | .noticeControl r b => some ⟨0x14#8, r, b⟩
  | .noticeClear r b => some ⟨0x15#8, r, b⟩
  | .cellRead r b => some ⟨0x18#8, r, b⟩
  | .machineRead r b => some ⟨0x19#8, r, b⟩
  | .laneRead r b => some ⟨0x1A#8, r, b⟩
  | .lineRead r b => some ⟨0x1B#8, r, b⟩
  | .countersRead r b => some ⟨0x1C#8, r, b⟩
  | .noticeRead r b => some ⟨0x1D#8, r, b⟩
  | .mapCheck r b => some ⟨0x1E#8, r, b⟩
  | .nightRecall r b => some ⟨0x20#8, r, b⟩
  | .nightContinue r b => some ⟨0x21#8, r, b⟩
  | .nightEnd r b => some ⟨0x22#8, r, b⟩
  | .resumeAll r b => some ⟨0x23#8, r, b⟩
  | .clockSet r b => some ⟨0x24#8, r, b⟩
  | .legLoad r b => some ⟨0x25#8, r, b⟩
  | .legCancel r b => some ⟨0x26#8, r, b⟩
  | .machineHalt r b => some ⟨0x27#8, r, b⟩
  | .machineResume r b => some ⟨0x28#8, r, b⟩
  | .machineRestore r b => some ⟨0x29#8, r, b⟩
  | .machineWithdraw r b => some ⟨0x2A#8, r, b⟩
  | .zoneClose r b => some ⟨0x2B#8, r, b⟩
  | .zoneOpen r b => some ⟨0x2C#8, r, b⟩
  | .supervisoryUnknownKind .. | .supervisoryFrame _ | .supervisoryGapTimeout | .supervisoryBreak | .fleetFrame _
  | .fleetGapTimeout | .fleetBreak | .fleetUnknownKind .. | .beacon .. | .arrive .. | .request .. | .ack ..
  | .faultStop .. | .restart .. | .fleetFrameSent _ | .replyWindowExpiry _ | .beaconTimerExpiry _
  | .progressTimerExpiry _ | .guardExpiry _ | .wetExpiry _ | .filteredActiveEdge _ | .filteredInactiveEdge _
  | .lineStuck .. | .holdExpiry _ | .clearOutExpiry _ | .evacuationActiveEdge | .evacuationInactiveEdge
  | .hostSilenceExpiry | .clockAdvance | .fullReset | .inputSample .. | .resetInputHeld | .powerLoss => none

/-- The kind, slot and body of a machine record (Table 11-9); unlike the unknown kinds, which name their own. -/
def machineFrame : Instr → Option Record
  | .beacon m b => some ⟨0x41#8, m, b⟩
  | .arrive m b => some ⟨0x42#8, m, b⟩
  | .request m b => some ⟨0x43#8, m, b⟩
  | .ack m b => some ⟨0x44#8, m, b⟩
  | .faultStop m b => some ⟨0x45#8, m, b⟩
  | .restart m b => some ⟨0x46#8, m, b⟩
  | _ => none

/-- The one length that a command of fixed length has (Table 11-8); none where the body's own bytes decide. -/
def fixedLength : Instr → Option Nat
  | .fleetReset .. | .nightBegin .. | .noticeRead .. | .countersRead .. | .mapCheck .. | .nightRecall ..
  | .nightContinue .. | .nightEnd .. | .resumeAll .. => some 0
  | .markClear .. | .noticeClear .. | .machineRead .. | .laneRead .. | .lineRead .. | .machineHalt ..
  | .machineResume .. | .machineWithdraw .. | .zoneClose .. | .zoneOpen .. => some 1
  | .cellRead .. | .legCancel .. => some 2
  | .environmentSet .. | .noticeControl .. | .clockSet .. | .machineRestore .. => some 3
  | .machineEnroll .. => some 4
  | .markSet .. => some 6
  | .lineSetup .. => some 13
  | _ => none

/-- R172, Table 11-8: the body's length suits the kind and the body's own count and flag bytes. -/
def lengthSuits (c : Instr) (body : List Byte) : Bool :=
  match fixedLength c with
  | some n => decide (body.length = n)
  | none =>
    match c, body with
    | .cellDefine .., count :: bytes => (readEntries count.toNat bytes).isSome
    | .laneDefine .., _ :: count :: bytes => decide (bytes.length = 2 * count.toNat)
    | .timingSetup .., bytes => decide (bytes.length = 0) || decide (bytes.length = 18)
    | .dryingSetup .., parts :: bytes =>
      decide (bytes.length = (if parts.getLsbD 0 then 16 else 0) + (if parts.getLsbD 1 then 8 else 0))
    | .legLoad .., _ :: _ :: _ :: _ :: _ :: count :: bytes => decide (bytes.length = 2 * count.toNat)
    | _, _ => false

/-- A command that is turned away: it changes nothing but its own frame and reply (R173). -/
def turnedAway (r : Record) (status : Status) (data : ReplyData) (s : State) : Machine.Result :=
  answers r.kind r.ref status data id s

/-- R172, R173: a running module has taken the frame `r` and answered it by this one reply, formed after the NOTICE
records of the command's own effects; nothing else of the ports has changed. That a frame just completed is taken from an
empty queue, without the effects that its completion has, is the model's (log 4), and so is what of the backlog has been
sent by then (log 7). -/
def Answered (r : Record) (status : Status) (data : ReplyData) (s t : State) : Prop :=
  t.ports = s.takeFrame.ports ∧
    ∃ notices, (∀ o ∈ notices, o.isReply = false) ∧
      t.floor.supTx = unsent s.floor.supTx ++ notices ++ [.reply r.kind r.ref status data]

/-- Everything outside the floor and the ports stands: queue, supply, settings, mode, clock, zones, marks and the
evacuation filter. -/
def PartKept (s t : State) : Prop :=
  t.pending = s.pending ∧ t.powered = s.powered ∧ t.resetHeld = s.resetHeld ∧ t.control = s.control ∧
    t.marks = s.marks ∧ t.evac = s.evac

/-- Machine records other than `m`'s stand. -/
def OthersKept (m : Nat) (f g : Floor) : Prop := ∀ n, n ≠ m → g.machines.look n = f.machines.look n

/-- The concourse stands: cells, lanes and lines. -/
def ConcourseKept (f g : Floor) : Prop := g.cells = f.cells ∧ g.lanes = f.lanes ∧ g.lines = f.lines

/-- No machine waits on any cell or lane. -/
def NobodyWaits (f : Floor) : Prop :=
  (∀ c x, f.cells.look c = some x → x.waiters = []) ∧ ∀ l r, f.lanes.look l = some r → r.waiters = []

/-- R177: a notice class has taken `causes` more causes, from the one with subject `first`, reason `reason` and time
`clock` to the one with subject `last`. A class that was clear records the first of them; one that was pending keeps
its own first cause; the count holds at 255. -/
def CausesAdded (f g : Floor) (cls causes first last : Nat) (reason : NoticeReason) (clock : Option Nat) : Prop :=
  ∃ b a, f.notices.look cls = some b ∧ g.notices.look cls = some a ∧
    a.enabled = b.enabled ∧ a.pending = true ∧ a.last = some last ∧
    (b.pending = false → a.count = min 255 causes ∧ a.first = some first ∧ a.reason = some reason ∧ a.clock = clock) ∧
    (b.pending = true → a.count = max b.count (min 255 (b.count + causes)) ∧
      a.first = b.first ∧ a.reason = b.reason ∧ a.clock = b.clock)

/-- A counter of two bytes one higher, holding at 65,535. -/
def oneMore (n : Nat) : Nat := if n < 65535 then n + 1 else n

end Sys2Proof.Safety
end

