-- ==== Sys2Proof/Certificates/Slice0/Obligations.lean ====
section
/-! DEFINITION. The statements for the provers. Every hypothesis is on the state and the operands alone. A command's
reply and the frame it leaves are written with `answers`, a machine record's with `takes` (Safety.lean). A host command
or a machine record is taken at its turn, which `takesCommand` and `takesRecord` say (logs 4 and 7 stand behind all
four). -/

open Sys2Proof Sys2Proof.Machine Sys2Proof.Safety

/-! ## The step -/

/-- The step with a command in front of the queue is that command's meaning on the queue's rest. With no command
waiting, a running module takes the frame at the head of its command receive queue, by its kind (R172), and with none
there the record at the head of its fleet receive queue (R88, R89); that the first queue goes before the second, and
that with nothing waiting one millisecond of the time base passes and nothing else happens, is the model's choice (log
1). That the block's commands wait in a queue is the model's (log 3), and so is that a frame or record just completed
is taken at once from an empty receive queue, without its completion's own effects (log 4). -/
def Obligations.StepRunsTheFrontCommand : Prop :=
  ∀ s : State,
    (∀ c rest, s.pending = c :: rest → step s = exec c { s with pending := rest }) ∧
    (s.pending = [] → s.live = true → ∀ r rest, s.ports.cmdQueue = r :: rest →
      ∃ c, step s = exec c s ∧ s.takesCommand r = true ∧
        (hostFrame c = some r ∨ isCommandKind r.kind = false ∧ c = .supervisoryUnknownKind r.kind r.ref r.body)) ∧
    (s.pending = [] → s.live = true → s.ports.cmdQueue = [] → ∀ r rest, s.ports.fleetQueue = r :: rest →
      ∃ c, step s = exec c s ∧ s.takesRecord r = true ∧
        (machineFrame c = some r ∨ isMachineKind r.kind = false ∧ c = .fleetUnknownKind r.kind r.ref r.body)) ∧
    (s.pending = [] → s.live = false ∨ s.ports.cmdQueue = [] ∧ s.ports.fleetQueue = [] →
      step s = .next { s with control := { s.control with now := s.control.now + 1 } }) ∧
    ∀ r, (s.takesCommand r = true ↔ s.live = true ∧ ∀ h ∈ s.ports.cmdQueue.head?, h = r) ∧
      (s.takesRecord r = true ↔ s.live = true ∧ ∀ h ∈ s.ports.fleetQueue.head?, h = r)

/-- A command that the hardware can meet always answers a next state, and one that names a unit the hardware does not
have, or gives a known kind as unknown, stops with the fault named for it (log 5). -/
def Obligations.OnlyImpossibleCommandsStop : Prop :=
  ∀ (c : Instr) (s : State),
    (c.wellFormed = true → ∃ t, exec c s = .next t) ∧
      (∀ n, isSlot n = false → exec (.fleetFrameSent n) s = .fault .noSuchSlot ∧
        exec (.replyWindowExpiry n) s = .fault .noSuchSlot ∧ exec (.beaconTimerExpiry n) s = .fault .noSuchSlot ∧
        exec (.progressTimerExpiry n) s = .fault .noSuchSlot) ∧
      (∀ n, isCell n = false → exec (.guardExpiry n) s = .fault .noSuchCell ∧
        exec (.wetExpiry n) s = .fault .noSuchCell) ∧
      (∀ n flow, isLine n = false → exec (.filteredActiveEdge n) s = .fault .noSuchLine ∧
        exec (.filteredInactiveEdge n) s = .fault .noSuchLine ∧ exec (.lineStuck n flow) s = .fault .noSuchLine ∧
        exec (.holdExpiry n) s = .fault .noSuchLine ∧ exec (.clearOutExpiry n) s = .fault .noSuchLine ∧
        (n ≠ 16 → exec (.inputSample n flow) s = .fault .noSuchLine)) ∧
      (∀ kind ref body, isCommandKind kind = true →
        exec (.supervisoryUnknownKind kind ref body) s = .fault .kindIsKnown) ∧
      ∀ kind slot body, isMachineKind kind = true → exec (.fleetUnknownKind kind slot body) s = .fault .kindIsKnown

/-- No command's meaning touches the queue of waiting commands, which is the model's own (log 3), and which a full
reset keeps (log 15). A module without supply, or with its reset input held, takes no command, record, expiry or input:
only FULL RESET, RESET INPUT HELD and POWER LOSS act on it (log 6). -/
def Obligations.QueueAndSilentModuleAreLeftAlone : Prop :=
  (∀ (c : Instr) (s t : State), exec c s = .next t → t.pending = s.pending) ∧
  (∀ (c : Instr) (s t : State), s.live = false → c ≠ .fullReset → c ≠ .resetInputHeld → c ≠ .powerLoss →
     exec c s = .next t → t = s)

/-! ## Reset -/

/-- What a full reset leaves, block by block (R1, R7, R44, R54, R87, R88, R92, R107, R137, R153, R155, R164, R166,
R171, R174, R176). FULL RESET brings back that state from any other; that it keeps the model's queue of waiting
commands, restores the supply and releases the reset input is log 15. While the reset input is held, and while the
supply is lost, every clear output is open (R149, R182) and nothing else changes, which is the model's reading (log 6).
The state after a full reset keeps every law that the steps keep. -/
def Obligations.ResetLeavesTheStatedValues : Prop :=
  (let s := State.reset
   (s.floor.cells = [] ∧ s.floor.lanes = [] ∧ s.floor.machines = []) ∧
     (∀ z, z < 32 → s.control.zones.look z = some true) ∧
     s.control.drying = { base := List.replicate 8 600, low := 60, lowSet := 120, high := 3600, highSet := 3600,
                          humidity := 50, temperature := 15 } ∧
     s.control.timing = { beaconInterval := 5, earlyLimit := 1000, lostThreshold := 4, replyWindow := 400,
                          progressLimit := 60, openGuard := 5, laneGuard := 10, standDown := 3, batteryReserve := 20,
                          waterReserve := 10, hostSilence := 120, evacFilter := 50 } ∧
     (∀ i, i < 16 → s.floor.lines.look i = some
       { cfg := { enabled := false, activeLow := false, pulseMode := false, threshold := 20, runt := 50,
                  maxWidth := 2000, holdTime := 30, clearOut := 45 }
         counter := 0, level := false, pulse := none, hold := none, clearTimer := none, stuck := false, state := .quiet,
         runts := 0, stucks := 0, breaches := 0, lastStart := none, lastEnd := none, clearOutput := true }) ∧
     s.evac = { counter := 0, level := false } ∧
     (s.control.mode = .standby ∧ s.control.saved = none ∧ s.control.recallReason = none ∧ s.control.silence = none) ∧
     (s.control.clock = 0 ∧ s.control.clockRunning = false) ∧
     (∀ i, i < 16 → s.marks.look i = some .empty) ∧
     (s.ports.supReading = [] ∧ s.ports.fleetReading = [] ∧ s.ports.cmdQueue = [] ∧ s.ports.fleetQueue = [] ∧
       s.floor.supTx = [] ∧ s.floor.fleetTx = []) ∧
     (s.ports.supCounters = ⟨0, 0, 0, 0, 0, 0⟩ ∧ s.floor.fleetCounters = ⟨0, 0, 0, 0, 0, 0, 0, 0, 0, 0⟩) ∧
     (∀ n, n < 12 → s.floor.notices.look n = some
       { pending := false, enabled := true, sent := false, count := 0, first := none, last := none, reason := none,
         clock := none }) ∧
     s.floor.ceiling = 12) ∧
  (∀ s : State,
     exec .fullReset s = .next { State.reset with pending := s.pending } ∧
       (∃ f, exec .resetInputHeld s = .next { s with resetHeld := true, floor := f } ∧
         (∀ i, f.lines.look i = (s.floor.lines.look i).map fun l => { l with clearOutput := false }) ∧
         { f with lines := s.floor.lines } = s.floor) ∧
       ∃ f, exec .powerLoss s = .next { s with powered := false, floor := f } ∧
         (∀ i, f.lines.look i = (s.floor.lines.look i).map fun l => { l with clearOutput := false }) ∧
         { f with lines := s.floor.lines } = s.floor) ∧
  TablesKept State.reset ∧ ModeKept State.reset ∧ QueuesKept State.reset ∧ AllOrdersKept State.reset ∧
    AllNoticesKept State.reset ∧ CountersKept State.reset ∧ EmbargoKept State.reset ∧ DryingKept State.reset ∧
    BandsKept State.reset ∧ ConcourseLaws State.reset

/-! ## Laws that every step keeps, from every state that keeps them -/

/-- Tables stay in their canonical form: numbers rising and in range, every line, class, mark and zone with its
record. -/
def Obligations.StepsKeepTheTables : Prop := ∀ s t : State, TablesKept s → step s = .next t → TablesKept t

/-- R155: saved mode, recall reason, host silence timer, clock and evacuation level stay in agreement with the mode.
-/
def Obligations.StepsKeepTheModeRecord : Prop := ∀ s t : State, ModeKept s → step s = .next t → ModeKept t

/-- R94: no machine ever has two queued orders of one kind, and a LOST machine has none in hand. R113: a progress timer
runs exactly while its machine is RUNNING or WAITING with ahead cells. -/
def Obligations.StepsKeepOrderQueuesAndProgressTimers : Prop :=
  (∀ s t : State, AllOrdersKept s → step s = .next t → AllOrdersKept t) ∧
  (∀ s t : State, AllProgressKept s → step s = .next t → AllProgressKept t)

/-- R21: every cell's embargo count is the number of lines over it that are not QUIET. R145 to R149: while a line is
not QUIET its state is CLEAR exactly when no cell of its band is HELD or BLOCKED, so that CLEARING and BREACH become
CLEAR when the band empties; and in a running module its clear output is asserted exactly when no cell of the band is
HELD or BLOCKED. -/
def Obligations.StepsKeepEmbargoCountsAndClearOutputs : Prop :=
  (∀ s t : State, EmbargoKept s → step s = .next t → EmbargoKept t) ∧
  (∀ s t : State, TablesKept s → EmbargoKept s → BandsKept s → step s = .next t → BandsKept t)

/-- R19, R68, R133: the cells HELD by a machine that is not LOST are exactly its current cell, its ahead list and its
refuge grant, five at most, and a LOST machine's cells are BLOCKED (R36). That a LOST machine has no refuge grant is
R36, R95 and R110 as log 26 reads them. The law stands with those of wait lists, lanes, tables and progress timers, and
is kept where they all stand. -/
def Obligations.StepsKeepTheHoldings : Prop :=
  ∀ s t : State, ConcourseLaws s → step s = .next t → HoldingsKept t

/-- R23, R29, R63: a machine stands on a wait list exactly when it is WAITING or has a refuge wait, on one list and
once; refuge entries stand before ordinary ones. The law stands with those of holdings, lanes, tables and progress
timers, and is kept where they all stand. -/
def Obligations.StepsKeepTheWaitLists : Prop :=
  ∀ s t : State, ConcourseLaws s → step s = .next t → WaitsKept t

/-- R59 to R62: a lane's direction is FREE exactly when its holder count is 0, the count is the number of machines with
some cell of the lane HELD or BLOCKED, and each of those machines, and no other, has a recorded direction there, which
is the lane's. R5: a cell's lane field is its place in the lane's cell list. The law stands with those of holdings,
wait lists, tables and progress timers, and is kept where they all stand. -/
def Obligations.StepsKeepTheLaneLocks : Prop :=
  ∀ s t : State, ConcourseLaws s → step s = .next t → LanesKept t

/-- The saturating counts of cells, machines, lines, the fleet link and the supervisory link hold at their last values
(R22, R92, R108, R118, R121, R151, R175), and the receive queues never hold more than their room (R88, R171). R44: the
drying settings stay in their ranges. R176: a class that is not pending is clear, and a pending one counts 1 to 255
causes. -/
def Obligations.StepsKeepCountsQueuesAndRanges : Prop :=
  (∀ s t : State, CountersKept s → QueuesKept s → step s = .next t → CountersKept t ∧ QueuesKept t) ∧
  (∀ s t : State, DryingKept s → step s = .next t → DryingKept t) ∧
  (∀ s t : State, AllNoticesKept s → step s = .next t → AllNoticesKept t)

/-! ## What only one command may change -/

/-- Table 10-1: the part mode moves only along the six transitions, each by its causes. A NIGHT BEGIN whose marks at
time 0 recall the part leaves it in RECALL. -/
def Obligations.ModeMovesOnlyByItsCauses : Prop :=
  ∀ (c : Instr) (s t : State), ModeKept s → exec c s = .next t → t.control.mode ≠ s.control.mode → c ≠ .fullReset →
    (s.control.mode = .standby ∧ (∃ r b, c = .nightBegin r b) ∧ (t.control.mode = .night ∨ t.control.mode = .recalling)) ∨
    (s.control.mode = .night ∧ t.control.mode = .recalling ∧
      ((∃ r b, c = .nightRecall r b) ∨ (∃ r b, c = .clockSet r b) ∨ c = .clockAdvance ∨ c = .hostSilenceExpiry)) ∨
    (s.control.mode = .recalling ∧ t.control.mode = .night ∧ ∃ r b, c = .nightContinue r b) ∨
    ((s.control.mode = .night ∨ s.control.mode = .recalling) ∧ t.control.mode = .evacuation ∧
      (c = .evacuationActiveEdge ∨ ∃ flow, c = .inputSample 16 flow)) ∨
    (s.control.mode = .evacuation ∧ (t.control.mode = .night ∨ t.control.mode = .recalling) ∧
      ∃ r b, c = .resumeAll r b) ∨
    (s.control.mode = .recalling ∧ t.control.mode = .standby ∧ ∃ r b, c = .nightEnd r b)

/-- The timing settings are changed by TIMING SETUP and full reset alone, the drying settings by DRYING SETUP,
ENVIRONMENT SET and full reset alone. The static part of every cell and the cell list of every lane are changed by CELL
DEFINE, LANE DEFINE and full reset alone; a line's configuration by LINE SETUP and full reset alone; the ceiling and
the enabled flags by NOTICE CONTROL and full reset alone. A slot is enrolled only by the MACHINE ENROLL that names it
and made ABSENT only by the MACHINE WITHDRAW that names it, by FLEET RESET and by full reset; a machine that stays
enrolled keeps its rank and dock under every other command. -/
def Obligations.OnlyTheirCommandsChangeSettingsAndMap : Prop :=
  (∀ (c : Instr) (s t : State), exec c s = .next t → c ≠ .fullReset →
     ((∀ r b, c ≠ .timingSetup r b) → t.control.timing = s.control.timing) ∧
       ((∀ r b, c ≠ .dryingSetup r b ∧ c ≠ .environmentSet r b) → t.control.drying = s.control.drying)) ∧
  (∀ (c : Instr) (s t : State), exec c s = .next t → c ≠ .fullReset →
     ((∀ r b, c ≠ .cellDefine r b ∧ c ≠ .laneDefine r b) →
       (∀ n, (t.floor.cells.look n).map staticPart = (s.floor.cells.look n).map staticPart) ∧
         ∀ l, (t.floor.lanes.look l).map Lane.cells = (s.floor.lanes.look l).map Lane.cells) ∧
       ((∀ r b, c ≠ .lineSetup r b) →
         ∀ i, (t.floor.lines.look i).map Line.cfg = (s.floor.lines.look i).map Line.cfg) ∧
       ((∀ r b, c ≠ .noticeControl r b) →
         t.floor.ceiling = s.floor.ceiling ∧
           ∀ n, (t.floor.notices.look n).map Notice.enabled = (s.floor.notices.look n).map Notice.enabled)) ∧
  (∀ (c : Instr) (s t : State), exec c s = .next t → c ≠ .fullReset →
     ((∃ r b, c = .fleetReset r b) → s.floor.machines.keys.Nodup) → ∀ m,
     (s.floor.machines.look m = none → t.floor.machines.look m ≠ none →
       ∃ (r slot rank d1 d0 : Byte), c = .machineEnroll r [slot, rank, d1, d0] ∧ slot.toNat = m) ∧
     (s.floor.machines.look m ≠ none → t.floor.machines.look m = none →
       (∃ (r slot : Byte), c = .machineWithdraw r [slot] ∧ slot.toNat = m) ∨ ∃ r b, c = .fleetReset r b) ∧
     ∀ x y, s.floor.machines.look m = some x → t.floor.machines.look m = some y → y.rank = x.rank ∧ y.dock = x.dock)

/-! ## The ports -/

/-- R172, R173: every host command that a running module takes at its turn is answered by exactly one reply, with its
own kind and ref, formed after the NOTICE records of its effects; its frame leaves the head of the command receive
queue. R173: a command that is refused changes nothing: it leaves its queue, is answered once, and that is all. A body
of unsuitable length is counted besides (R172), so that status stands apart. Frames are taken from the head, so a
command or machine record whose turn has not come changes nothing (R172, R88). That a frame just completed is taken
from an empty queue, and that a command out of turn changes nothing rather than stopping the model, is log 4; how much
of the backlog has been sent when the command is taken is log 7. -/
def Obligations.CommandsAreAnsweredOnceOrRefused : Prop :=
  (∀ (c : Instr) (r : Record) (s : State), s.takesCommand r = true → hostFrame c = some r →
     ∃ t status data notices, exec c s = .next t ∧ t.ports.cmdQueue = s.ports.cmdQueue.tail ∧
       (∀ o ∈ notices, o.isReply = false) ∧
       t.floor.supTx = unsent s.floor.supTx ++ notices ++ [.reply r.kind r.ref status data]) ∧
  (∀ (c : Instr) (r : Record) (s t : State) (status : Status) (data : ReplyData),
     s.takesCommand r = true → hostFrame c = some r → exec c s = .next t →
     t.floor.supTx.getLast? = some (.reply r.kind r.ref status data) →
     status ≠ .done → status ≠ .doneClamped → status ≠ .badLength →
     Host.Outcome.next t = turnedAway r status data s) ∧
  (∀ (c : Instr) (r : Record) (s : State), hostFrame c = some r → s.takesCommand r = false → exec c s = .next s) ∧
  (∀ (c : Instr) (r : Record) (s : State), machineFrame c = some r → s.takesRecord r = false → exec c s = .next s)

/-- R87, R170, R171: how a port assembles frames from bytes. Between frames every byte but the lead byte is ignored;
from the lead byte on every byte is held until the frame is read to its last CRC byte; a length byte above 250 abandons
the frame and counts a framing error; bytes are read one after another, however they are split into runs (log 24). A
gap of more than 2 ms abandons a frame being read and counts a framing error; with no frame being read it changes
nothing (log 5). A line break counts a break and abandons a frame being read. R170, R183: the bytes that the module
writes for a frame read back as that frame. R171, R159: at the supervisory port a frame whose CRC differs is counted; a
good frame restarts a running host silence timer for its full length and joins the queue, or is counted as an overrun
where four frames wait. R87: at the fleet port likewise, with a queue of sixteen records. The flash counts of the HOST
and FLEET indicators are the model's (log 14). -/
def Obligations.FramesAreReceivedOrCounted : Prop :=
  (∀ s : State, s.live = true →
     let sup (g : SupCounters → SupCounters) : State :=
       { s with ports := { s.ports with supReading := [], supCounters := g s.ports.supCounters } }
     let fleet (g : FleetCounters → FleetCounters) : State :=
       { s with
         ports := { s.ports with fleetReading := [] }
         floor := { s.floor with fleetCounters := g s.floor.fleetCounters } }
     (s.ports.supReading ≠ [] →
       exec .supervisoryGapTimeout s = .next (sup fun c => { c with framing := oneMore c.framing })) ∧
     (s.ports.supReading = [] → exec .supervisoryGapTimeout s = .next s) ∧
     exec .supervisoryBreak s = .next (sup fun c => { c with breaks := oneMore c.breaks }) ∧
     (s.ports.fleetReading ≠ [] →
       exec .fleetGapTimeout s = .next (fleet fun c => { c with framing := oneMore c.framing })) ∧
     (s.ports.fleetReading = [] → exec .fleetGapTimeout s = .next s) ∧
     exec .fleetBreak s = .next (fleet fun c => { c with breaks := oneMore c.breaks }) ∧
     (s.ports.supReading = [] → ∀ length : Byte, 250 < length.toNat →
       exec (.supervisoryFrame [0xB5#8, length]) s = .next (sup fun c => { c with framing := oneMore c.framing })) ∧
     (s.ports.fleetReading = [] → ∀ length : Byte, 250 < length.toNat →
       exec (.fleetFrame [0xB5#8, length]) s = .next (fleet fun c => { c with framing := oneMore c.framing }))) ∧
  (∀ (s : State) (noise early late : List Byte), (∀ b ∈ noise, b ≠ 0xB5#8) →
     (s.ports.supReading = [] → exec (.supervisoryFrame noise) s = .next s) ∧
     (s.ports.fleetReading = [] → exec (.fleetFrame noise) s = .next s) ∧
     (∀ t, exec (.supervisoryFrame early) s = .next t →
       exec (.supervisoryFrame (early ++ late)) s = exec (.supervisoryFrame late) t) ∧
     ∀ t, exec (.fleetFrame early) s = .next t → exec (.fleetFrame (early ++ late)) s = exec (.fleetFrame late) t) ∧
  (∀ (kind ref : Byte) (body : List Byte) (crc : BitVec 16) (s : State), body.length ≤ 250 → s.live = true →
     let whole := 0xB5#8 :: BitVec.ofNat 8 body.length :: kind :: ref :: body ++
       [BitVec.ofNat 8 (crc.toNat / 256), BitVec.ofNat 8 crc.toNat]
     (crc = frameCrc kind ref body → whole = frameWire kind ref body) ∧
     readFrame whole = some ⟨kind, ref, body, crc⟩ ∧
     (s.ports.supReading = [] →
       (∀ n, n < whole.length → exec (.supervisoryFrame (whole.take n)) s =
         .next { s with ports := { s.ports with supReading := whole.take n } }) ∧
       (crc ≠ frameCrc kind ref body →
         exec (.supervisoryFrame whole) s = .next { s with ports := { s.ports with supCounters :=
           { s.ports.supCounters with crc := oneMore s.ports.supCounters.crc } } }) ∧
       (crc = frameCrc kind ref body →
         let silence := s.control.silence.bind fun _ =>
           if s.control.timing.hostSilence = 0 then none
           else some (s.control.now + s.control.timing.hostSilence * 1000)
         let ports := { s.ports with hostFlashes := s.ports.hostFlashes + 1 }
         exec (.supervisoryFrame whole) s = .next { s with
           control := { s.control with silence := silence }
           ports :=
             if s.ports.cmdQueue.length < 4 then { ports with cmdQueue := s.ports.cmdQueue ++ [⟨kind, ref, body⟩] }
             else
               { ports with
                 supCounters := { s.ports.supCounters with overruns := oneMore s.ports.supCounters.overruns } } })) ∧
     (s.ports.fleetReading = [] →
       let counted (g : FleetCounters → FleetCounters) : State :=
         { s with floor := { s.floor with fleetCounters := g s.floor.fleetCounters } }
       (∀ n, n < whole.length → exec (.fleetFrame (whole.take n)) s =
         .next { s with ports := { s.ports with fleetReading := whole.take n } }) ∧
       (crc ≠ frameCrc kind ref body →
         exec (.fleetFrame whole) s = .next (counted fun c => { c with crc := oneMore c.crc })) ∧
       (crc = frameCrc kind ref body →
         let flash := s.ports.fleetFlashes + 1
         (s.ports.fleetQueue.length < 16 →
           exec (.fleetFrame whole) s = .next { s with ports := { s.ports with
             fleetFlashes := flash, fleetQueue := s.ports.fleetQueue ++ [⟨kind, ref, body⟩] } }) ∧
         (16 ≤ s.ports.fleetQueue.length →
           exec (.fleetFrame whole) s = .next { counted fun c => { c with overruns := oneMore c.overruns } with
             ports := { s.ports with fleetFlashes := flash } }))))

/-- R172, R89: a frame of unknown kind and a body of unsuitable length are answered, or dropped, and counted, and do
nothing else; one whose turn has not come does nothing (log 4). What length suits is Table 11-8; that a CELL DEFINE
entry of unknown kind counts as three bytes long is log 20, and that only bits 0 and 1 of DRYING SETUP's parts byte
bear on the length is log 18. -/
def Obligations.UnknownKindsAndWrongLengths : Prop :=
  ∀ s : State,
    let lost (g : FleetCounters → FleetCounters) (u : State) : State :=
      { u with floor := { u.floor with fleetCounters := g u.floor.fleetCounters } }
    let badLengths := lost fun c => { c with lengths := oneMore c.lengths }
    (∀ kind ref body, isCommandKind kind = false →
      (s.takesCommand ⟨kind, ref, body⟩ = true →
        exec (.supervisoryUnknownKind kind ref body) s = answers kind ref .unknownKind .nothing (fun u =>
          { u with ports := { u.ports with supCounters :=
            { u.ports.supCounters with unknown := oneMore u.ports.supCounters.unknown } } }) s) ∧
      (s.takesCommand ⟨kind, ref, body⟩ = false → exec (.supervisoryUnknownKind kind ref body) s = .next s)) ∧
    (∀ kind slot body, isMachineKind kind = false →
      (s.takesRecord ⟨kind, slot, body⟩ = true →
        exec (.fleetUnknownKind kind slot body) s = takes (lost fun c => { c with unknown := oneMore c.unknown }) s) ∧
      (s.takesRecord ⟨kind, slot, body⟩ = false → exec (.fleetUnknownKind kind slot body) s = .next s)) ∧
    (∀ c r, hostFrame c = some r → s.takesCommand r = true → lengthSuits c r.body = false →
      exec c s = answers r.kind r.ref .badLength .nothing (fun u =>
        { u with ports := { u.ports with supCounters :=
          { u.ports.supCounters with lengths := oneMore u.ports.supCounters.lengths } } }) s) ∧
    ∀ slot body,
      let turn (kind : Byte) : Prop := s.takesRecord ⟨kind, slot, body⟩ = true
      (turn 0x41#8 → body.length ≠ 2 → exec (.beacon slot body) s = takes badLengths s) ∧
      (turn 0x42#8 → body.length ≠ 3 → exec (.arrive slot body) s = takes badLengths s) ∧
      (turn 0x43#8 → body.length ≠ 1 → exec (.request slot body) s = takes badLengths s) ∧
      (turn 0x44#8 → body.length ≠ 4 → exec (.ack slot body) s = takes badLengths s) ∧
      (turn 0x45#8 → body.length ≠ 1 → exec (.faultStop slot body) s = takes badLengths s) ∧
      (turn 0x46#8 → body.length ≠ 0 → exec (.restart slot body) s = takes badLengths s)

/-! ## Queries -/

/-- R14, R66, R124, R152, R180, R175, R15: each query answers in every mode with the record that stands when it
is taken, or with the status its rule gives, and changes no state. -/
def Obligations.QueriesReportAndChangeNothing : Prop :=
  ∀ (ref b1 b0 : Byte) (s : State),
    let c := b1.toNat * 256 + b0.toNat
    let n := b0.toNat
    let told (kind : Byte) (status : Status) (data : ReplyData) : Machine.Result :=
      answers kind ref status data id s
    let turn (kind : Byte) (body : List Byte) : Prop := s.takesCommand ⟨kind, ref, body⟩ = true
    (turn 0x18#8 [b1, b0] → exec (.cellRead ref [b1, b0]) s =
      if 511 < c then told 0x18#8 .badValue .nothing
      else match s.floor.cells.look c with
        | none => told 0x18#8 .notDefined .nothing
        | some x => told 0x18#8 .done (.cell c x s.control.now)) ∧
    (turn 0x19#8 [b0] → exec (.machineRead ref [b0]) s =
      if n < 1 ∨ 24 < n then told 0x19#8 .badValue .nothing
      else match s.floor.machines.look n with
        | none => told 0x19#8 .done .machineAbsent
        | some x => told 0x19#8 .done (.machine x)) ∧
    (turn 0x1A#8 [b0] → exec (.laneRead ref [b0]) s =
      if 15 < n then told 0x1A#8 .badValue .nothing
      else match s.floor.lanes.look n with
        | none => told 0x1A#8 .notDefined .nothing
        | some r => told 0x1A#8 .done
            (.lane r (s.floor.machines.keys.filter fun m => s.floor.hasLaneCell m n))) ∧
    (turn 0x1B#8 [b0] → exec (.lineRead ref [b0]) s =
      if n = 16 then told 0x1B#8 .done (.evacuationInput s.control.timing.evacFilter s.evac)
      else match s.floor.lines.look n with
        | none => told 0x1B#8 .badValue .nothing
        | some l => told 0x1B#8 .done
            (.line l s.control.now (s.floor.bandCells n) (s.floor.bandTaken n))) ∧
    (turn 0x1C#8 [] → exec (.countersRead ref []) s =
      told 0x1C#8 .done
        (.counters
          { mode := s.control.mode, saved := s.control.saved, recallReason := s.control.recallReason
            silence := s.control.silence.map fun t => (t - s.control.now + 999) / 1000
            clock := s.control.clock, clockRunning := s.control.clockRunning }
          s.control.zones s.marks s.ports.supCounters s.floor.fleetCounters)) ∧
    (turn 0x1D#8 [] →
      exec (.noticeRead ref []) s = told 0x1D#8 .done (.noticesAll s.floor.notices s.floor.ceiling)) ∧
    (turn 0x1E#8 [] → exec (.mapCheck ref []) s =
      told 0x1E#8 .done
        (match s.floor.mapFault with
          | some fault => .mapFault fault
          | none => .mapPass s.floor.cells.length s.floor.lanes.length))

/-- R15 to R17, Table 1-3: the map check finds the first fault, in the order of cells, lanes and docks, and MAP CHECK
reports it. The cells come in ascending number, each with the tests of codes 1 to 9 in code order, a test of neighbours
naming the first that fails it and a test of the refuge made only where the band is not empty; then the lanes in
ascending id, each from index 1 on; then the enrolled slots in ascending number. Where nothing fails the check passes,
with the numbers of cells and lanes. -/
def Obligations.MapCheckNamesTheFirstFault : Prop :=
  ∀ (ref : Byte) (s : State), s.takesCommand ⟨0x1E#8, ref, []⟩ = true → TablesKept s →
    let old (n : Nat) := s.floor.cells.look n
    let finds (found : Option MapFault) (data : ReplyData) : Prop :=
      s.floor.mapFault = found ∧ exec (.mapCheck ref []) s = answers 0x1E#8 ref .done data id s
    let first (test : Nat → Prop) (neighbours : List Nat) (other : Option Nat) : Prop :=
      ∃ before b after, neighbours = before ++ b :: after ∧ test b ∧ (∀ a ∈ before, ¬ test a) ∧ other = some b
    let tests (n : Nat) (z : Cell) : List (Option Nat → Prop) :=
      let atRefuge (test : Nat → Prop) (other : Option Nat) : Prop :=
        z.band ≠ 0#16 ∧ ∃ r, z.refuge = some r ∧ test r ∧ other = some r
      [ first (fun b => b = n) z.neighbours,
        first (fun b => old b = none) z.neighbours,
        first (fun b => ∃ w, old b = some w ∧ n ∉ w.neighbours) z.neighbours,
        atRefuge fun r => old r = none,
        atRefuge fun r => r ∉ z.neighbours,
        atRefuge fun r => ∃ w, old r = some w ∧ w.band ≠ 0#16,
        atRefuge fun r => ∃ w, old r = some w ∧ w.lane ≠ none,
        atRefuge fun r => ∃ w, old r = some w ∧ w.kind = .dock,
        fun other => z.kind = .dock ∧ z.band ≠ 0#16 ∧ other = none ]
    let soundCell (n : Nat) : Prop := ∀ z, old n = some z → ∀ fails ∈ tests n z, ∀ other, ¬ fails other
    let joined (p c : Nat) : Prop := ∃ w, old p = some w ∧ c ∈ w.neighbours
    let soundStep (r : Lane) (i : Nat) : Prop := ∀ p c, r.cells[i]? = some p → r.cells[i + 1]? = some c → joined p c
    let soundLane (l : Nat) : Prop := ∀ r, s.floor.lanes.look l = some r → ∀ i, soundStep r i
    let soundSlot (m : Nat) : Prop := ∀ x, s.floor.machines.look m = some x →
      ∃ w, old x.dock = some w ∧ w.kind = .dock ∧ w.owner = some m
    (∀ n z (j : Nat) (fails : Option Nat → Prop) other, old n = some z → (tests n z)[j]? = some fails → fails other →
      (∀ (i : Nat) (test : Option Nat → Prop) o, i < j → (tests n z)[i]? = some test → ¬ test o) →
      (∀ q, q < n → soundCell q) →
      finds (some ⟨j + 1, .cell n, other⟩) (.mapFault ⟨j + 1, .cell n, other⟩)) ∧
    ((∀ n, soundCell n) →
      (∀ l r i p c, s.floor.lanes.look l = some r → r.cells[i]? = some p → r.cells[i + 1]? = some c → ¬ joined p c →
        (∀ q, q < i → soundStep r q) → (∀ q, q < l → soundLane q) →
        finds (some ⟨10, .lane l (i + 1), some p⟩) (.mapFault ⟨10, .lane l (i + 1), some p⟩)) ∧
      ((∀ l, soundLane l) →
        (∀ m x, s.floor.machines.look m = some x → ¬ soundSlot m → (∀ q, q < m → soundSlot q) →
          finds (some ⟨11, .slot m, some x.dock⟩) (.mapFault ⟨11, .slot m, some x.dock⟩)) ∧
        ((∀ m, soundSlot m) → finds none (.mapPass s.floor.cells.length s.floor.lanes.length))))

/-! ## Setting up the concourse -/

/-- R8 to R13: CELL DEFINE. An entry list is refused outside STANDBY and outside 1 to 8 entries; then the five checks
of Table 1-2 are made one after the other over all the entries, and the first entry that fails the first failing check
is named; that a number that stands twice is named at its first entry is log 19, and that an entry of unknown kind is
read as three bytes long is log 20. Where every entry passes, all take effect: a VOID entry undefines its cell, any
other writes the static part, keeps the lane field and the wash record, and takes the embargo count from the lines over
its new band. -/
def Obligations.CellDefineChecksThenWrites : Prop :=
  ∀ (ref count : Byte) (bytes : List Byte) (es : List CellEntry) (s : State),
    s.takesCommand ⟨0x01#8, ref, count :: bytes⟩ = true →
    readEntries count.toNat bytes = some es →
    let r : Record := ⟨0x01#8, ref, count :: bytes⟩
    let run := exec (.cellDefine ref (count :: bytes)) s
    let old (n : Nat) := s.floor.cells.look n
    let fit (e : CellEntry) : Prop :=
      e.number ≤ 511 ∧
        (e.kind = 0 ∨
          ((e.kind = 1 ∧ e.owner = none ∨ e.kind = 2 ∧ ∃ m, e.owner = some m ∧ 1 ≤ m ∧ m ≤ 24) ∧
            e.zone ≤ 31 ∧ e.floorClass ≤ 7 ∧ 1 ≤ e.neighbours.length ∧ e.neighbours.length ≤ 6 ∧
            (∀ n ∈ e.neighbours, n ≤ 511) ∧ e.neighbours.Nodup ∧
            (e.band = 0#16 ∧ e.refuge = none ∨ e.band ≠ 0#16 ∧ ∃ n, e.refuge = some n ∧ n ≤ 511)))
    let checks : List (Status × (CellEntry → Prop)) :=
      [ (.badValue, fun e => ¬ fit e),
        (.badValue, fun e => 2 ≤ (es.map CellEntry.number).count e.number),
        (.notDefined, fun e => e.kind = 0 ∧ old e.number = none),
        (.refusedState, fun e => e.kind = 0 ∧ ∃ c, old e.number = some c ∧ c.lane ≠ none),
        (.refusedBusy, fun e => ∃ c, old e.number = some c ∧ (c.occ ≠ .free ∨ c.waiters ≠ [])) ]
    (s.control.mode ≠ .standby → run = turnedAway r .refusedMode (.entryRefused 0) s) ∧
    (s.control.mode = .standby → es.length = 0 ∨ 8 < es.length → run = turnedAway r .badValue (.entryRefused 0) s) ∧
    (s.control.mode = .standby → 1 ≤ es.length → es.length ≤ 8 →
      (∀ (j p : Nat) status (bad : CellEntry → Prop) e, checks[j]? = some (status, bad) → es[p]? = some e → bad e →
        (∀ (i : Nat) st (b : CellEntry → Prop), i < j → checks[i]? = some (st, b) → ∀ x ∈ es, ¬ b x) →
        (∀ (q : Nat) x, q < p → es[q]? = some x → ¬ bad x) → run = turnedAway r status (.entryRefused (p + 1)) s) ∧
      ((∀ check ∈ checks, ∀ e ∈ es, ¬ check.2 e) →
        ∃ cells, run = answers r.kind r.ref .done (.entriesApplied es.length)
            (fun u => { u with floor := { u.floor with cells := cells } }) s ∧
          (∀ n, n ∉ es.map CellEntry.number → cells.look n = old n) ∧
          ∀ e ∈ es, cells.look e.number =
            if e.kind = 0 then none
            else some
              { kind := if e.kind = 2 then .dock else .openFloor
                owner := e.owner, zone := e.zone, floorClass := e.floorClass, band := e.band
                neighbours := e.neighbours, refuge := e.refuge, lane := (old e.number).bind Cell.lane
                occ := .free, embargo := s.floor.embargoFor e.band, waiters := []
                washes := ((old e.number).map Cell.washes).getD 0
                lastWashed := (old e.number).bind Cell.lastWashed }))

/-- R55, Table 4-2: LANE DEFINE. A lane id or cell count out of range is refused without a cell; then the checks are
made one after the other over all the cells, and the first cell that fails the first failing check is carried, the old
members after the new list in check 7; an empty list for an undefined lane, and a lane that has holders or waiters,
carry none. That a cell that stands twice is found at its first place is log 19. R54, R56: an accepted one numbers its
cells from the low end, takes the lane field from the cells that leave the lane, and makes the lane FREE with no holder
and no waiter; with no cells it undefines the lane. -/
def Obligations.LaneDefineChecksThenWrites : Prop :=
  ∀ (ref lane count : Byte) (bytes : List Byte) (s : State),
    s.takesCommand ⟨0x02#8, ref, lane :: count :: bytes⟩ = true → bytes.length = 2 * count.toNat →
    let l := lane.toNat
    let cs := be16s bytes
    let members := cs ++ ((s.floor.lanes.look l).map Lane.cells).getD []
    let old (c : Nat) := s.floor.cells.look c
    let away (st : Status) (c : Option Nat) :=
      turnedAway ⟨0x02#8, ref, lane :: count :: bytes⟩ st (c.elim .nothing .laneRefused) s
    let run := exec (.laneDefine ref (lane :: count :: bytes)) s
    let busyLane : Prop := ∃ r, s.floor.lanes.look l = some r ∧ (r.holders ≠ 0 ∨ r.waiters ≠ [])
    let checks : List (Status × List Nat × (Nat → Nat → Prop)) :=
      [ (.badValue, cs, fun _ c => 511 < c ∨ 2 ≤ cs.count c),
        (.notDefined, cs, fun _ c => old c = none),
        (.refusedState, cs, fun _ c => ∃ x e, old c = some x ∧ x.lane = some e ∧ e.1 ≠ l),
        (.badValue, cs, fun i _ => ∃ j p c, i = j + 1 ∧ cs[j]? = some p ∧ cs[j + 1]? = some c ∧
          ∀ x, old p = some x → c ∉ x.neighbours),
        (.refusedBusy, cs ++ (((s.floor.lanes.look l).map Lane.cells).getD []).filter (fun c => decide (c ∉ cs)),
          fun _ c => ∃ x, old c = some x ∧ (x.occ ≠ .free ∨ x.waiters ≠ [])) ]
    (s.control.mode ≠ .standby → run = away .refusedMode none) ∧
    (s.control.mode = .standby → 15 < l ∨ cs.length = 1 ∨ 16 < cs.length → run = away .badValue none) ∧
    (s.control.mode = .standby → l ≤ 15 → cs.length ≠ 1 → cs.length ≤ 16 →
      (cs = [] → s.floor.lanes.look l = none → run = away .notDefined none) ∧
      (∀ (j p : Nat) status (xs : List Nat) (bad : Nat → Nat → Prop) c, checks[j]? = some (status, xs, bad) →
        xs[p]? = some c → bad p c →
        (∀ (i q : Nat) st (ys : List Nat) (b : Nat → Nat → Prop) d, i < j → checks[i]? = some (st, ys, b) →
          ys[q]? = some d → ¬ b q d) →
        (∀ (q d : Nat), q < p → xs[q]? = some d → ¬ bad q d) → (j = 4 → ¬ busyLane) → run = away status (some c)) ∧
      ((∀ (i q : Nat) st (ys : List Nat) (b : Nat → Nat → Prop) d, i < 4 → checks[i]? = some (st, ys, b) →
          ys[q]? = some d → ¬ b q d) → busyLane → run = away .refusedBusy none)) ∧
    (s.control.mode = .standby → l ≤ 15 → cs.length ≠ 1 → cs.length ≤ 16 → cs.Nodup →
      (∀ c ∈ cs, c ≤ 511 ∧ ∃ x, s.floor.cells.look c = some x ∧ ∀ e, x.lane = some e → e.1 = l) →
      (∀ i p c, cs[i]? = some p → cs[i + 1]? = some c → ∃ x, s.floor.cells.look p = some x ∧ c ∈ x.neighbours) →
      (cs = [] → (s.floor.lanes.look l).isSome = true) →
      (∀ r, s.floor.lanes.look l = some r → r.holders = 0 ∧ r.waiters = []) →
      (∀ c ∈ members, ∀ x, s.floor.cells.look c = some x → x.occ = .free ∧ x.waiters = []) →
      ∃ cells lanes, run =
          answers 0x02#8 ref .done (.laneCells cs.length)
            (fun u => { u with floor := { u.floor with cells := cells, lanes := lanes } }) s ∧
        (∀ n, cells.look n = (s.floor.cells.look n).map fun x =>
          { x with lane :=
              if n ∈ cs then some (l, cs.idxOf n)
              else if x.lane.map Prod.fst = some l then none
              else x.lane }) ∧
        ∀ j, lanes.look j =
          if j = l then (if cs = [] then none else some { cells := cs, dir := none, holders := 0, waiters := [] })
          else s.floor.lanes.look j)

/-- R138: LINE SETUP. A value out of its range is refused; an accepted one replaces the configuration and restarts the
line. On a QUIET line that is all; an embargo in force ends, its band counts falling by one. -/
def Obligations.LineSetupReplacesAndRestarts : Prop :=
  ∀ (ref line en pol mode thr r1 r0 m1 m0 h1 h0 c1 c0 : Byte) (l : Line) (s : State),
    let body := [line, en, pol, mode, thr, r1, r0, m1, m0, h1, h0, c1, c0]
    s.takesCommand ⟨0x03#8, ref, body⟩ = true →
    let i := line.toNat
    let runt := r1.toNat * 256 + r0.toNat
    let width := m1.toNat * 256 + m0.toNat
    let hold := h1.toNat * 256 + h0.toNat
    let clear := c1.toNat * 256 + c0.toNat
    let cfg : LineConfig :=
      { enabled := decide (en = 1#8), activeLow := decide (pol = 2#8), pulseMode := decide (mode = 2#8)
        threshold := thr.toNat, runt := runt, maxWidth := width, holdTime := hold, clearOut := clear }
    let good : Prop :=
      i ≤ 15 ∧ (en = 0#8 ∨ en = 1#8) ∧ (pol = 1#8 ∨ pol = 2#8) ∧ (mode = 1#8 ∨ mode = 2#8) ∧ 1 ≤ thr.toNat ∧
        runt ≤ 1000 ∧ runt + 1 ≤ width ∧ width ≤ 10000 ∧ hold ≤ 1800 ∧ (mode = 2#8 → 1 ≤ hold) ∧ 5 ≤ clear ∧ clear ≤ 300
    let restart (l : Line) : Line :=
      { l with cfg := cfg, counter := 0, level := false, pulse := none, hold := none, clearTimer := none
               stuck := false }
    let run := exec (.lineSetup ref body) s
    (s.control.mode ≠ .standby → run = turnedAway ⟨0x03#8, ref, body⟩ .refusedMode .nothing s) ∧
    (s.control.mode = .standby → ¬ good → run = turnedAway ⟨0x03#8, ref, body⟩ .badValue .nothing s) ∧
    (s.control.mode = .standby → good → s.floor.lines.look i = some l → l.state = .quiet →
      run = answers 0x03#8 ref .done (.lineSet cfg .quiet)
        (fun u => { u with floor := { u.floor with lines := u.floor.lines.upd i restart } }) s) ∧
    (s.control.mode = .standby → good → s.floor.lines.look i = some l → l.state ≠ .quiet → NobodyWaits s.floor →
      run = answers 0x03#8 ref .done (.lineSet cfg .quiet)
        (fun u => { u with floor := { u.floor with
          cells := u.floor.cells.each fun _ c => if c.band.getLsbD i then { c with embargo := c.embargo - 1 } else c
          lines := u.floor.lines.upd i fun l =>
            { restart l with
              state := .quiet
              lastEnd := if u.control.clockRunning then some u.control.clock else none } } }) s)

/-- R174: TIMING SETUP. An empty body reads the settings in every mode. A full body is refused outside STANDBY, and
with the position of the first setting outside its range in Table 11-3; else it replaces all twelve, the miss count of
a LOST machine becomes a lost threshold that has changed (R109), and the evacuation filter counter is held to the new
threshold (R153). -/
def Obligations.TimingSetupReadsOrReplaces : Prop :=
  ∀ (ref bi e1 e0 lost w1 w0 p1 p0 o1 o0 l1 l0 sd br wr h1 h0 ef : Byte) (s : State),
    let body := [bi, e1, e0, lost, w1, w0, p1, p0, o1, o0, l1, l0, sd, br, wr, h1, h0, ef]
    let wide (hi lo : Byte) := hi.toNat * 256 + lo.toNat
    let t : Timing :=
      { beaconInterval := bi.toNat, earlyLimit := wide e1 e0, lostThreshold := lost.toNat, replyWindow := wide w1 w0
        progressLimit := wide p1 p0, openGuard := wide o1 o0, laneGuard := wide l1 l0, standDown := sd.toNat
        batteryReserve := br.toNat, waterReserve := wr.toNat, hostSilence := wide h1 h0, evacFilter := ef.toNat }
    let ranges : List Bool :=
      [ decide (2 ≤ bi.toNat ∧ bi.toNat ≤ 60), decide (wide e1 e0 ≤ 4999 ∧ wide e1 e0 < bi.toNat * 1000),
        decide (1 ≤ lost.toNat ∧ lost.toNat ≤ 15), decide (50 ≤ wide w1 w0 ∧ wide w1 w0 ≤ 2000),
        decide (5 ≤ wide p1 p0 ∧ wide p1 p0 ≤ 600), decide (wide o1 o0 ≤ 60), decide (wide l1 l0 ≤ 60),
        decide (1 ≤ sd.toNat ∧ sd.toNat ≤ 14), decide (br.toNat ≤ 90), decide (wr.toNat ≤ 90),
        decide (wide h1 h0 = 0 ∨ 10 ≤ wide h1 h0 ∧ wide h1 h0 ≤ 600), decide (1 ≤ ef.toNat) ]
    (s.takesCommand ⟨0x04#8, ref, []⟩ = true →
      exec (.timingSetup ref []) s = answers 0x04#8 ref .done (.timing s.control.timing) id s) ∧
    (s.takesCommand ⟨0x04#8, ref, body⟩ = true →
      exec (.timingSetup ref body) s =
        if s.control.mode ≠ .standby then turnedAway ⟨0x04#8, ref, body⟩ .refusedMode .nothing s
        else match ranges.idxOf? false with
          | some p => turnedAway ⟨0x04#8, ref, body⟩ .badValue (.timingRefused (p + 1)) s
          | none => answers 0x04#8 ref .done (.timing t) (fun u =>
              { u with
                control := { u.control with timing := t }
                floor := { u.floor with machines := u.floor.machines.each fun _ x =>
                  if x.state = .lost ∧ lost.toNat ≠ s.control.timing.lostThreshold then { x with misses := lost.toNat }
                  else x }
                evac := { u.evac with counter := min u.evac.counter ef.toNat } }) s)

/-- R105, R61, R149: MACHINE ENROLL. Its checks in order; then the machine stands IDLE on its dock with everything
else of its record empty, the dock is HELD by it, the clear outputs of the dock's lines open, and a dock in a lane
makes it a holder: in the lane's direction, or of a FREE lane away from the end it stands at. -/
def Obligations.MachineEnrollChecksThenEnrols : Prop :=
  ∀ (ref slot rank d1 d0 : Byte) (s : State),
    let body := [slot, rank, d1, d0]
    s.takesCommand ⟨0x05#8, ref, body⟩ = true →
    let m := slot.toNat
    let d := d1.toNat * 256 + d0.toNat
    let out (st : Status) := turnedAway ⟨0x05#8, ref, body⟩ st .nothing s
    let run := exec (.machineEnroll ref body) s
    (s.control.mode ≠ .standby → run = out .refusedMode) ∧
    (s.control.mode = .standby → (m < 1 ∨ 24 < m ∨ 3 < rank.toNat ∨ 511 < d → run = out .badValue) ∧
      (1 ≤ m → m ≤ 24 → rank.toNat ≤ 3 → d ≤ 511 →
        ((s.floor.machines.look m).isSome → run = out .refusedState) ∧
        (s.floor.machines.look m = none →
          (s.floor.cells.look d = none → run = out .notDefined) ∧
          ∀ c, s.floor.cells.look d = some c →
            (c.kind ≠ .dock ∨ c.owner ≠ some m → run = out .badValue) ∧
            (c.kind = .dock → c.owner = some m → c.occ ≠ .free ∨ c.embargo ≠ 0 → run = out .refusedBusy) ∧
            (c.kind = .dock → c.owner = some m → c.occ = .free → c.embargo = 0 →
              (∀ l i, c.lane = some (l, i) → (s.floor.lanes.look l).isSome) →
              let entered : Option (Nat × Dir) := c.lane.bind fun e => (s.floor.lanes.look e.1).map fun r =>
                (e.1, r.dir.getD (if e.2 + 1 = r.cells.length then .down else .up))
              let x : Scrubber :=
                { rank := rank.toNat, dock := d, state := .idle, halts := ⟨false, false, false, false⟩, current := d
                  ahead := [], refuge := none, request := none, withdrawal := none, laneDirs := entered.toList
                  active := none, staged := none, queue := [], outstanding := none, replyWindow := none, misses := 0
                  lastBeacon := none, safeStops := 0, lastFault := none, battery := none, water := none, low := false
                  heard := false, reported := none, beaconTimer := none, progress := none, earlyBeacons := 0
                  duplicates := 0 }
              ∃ cells lanes machines lines, run = answers 0x05#8 ref .done .nothing (fun u =>
                  { u with floor := { u.floor with
                      cells := cells, lanes := lanes, machines := machines, lines := lines } }) s ∧
                (∀ n, cells.look n = if n = d then some { c with occ := .held m } else s.floor.cells.look n) ∧
                (∀ n, machines.look n = if n = m then some x else s.floor.machines.look n) ∧
                (∀ i, lines.look i = (s.floor.lines.look i).map fun l =>
                  if c.band.getLsbD i then { l with clearOutput := false } else l) ∧
                ∀ j, lanes.look j = (s.floor.lanes.look j).map fun r =>
                  if entered.map Prod.fst = some j then
                    { r with holders := r.holders + 1
                             dir := if r.holders = 0 then entered.map Prod.snd else r.dir }
                  else r))))

/-- R168: FLEET RESET, refused outside STANDBY, puts the fleet back on its docks: queues, counters, clock, notices and
wash records are cleared, zones opened; a machine whose dock is no longer its own becomes ABSENT, every other stands
newly enrolled with its dock HELD; every other cell is FREE; the lines keep their embargoes, their clearance judged
anew; map, settings, marks and the command queue stand, and so does what either port is reading. R54, R61: every lane
is FREE but for the machines docked in it, which hold it, away from the end at which the first of them in slot number
stands. -/
def Obligations.FleetResetPutsTheFleetHome : Prop :=
  ∀ (ref : Byte) (s : State), s.takesCommand ⟨0x06#8, ref, []⟩ = true → TablesKept s →
    let run := exec (.fleetReset ref []) s
    let fits (m : Nat) (x : Scrubber) : Prop :=
      ∃ c, s.floor.cells.look x.dock = some c ∧ c.kind = .dock ∧ c.owner = some m
    let docked (l : Nat) (e : Nat × Scrubber) : Bool := (s.floor.cells.look e.2.dock).any fun c =>
      decide (c.kind = .dock ∧ c.owner = some e.1) && c.lane.any fun place => decide (place.1 = l)
    let direction (l : Nat) (r : Lane) : Option Dir := (s.floor.machines.find? (docked l)).bind fun e =>
      (s.floor.laneOf e.2.dock).map fun place => if place.2 + 1 = r.cells.length then .down else .up
    (s.control.mode ≠ .standby → run = turnedAway ⟨0x06#8, ref, []⟩ .refusedMode .nothing s) ∧
    (s.control.mode = .standby →
      ∃ t, run = .next t ∧ TablesKept t ∧
        t.pending = s.pending ∧ t.powered = s.powered ∧ t.resetHeld = s.resetHeld ∧ t.marks = s.marks ∧ t.evac = s.evac ∧
        t.control = { s.control with clock := 0, clockRunning := false, zones := s.control.zones.each fun _ _ => true } ∧
        t.ports = { s.ports with
          cmdQueue := s.ports.cmdQueue.tail
          fleetQueue := [], supCounters := ⟨0, 0, 0, 0, 0, 0⟩ } ∧
        t.floor.fleetTx = [] ∧ t.floor.fleetCounters = ⟨0, 0, 0, 0, 0, 0, 0, 0, 0, 0⟩ ∧
        t.floor.ceiling = s.floor.ceiling ∧
        t.floor.supTx = unsent s.floor.supTx ++ [.reply 0x06#8 ref .done
          (.fleetReset t.floor.machines.length (s.floor.machines.length - t.floor.machines.length))] ∧
        (∀ n, t.floor.notices.look n = (s.floor.notices.look n).map fun r =>
          { pending := false, enabled := r.enabled, sent := false, count := 0, first := none, last := none
            reason := none, clock := none }) ∧
        (∀ m x, s.floor.machines.look m = some x → ¬ fits m x → t.floor.machines.look m = none) ∧
        (∀ m x, s.floor.machines.look m = some x → fits m x →
          let entered : Option (Nat × Dir) := (s.floor.laneOf x.dock).bind fun place =>
            (s.floor.lanes.look place.1).bind fun r => (direction place.1 r).map fun d => (place.1, d)
          t.floor.machines.look m = some { Scrubber.enrolled x.rank x.dock with laneDirs := entered.toList }) ∧
        (∀ m, s.floor.machines.look m = none → t.floor.machines.look m = none) ∧
        (∀ n c, s.floor.cells.look n = some c → ∃ o,
          t.floor.cells.look n = some
            { c with occ := o, embargo := s.floor.embargoFor c.band, waiters := [], washes := 0, lastWashed := none } ∧
          (o = .free ∨ ∃ m, o = .held m) ∧
          ∀ m, o = .held m ↔ ∃ x, s.floor.machines.look m = some x ∧ x.dock = n ∧ fits m x) ∧
        (∀ n, s.floor.cells.look n = none → t.floor.cells.look n = none) ∧
        (∀ l, t.floor.lanes.look l = (s.floor.lanes.look l).map fun r =>
          { cells := r.cells, dir := direction l r, holders := s.floor.machines.countP (docked l), waiters := [] }) ∧
        ∀ i l, s.floor.lines.look i = some l →
          let taken := t.floor.bandTaken i
          t.floor.lines.look i = some
            { l with
              runts := 0, stucks := 0, breaches := 0, lastStart := none, lastEnd := none
              clearOutput := decide (taken = 0)
              state := if l.state = .quiet then .quiet else if taken = 0 then .clear else .clearing
              clearTimer :=
                if l.state = .quiet then l.clearTimer
                else if taken = 0 then none
                else some (s.control.now + l.cfg.clearOut * 1000) })

/-- R156: NIGHT BEGIN. Refused outside STANDBY, while the evacuation input is active, and for a map with a fault; each
reply carries the mode record, which is R155 as log 18 reads it. Else the night begins: zones open, wash records
cleared, every mark that is not EMPTY ARMED, the clock at 0 and running, every machine's count of misses cleared and
its beacon timer started unless it is LOST, the host silence timer started; that is all where no machine waits and no
mark stands at time 0. (The offers to machines that wait are left out of this part.) R156, R167: the marks that stand
at time 0 fire as the night begins, whatever state they stood in; one whose action is RECALL leaves the part recalling.
-/
def Obligations.NightBeginOpensTheNight : Prop :=
  (∀ (ref : Byte) (s : State), s.takesCommand ⟨0x07#8, ref, []⟩ = true →
     let run := exec (.nightBegin ref []) s
     let out (st : Status) (d : ReplyData) := turnedAway ⟨0x07#8, ref, []⟩ st d s
     let before : ReplyData := .modeRecord s.control.modeRecord
     let k := { s.control with
       mode := .night, clock := 0, clockRunning := true, clockDue := s.control.now + 1000
       zones := s.control.zones.each fun _ _ => true
       silence := if s.control.timing.hostSilence = 0 then none
                  else some (s.control.now + s.control.timing.hostSilence * 1000) }
     (s.control.mode ≠ .standby → run = out .refusedMode before) ∧
     (s.control.mode = .standby → (s.evac.level = true → run = out .refusedState before) ∧
       (s.evac.level = false → ∀ fault, s.floor.mapFault = some fault →
         run = out .mapFault (.nightBeginFault s.control.modeRecord fault)) ∧
       (s.evac.level = false → s.floor.mapFault = none → NobodyWaits s.floor →
         (∀ i a, s.marks.look i ≠ some (.armed 0 a) ∧ s.marks.look i ≠ some (.fired 0 a)) → TablesKept s →
         run = answers 0x07#8 ref .done (.modeRecord k.modeRecord) (fun u =>
           { u with
             control := k
             marks := u.marks.each fun _ m => match m with
               | .fired t a => .armed t a
               | other => other
             floor := { u.floor with
               cells := u.floor.cells.each fun _ c => { c with washes := 0, lastWashed := none }
               machines := u.floor.machines.each fun _ x =>
                 { x with
                   misses := 0, lastBeacon := none
                   beaconTimer := if x.state = .lost then x.beaconTimer
                                  else some (s.control.now + s.control.timing.beaconInterval * 1000) } } }) s))) ∧
  (∀ (ref : Byte) (s : State), s.takesCommand ⟨0x07#8, ref, []⟩ = true → TablesKept s →
     s.control.mode = .standby → s.evac.level = false → s.floor.mapFault = none →
     let stands (i time : Nat) (a : MarkAction) : Prop :=
       s.marks.look i = some (.armed time a) ∨ s.marks.look i = some (.fired time a)
     ∃ t, exec (.nightBegin ref []) s = .next t ∧ Answered ⟨0x07#8, ref, []⟩ .done (.modeRecord t.control.modeRecord) s t ∧
       t.control.clock = 0 ∧ t.control.clockRunning = true ∧ t.control.clockDue = s.control.now + 1000 ∧
       (∀ i time a, stands i time a →
         t.marks.look i = some (if time = 0 then .fired time a else .armed time a)) ∧
       (∀ i, s.marks.look i = some .empty → t.marks.look i = some .empty) ∧
       ((∃ i, stands i 0 .recalling) →
         t.control.mode = .recalling ∧ t.control.recallReason = some .mark ∧ t.control.silence = none) ∧
       ((∀ i, ¬ stands i 0 .recalling) → t.control.mode = .night ∧ t.control.recallReason = s.control.recallReason) ∧
       ∀ n, (∀ i a, stands i 0 a → a ≠ .zoneClose n) → n < 32 → t.control.zones.look n = some true)

/-! ## Settings, marks and notices -/

/-- R51, R52: DRYING SETUP with its class part, its limit part, both or neither. The first base time outside 30 to 3600
is named, else a limit part that does not fit as a set; else the parts present replace the settings. The reply carries
the settings in force. R53: ENVIRONMENT SET is never refused for its values: each present field is clamped into its
range and replaces the value in force, an absent one leaves it, and a clamped one makes the status DONE_CLAMPED. That
bits 2 to 7 of the parts byte and of the present byte are not read is log 18. -/
def Obligations.DryingSettingsAreReplacedOrClamped : Prop :=
  (∀ (ref parts : Byte) (classes : Option (List Nat)) (limits : Option (Nat × Nat × Nat × Nat)) (s : State),
     (∀ bs, classes = some bs → bs.length = 8 ∧ ∀ b ∈ bs, b ≤ 65535) →
     (∀ l a u b, limits = some (l, a, u, b) → l ≤ 65535 ∧ a ≤ 65535 ∧ u ≤ 65535 ∧ b ≤ 65535) →
     parts.getLsbD 0 = classes.isSome → parts.getLsbD 1 = limits.isSome →
     let values := (classes.getD []) ++ (limits.map fun p => [p.1, p.2.1, p.2.2.1, p.2.2.2]).getD []
     let body := parts :: values.flatMap fun n => [BitVec.ofNat 8 (n / 256), BitVec.ofNat 8 n]
     s.takesCommand ⟨0x10#8, ref, body⟩ = true →
     let run := exec (.dryingSetup ref body) s
     let d := s.control.drying
     let refusal (item : DryingItem) := turnedAway ⟨0x10#8, ref, body⟩ .badValue (.drying d (some item)) s
     let sound (b : Nat) : Prop := 30 ≤ b ∧ b ≤ 3600
     let fits (p : Nat × Nat × Nat × Nat) : Prop :=
       1 ≤ p.1 ∧ p.1 ≤ 7200 ∧ p.1 ≤ p.2.2.1 ∧ p.2.2.1 ≤ 7200 ∧ p.1 ≤ p.2.1 ∧ p.2.1 ≤ p.2.2.1 ∧ p.2.2.1 ≤ p.2.2.2 ∧
         p.2.2.2 ≤ 7200
     (∀ bs i b, classes = some bs → bs[i]? = some b → ¬ sound b → (∀ j x, j < i → bs[j]? = some x → sound x) →
       run = refusal (.floorClass i)) ∧
     ((∀ bs, classes = some bs → ∀ b ∈ bs, sound b) →
       (∀ p, limits = some p → ¬ fits p → run = refusal .limits) ∧
       ((∀ p, limits = some p → fits p) →
         let d' := { d with
           base := classes.getD d.base
           low := (limits.map fun p => p.1).getD d.low
           lowSet := (limits.map fun p => p.2.1).getD d.lowSet
           high := (limits.map fun p => p.2.2.1).getD d.high
           highSet := (limits.map fun p => p.2.2.2).getD d.highSet }
         run = answers 0x10#8 ref .done (.drying d' none)
           (fun u => { u with control := { u.control with drying := d' } }) s))) ∧
  (∀ (ref present h t : Byte) (s : State),
     let body := [present, h, t]
     s.takesCommand ⟨0x11#8, ref, body⟩ = true →
     let d := s.control.drying
     let withH := present.getLsbD 0
     let withT := present.getLsbD 1
     let humidity := if withH then (if 100 < h.toNat then 100 else h.toNat) else d.humidity
     let temperature := if withT then max (-10) (min 40 t.toInt) else d.temperature
     exec (.environmentSet ref body) s =
       answers 0x11#8 ref
         (if withH = true ∧ 100 < h.toNat ∨ withT = true ∧ (t.toInt < -10 ∨ 40 < t.toInt) then .doneClamped else .done)
         (.environment humidity temperature)
         (fun u => { u with control := { u.control with
           drying := { d with humidity := humidity, temperature := temperature } } }) s)

/-- R166: MARK SET and MARK CLEAR, in every part mode. A value out of range or an unknown action is refused; else the
mark is ARMED with its time and action, or EMPTY, and fires nothing. The zone byte of RECALL and NOTICE ONLY is not
read. -/
def Obligations.MarksAreSetAndCleared : Prop :=
  ∀ (ref index t2 t1 t0 action zone : Byte) (s : State),
    let body := [index, t2, t1, t0, action, zone]
    let i := index.toNat
    let time := t2.toNat * 65536 + t1.toNat * 256 + t0.toNat
    let write (m : Mark) (u : State) : State := { u with marks := u.marks.upd i fun _ => m }
    let good : Prop :=
      i ≤ 15 ∧ time ≤ 86399 ∧ (action = 1#8 ∨ action = 2#8 ∨ action = 3#8 ∨ action = 4#8) ∧
        (action = 1#8 ∨ action = 2#8 → zone.toNat ≤ 31)
    let armed : Mark := .armed time
      (if action = 1#8 then .zoneClose zone.toNat
       else if action = 2#8 then .zoneOpen zone.toNat
       else if action = 3#8 then .recalling
       else .noticeOnly)
    (s.takesCommand ⟨0x12#8, ref, body⟩ = true →
      (¬ good → exec (.markSet ref body) s = turnedAway ⟨0x12#8, ref, body⟩ .badValue .nothing s) ∧
      (good → exec (.markSet ref body) s = answers 0x12#8 ref .done (.mark armed) (write armed) s)) ∧
    (s.takesCommand ⟨0x13#8, ref, [index]⟩ = true →
      (15 < i → exec (.markClear ref [index]) s = turnedAway ⟨0x13#8, ref, [index]⟩ .badValue .nothing s) ∧
      (i ≤ 15 → exec (.markClear ref [index]) s = answers 0x13#8 ref .done (.mark .empty) (write .empty) s))

/-- R179, R178: NOTICE CONTROL refuses a ceiling above 12; else it writes the enabled flags and the ceiling and makes
the sending test for every class, in ascending number; mask bits 12 to 15 are not read (log 18). R180, R178: NOTICE
CLEAR of one class or of all. The reply copies the named records as they stood; the named classes become clear, keeping
their enabled flags, and every class still due is sent. A NOTICE carries the class record as it stood before its sent
flag was set (log 23). -/
def Obligations.NoticeCommandsSendWhatIsDue : Prop :=
  (∀ (ref e1 e0 ceiling : Byte) (s : State), TablesKept s →
     let r : Record := ⟨0x14#8, ref, [e1, e0, ceiling]⟩
     s.takesCommand r = true →
     let mask := e1.toNat * 256 + e0.toNat
     let written (n : Nat) : Notice := { (s.floor.notices.look n).getD {} with enabled := mask.testBit n }
     let sends (n : Nat) : Bool :=
       (written n).pending && (written n).enabled && !(written n).sent && decide (n < ceiling.toNat)
     (12 < ceiling.toNat → exec (.noticeControl ref r.body) s = turnedAway r .badValue .nothing s) ∧
     (ceiling.toNat ≤ 12 → ∃ notices, exec (.noticeControl ref r.body) s =
         answers r.kind r.ref .done
           (.noticeControl ((List.range 12).map fun n => (written n).enabled) ceiling.toNat)
           (fun u => { u with floor := { u.floor with
             ceiling := ceiling.toNat
             notices := notices
             supTx := u.floor.supTx ++
               ((List.range 12).filter sends).map fun n => .notice n (written n) } }) s ∧
       ∀ n, n < 12 → notices.look n = some { written n with sent := (written n).sent || sends n })) ∧
  (∀ (ref cls : Byte) (s : State), TablesKept s →
     let r : Record := ⟨0x15#8, ref, [cls]⟩
     s.takesCommand r = true →
     let named (n : Nat) : Bool := decide (cls = 0xFF#8) || decide (n = cls.toNat)
     let before (n : Nat) : Notice := (s.floor.notices.look n).getD {}
     let left (n : Nat) : Notice := if named n then { enabled := (before n).enabled } else before n
     let sends (n : Nat) : Bool := (left n).pending && (left n).enabled && !(left n).sent && decide (n < s.floor.ceiling)
     (11 < cls.toNat → cls ≠ 0xFF#8 → exec (.noticeClear ref [cls]) s = turnedAway r .badValue .nothing s) ∧
     (cls.toNat ≤ 11 ∨ cls = 0xFF#8 → ∃ notices, exec (.noticeClear ref [cls]) s =
         answers r.kind r.ref .done
           (.noticeCopies (((List.range 12).filter named).map fun n => (n, before n)))
           (fun u => { u with floor := { u.floor with
             notices := notices
             supTx := u.floor.supTx ++ ((List.range 12).filter sends).map fun n => .notice n (left n) } }) s ∧
       ∀ n, n < 12 → notices.look n = some { left n with sent := (left n).sent || sends n }))

/-! ## The night -/

/-- R157: NIGHT RECALL by the part mode it finds. R158, R80, R78: NIGHT CONTINUE. From RECALL the part returns to
NIGHT, with the host silence timer started; in EVACUATION with saved mode RECALL the saved mode becomes NIGHT. Either
way every machine that is ready and whose staged leg LOW does not hold back begins that leg, its LEG order in hand, and
nothing else of the concourse moves. The refusals in STANDBY carry the mode record, which is R155 as log 18 reads it.
-/
def Obligations.RecallAndContinueByMode : Prop :=
  (∀ (ref : Byte) (s : State), s.takesCommand ⟨0x20#8, ref, []⟩ = true →
     let run := exec (.nightRecall ref []) s
     let told (k : Control) := answers 0x20#8 ref .done (.modeRecord k.modeRecord) (fun u => { u with control := k }) s
     (s.control.mode = .standby →
       run = turnedAway ⟨0x20#8, ref, []⟩ .refusedMode (.modeRecord s.control.modeRecord) s) ∧
     (s.control.mode = .night →
       run = told { s.control with mode := .recalling, recallReason := some .host, silence := none }) ∧
     (s.control.mode = .recalling → run = told s.control) ∧
     (s.control.mode = .evacuation → s.control.saved = some .recalling → run = told s.control) ∧
     (s.control.mode = .evacuation → s.control.saved = some .night →
       run = told { s.control with saved := some .recalling, recallReason := some .host })) ∧
  (∀ (ref : Byte) (s : State), s.takesCommand ⟨0x21#8, ref, []⟩ = true → TablesKept s →
     let run := exec (.nightContinue ref []) s
     let r : Record := ⟨0x21#8, ref, []⟩
     let silence := if s.control.timing.hostSilence = 0 then none
                    else some (s.control.now + s.control.timing.hostSilence * 1000)
     let begins (k : Control) : Prop := ∃ t, run = .next t ∧ Answered r .done (.modeRecord k.modeRecord) s t ∧
       t.pending = s.pending ∧ t.control = k ∧ t.marks = s.marks ∧ t.evac = s.evac ∧ ConcourseKept s.floor t.floor ∧
       ∀ m x, s.floor.machines.look m = some x →
         (∀ leg, x.state = .idle → x.active = none → x.withdrawal = none → x.staged = some leg →
           (x.low = true → leg.homing = true) →
           ∃ y, t.floor.machines.look m = some y ∧
             InHand y (.leg leg.tag leg.flow leg.homing leg.cells) ∧ y.active = some ⟨leg, 0⟩ ∧ y.staged = none ∧
             { y with active := x.active, staged := x.staged, queue := x.queue, outstanding := x.outstanding } = x) ∧
         ((x.state ≠ .idle ∨ x.active ≠ none ∨ x.withdrawal ≠ none ∨ x.staged = none ∨
             ∃ leg, x.staged = some leg ∧ x.low = true ∧ leg.homing = false) →
           t.floor.machines.look m = some x)
     (s.control.mode = .standby → run = turnedAway r .refusedMode (.modeRecord s.control.modeRecord) s) ∧
     (s.control.mode = .night → run = answers r.kind r.ref .done (.modeRecord s.control.modeRecord) id s) ∧
     (s.control.mode = .evacuation → s.control.saved = some .night →
       run = answers r.kind r.ref .done (.modeRecord s.control.modeRecord) id s) ∧
     (s.control.mode = .recalling →
       begins { s.control with mode := .night, recallReason := none, silence := silence }) ∧
     (s.control.mode = .evacuation → s.control.saved = some .recalling →
       begins { s.control with saved := some .night, recallReason := none }))

/-- R162: NIGHT END, only from RECALL, is refused with the lowest slot whose machine is neither LOST nor STOOD_DOWN nor
IDLE on its dock with no withdrawal pending; else the part stands in STANDBY with the clock stopped, every leg
discarded, and every beacon timer and miss count but a LOST machine's cleared. R161, R116: RESUME ALL, only in
EVACUATION and with the evacuation input inactive, returns the part to its saved mode, starts the host silence timer in
NIGHT and takes EVAC from every halt set. A machine whose set is thereby empty has a MOTION RESUME in hand and runs, or
is IDLE without leg and ahead cells; a STOOD_DOWN one stays so. The refusals of both carry the mode record, which is
R155 as log 18 reads it. (RESUME ALL is stated where no machine waits: its offers to machines that wait are left out.)
-/
def Obligations.NightsAndEvacuationsEnd : Prop :=
  (∀ (ref : Byte) (s : State), s.takesCommand ⟨0x22#8, ref, []⟩ = true →
     let r : Record := ⟨0x22#8, ref, []⟩
     let run := exec (.nightEnd ref []) s
     let home (x : Scrubber) : Prop :=
       x.state = .lost ∨ x.state = .stoodDown ∨ x.state = .idle ∧ x.current = x.dock ∧ x.withdrawal = none
     let k := { s.control with mode := .standby, recallReason := none, clockRunning := false }
     (s.control.mode ≠ .recalling → run = turnedAway r .refusedMode (.modeRecord s.control.modeRecord) s) ∧
     (s.control.mode = .recalling → TablesKept s → ∀ m x, s.floor.machines.look m = some x → ¬ home x →
       (∀ n y, n < m → s.floor.machines.look n = some y → home y) →
       run = turnedAway r .refusedBusy (.nightEndBusy s.control.modeRecord m) s) ∧
     (s.control.mode = .recalling → TablesKept s → (∀ m x, s.floor.machines.look m = some x → home x) →
       run = answers r.kind r.ref .done (.modeRecord k.modeRecord) (fun u =>
         { u with
           control := k
           floor := { u.floor with machines := u.floor.machines.each fun _ x =>
             { x with
               active := none, staged := none, beaconTimer := none
               misses := if x.state = .lost then x.misses else 0 } } }) s)) ∧
  (∀ (ref : Byte) (s : State), s.takesCommand ⟨0x23#8, ref, []⟩ = true → ModeKept s → TablesKept s →
     NobodyWaits s.floor →
     let r : Record := ⟨0x23#8, ref, []⟩
     let run := exec (.resumeAll ref []) s
     let before : ReplyData := .modeRecord s.control.modeRecord
     (s.control.mode ≠ .evacuation → run = turnedAway r .refusedMode before s) ∧
     (s.control.mode = .evacuation → s.evac.level = true → run = turnedAway r .refusedState before s) ∧
     (s.control.mode = .evacuation → s.evac.level = false → ∀ saved, s.control.saved = some saved →
       let k := { s.control with
         mode := if saved = .night then .night else .recalling
         saved := none
         silence := if saved = .night ∧ s.control.timing.hostSilence ≠ 0
                    then some (s.control.now + s.control.timing.hostSilence * 1000)
                    else if saved = .night then none else s.control.silence }
       ∃ t, run = .next t ∧ Answered r .done (.modeRecord k.modeRecord) s t ∧
         t.pending = s.pending ∧ t.control = k ∧ t.marks = s.marks ∧ t.evac = s.evac ∧
         ConcourseKept s.floor t.floor ∧
         ∀ m x, s.floor.machines.look m = some x →
           (x.halts.evac = false → t.floor.machines.look m = some x) ∧
           (x.halts.evac = true → ∃ y, t.floor.machines.look m = some y ∧ y.halts = { x.halts with evac := false } ∧
             ((x.halts.host = true ∨ x.halts.machine = true ∨ x.halts.position = true ∨ x.state = .lost) →
               y = { x with halts := y.halts }) ∧
             (x.halts.host = false → x.halts.machine = false → x.halts.position = false → x.state ≠ .lost →
               InHand y (.motion true) ∧
               y.state = (if x.state = .stoodDown then .stoodDown
                          else if x.active ≠ none ∨ x.ahead ≠ [] then .running
                          else .idle) ∧
               (x.staged = none → y.active = x.active) ∧
               y.current = x.current ∧ y.ahead = x.ahead ∧ y.refuge = x.refuge ∧ y.withdrawal = x.withdrawal))))

/-- R165, R167: CLOCK SET. Forward, every ARMED mark above the old value and at or below the new one becomes FIRED;
backward or equal, none does. The next advance falls a second later; the reply counts the marks fired. Its refusals
carry the mode record, which is R155 as log 18 reads it. R164, R167: a running clock advances by one second and the
ARMED marks of that second fire and become FIRED; a RECALL taken in NIGHT recalls the part, and a zone that a mark
closes and none opens is closed; at 86,399 the clock holds. R177: in both, each mark that fires raises a MODE/MARK
cause with its index, in the order of firing: by time, then by index; a recall raises one more (R157). That the causes
of the marks that CLOCK SET fires carry the new value is R165 as log 23 reads it. A stopped clock does not advance, so
the row then changes nothing (log 5), and that the time base reaches the clock's due moment is the model's (log 2). -/
def Obligations.TheClockFiresItsMarks : Prop :=
  (∀ (ref v2 v1 v0 : Byte) (s : State), TablesKept s →
     let r : Record := ⟨0x24#8, ref, [v2, v1, v0]⟩
     s.takesCommand r = true →
     let run := exec (.clockSet ref r.body) s
     let v := v2.toNat * 65536 + v1.toNat * 256 + v0.toNat
     let before : ReplyData := .modeRecord s.control.modeRecord
     let time (i : Nat) : Nat := (s.armedTime i).getD 0
     let fired := (List.range 16).filter fun i => (s.armedTime i).any fun time => s.control.clock < time && time ≤ v
     let recalled := decide (s.control.mode = .night) &&
       fired.any fun i => decide (s.marks.look i = some (.armed (time i) .recalling))
     let notAfter (i j : Nat) : Prop := time i < time j ∨ time i = time j ∧ i ≤ j
     (s.control.mode = .standby → run = turnedAway r .refusedMode before s) ∧
     (s.control.mode ≠ .standby → 86399 < v → run = turnedAway r .badValue before s) ∧
     (s.control.mode ≠ .standby → v ≤ 86399 →
       (v ≤ s.control.clock →
         let k := { s.control with clock := v, clockDue := s.control.now + 1000 }
         run = answers r.kind r.ref .done (.clockSet k.modeRecord 0) (fun u => { u with control := k }) s) ∧
       ∃ t, run = .next t ∧
         Answered r .done (.clockSet t.control.modeRecord fired.length) s t ∧
         t.control.clock = v ∧ t.control.clockDue = s.control.now + 1000 ∧ t.control.now = s.control.now ∧
         (∀ i ∈ fired, ∀ j ∈ fired, (∀ n ∈ fired, notAfter i n ∧ notAfter n j) →
           CausesAdded s.floor t.floor 11 (fired.length + recalled.toNat) i j .fired
             (if s.control.clockRunning then some v else none)) ∧
         ∀ i, t.marks.look i = (s.marks.look i).map fun m =>
           match m with
           | .armed time a => if s.control.clock < time ∧ time ≤ v then .fired time a else .armed time a
           | other => other)) ∧
  (∀ s : State, s.live = true → TablesKept s →
     let run := exec .clockAdvance s
     let k := { s.control with
       now := max s.control.now s.control.clockDue, clockDue := s.control.clockDue + 1000 }
     (s.control.clockRunning = false → run = .next s) ∧
     (s.control.clockRunning = true → 86399 ≤ s.control.clock → run = .next { s with control := k }) ∧
     (s.control.clockRunning = true → s.control.clock < 86399 →
       (∀ i a, s.marks.look i ≠ some (.armed (s.control.clock + 1) a)) →
       run = .next { s with control := { k with clock := s.control.clock + 1 } }) ∧
     (s.control.clockRunning = true → s.control.clock < 86399 →
       ∃ t, run = .next t ∧ t.control.clock = s.control.clock + 1 ∧ t.control.now = k.now ∧
         t.control.clockDue = k.clockDue ∧ t.ports = s.ports ∧
         (∀ i, t.marks.look i = (s.marks.look i).map fun m =>
           match m with
           | .armed time a => if time = s.control.clock + 1 then .fired time a else .armed time a
           | other => other) ∧
         (∀ i, s.control.mode = .night → s.marks.look i = some (.armed (s.control.clock + 1) .recalling) →
           t.control.mode = .recalling ∧ t.control.recallReason = some .mark ∧ t.control.silence = none) ∧
         (∀ i z, s.marks.look i = some (.armed (s.control.clock + 1) (.zoneClose z)) → z < 32 →
           (∀ j, s.marks.look j ≠ some (.armed (s.control.clock + 1) (.zoneOpen z))) →
           t.control.zones.look z = some false) ∧
         let fired := (List.range 16).filter fun i => decide (s.armedTime i = some (s.control.clock + 1))
         let recalled := decide (s.control.mode = .night) &&
           fired.any fun i => decide (s.marks.look i = some (.armed (s.control.clock + 1) .recalling))
         ∀ i j, fired.head? = some i → fired.getLast? = some j →
           CausesAdded s.floor t.floor 11 (fired.length + recalled.toNat) i j .fired (some (s.control.clock + 1))))

/-- R163, R41: ZONE CLOSE and ZONE OPEN, refused in STANDBY and above 31. A closed zone stays, and takes no state from
the cells; a zone that was closed opens, and its available cells with waiters are offered in ascending number; a zone
already open changes nothing. -/
def Obligations.ZonesCloseAndOpen : Prop :=
  ∀ (ref zone : Byte) (s : State), TablesKept s →
    let z := zone.toNat
    let close := exec (.zoneClose ref [zone]) s
    let opened := exec (.zoneOpen ref [zone]) s
    let away (kind : Byte) (st : Status) := turnedAway ⟨kind, ref, [zone]⟩ st .nothing s
    let withZone (b : Bool) : Control := { s.control with zones := s.control.zones.upd z fun _ => b }
    (s.takesCommand ⟨0x2B#8, ref, [zone]⟩ = true →
      (s.control.mode = .standby → close = away 0x2B#8 .refusedMode) ∧
      (s.control.mode ≠ .standby → 31 < z → close = away 0x2B#8 .badValue) ∧
      (s.control.mode ≠ .standby → z ≤ 31 →
        close = answers 0x2B#8 ref .done (.zoneState false) (fun u => { u with control := withZone false }) s)) ∧
    (s.takesCommand ⟨0x2C#8, ref, [zone]⟩ = true →
      (s.control.mode = .standby → opened = away 0x2C#8 .refusedMode) ∧
      (s.control.mode ≠ .standby → 31 < z → opened = away 0x2C#8 .badValue) ∧
      (s.control.mode ≠ .standby → z ≤ 31 → s.control.zones.look z = some true →
        opened = answers 0x2C#8 ref .done (.zoneState true) id s) ∧
      (s.control.mode ≠ .standby → z ≤ 31 → s.control.zones.look z = some false →
        opened = answers 0x2C#8 ref .done (.zoneState true) (fun u =>
          { u with
            control := withZone true
            floor :=
              Floor.offerCells (withZone true) u.floor (s.floor.cells.keysWhere fun c => decide (c.zone = z)) }) s))

/-! ## Legs -/

/-- R69, R72, R78: LEG LOAD. Its seven checks in the order of Table 5-2, with the position and code that each refusal
carries; that a cell above 511 past position 31 is reported at its place in the list is log 19. An accepted leg is
staged, or becomes active at once at position 0, its LEG order in hand and no notice raised, where the machine is ready
and LOW does not hold the leg back. -/
def Obligations.LegLoadChecksThenStages : Prop :=
  ∀ (ref slot t1 t0 flow homing count : Byte) (bytes : List Byte) (s : State),
    bytes.length = 2 * count.toNat →
    let r : Record := ⟨0x25#8, ref, slot :: t1 :: t0 :: flow :: homing :: count :: bytes⟩
    s.takesCommand r = true →
    let run := exec (.legLoad ref r.body) s
    let m := slot.toNat
    let cs := be16s bytes
    let leg : Leg := { tag := t1.toNat * 256 + t0.toNat, flow := flow.toNat, homing := decide (homing = 1#8), cells := cs }
    let away (st : Status) (position code : Option Nat) := turnedAway r st (.legRefused position code) s
    let inRange : Prop :=
      1 ≤ m ∧ m ≤ 24 ∧ 2 ≤ cs.length ∧ cs.length ≤ 32 ∧ flow.toNat ≤ 3 ∧ homing.toNat ≤ 1 ∧ ∀ c ∈ cs, c ≤ 511
    let recalled : Prop :=
      s.control.mode = .recalling ∨ s.control.mode = .evacuation ∧ s.control.saved = some .recalling
    (s.control.mode = .standby → run = away .refusedMode none none) ∧
    (s.control.mode ≠ .standby →
      (¬ inRange → run = away .badValue (cs.findIdx? fun c => decide (511 < c)) none) ∧
      (inRange → s.floor.machines.look m = none → run = away .refusedState none none) ∧
      ∀ x, inRange → s.floor.machines.look m = some x →
        (x.state = .lost ∨ x.state = .stoodDown → run = away .refusedState none none) ∧
        (x.state ≠ .lost → x.state ≠ .stoodDown →
          let busy : Prop :=
            x.staged ≠ none ∨ (∃ w, x.withdrawal = some w ∧ w.cancel = true) ∨ x.refuge ≠ none ∨
              ∃ c, x.request = some (.refuge c)
          (busy → run = away .refusedBusy none none) ∧
          (¬ busy → recalled → homing = 0#8 → run = away .refusedMode none none) ∧
          (¬ busy → (recalled → homing ≠ 0#8) →
            (∀ i c, cs[i]? = some c → s.floor.cells.look c = none →
              (∀ j d, j < i → cs[j]? = some d → s.floor.cells.look d ≠ none) →
              run = away .notDefined (some i) none) ∧
            ((∀ c ∈ cs, s.floor.cells.look c ≠ none) →
              (∀ i code, s.floor.routeFault m x cs = some (i, code) → run = away .badValue (some i) (some code)) ∧
              (s.floor.routeFault m x cs = none →
                let starts : Prop :=
                  x.state = .idle ∧ x.active = none ∧ x.withdrawal = none ∧ (x.low = true → leg.homing = true)
                (¬ starts → run = answers r.kind r.ref .done (.legLoaded leg.tag false)
                  (fun u => { u with floor := { u.floor with
                    machines := u.floor.machines.upd m fun y => { y with staged := some leg } } }) s) ∧
                (starts → ∃ t y, run = .next t ∧ Answered r .done (.legLoaded leg.tag true) s t ∧ PartKept s t ∧
                  ConcourseKept s.floor t.floor ∧ OthersKept m s.floor t.floor ∧ t.floor.notices = s.floor.notices ∧
                  t.floor.machines.look m = some y ∧
                  InHand y (.leg leg.tag leg.flow leg.homing leg.cells) ∧
                  { y with queue := x.queue, outstanding := x.outstanding } =
                    { x with active := some ⟨leg, 0⟩, staged := none }))))))

/-- R70, Table 5-3: the route tests pass exactly when the leg starts at the machine's anchor, each cell is a neighbour
of the one before, no cell comes again within five positions, no DOCK cell is another machine's, lanes are entered and
left at their ends and driven index by index, and each lane in one direction: the machine's own where the leg starts
in it, else that of its first entry. -/
def Obligations.RouteTestsPassExactly : Prop :=
  ∀ (f : Floor) (m : Nat) (x : Scrubber) (cells : List Nat), cells ≠ [] →
    (∀ c ∈ cells, (f.cells.look c).isSome = true) →
    (f.routeFault m x cells = none ↔
      cells.head? = some x.anchor ∧
      (∀ i p c, cells[i]? = some p → cells[i + 1]? = some c → ∃ r, f.cells.look p = some r ∧ c ∈ r.neighbours) ∧
      (∀ (i j : Nat) c, i < j → j ≤ i + 5 → cells[i]? = some c → cells[j]? ≠ some c) ∧
      (∀ c ∈ cells, ∀ r, f.cells.look c = some r → r.kind = .dock → r.owner = some m) ∧
      ∀ i p c, cells[i]? = some p → cells[i + 1]? = some c →
        (∀ l a, f.laneOf c = some (l, a) → (∀ b, f.laneOf p ≠ some (l, b)) → f.isEnd l a = true) ∧
        (∀ l b, f.laneOf p = some (l, b) → (∀ a, f.laneOf c ≠ some (l, a)) → f.isEnd l b = true) ∧
        ∀ l a, f.laneOf c = some (l, a) →
          (∀ b, f.laneOf p = some (l, b) → a = b + 1 ∨ b = a + 1) ∧
          (if f.inLane l (cells.headD 0) then f.referenceDir x l else f.entryDir l cells) =
            some (stepDir l a (f.laneOf p)))

/-- R82, R83, R96, R126, R128: LEG CANCEL. Its four checks in order; scope STAGED discards the staged leg and does nothing
else; scope ALL discards it too and, where a leg is active, starts a withdrawal with the cancel flag and no refuge of
its own: a WITHDRAW order is in hand, with the refuge that the WITHDRAW already queued names, and none where none is
queued or it names none (R96); a WAITING machine runs again, and the active leg stays. (A LOST machine, which has no leg, is left out of the last clause.) -/
def Obligations.LegCancelDiscardsOrWithdraws : Prop :=
  ∀ (ref slot scope : Byte) (s : State), s.takesCommand ⟨0x26#8, ref, [slot, scope]⟩ = true →
    let r : Record := ⟨0x26#8, ref, [slot, scope]⟩
    let run := exec (.legCancel ref r.body) s
    let m := slot.toNat
    let away (st : Status) := turnedAway r st .nothing s
    let discards (data : ReplyData) := answers r.kind r.ref .done data (fun u => { u with floor := { u.floor with
      machines := u.floor.machines.upd m fun y => { y with staged := none } } }) s
    let good : Prop := 1 ≤ m ∧ m ≤ 24 ∧ (scope = 1#8 ∨ scope = 2#8)
    (s.control.mode = .standby → run = away .refusedMode) ∧
    (s.control.mode ≠ .standby →
      (¬ good → run = away .badValue) ∧
      (good → s.floor.machines.look m = none → run = away .refusedState) ∧
      ∀ x, good → s.floor.machines.look m = some x →
        (scope = 1#8 → x.staged = none → run = away .refusedState) ∧
        (scope = 2#8 → x.staged = none → x.active = none → run = away .refusedState) ∧
        (scope = 1#8 → x.staged ≠ none → run = discards .nothing) ∧
        (scope = 2#8 → x.staged ≠ none → x.active = none → run = discards (.legCancelled false)) ∧
        (scope = 2#8 → x.active ≠ none → x.state ≠ .lost →
          ∃ t y, run = .next t ∧ Answered r .done (.legCancelled true) s t ∧ PartKept s t ∧
            OthersKept m s.floor t.floor ∧ t.floor.lines = s.floor.lines ∧ t.floor.notices = s.floor.notices ∧
            (∀ c, (t.floor.cells.look c).map Cell.occ = (s.floor.cells.look c).map Cell.occ) ∧
            t.floor.machines.look m = some y ∧
            InHand y (.withdraw true (queuedRefuge x)) ∧
            y.staged = none ∧ y.active = x.active ∧ y.current = x.current ∧ y.ahead = x.ahead ∧ y.halts = x.halts ∧
            y.state = (if x.state = .waiting then .running else x.state) ∧
            y.request = (if x.state = .waiting then none else x.request) ∧
            y.withdrawal = some
              { cancel := true
                refuge := x.withdrawal.bind Withdrawal.refuge
                deferred := (x.withdrawal.map Withdrawal.deferred).getD false }))

/-! ## Machines -/

/-- R117, R115: MACHINE HALT of one slot or of ALL. HOST joins the set of each machine named that is not LOST and
lacks it. Where the set was empty the machine has a MOTION HALT in hand and is HALTED, with no progress timer and no
ordinary request; a STOOD_DOWN one stays so. The reply counts the machines changed. R117, R116: MACHINE RESUME of one
slot or of ALL. HOST leaves the set of each machine named that is not LOST and has it. Where the set is thereby empty
the machine has a MOTION RESUME in hand and runs, or is IDLE without leg and ahead cells; a STOOD_DOWN one stays so.
-/
def Obligations.HaltAndResumeWriteHost : Prop :=
  (∀ (ref slot : Byte) (s : State), s.takesCommand ⟨0x27#8, ref, [slot]⟩ = true → TablesKept s →
     let r : Record := ⟨0x27#8, ref, [slot]⟩
     let run := exec (.machineHalt ref [slot]) s
     let away (st : Status) := turnedAway r st .nothing s
     let named (m : Nat) (x : Scrubber) : Bool :=
       decide (x.state ≠ .lost) && (decide (slot = 0xFF#8) || decide (m = slot.toNat)) && !x.halts.host
     (s.control.mode = .standby → run = away .refusedMode) ∧
     (s.control.mode ≠ .standby → slot ≠ 0xFF#8 → isSlot slot.toNat = false → run = away .badValue) ∧
     (s.control.mode ≠ .standby → isSlot slot.toNat = true →
       (∀ x, s.floor.machines.look slot.toNat = some x → x.state = .lost) → run = away .refusedState) ∧
     (s.control.mode ≠ .standby →
       slot = 0xFF#8 ∨ (∃ x, s.floor.machines.look slot.toNat = some x ∧ x.state ≠ .lost) →
       ∃ t, run = .next t ∧
         Answered r .done (.machinesChanged (s.floor.machines.countP fun e => named e.1 e.2)) s t ∧ PartKept s t ∧
         t.floor.lines = s.floor.lines ∧ t.floor.notices = s.floor.notices ∧
         (∀ c, (t.floor.cells.look c).map (fun z => { z with waiters := [] }) =
           (s.floor.cells.look c).map fun z => { z with waiters := [] }) ∧
         ∀ m x, s.floor.machines.look m = some x →
           (named m x = false → t.floor.machines.look m = some x) ∧
           (named m x = true → ∃ y, t.floor.machines.look m = some y ∧ y.halts = { x.halts with host := true } ∧
             (x.halts ≠ ⟨false, false, false, false⟩ → y = { x with halts := y.halts }) ∧
             (x.halts = ⟨false, false, false, false⟩ → InHand y (.motion false) ∧
               (x.state = .stoodDown →
                 y = { x with halts := y.halts, queue := y.queue, outstanding := y.outstanding }) ∧
               (x.state ≠ .stoodDown → y.state = .halted ∧ y.progress = none ∧
                 y.request = (if x.refugeWait then x.request else none) ∧
                 { y with state := x.state, progress := x.progress, request := x.request, halts := x.halts
                          queue := x.queue, outstanding := x.outstanding } = x))))) ∧
  (∀ (ref slot : Byte) (s : State), s.takesCommand ⟨0x28#8, ref, [slot]⟩ = true → TablesKept s →
     let r : Record := ⟨0x28#8, ref, [slot]⟩
     let run := exec (.machineResume ref [slot]) s
     let away (st : Status) := turnedAway r st .nothing s
     let named (m : Nat) (x : Scrubber) : Bool :=
       decide (x.state ≠ .lost) && (decide (slot = 0xFF#8) || decide (m = slot.toNat)) && x.halts.host
     (s.control.mode = .standby → run = away .refusedMode) ∧
     (s.control.mode ≠ .standby → slot ≠ 0xFF#8 → isSlot slot.toNat = false → run = away .badValue) ∧
     (s.control.mode ≠ .standby → isSlot slot.toNat = true →
       (∀ x, s.floor.machines.look slot.toNat = some x → x.state = .lost) → run = away .refusedState) ∧
     (s.control.mode ≠ .standby →
       slot = 0xFF#8 ∨ (∃ x, s.floor.machines.look slot.toNat = some x ∧ x.state ≠ .lost) →
       ∃ t, run = .next t ∧
         Answered r .done (.machinesChanged (s.floor.machines.countP fun e => named e.1 e.2)) s t ∧ PartKept s t ∧
         ConcourseKept s.floor t.floor ∧
         ∀ m x, s.floor.machines.look m = some x →
           (named m x = false → t.floor.machines.look m = some x) ∧
           (named m x = true → ∃ y, t.floor.machines.look m = some y ∧ y.halts = { x.halts with host := false } ∧
             (y.halts ≠ ⟨false, false, false, false⟩ → y = { x with halts := y.halts }) ∧
             (y.halts = ⟨false, false, false, false⟩ → InHand y (.motion true) ∧
               (x.state = .stoodDown →
                 y = { x with halts := y.halts, queue := y.queue, outstanding := y.outstanding }) ∧
               (x.state ≠ .stoodDown →
                 y.state = (if x.active ≠ none ∨ x.ahead ≠ [] then .running else .idle) ∧
                 y.progress.isSome = decide (y.state = .running ∧ x.ahead ≠ []) ∧
                 (y.state = .running ∨ x.staged = none → y.active = x.active ∧ y.staged = x.staged) ∧
                 { y with state := x.state, progress := x.progress, halts := x.halts, queue := x.queue
                          outstanding := x.outstanding, active := x.active, staged := x.staged } = x)))))

/-- R122: the five checks of MACHINE RESTORE, in order. R123: an accepted MACHINE RESTORE places the machine on the
cell and gives up its others to GUARD, or to FREE where the guard interval is 0; POSITION leaves the halt set; the
state, timers, legs, counts and lists begin afresh; on an embargoed cell a withdrawal to that cell's refuge starts, and its
WITHDRAW names that refuge where none was queued (a machine with no withdrawal pending has none).
That a machine restored from LOST is sent MOTION RESUME too is the model's reading (log 11). -/
def Obligations.MachineRestoreChecksThenPlaces : Prop :=
  (∀ (ref slot c1 c0 : Byte) (s : State), s.takesCommand ⟨0x29#8, ref, [slot, c1, c0]⟩ = true →
     let r : Record := ⟨0x29#8, ref, [slot, c1, c0]⟩
     let run := exec (.machineRestore ref r.body) s
     let m := slot.toNat
     let c := c1.toNat * 256 + c0.toNat
     let away (st : Status) := turnedAway r st .nothing s
     (m < 1 ∨ 24 < m ∨ 511 < c → run = away .badValue) ∧
     (1 ≤ m → m ≤ 24 → c ≤ 511 →
       (s.floor.machines.look m = none → run = away .refusedState) ∧
       ∀ x, s.floor.machines.look m = some x →
         (x.state ≠ .lost → x.state ≠ .stoodDown → x.halts.position = false → run = away .refusedState) ∧
         (x.state = .lost ∨ x.state = .stoodDown ∨ x.halts.position = true →
           (x.withdrawal ≠ none → run = away .refusedBusy) ∧
           (x.withdrawal = none →
             (s.floor.cells.look c = none → run = away .notDefined) ∧
             ∀ cell, s.floor.cells.look c = some cell →
               let mine : Prop := cell.occ = .held m ∨ cell.occ = .blocked m
               (¬ mine → cell.occ ≠ .free ∨ cell.embargo ≠ 0 → run = away .refusedState) ∧
               (cell.kind = .dock → cell.owner ≠ some m → run = away .refusedState) ∧
               ((mine ∨ cell.occ = .free ∧ cell.embargo = 0) → (cell.kind = .dock → cell.owner = some m) →
                 ∃ t, run = .next t ∧ t.floor.supTx.getLast? = some (.reply 0x29#8 ref .done .nothing)))))) ∧
  (∀ (ref slot c1 c0 : Byte) (x : Scrubber) (cell : Cell) (s : State),
     s.takesCommand ⟨0x29#8, ref, [slot, c1, c0]⟩ = true → TablesKept s →
     NobodyWaits s.floor →
     let r : Record := ⟨0x29#8, ref, [slot, c1, c0]⟩
     let m := slot.toNat
     let c := c1.toNat * 256 + c0.toNat
     let k := s.control
     let given (z : Cell) : Occupancy :=
       let guard := if z.lane = none then k.timing.openGuard else k.timing.laneGuard
       if guard = 0 then .free else .guarded (k.now + guard * 1000)
     1 ≤ m → m ≤ 24 → c ≤ 511 → s.floor.machines.look m = some x →
     (x.state = .lost ∨ x.state = .stoodDown ∨ x.halts.position = true) → x.withdrawal = none →
     s.floor.cells.look c = some cell →
     (cell.occ = .held m ∨ cell.occ = .blocked m ∨ cell.occ = .free ∧ cell.embargo = 0) →
     (cell.kind = .dock → cell.owner = some m) →
     ∃ t y, exec (.machineRestore ref r.body) s = .next t ∧ Answered r .done .nothing s t ∧ PartKept s t ∧
       OthersKept m s.floor t.floor ∧ t.floor.notices = s.floor.notices ∧
       (∀ n z, s.floor.cells.look n = some z → t.floor.cells.look n = some
         { z with occ :=
             if n = c then .held m
             else if z.occ = .held m ∨ z.occ = .blocked m then given z
             else z.occ }) ∧
       t.floor.machines.look m = some y ∧
       y.halts = { x.halts with position := false } ∧
       y.state = (if y.halts = ⟨false, false, false, false⟩ then .idle else .halted) ∧
       (x.halts = ⟨false, false, false, true⟩ → InHand y (.motion true)) ∧
       (cell.embargo = 0 → y.withdrawal = none) ∧
       (cell.embargo ≠ 0 → y.withdrawal = some { cancel := true, refuge := cell.refuge, deferred := false } ∧
         ∃ refuge, InHand y (.withdraw true refuge) ∧ (x.queuedWithdraw = none → refuge = cell.refuge)) ∧
       { y with
         state := x.state, halts := x.halts, withdrawal := x.withdrawal, queue := x.queue
         outstanding := x.outstanding, laneDirs := x.laneDirs } =
         { x with
           current := c, ahead := [], refuge := none, request := none, active := none, staged := none, misses := 0
           safeStops := 0, heard := false, reported := none, lastBeacon := none, progress := none
           beaconTimer := if k.mode = .standby then none else some (k.now + k.timing.beaconInterval * 1000) })

/-- R106: MACHINE WITHDRAW makes the slot of a LOST or STOOD_DOWN machine, or in STANDBY of an IDLE one, ABSENT, and
releases its cells to GUARD, or to FREE where the guard interval is 0; other machines stand. -/
def Obligations.MachineWithdrawEmptiesTheSlot : Prop :=
  ∀ (ref slot : Byte) (s : State), s.takesCommand ⟨0x2A#8, ref, [slot]⟩ = true →
    let r : Record := ⟨0x2A#8, ref, [slot]⟩
    let run := exec (.machineWithdraw ref [slot]) s
    let m := slot.toNat
    let k := s.control
    let away (st : Status) := turnedAway r st .nothing s
    let given (z : Cell) : Occupancy :=
      let guard := if z.lane = none then k.timing.openGuard else k.timing.laneGuard
      if guard = 0 then .free else .guarded (k.now + guard * 1000)
    (m < 1 ∨ 24 < m → run = away .badValue) ∧
    (1 ≤ m → m ≤ 24 →
      (s.floor.machines.look m = none → run = away .refusedState) ∧
      ∀ x, s.floor.machines.look m = some x →
        let leaves : Prop := x.state = .lost ∨ x.state = .stoodDown ∨ x.state = .idle ∧ k.mode = .standby
        (¬ leaves → run = away .refusedState) ∧
        (leaves → TablesKept s → NobodyWaits s.floor →
          ∃ t, run = .next t ∧
            Answered r .done (.cellsReleased (s.floor.cells.countP fun e =>
              decide (e.2.occ = .held m ∨ e.2.occ = .blocked m))) s t ∧
            PartKept s t ∧ t.floor.notices = s.floor.notices ∧
            t.floor.machines.look m = none ∧ OthersKept m s.floor t.floor ∧
            t.floor.fleetTx = (s.floor.fleetTx.filter fun o => decide (o.slot ≠ m)) ∧
            ∀ n z, s.floor.cells.look n = some z → t.floor.cells.look n = some
              { z with occ := if z.occ = .held m ∨ z.occ = .blocked m then given z else z.occ }))

/-! ## Machine records -/

/-- R89, R111: a record from a slot outside 1 to 24 or from an ABSENT one is a stray, whatever it says; from an
enrolled machine a request for no cells and a fault code of 0 are strays, and an ACK of an unknown order kind counts
as of unknown kind; any other record from a LOST machine is noted in its heard-while-lost flag. Nothing else changes.
-/
def Obligations.RecordsAreCheckedBeforeUse : Prop :=
  ∀ (slot b1 b2 b3 b4 : Byte) (s : State),
    let m := slot.toNat
    let turn (kind : Byte) (body : List Byte) : Prop := s.takesRecord ⟨kind, slot, body⟩ = true
    let counted (g : FleetCounters → FleetCounters) (u : State) : State :=
      { u with floor := { u.floor with fleetCounters := g u.floor.fleetCounters } }
    let stray := counted fun n => { n with strays := oneMore n.strays }
    let heard (u : State) : State :=
      { u with floor := { u.floor with machines := u.floor.machines.upd m fun y => { y with heard := true } } }
    let all (g : State → State) : Prop :=
      (turn 0x41#8 [b1, b2] → exec (.beacon slot [b1, b2]) s = takes g s) ∧
      (turn 0x42#8 [b1, b2, b3] → exec (.arrive slot [b1, b2, b3]) s = takes g s) ∧
      (turn 0x43#8 [b1] → b1 ≠ 0#8 → exec (.request slot [b1]) s = takes g s) ∧
      (turn 0x44#8 [b1, b2, b3, b4] → 1 ≤ b1.toNat → b1.toNat ≤ 4 → exec (.ack slot [b1, b2, b3, b4]) s = takes g s) ∧
      (turn 0x45#8 [b1] → b1 ≠ 0#8 → exec (.faultStop slot [b1]) s = takes g s) ∧
      (turn 0x46#8 [] → exec (.restart slot []) s = takes g s)
    ((m < 1 ∨ 24 < m ∨ s.floor.machines.look m = none) → all stray ∧
      (turn 0x44#8 [b1, b2, b3, b4] → exec (.ack slot [b1, b2, b3, b4]) s = takes stray s)) ∧
    ((turn 0x43#8 [0#8] → exec (.request slot [0#8]) s = takes stray s) ∧
      (turn 0x45#8 [0#8] → exec (.faultStop slot [0#8]) s = takes stray s)) ∧
    ∀ x, 1 ≤ m → m ≤ 24 → s.floor.machines.look m = some x →
      (turn 0x44#8 [b1, b2, b3, b4] → b1 = 0#8 ∨ 4 < b1.toNat → exec (.ack slot [b1, b2, b3, b4]) s =
        takes (counted fun n => { n with unknown := oneMore n.unknown }) s) ∧
      (x.state = .lost → all heard)

/-- R108, R112, R90: a beacon of a machine that is not LOST. In STANDBY it records battery and water, each at most
100, and judges LOW. In the other modes it does so when valid, and clears the misses, notes the moment and restarts
the beacon timer; LOW set stays until both reserves are passed by five. One sooner than the early limit after the last
valid one counts as early and as a miss, and below the threshold that is all. -/
def Obligations.BeaconsAreJudged : Prop :=
  ∀ (slot b w : Byte) (x : Scrubber) (s : State), s.takesRecord ⟨0x41#8, slot, [b, w]⟩ = true →
    1 ≤ slot.toNat → slot.toNat ≤ 24 →
    s.floor.machines.look slot.toNat = some x → x.state ≠ .lost →
    let m := slot.toNat
    let k := s.control
    let run := exec (.beacon slot [b, w]) s
    let battery := min b.toNat 100
    let water := min w.toNat 100
    let low : Bool :=
      decide (battery < k.timing.batteryReserve) || decide (water < k.timing.waterReserve) ||
        x.low && !(decide (k.timing.batteryReserve + 5 ≤ battery) && decide (k.timing.waterReserve + 5 ≤ water))
    let writes (g : Scrubber → Scrubber) := takes (fun u =>
      { u with floor := { u.floor with machines := u.floor.machines.upd m g } }) s
    let supplies (y : Scrubber) : Scrubber := { y with battery := some battery, water := some water, low := low }
    let valid : Prop := ∀ t, x.lastBeacon = some t → k.timing.earlyLimit ≤ k.now - t
    let fresh (y : Scrubber) : Scrubber :=
      { y with misses := 0, lastBeacon := some k.now
               beaconTimer := some (k.now + k.timing.beaconInterval * 1000) }
    let quiet : Prop := low = true ∨ x.low = false ∨ x.staged = none ∨ x.state ≠ .idle ∨ x.active ≠ none ∨
      x.withdrawal ≠ none
    (k.mode = .standby → quiet → run = writes supplies) ∧
    (k.mode ≠ .standby → valid → quiet → run = writes fun y => supplies (fresh y)) ∧
    (k.mode ≠ .standby → ¬ valid → x.misses + 1 < k.timing.lostThreshold →
      run = writes fun y => { y with earlyBeacons := oneMore y.earlyBeacons, misses := y.misses + 1 }) ∧
    ∀ leg, (k.mode = .standby ∨ valid) → x.low = true → low = false → x.state = .idle → x.active = none →
      x.withdrawal = none → x.staged = some leg →
      ((k.mode = .recalling ∨ k.mode = .evacuation ∧ k.saved = some .recalling) → leg.homing = true) →
      ∃ t y, run = .next t ∧ PartKept s t ∧ ConcourseKept s.floor t.floor ∧ OthersKept m s.floor t.floor ∧
        t.floor.machines.look m = some y ∧ InHand y (.leg leg.tag leg.flow leg.homing leg.cells) ∧
        { y with queue := x.queue, outstanding := x.outstanding } =
          { (if k.mode = .standby then supplies x else supplies (fresh x)) with
            active := some ⟨leg, 0⟩, staged := none }

/-- R109, R110, R36: the last miss before the lost threshold makes a machine LOST, whether its beacon timer, its reply
window or an early beacon gives it. Its cells are BLOCKED, its wait, legs, orders and withdrawal are given up, its
timers stop, and a MACHINE LOST cause is raised; its halts and ahead list stand. That its refuge grant is given up too
is R95 as log 26 reads it, and that the time base reaches a timer's moment at its expiry is the model's (log 2). -/
def Obligations.TheLastMissLosesTheMachine : Prop :=
  ∀ (m : Nat) (x : Scrubber) (c : Instr) (moment : Nat) (s : State), s.live = true → TablesKept s → 1 ≤ m → m ≤ 24 →
    s.floor.machines.look m = some x → x.state ≠ .lost → s.control.timing.lostThreshold ≤ x.misses + 1 →
    (c = .beaconTimerExpiry m ∧ x.beaconTimer = some moment ∨
      c = .replyWindowExpiry m ∧ x.replyWindow = some moment ∧ s.control.mode ≠ .standby ∨
      moment = s.control.now ∧ s.control.mode ≠ .standby ∧
        (∃ b w, c = .beacon (BitVec.ofNat 8 m) [b, w] ∧ s.takesRecord ⟨0x41#8, BitVec.ofNat 8 m, [b, w]⟩ = true) ∧
        ∃ t, x.lastBeacon = some t ∧ s.control.now - t < s.control.timing.earlyLimit) →
    ∃ t y n, exec c s = .next t ∧
      t.control = { s.control with now := max s.control.now moment } ∧ t.marks = s.marks ∧ t.pending = s.pending ∧
      OthersKept m s.floor t.floor ∧
      (∀ i z, s.floor.cells.look i = some z → ∃ ws, t.floor.cells.look i = some
        { z with occ := if z.occ = .held m then .blocked m else z.occ, waiters := ws }) ∧
      t.floor.fleetTx = (s.floor.fleetTx.filter fun o => decide (o.slot ≠ m)) ∧
      t.floor.machines.look m = some y ∧ y.state = .lost ∧ y.misses = x.misses + 1 ∧
      y.current = x.current ∧ y.ahead = x.ahead ∧ y.halts = x.halts ∧ y.laneDirs = x.laneDirs ∧
      y.refuge = none ∧ y.request = none ∧ y.withdrawal = none ∧ y.active = none ∧ y.staged = none ∧
      y.queue = [] ∧ y.outstanding = none ∧ y.replyWindow = none ∧ y.beaconTimer = none ∧ y.progress = none ∧
      t.floor.notices.look 2 = some n ∧ n.pending = true ∧ n.last = some m

/-- R94 to R97: an order for an ABSENT or LOST machine is discarded; one of a kind already queued takes the queued
one's place, two WITHDRAW orders merging, but a queued refuge GRANT that the machine holds stands and the new answer
is discarded; any other joins the tail. With nothing outstanding the head is then sent. -/
def Obligations.OrdersJoinReplaceOrMerge : Prop :=
  ∀ (f : Floor) (m : Nat) (o : Order),
    let discarded := { f with fleetCounters :=
      { f.fleetCounters with discarded := oneMore f.fleetCounters.discarded } }
    (f.machines.look m = none → f.order m o = discarded) ∧
    ∀ x, f.machines.look m = some x →
      (x.state = .lost → f.order m o = discarded) ∧
      (x.state ≠ .lost →
        (∀ a q b, x.queue = a ++ q :: b → q.kind = o.kind → (∀ p ∈ a, p.kind ≠ o.kind) →
          (∃ r, x.refuge = some r ∧ q = .answer (.grant [r] true)) → f.order m o = discarded) ∧
        ∀ queue,
          ((∀ p ∈ x.queue, p.kind ≠ o.kind) ∧ queue = x.queue ++ [o] ∨
            ∃ a q b, x.queue = a ++ q :: b ∧ q.kind = o.kind ∧ (∀ p ∈ a ++ b, p.kind ≠ o.kind) ∧
              (∀ r, x.refuge = some r → q ≠ .answer (.grant [r] true)) ∧
              ((o.kind ≠ 4 ∧ queue = a ++ o :: b) ∨
                ∃ c1 r1 c2 r2, q = .withdraw c1 r1 ∧ o = .withdraw c2 r2 ∧
                  queue = a ++ .withdraw (c1 || c2) (r2.or r1) :: b)) →
          (x.outstanding ≠ none →
            ∃ ms, f.order m o = { f with machines := ms } ∧ ms.look m = some { x with queue := queue } ∧
              ∀ n, n ≠ m → ms.look n = f.machines.look n) ∧
          (x.outstanding = none → ∀ head rest, queue = head :: rest →
            ∃ ms, f.order m o = { f with machines := ms, fleetTx := f.fleetTx ++ [⟨m, head⟩] } ∧
              ms.look m = some { x with queue := rest, outstanding := some head } ∧
              ∀ n, n ≠ m → ms.look n = f.machines.look n))

/-- R91: an ARRIVE that carries a count is the arrival and then the request, taken as one. R121, R135, R184: arrivals
off the route. On the refuge granted: the old cell is given up and the refuge is the current cell. On the current
cell: counted, and nothing else. Anywhere else: the cell is noted, 512 standing for every number above 511, POSITION
joins the halt set and a MACHINE FAULT cause is raised. -/
def Obligations.ArrivalsOffTheRouteAndRequests : Prop :=
  (∀ (slot c1 c0 n : Byte) (x : Scrubber) (s : State), 1 ≤ slot.toNat → slot.toNat ≤ 24 →
     s.floor.machines.look slot.toNat = some x → x.state ≠ .lost → n ≠ 0#8 →
     let m := slot.toNat
     let arrived (u : State) : State :=
       { u with floor := Floor.arrival u.control u.floor m (c1.toNat * 256 + c0.toNat) }
     (s.takesRecord ⟨0x42#8, slot, [c1, c0, 0#8]⟩ = true → exec (.arrive slot [c1, c0, 0#8]) s = takes arrived s) ∧
     (s.takesRecord ⟨0x42#8, slot, [c1, c0, n]⟩ = true →
       exec (.arrive slot [c1, c0, n]) s = takes (fun u =>
         { arrived u with floor := Floor.request u.control (arrived u).floor m (min n.toNat 4) }) s)) ∧
  (∀ (slot c1 c0 : Byte) (x : Scrubber) (s : State),
     s.takesRecord ⟨0x42#8, slot, [c1, c0, 0#8]⟩ = true → TablesKept s → 1 ≤ slot.toNat → slot.toNat ≤ 24 →
     s.floor.machines.look slot.toNat = some x → x.state ≠ .lost →
     let m := slot.toNat
     let c := c1.toNat * 256 + c0.toNat
     let k := s.control
     let run := exec (.arrive slot [c1, c0, 0#8]) s
     let given (z : Cell) : Occupancy :=
       let guard := if z.lane = none then k.timing.openGuard else k.timing.laneGuard
       if guard = 0 then .free else .guarded (k.now + guard * 1000)
     c ∉ x.ahead →
     (x.refuge = some c → NobodyWaits s.floor →
       ∃ t y, run = .next t ∧ PartKept s t ∧ OthersKept m s.floor t.floor ∧ t.floor.fleetTx = s.floor.fleetTx ∧
         t.floor.notices = s.floor.notices ∧
         (∀ n z, s.floor.cells.look n = some z → t.floor.cells.look n = some
           { z with occ := if n = x.current then given z else z.occ }) ∧
         t.floor.machines.look m = some y ∧
         { y with laneDirs := x.laneDirs } = { x with current := c, refuge := none }) ∧
     (x.refuge ≠ some c → x.current = c →
       run = takes (fun u => { u with floor := { u.floor with
         machines := u.floor.machines.upd m fun y => { y with duplicates := oneMore y.duplicates } } }) s) ∧
     (x.refuge ≠ some c → x.current ≠ c →
       ∃ t y n, run = .next t ∧ PartKept s t ∧ OthersKept m s.floor t.floor ∧ t.floor.lines = s.floor.lines ∧
         (∀ i, (t.floor.cells.look i).map Cell.occ = (s.floor.cells.look i).map Cell.occ) ∧
         t.floor.machines.look m = some y ∧ y.reported = some (if c ≤ 511 then c else 512) ∧
         y.halts = { x.halts with position := true } ∧
         (x.halts ≠ ⟨false, false, false, false⟩ → y = { x with halts := y.halts, reported := y.reported }) ∧
         (x.halts = ⟨false, false, false, false⟩ → InHand y (.motion false) ∧
           y.state = (if x.state = .stoodDown then .stoodDown else .halted)) ∧
         y.current = x.current ∧ y.ahead = x.ahead ∧ y.active = x.active ∧ y.staged = x.staged ∧
         t.floor.notices.look 3 = some n ∧ n.pending = true ∧ n.last = some m))

/-- R74, R75, R34, R22, R50: an accepted arrival at an ahead cell short of the leg's end. The current cell and the
ahead cells before it are left behind: WET for their drying times under a washing leg, one wash more each, to GUARD or
FREE under a leg that does not wash or with none. R49, R177: each WET cell whose drying time the high clamp gave is slow,
and raises one SLOW DRY cause, in the order the cells are left, with the cell as subject and its floor class as reason;
every other class stands. The machine stands on the cell, a STALLED one runs, and its progress timer starts afresh where ahead cells remain. -/
def Obligations.AcceptedArrivalsLeaveWetFloor : Prop :=
  ∀ (slot c1 c0 : Byte) (j : Nat) (x : Scrubber) (s : State),
    s.takesRecord ⟨0x42#8, slot, [c1, c0, 0#8]⟩ = true → TablesKept s → NobodyWaits s.floor →
    1 ≤ slot.toNat → slot.toNat ≤ 24 → s.floor.machines.look slot.toNat = some x → x.state ≠ .lost →
    (x.current :: x.ahead).Nodup → x.ahead[j]? = some (c1.toNat * 256 + c0.toNat) →
    (∀ a, x.active = some a → a.index + j + 2 ≠ a.leg.cells.length) →
    let m := slot.toNat
    let k := s.control
    let flow := (x.active.map fun a => a.leg.flow).getD 0
    let left := x.current :: x.ahead.take j
    let dry (z : Cell) := dryingAnswer k.drying z.floorClass flow
    let slow := left.filter fun n => (s.floor.cells.look n).any fun z => (dry z).2
    let state : MState := if x.state = .stalled then .running else x.state
    ∃ t y, exec (.arrive slot [c1, c0, 0#8]) s = .next t ∧ PartKept s t ∧ OthersKept m s.floor t.floor ∧
      t.floor.fleetTx = s.floor.fleetTx ∧
      (∀ n z, s.floor.cells.look n = some z → n ∉ left → t.floor.cells.look n = some z) ∧
      (∀ n z, s.floor.cells.look n = some z → n ∈ left → flow = 0 → t.floor.cells.look n = some
        { z with occ :=
            let guard := if z.lane = none then k.timing.openGuard else k.timing.laneGuard
            if guard = 0 then .free else .guarded (k.now + guard * 1000) }) ∧
      (∀ n z, s.floor.cells.look n = some z → n ∈ left → flow ≠ 0 → t.floor.cells.look n = some
        { z with
          occ := .wet (k.now + (dry z).1 * 1000) (dry z).2
          washes := if z.washes < 255 then z.washes + 1 else z.washes
          lastWashed := some k.clock }) ∧
      (∀ i, i ≠ 10 → t.floor.notices.look i = s.floor.notices.look i) ∧
      (flow = 0 ∨ slow = [] → t.floor.notices = s.floor.notices) ∧
      (∀ n z p, flow ≠ 0 → slow.head? = some n → s.floor.cells.look n = some z → slow.getLast? = some p →
        CausesAdded s.floor t.floor 10 slow.length n p (.highClamp z.floorClass)
          (if k.clockRunning then some k.clock else none)) ∧
      t.floor.machines.look m = some y ∧
      { y with laneDirs := x.laneDirs } =
        { x with
          current := c1.toNat * 256 + c0.toNat
          ahead := x.ahead.drop (j + 1)
          active := x.active.map fun a => { a with index := a.index + j + 1 }
          state := state
          progress := if (state = .running ∨ state = .waiting) ∧ x.ahead.drop (j + 1) ≠ []
                      then some (k.now + k.timing.progressLimit * 1000) else none }

/-- R76 to R79, R81: the arrival at the leg's last cell completes it: the safe stops and the active slot are cleared.
With a withdrawal pending the decision is deferred; with no staged leg, or one that RECALL or LOW holds back, the
machine is IDLE and a LEG END cause is raised; else the staged leg begins, its LEG order in hand, and a STAGE FREE
cause is raised. -/
def Obligations.CompletionDecidesThePromotion : Prop :=
  ∀ (slot c1 c0 : Byte) (j : Nat) (a : ActiveLeg) (x : Scrubber) (s : State),
    s.takesRecord ⟨0x42#8, slot, [c1, c0, 0#8]⟩ = true → TablesKept s →
    NobodyWaits s.floor → 1 ≤ slot.toNat → slot.toNat ≤ 24 → s.floor.machines.look slot.toNat = some x →
    x.state ≠ .lost → (x.current :: x.ahead).Nodup → x.ahead[j]? = some (c1.toNat * 256 + c0.toNat) →
    x.active = some a → a.index + j + 2 = a.leg.cells.length →
    let m := slot.toNat
    let k := s.control
    let resting : MState :=
      if x.state = .halted then .halted else if x.state = .stoodDown then .stoodDown else .idle
    let recalled : Prop := k.mode = .recalling ∨ k.mode = .evacuation ∧ k.saved = some .recalling
    ∃ t y, exec (.arrive slot [c1, c0, 0#8]) s = .next t ∧ PartKept s t ∧ OthersKept m s.floor t.floor ∧
      t.floor.machines.look m = some y ∧ y.current = c1.toNat * 256 + c0.toNat ∧ y.ahead = x.ahead.drop (j + 1) ∧
      y.safeStops = 0 ∧ y.halts = x.halts ∧
      (∀ w, x.withdrawal = some w → y.active = none ∧ y.staged = x.staged ∧ y.state = resting ∧
        y.withdrawal = some { w with deferred := true } ∧ y.queue = x.queue) ∧
      (x.withdrawal = none → (∀ leg, x.staged = some leg →
          recalled ∧ leg.homing = false ∨ x.low = true ∧ leg.homing = false) →
        y.active = none ∧ y.staged = x.staged ∧ y.state = resting ∧ y.queue = x.queue ∧
        ∃ n, t.floor.notices.look 8 = some n ∧ n.pending = true ∧ n.last = some m) ∧
      ∀ leg, x.withdrawal = none → x.staged = some leg → leg.homing = true ∨ ¬ recalled ∧ x.low = false →
        y.active = some ⟨leg, 0⟩ ∧ y.staged = none ∧ InHand y (.leg leg.tag leg.flow leg.homing leg.cells) ∧
        ∃ n, t.floor.notices.look 9 = some n ∧ n.pending = true ∧ n.last = some m

/-- R27, R30: rows 1 to 5 of Table 2-5, in order, for a machine that is not WAITING: the answer, and nothing else. The
count of a request above 4 is taken as 4 (R90) and does not bear on these rows. R25, Table 2-4: the first row of the
grant conditions that a cell fails, for a machine that steps onto it from another, with no lane yet taken within the
span. R30: a request from a WAITING machine first takes it off its wait list and removes its pending request; it is
then RUNNING with ahead cells and IDLE without, and the request is decided as that machine's. -/
def Obligations.RequestAndGrantRowsInOrder : Prop :=
  (∀ (slot n : Byte) (x : Scrubber) (s : State), s.takesRecord ⟨0x43#8, slot, [n]⟩ = true →
     1 ≤ slot.toNat → slot.toNat ≤ 24 → n ≠ 0#8 →
     s.floor.machines.look slot.toNat = some x → x.state ≠ .lost → x.state ≠ .waiting →
     let k := s.control
     let gives (a : Answer) := exec (.request slot [n]) s =
       takes (fun u => { u with floor := u.floor.order slot.toNat (.answer a) }) s
     let barred : Prop :=
       k.mode = .standby ∨ k.mode = .evacuation ∨ x.state = .halted ∨ x.state = .stalled ∨ x.state = .stoodDown
     (barred → gives (.refused .notAllowed)) ∧
     (¬ barred → x.withdrawal ≠ none → gives (.refused .withdrawPending)) ∧
     (¬ barred → x.withdrawal = none →
       (x.active = none → gives (.refused .noLeg)) ∧
       ∀ a, x.active = some a →
         let rest := a.leg.cells.drop (a.index + x.ahead.length + 1)
         (rest = [] → x.ahead = [] → gives .legEnd) ∧
         (rest = [] → x.ahead ≠ [] → gives (.grant x.ahead false)) ∧
         (rest ≠ [] → 4 ≤ x.ahead.length → gives (.refused .aheadFull)))) ∧
  (∀ (k : Control) (f : Floor) (m p c : Nat) (z : Cell), f.cells.look c = some z → k.zones.look z.zone ≠ none →
     let row := f.failingRow k m p c []
     (∀ t slow, z.occ = .wet t slow → row = some .wet) ∧
     (∀ t, z.occ = .guarded t → row = some .guarded) ∧
     (∀ n, z.occ = .blocked n → row = some .blocked) ∧
     (∀ n, z.occ = .held n → n ≠ m → row = some .occupied) ∧
     (z.occ = .free ∨ z.occ = .held m →
       (z.embargo ≠ 0 → row = some .embargo) ∧
       (z.embargo = 0 → k.zones.look z.zone = some false → row = some .closed) ∧
       (z.embargo = 0 → k.zones.look z.zone = some true →
         (z.lane = none → row = none) ∧
         ∀ l i, z.lane = some (l, i) →
           let toward : Dir :=
             match (f.cells.look p).bind Cell.lane with
             | some (l', j) => if l' = l then (if j < i then .up else .down) else if i = 0 then .up else .down
             | none => if i = 0 then .up else .down
           row = match (f.lanes.look l).bind Lane.dir with
             | some d => if d = toward then none else some .lane
             | none => none))) ∧
  (∀ (slot n : Byte) (x : Scrubber) (s : State), s.takesRecord ⟨0x43#8, slot, [n]⟩ = true → TablesKept s →
     1 ≤ slot.toNat → slot.toNat ≤ 24 → n ≠ 0#8 → s.floor.machines.look slot.toNat = some x → x.state = .waiting →
     let m := slot.toNat
     let k := s.control
     let target := x.request.map Pending.target
     let rested (y : Scrubber) : Scrubber :=
       { y with
         request := none
         state := if y.ahead = [] then .idle else .running
         progress := if y.ahead = [] then none
                     else some (y.progress.getD (k.now + k.timing.progressLimit * 1000)) }
     let off : Floor :=
       { s.floor with
         cells := s.floor.cells.each fun c z =>
           { z with waiters := if target = some (.cell c) then z.waiters.filter fun w => decide (w.slot ≠ m)
                               else z.waiters }
         lanes := s.floor.lanes.each fun l r =>
           { r with waiters := if target = some (.lane l) then r.waiters.filter fun w => decide (w ≠ m)
                               else r.waiters }
         machines := s.floor.machines.upd m rested }
     exec (.request slot [n]) s = exec (.request slot [n]) { s with floor := off })

/-- R28, R29, R32, R73: a request past rows 1 to 5. Its span, at most four cells ahead in all, is granted whole: every
cell HELD, the machine RUNNING with the span at the end of its ahead list, its progress timer running, and an ANSWER
GRANT of the whole list in hand. Where a cell of the span fails, nothing is granted: the machine waits on that cell or
lane with an ANSWER WAIT in hand, or, where its wait would close a ring, is refused with a CYCLE cause and rests. -/
def Obligations.SpansAreGrantedWholeOrWaitedFor : Prop :=
  ∀ (slot n : Byte) (x : Scrubber) (a : ActiveLeg) (s : State),
    s.takesRecord ⟨0x43#8, slot, [n]⟩ = true → TablesKept s → 1 ≤ slot.toNat →
    slot.toNat ≤ 24 → n ≠ 0#8 → s.floor.machines.look slot.toNat = some x →
    (x.state = .idle ∨ x.state = .running) → x.request = none → x.refuge = none →
    (s.control.mode = .night ∨ s.control.mode = .recalling) → x.withdrawal = none → x.active = some a →
    let m := slot.toNat
    let k := s.control
    let rest := a.leg.cells.drop (a.index + x.ahead.length + 1)
    let count := min n.toNat 4
    let span := rest.take (min count (4 - x.ahead.length))
    let fails := s.floor.firstFail k m (x.ahead.getLastD x.current) span []
    let run := exec (.request slot [n]) s
    rest ≠ [] → x.ahead.length < 4 →
    (fails = none →
      ∃ t y, run = .next t ∧ PartKept s t ∧ OthersKept m s.floor t.floor ∧ t.floor.notices = s.floor.notices ∧
        (∀ i, t.floor.cells.look i = (s.floor.cells.look i).map fun z =>
          { z with occ := if i ∈ span then .held m else z.occ }) ∧
        (∀ i l c z, s.floor.lines.look i = some l → c ∈ span → s.floor.cells.look c = some z →
          z.occ = .free → z.band.getLsbD i = true → ∃ l', t.floor.lines.look i = some l' ∧ l'.clearOutput = false) ∧
        t.floor.machines.look m = some y ∧ InHand y (.answer (.grant (x.ahead ++ span) false)) ∧
        { y with laneDirs := x.laneDirs, queue := x.queue, outstanding := x.outstanding } =
          { x with
            ahead := x.ahead ++ span, state := .running
            progress := some (x.progress.getD (k.now + k.timing.progressLimit * 1000)) }) ∧
    (∀ target reason, fails = some (target, reason) → s.floor.closesRing m target = false →
      ∃ t y, run = .next t ∧ PartKept s t ∧ OthersKept m s.floor t.floor ∧ t.floor.lines = s.floor.lines ∧
        t.floor.notices = s.floor.notices ∧
        (∀ c, t.floor.cells.look c = (s.floor.cells.look c).map fun z =>
          { z with waiters := if target = .cell c then z.waiters ++ [⟨m, false⟩] else z.waiters }) ∧
        (∀ l, t.floor.lanes.look l = (s.floor.lanes.look l).map fun r =>
          { r with waiters := if target = .lane l then r.waiters ++ [m] else r.waiters }) ∧
        t.floor.machines.look m = some y ∧ InHand y (.answer (.wait reason)) ∧
        y.state = .waiting ∧ y.request = some (.ordinary count target) ∧ y.ahead = x.ahead ∧ y.active = x.active) ∧
    (∀ target reason, fails = some (target, reason) → s.floor.closesRing m target = true →
      ∃ t y notice, run = .next t ∧ PartKept s t ∧ OthersKept m s.floor t.floor ∧ ConcourseKept s.floor t.floor ∧
        t.floor.machines.look m = some y ∧ InHand y (.answer (.refused .cycle)) ∧
        y.state = (if x.ahead = [] then .idle else .running) ∧ y.request = none ∧ y.ahead = x.ahead ∧
        t.floor.notices.look 5 = some notice ∧ notice.pending = true ∧ notice.last = some m)

/-- R31, R32: the search finds a ring exactly where one would close: where the asking machine is among those that hold
the target, or is reached from one of them by going from each machine that waits to those that hold what it waits for.
-/
def Obligations.TheRingSearchFindsEveryRing : Prop :=
  ∀ (f : Floor) (m : Nat) (target : Target), f.machines.wf 25 = true → 0 ∉ f.machines.keys →
    (f.closesRing m target = true ↔
      ∃ n ∈ f.holdersOf target, Relation.ReflTransGen (fun a b => ∃ x p, f.machines.look a = some x ∧
        x.request = some p ∧ b ∈ f.holdersOf p.target) n m)

/-- R98, R84: an ACK of another kind than the outstanding order's, or with nothing outstanding, is a stray ACK. One of
its kind empties the outstanding slot, stops the reply window and lets the next order go; for an ANSWER, a MOTION, or a
LEG that is not declined that is all. A declined LEG that is still active is discarded with the staged one, LEG ABORTED
is raised, and the machine rests, or, with ahead cells, has a cancelling withdrawal started, its WITHDRAW naming no
refuge but that of one already queued (R96). That an order's frame
still waiting for the transmitter at its own acknowledgement is not sent is the model's reading (log 8), and so is that
the outstanding slot is emptied once the effects are applied (log 9). -/
def Obligations.AcksMatchByKind : Prop :=
  ∀ (slot kind s1 s0 decline : Byte) (x : Scrubber) (s : State),
    s.takesRecord ⟨0x44#8, slot, [kind, s1, s0, decline]⟩ = true → 1 ≤ slot.toNat → slot.toNat ≤ 24 →
    1 ≤ kind.toNat → kind.toNat ≤ 4 → s.floor.machines.look slot.toNat = some x → x.state ≠ .lost →
    let m := slot.toNat
    let body := [kind, s1, s0, decline]
    let run := exec (.ack slot body) s
    let drop (u : State) (ms : Scrubber → Scrubber) (more : List FleetOut) : State := { u with floor := { u.floor with
      machines := u.floor.machines.upd m ms
      fleetTx := (u.floor.fleetTx.filter fun o => decide (o.slot ≠ m)) ++ more } }
    let cleared (u : State) : State :=
      match x.queue with
      | [] => drop u (fun y => { y with outstanding := none, replyWindow := none }) []
      | o :: rest => drop u (fun y => { y with outstanding := some o, queue := rest, replyWindow := none }) [⟨m, o⟩]
    (x.outstanding.map Order.kind ≠ some kind.toNat →
      run = takes (fun u => { u with floor := { u.floor with fleetCounters :=
        { u.floor.fleetCounters with strayAcks := oneMore u.floor.fleetCounters.strayAcks } } }) s) ∧
    ∀ o, x.outstanding = some o → o.kind = kind.toNat →
      ((o.kind = 2 ∨ o.kind = 3 ∨ o.kind = 1 ∧ decline = 0#8) → run = takes cleared s) ∧
      ∀ tag flow homing cells, o = .leg tag flow homing cells → decline ≠ 0#8 →
        ((∀ a, x.active = some a → a.leg.tag ≠ tag ∨ a.leg.cells ≠ cells) →
          run = takes cleared s) ∧
        ∀ a, x.active = some a → a.leg.tag = tag → a.leg.cells = cells → TablesKept s →
          ∃ t y n, run = .next t ∧ PartKept s t ∧ OthersKept m s.floor t.floor ∧ t.floor.lines = s.floor.lines ∧
            (∀ c, (t.floor.cells.look c).map Cell.occ = (s.floor.cells.look c).map Cell.occ) ∧
            t.floor.machines.look m = some y ∧ y.active = none ∧ y.staged = none ∧ y.current = x.current ∧
            y.ahead = x.ahead ∧ y.replyWindow = none ∧
            (x.ahead = [] → y.queue = x.queue.drop 1 ∧ y.outstanding = x.queue.head? ∧
              y.state = (if x.state = .halted ∨ x.state = .stoodDown then x.state else .idle)) ∧
            (x.ahead ≠ [] → InHand y (.withdraw true (queuedRefuge x)) ∧
              (∃ w, y.withdrawal = some w ∧ w.cancel = true) ∧
              y.state = (if x.state = .waiting then .running else x.state)) ∧
            t.floor.notices.look 7 = some n ∧ n.pending = true ∧ n.last = some m

/-- R130 to R132: the ACK of a WITHDRAW. A stop cell on the machine's route short of embargo settles it: an ahead cell
is arrived at first, which leaves the cells before it behind and may complete the leg; the ahead cells beyond the stop
cell are given up; the legs are discarded under the cancel flag, with LEG ABORTED, or kept without it; the pending
withdrawal ends, or goes on with the flags of another WITHDRAW that is queued; and where it ends, a completion that it
deferred is decided now (R81, R77). A stop cell off the route is an unexpected arrival, and the withdrawal ends or goes
on likewise. R133, R26, R33: the ACK of a WITHDRAW that stops on an embargoed current cell, with no other WITHDRAW
queued, for a machine with no refuge in hand. The legs are discarded; the refuge is the ahead cell it already holds, or
a FREE cell with no embargo granted to it, with the refuge GRANT in hand, or is waited for ahead of every ordinary
waiter with a WAIT in hand. -/
def Obligations.WithdrawAcksSettleTheMachine : Prop :=
  (∀ (slot s1 s0 decline : Byte) (x : Scrubber) (cancel : Bool) (named : Option Nat) (s : State),
     s.takesRecord ⟨0x44#8, slot, [4#8, s1, s0, decline]⟩ = true → TablesKept s → NobodyWaits s.floor →
     1 ≤ slot.toNat → slot.toNat ≤ 24 → s.floor.machines.look slot.toNat = some x → x.state ≠ .lost →
     x.state ≠ .waiting → x.outstanding = some (.withdraw cancel named) → (x.current :: x.ahead).Nodup →
     let m := slot.toNat
     let k := s.control
     let c := s1.toNat * 256 + s0.toNat
     let run := exec (.ack slot [4#8, s1, s0, decline]) s
     let queued := x.queue.find? fun o => decide (o.kind = 4)
     let goesOn (w : Option Withdrawal) : Option Withdrawal := match queued with
       | some (.withdraw more refuge) => w.map fun w => { w with cancel := more, refuge := refuge }
       | _ => none
     (c ∉ x.current :: x.ahead →
       ∃ t y, run = .next t ∧ PartKept s t ∧ OthersKept m s.floor t.floor ∧ t.floor.machines.look m = some y ∧
         y.withdrawal = goesOn x.withdrawal ∧ y.halts = { x.halts with position := true } ∧
         y.reported = some (if c ≤ 511 then c else 512) ∧ y.current = x.current ∧ y.ahead = x.ahead ∧
         y.active = x.active ∧ y.staged = x.staged) ∧
     (c ∈ x.current :: x.ahead → ∀ z, s.floor.cells.look c = some z → z.embargo = 0 →
       let i := (x.current :: x.ahead).idxOf c
       let left := (x.current :: x.ahead).take i
       let beyond := (x.current :: x.ahead).drop (i + 1)
       let flow := (x.active.map fun a => a.leg.flow).getD 0
       let given (w : Cell) : Occupancy :=
         let guard := if w.lane = none then k.timing.openGuard else k.timing.laneGuard
         if guard = 0 then .free else .guarded (k.now + guard * 1000)
       let wet (w : Cell) : Cell :=
         let dry := dryingAnswer k.drying w.floorClass flow
         { w with
           occ := .wet (k.now + dry.1 * 1000) dry.2
           washes := if w.washes < 255 then w.washes + 1 else w.washes
           lastWashed := some k.clock }
       let completes : Bool := x.active.any fun a => decide (i ≠ 0 ∧ a.index + i + 1 = a.leg.cells.length)
       let active := if completes then none else x.active.map fun a => { a with index := a.index + i }
       let deferred : Bool := completes || x.withdrawal.any fun w => w.deferred
       let resting : MState := if x.state = .halted ∨ x.state = .stoodDown then x.state else .idle
       let recalled : Prop := k.mode = .recalling ∨ k.mode = .evacuation ∧ k.saved = some .recalling
       (completes = true → x.withdrawal ≠ none) →
       ∃ t y, run = .next t ∧ PartKept s t ∧ OthersKept m s.floor t.floor ∧
         (∀ n w, s.floor.cells.look n = some w → t.floor.cells.look n = some
           (if n ∈ beyond then { w with occ := given w }
            else if n ∈ left then (if flow = 0 then { w with occ := given w } else wet w)
            else w)) ∧
         t.floor.machines.look m = some y ∧ y.current = c ∧ y.ahead = [] ∧ y.progress = none ∧
         y.halts = x.halts ∧ y.refuge = x.refuge ∧ y.safeStops = (if completes then 0 else x.safeStops) ∧
         y.withdrawal = goesOn (x.withdrawal.map fun w => { w with deferred := !cancel && deferred }) ∧
         (cancel = true → y.queue = x.queue.drop 1 ∧ y.outstanding = x.queue.head? ∧ y.active = none ∧
           y.staged = none ∧ y.state = resting ∧
           (active ≠ none ∨ x.staged ≠ none → ∃ n, t.floor.notices.look 7 = some n ∧ n.pending = true ∧
             n.last = some m)) ∧
         (cancel = false → deferred = false ∨ queued ≠ none →
           y.queue = x.queue.drop 1 ∧ y.outstanding = x.queue.head? ∧ y.active = active ∧ y.staged = x.staged ∧
           y.state = (if x.state = .halted ∨ x.state = .stoodDown then x.state
                      else if active = none then .idle else .running) ∧
           (i = 0 → t.floor.notices = s.floor.notices)) ∧
         (cancel = false → deferred = true → queued = none →
           ((∀ leg, x.staged = some leg → recalled ∧ leg.homing = false ∨ x.low = true ∧ leg.homing = false) →
             y.active = active ∧ y.staged = x.staged ∧ y.state = resting ∧
             ∃ n, t.floor.notices.look 8 = some n ∧ n.pending = true ∧ n.last = some m) ∧
           ∀ leg, x.staged = some leg → leg.homing = true ∨ ¬ recalled ∧ x.low = false →
             y.active = some ⟨leg, 0⟩ ∧ y.staged = none ∧ InHand y (.leg leg.tag leg.flow leg.homing leg.cells) ∧
             ∃ n, t.floor.notices.look 9 = some n ∧ n.pending = true ∧ n.last = some m))) ∧
  (∀ (slot s1 s0 decline : Byte) (x : Scrubber) (cancel : Bool) (named : Option Nat) (z q : Cell) (r : Nat) (s : State),
     s.takesRecord ⟨0x44#8, slot, [4#8, s1, s0, decline]⟩ = true → TablesKept s → NobodyWaits s.floor →
     1 ≤ slot.toNat → slot.toNat ≤ 24 → s.floor.machines.look slot.toNat = some x → x.state ≠ .lost →
     x.outstanding = some (.withdraw cancel named) →
     (∀ o ∈ x.queue, o.kind ≠ 4) → (x.current :: x.ahead).Nodup → x.refuge = none → x.request = none →
     let m := slot.toNat
     let k := s.control
     let given (w : Cell) : Occupancy :=
       let guard := if w.lane = none then k.timing.openGuard else k.timing.laneGuard
       if guard = 0 then .free else .guarded (k.now + guard * 1000)
     x.current = s1.toNat * 256 + s0.toNat → s.floor.cells.look x.current = some z → z.embargo ≠ 0 →
     z.refuge = some r → r ≠ x.current → s.floor.cells.look r = some q →
     ∃ t y, exec (.ack slot [4#8, s1, s0, decline]) s = .next t ∧ PartKept s t ∧ OthersKept m s.floor t.floor ∧
       t.floor.machines.look m = some y ∧ y.current = x.current ∧ y.ahead = [] ∧ y.active = none ∧ y.staged = none ∧
       y.withdrawal = none ∧
       (∀ n w, s.floor.cells.look n = some w → n ≠ r → t.floor.cells.look n = some
         { w with occ := if n ∈ x.ahead then given w else w.occ }) ∧
       (r ∈ x.ahead → t.floor.cells.look r = some q ∧ y.refuge = some r ∧ y.request = none ∧
         InHand y (.answer (.grant [r] true))) ∧
       (r ∉ x.ahead → q.occ = .free → q.embargo = 0 →
         t.floor.cells.look r = some { q with occ := .held m } ∧ y.refuge = some r ∧ y.request = none ∧
           InHand y (.answer (.grant [r] true))) ∧
       (r ∉ x.ahead → q.occ ≠ .free ∨ q.embargo ≠ 0 →
         t.floor.cells.look r = some { q with waiters := [⟨m, true⟩] } ∧ y.refuge = none ∧
           y.request = some (.refuge r) ∧ ∃ reason, InHand y (.answer (.wait reason)) ∧
             (∀ n, q.occ = .held n → n ≠ m → reason = .occupied) ∧ (∀ e slow, q.occ = .wet e slow → reason = .wet) ∧
             (∀ e, q.occ = .guarded e → reason = .guarded) ∧ (∀ n, q.occ = .blocked n → reason = .blocked) ∧
             (q.occ = .free → reason = .embargo)))

/-- R118 to R120, R116: FAULT STOP raises the safe-stop count, holding at 15, and notes the code. Beyond the threshold
the machine is STOOD_DOWN, without legs or an ordinary request, and a STAND-DOWN cause is raised; up to it MACHINE
joins the halt set, with no MOTION HALT, and a MACHINE FAULT cause is raised. RESTART takes MACHINE from the set of a
machine that is not STOOD_DOWN. -/
def Obligations.FaultStopsAndRestarts : Prop :=
  ∀ (slot code : Byte) (x : Scrubber) (s : State), TablesKept s → 1 ≤ slot.toNat → slot.toNat ≤ 24 →
    s.floor.machines.look slot.toNat = some x → x.state ≠ .lost → code ≠ 0#8 →
    let m := slot.toNat
    let stops := exec (.faultStop slot [code]) s
    let restarts := exec (.restart slot []) s
    let stopsTurn : Prop := s.takesRecord ⟨0x45#8, slot, [code]⟩ = true
    let restartsTurn : Prop := s.takesRecord ⟨0x46#8, slot, []⟩ = true
    let count := if x.safeStops < 15 then x.safeStops + 1 else x.safeStops
    let noted (y : Scrubber) : Scrubber := { y with safeStops := count, lastFault := some code.toNat }
    let empty : Halts := ⟨false, false, false, false⟩
    (x.state = .stoodDown →
      (stopsTurn → stops = takes (fun u =>
        { u with floor := { u.floor with machines := u.floor.machines.upd m noted } }) s) ∧
      (restartsTurn → restarts = takes id s)) ∧
    (restartsTurn → x.halts.machine = false → restarts = takes id s) ∧
    (stopsTurn → x.state ≠ .stoodDown → s.control.timing.standDown < count →
      ∃ t y n, stops = .next t ∧ PartKept s t ∧ OthersKept m s.floor t.floor ∧ t.floor.lines = s.floor.lines ∧
        t.floor.fleetTx = s.floor.fleetTx ∧ t.floor.machines.look m = some y ∧
        y = { noted x with
          state := .stoodDown, active := none, staged := none, progress := none
          request := if x.refugeWait then x.request else none } ∧
        t.floor.notices.look 4 = some n ∧ n.pending = true ∧ n.last = some m) ∧
    (stopsTurn → x.state ≠ .stoodDown → count ≤ s.control.timing.standDown →
      ∃ t y n, stops = .next t ∧ PartKept s t ∧ OthersKept m s.floor t.floor ∧ t.floor.lines = s.floor.lines ∧
        t.floor.fleetTx = s.floor.fleetTx ∧ t.floor.machines.look m = some y ∧
        (x.halts ≠ empty → y = { noted x with halts := { x.halts with machine := true } }) ∧
        (x.halts = empty → y = { noted x with
          halts := { x.halts with machine := true }, state := .halted, progress := none
          request := if x.refugeWait then x.request else none }) ∧
        t.floor.notices.look 3 = some n ∧ n.pending = true ∧ n.last = some m) ∧
    (restartsTurn → x.state ≠ .stoodDown → x.halts.machine = true → x.halts ≠ { empty with machine := true } →
      restarts = takes (fun u =>
        let machines := u.floor.machines.upd m fun y => { y with halts := { y.halts with machine := false } }
        { u with floor := { u.floor with machines := machines } }) s) ∧
    (restartsTurn → x.state ≠ .stoodDown → x.halts = { empty with machine := true } →
      ∃ t y, restarts = .next t ∧ PartKept s t ∧ OthersKept m s.floor t.floor ∧ ConcourseKept s.floor t.floor ∧
        t.floor.machines.look m = some y ∧ y.halts = empty ∧ InHand y (.motion true) ∧
        y.state = (if x.active ≠ none ∨ x.ahead ≠ [] then .running else .idle) ∧ y.safeStops = x.safeStops ∧
        y.current = x.current ∧ y.ahead = x.ahead)

/-! ## Timers -/

/-- R97, R99, R109, R114: a frame that has been sent starts its reply window; a window that runs out counts a miss
outside STANDBY and sends the order again; a beacon timer that runs out counts a miss and starts again; a progress
timer that runs out stalls the machine, which loses an ordinary request, and raises MACHINE FAULT. That the frame of
any slot may be sent, wherever it stands in the backlog, is the model's (log 28). A timer that is stopped does not run out, and a frame is sent only where one waits for the slot: otherwise nothing changes (log 5).
That the time base reaches the timer's moment is the model's (log 2). Misses stay below the lost threshold here; the
last one has its own statement. -/
def Obligations.MachineTimersRunOut : Prop :=
  ∀ (m moment : Nat) (x : Scrubber) (s : State), s.live = true → TablesKept s → 1 ≤ m → m ≤ 24 →
    s.floor.machines.look m = some x →
    let k := { s.control with now := max s.control.now moment }
    let put (g : Scrubber → Scrubber) (floor : Floor) (control : Control) : State := { s with
      control := control, floor := { floor with machines := floor.machines.upd m g } }
    ((∃ o ∈ s.floor.fleetTx, o.slot = m) → exec (.fleetFrameSent m) s = .next (put
      (fun y => { y with replyWindow := some (s.control.now + s.control.timing.replyWindow) })
      { s.floor with fleetTx := s.floor.fleetTx.filter fun o => decide (o.slot ≠ m) } s.control)) ∧
    ((∀ o ∈ s.floor.fleetTx, o.slot ≠ m) → exec (.fleetFrameSent m) s = .next s) ∧
    (x.replyWindow = none → exec (.replyWindowExpiry m) s = .next s) ∧
    (x.beaconTimer = none → exec (.beaconTimerExpiry m) s = .next s) ∧
    (x.progress = none → exec (.progressTimerExpiry m) s = .next s) ∧
    (∀ o, x.replyWindow = some moment → x.outstanding = some o →
      s.control.mode = .standby ∨ x.misses + 1 < s.control.timing.lostThreshold →
      exec (.replyWindowExpiry m) s = .next (put
        (fun y => { y with
          replyWindow := none
          misses := if s.control.mode = .standby then y.misses else y.misses + 1 })
        { s.floor with
          fleetTx := s.floor.fleetTx ++ [⟨m, o⟩]
          fleetCounters := { s.floor.fleetCounters with repeats := oneMore s.floor.fleetCounters.repeats } } k)) ∧
    (x.beaconTimer = some moment → x.misses + 1 < s.control.timing.lostThreshold →
      exec (.beaconTimerExpiry m) s = .next (put
        (fun y => { y with
          beaconTimer := some (k.now + s.control.timing.beaconInterval * 1000), misses := y.misses + 1 })
        s.floor k)) ∧
    (x.progress = some moment → ∃ t y n, exec (.progressTimerExpiry m) s = .next t ∧ t.control = k ∧
      t.ports = s.ports ∧ OthersKept m s.floor t.floor ∧ t.floor.lines = s.floor.lines ∧
      t.floor.fleetTx = s.floor.fleetTx ∧ t.floor.machines.look m = some y ∧
      y = { x with state := .stalled, progress := none, request := if x.refugeWait then x.request else none } ∧
      t.floor.notices.look 3 = some n ∧ n.pending = true ∧ n.last = some m)

/-- R20, R37 to R39: a GUARD or WET interval that runs out leaves the cell FREE, with its wash record, and offers it.
With an embargo over it, or with nobody waiting, that is all. The first refuge waiter is granted it in every mode;
ordinary waiters are passed over in EVACUATION and in a closed zone. That the time base reaches the interval's end is
the model's (log 2). R37, R38, R28: the offer of a freed cell to one ordinary waiter whose span is grantable again
grants that span whole; the waiter of the lower rank is examined first, and a grant ends the offer. -/
def Obligations.IntervalsRunOutAndOffer : Prop :=
  (∀ (c moment : Nat) (z : Cell) (run : Machine.Result) (s : State), s.live = true → TablesKept s → c ≤ 511 →
     s.floor.cells.look c = some z →
     (z.occ = .guarded moment ∧ run = exec (.guardExpiry c) s ∨
       (∃ slow, z.occ = .wet moment slow) ∧ run = exec (.wetExpiry c) s) →
     let k := { s.control with now := max s.control.now moment }
     let frees : State := { s with
       control := k
       floor := { s.floor with cells := s.floor.cells.upd c fun y => { y with occ := .free } } }
     run = .next { frees with floor := Floor.offerCell k frees.floor c } ∧
     (z.embargo ≠ 0 ∨ z.waiters = [] → run = .next frees) ∧
     (z.embargo = 0 → (∀ w ∈ z.waiters, w.refuge = false) →
       k.mode = .evacuation ∨ k.zones.look z.zone = some false → run = .next frees) ∧
     (∀ a m b x, z.embargo = 0 → z.waiters = a ++ ⟨m, true⟩ :: b → (∀ w ∈ a, w.refuge = false) →
       s.floor.machines.look m = some x → x.request = some (.refuge c) → x.refuge = none → x.state ≠ .lost →
       ∃ t y, run = .next t ∧ t.control = k ∧ t.ports = s.ports ∧ OthersKept m s.floor t.floor ∧
         t.floor.notices = s.floor.notices ∧
         (∀ n, n ≠ c → t.floor.cells.look n = s.floor.cells.look n) ∧
         t.floor.cells.look c = some
           { z with occ := .held m, waiters := z.waiters.filter fun w => decide (w.slot ≠ m) } ∧
         t.floor.machines.look m = some y ∧ InHand y (.answer (.grant [c] true)) ∧
         { y with queue := x.queue, outstanding := x.outstanding, laneDirs := x.laneDirs } =
           { x with request := none, refuge := some c })) ∧
  (∀ (c moment m n : Nat) (z : Cell) (x y : Scrubber) (a : ActiveLeg) (count : Nat) (s : State), s.live = true →
     TablesKept s → c ≤ 511 → s.floor.cells.look c = some z → z.occ = .guarded moment → z.embargo = 0 →
     (z.waiters = [⟨m, false⟩, ⟨n, false⟩] ∨ z.waiters = [⟨n, false⟩, ⟨m, false⟩]) → m ≠ n →
     s.floor.machines.look m = some x → s.floor.machines.look n = some y → x.rank < y.rank → y.rank ≤ 3 →
     x.state = .waiting → x.request = some (.ordinary count (.cell c)) → x.refuge = none → 1 ≤ count →
     x.active = some a → a.leg.cells.drop (a.index + x.ahead.length + 1) = [c] → x.ahead = [] →
     z.lane = none → s.control.zones.look z.zone = some true → s.control.mode ≠ .evacuation →
     ∃ t x', exec (.guardExpiry c) s = .next t ∧
       t.floor.cells.look c = some { z with occ := .held m, waiters := [⟨n, false⟩] } ∧
       t.floor.machines.look n = some y ∧ t.floor.machines.look m = some x' ∧ x'.state = .running ∧
       x'.ahead = [c] ∧ x'.request = none ∧ InHand x' (.answer (.grant [c] false)) ∧ x'.progress.isSome = true)

/-- R37 to R40, R63: the offer of a cell that is FREE without embargo, and of a lane that nobody holds, to one ordinary
waiter. Its wait is ended and its span computed again. Grantable, the span is granted whole: the cells HELD, the
machine RUNNING, the GRANT in hand, and a lane that was FREE and that the span begins with held by it alone, in its
direction of travel (R28, R59). Else the machine is moved to the target that fails now, with a WAIT in hand, or, where
that wait would close a ring, is refused with a CYCLE cause and rests (R39, R32). No offer is made of a cell that is
not available or has no waiter, to an ordinary waiter in EVACUATION or in a closed zone, nor of a lane in EVACUATION;
that a lane which has a holder again when its turn comes is not offered is the model's reading (log 10). -/
def Obligations.WaitersAreGrantedOrMovedAtOffers : Prop :=
  (∀ (k : Control) (f : Floor) (c l : Nat),
     (∀ z, f.cells.look c = some z →
       z.occ ≠ .free ∨ z.embargo ≠ 0 ∨ z.waiters = [] ∨
         (∀ w ∈ z.waiters, w.refuge = false) ∧ (k.mode = .evacuation ∨ k.zones.look z.zone = some false) →
       f.offerCell k c = f) ∧
     ∀ r, f.lanes.look l = some r → r.holders ≠ 0 ∨ r.waiters = [] ∨ k.mode = .evacuation → f.offerLane k l = f) ∧
  (∀ (k : Control) (f g : Floor) (target : Target) (m count : Nat) (x : Scrubber) (a : ActiveLeg),
     f.cells.wf 512 = true → f.lanes.wf 16 = true → f.machines.wf 25 = true → f.notices.keys = List.range 12 →
     f.machines.look m = some x → x.rank ≤ 3 → x.state = .waiting → x.request = some (.ordinary count target) →
     x.refuge = none → x.active = some a → x.ahead.length ≤ 4 → k.mode ≠ .evacuation →
     ((∃ c z, target = .cell c ∧ g = f.offerCell k c ∧ f.cells.look c = some z ∧ z.occ = .free ∧ z.embargo = 0 ∧
         z.waiters = [⟨m, false⟩] ∧ k.zones.look z.zone ≠ some false) ∨
       ∃ l r, target = .lane l ∧ g = f.offerLane k l ∧ f.lanes.look l = some r ∧ r.holders = 0 ∧ r.waiters = [m]) →
     let left : Floor :=
       { f with
         cells := f.cells.each fun c z => { z with waiters := if target = .cell c then [] else z.waiters }
         lanes := f.lanes.each fun l r => { r with waiters := if target = .lane l then [] else r.waiters }
         machines := f.machines.upd m fun y => { y with request := none } }
     let span := (a.leg.cells.drop (a.index + x.ahead.length + 1)).take (min count (4 - x.ahead.length))
     let fails := left.firstFail k m (x.ahead.getLastD x.current) span []
     let progress := some (x.progress.getD (k.now + k.timing.progressLimit * 1000))
     (fails = none →
       ∃ y, g.machines.look m = some y ∧ OthersKept m f g ∧ g.notices = f.notices ∧
         (∀ c, g.cells.look c = (left.cells.look c).map fun z => { z with occ := if c ∈ span then .held m else z.occ }) ∧
         InHand y (.answer (.grant (x.ahead ++ span) false)) ∧
         { y with laneDirs := x.laneDirs, queue := x.queue, outstanding := x.outstanding } =
           { x with
             request := none, state := .running, ahead := x.ahead ++ span
             progress := if x.ahead ++ span = [] then none else progress } ∧
         ∀ d rest l i r, span = d :: rest → f.laneOf d = some (l, i) → f.lanes.look l = some r → r.holders = 0 →
           x.laneDirs.look l = none →
           let way := stepDir l i (f.laneOf (x.ahead.getLastD x.current))
           (∃ r', g.lanes.look l = some r' ∧ r'.holders = 1 ∧ r'.dir = some way) ∧ y.laneDirs.look l = some way) ∧
     ∀ next reason, fails = some (next, reason) →
       (left.closesRing m next = false →
         ∃ y, g.machines.look m = some y ∧ OthersKept m f g ∧ g.lines = f.lines ∧ g.notices = f.notices ∧
           (∀ c, g.cells.look c = (left.cells.look c).map fun z =>
             { z with waiters := if next = .cell c then z.waiters ++ [⟨m, false⟩] else z.waiters }) ∧
           (∀ l, g.lanes.look l = (left.lanes.look l).map fun r =>
             { r with waiters := if next = .lane l then r.waiters ++ [m] else r.waiters }) ∧
           InHand y (.answer (.wait reason)) ∧
           { y with queue := x.queue, outstanding := x.outstanding } =
             { x with
               request := some (.ordinary count next)
               progress := if x.ahead = [] then none else progress }) ∧
       (left.closesRing m next = true →
         ∃ y n, g.machines.look m = some y ∧ OthersKept m f g ∧ g.lines = f.lines ∧
           (∀ c, g.cells.look c = left.cells.look c) ∧ (∀ l, g.lanes.look l = left.lanes.look l) ∧
           InHand y (.answer (.refused .cycle)) ∧
           { y with queue := x.queue, outstanding := x.outstanding } =
             { x with
               request := none, state := if x.ahead = [] then .idle else .running
               progress := if x.ahead = [] then none else progress } ∧
           g.notices.look 5 = some n ∧ n.pending = true ∧ n.last = some m))

/-! ## Approach lines and the evacuation input -/

/-- R145, R127, R128, R141, R143, R144: an embargo starts on a QUIET line at a filtered active edge in LEVEL mode, at
the end of a valid pulse, and where a line is stuck. The counts of the band rise by one; a machine with an ahead cell,
or its current cell and no refuge in hand, raised from 0 has a WITHDRAW in hand, a cancelling one to that cell's refuge
where it is the current cell, merged with one already queued (R96); the line is CLEARING with its clear-out timer running while a band cell is HELD or BLOCKED, else CLEAR;
the start is stamped. That the row LINE_STUCK makes the line stuck at any running pulse count is log 12. -/
def Obligations.EmbargoStartsWithdrawMachines : Prop :=
  ∀ (i : Nat) (flow : Bool) (l : Line) (c : Instr) (s : State), s.live = true → TablesKept s → i ≤ 15 →
    s.floor.lines.look i = some l → l.cfg.enabled = true → l.state = .quiet →
    let k := s.control
    let rises : Prop := c = .filteredActiveEdge i ∧ l.level = false ∧ l.cfg.pulseMode = false
    let pulses : Prop :=
      c = .filteredInactiveEdge i ∧ l.level = true ∧ l.cfg.pulseMode = true ∧ l.stuck = false ∧
        l.cfg.runt < l.pulse.getD 0
    let sticks : Prop :=
      c = .lineStuck i flow ∧ l.level = true ∧ l.cfg.pulseMode = true ∧ l.pulse.isSome = true ∧ 2 ≤ l.counter ∧
        l.counter ≤ l.cfg.threshold
    let taken := s.floor.bandTaken i
    let raised (n : Nat) : Prop := ∃ z, s.floor.cells.look n = some z ∧ z.band.getLsbD i = true ∧ z.embargo = 0
    (rises ∨ pulses ∨ sticks) →
    ∃ t l', exec c s = .next t ∧ PartKept s t ∧ t.ports = s.ports ∧
      (∀ n z, s.floor.cells.look n = some z → ∃ ws, t.floor.cells.look n = some
        { z with embargo := if z.band.getLsbD i then z.embargo + 1 else z.embargo, waiters := ws }) ∧
      (∀ j, j ≠ i → t.floor.lines.look j = s.floor.lines.look j) ∧
      t.floor.lines.look i = some l' ∧
      { l' with counter := l.counter, level := l.level, pulse := l.pulse, hold := l.hold, stuck := l.stuck
                stucks := l.stucks } =
        { l with
          state := if taken = 0 then .clear else .clearing
          clearTimer := if taken = 0 then none else some (k.now + l.cfg.clearOut * 1000)
          lastStart := if k.clockRunning then some k.clock else none } ∧
      (rises → l'.level = true ∧ l'.hold = l.hold ∧ l'.stuck = l.stuck ∧ l'.stucks = l.stucks) ∧
      (pulses → l'.level = false ∧ l'.hold = some (k.now + l.cfg.holdTime * 1000) ∧ l'.stuck = false ∧
        l'.pulse = none ∧ l'.stucks = l.stucks) ∧
      (sticks → l'.level = true ∧ l'.hold = none ∧ l'.stuck = true ∧ l'.pulse = none ∧ l'.stucks = oneMore l.stucks ∧
        ∃ n, t.floor.notices.look 6 = some n ∧ n.pending = true ∧ n.last = some i) ∧
      ∀ m x, s.floor.machines.look m = some x → x.current ∉ x.ahead →
        let standing : Prop := raised x.current ∧ x.refuge = none ∧ ∀ r, x.request ≠ some (.refuge r)
        (x.state = .lost ∨ ¬ standing ∧ (∀ a ∈ x.ahead, ¬ raised a) → t.floor.machines.look m = some x) ∧
        (x.state ≠ .lost → standing ∨ (∃ a ∈ x.ahead, raised a) →
          let own : Option Nat := (s.floor.cells.look x.current).bind Cell.refuge
          ∃ y w, t.floor.machines.look m = some y ∧ y.withdrawal = some w ∧
            (standing → InHand y (.withdraw true (own.or (queuedRefuge x))) ∧
              w.cancel = true ∧ w.refuge = own.or (x.withdrawal.bind Withdrawal.refuge)) ∧
            (¬ standing →
              InHand y (.withdraw ((x.queuedWithdraw.map fun q => q.1).getD false) (queuedRefuge x)) ∧
              w.cancel = (x.withdrawal.map Withdrawal.cancel).getD false ∧
              w.refuge = x.withdrawal.bind Withdrawal.refuge) ∧
            { y with withdrawal := x.withdrawal, queue := x.queue, outstanding := x.outstanding
                     progress := x.progress } =
              { x with
                state := if x.state = .waiting then .running else x.state
                request := if x.state = .waiting then none else x.request })

/-- R141 to R144: the edges and the stuck line that start no embargo. An edge that the line does not have, disabled or
at that level already, changes nothing (log 5); the count of the edge's own sample is the model's (log 13), and that
the row LINE_STUCK makes the line stuck at any running pulse count is log 12. R146, R148, R141, R143: an embargo ends
at the hold timer's expiry and, with a hold time of 0 in LEVEL mode, at the inactive edge: the counts of the band fall
by one, the line is QUIET with its timers stopped, the end is stamped and the band's cells are offered in ascending
number. A clear-out timer that runs out in CLEARING is a breach: counted, its cause raised, the embargo standing. That
the time base reaches a timer's moment is the model's (log 2). -/
def Obligations.EdgesAndEndsOfAnEmbargo : Prop :=
  (∀ (i : Nat) (flow : Bool) (l : Line) (s : State), s.live = true → TablesKept s → i ≤ 15 →
     s.floor.lines.look i = some l →
     let rises := exec (.filteredActiveEdge i) s
     let falls := exec (.filteredInactiveEdge i) s
     let sticks := exec (.lineStuck i flow) s
     let writes (g : Line → Line) : Machine.Result :=
       .next { s with floor := { s.floor with lines := s.floor.lines.upd i g } }
     let hold := some (s.control.now + l.cfg.holdTime * 1000)
     (l.cfg.enabled = false → rises = .next s ∧ falls = .next s ∧ sticks = .next s) ∧
     (l.level = true → rises = .next s) ∧ (l.level = false → falls = .next s ∧ sticks = .next s) ∧
     (l.cfg.enabled = true → l.level = false →
       (l.cfg.pulseMode = true →
         rises = writes fun r => { r with counter := r.cfg.threshold, level := true, pulse := some 1 }) ∧
       (l.cfg.pulseMode = false → l.state ≠ .quiet →
         rises = writes fun r => { r with counter := r.cfg.threshold, level := true, hold := none })) ∧
     (l.cfg.enabled = true → l.level = true →
       (l.cfg.pulseMode = false → l.cfg.holdTime ≠ 0 →
         falls = writes fun r => { r with counter := 0, level := false, hold := hold }) ∧
       (l.cfg.pulseMode = true → l.stuck = true →
         falls = writes fun r => { r with counter := 0, level := false, pulse := none, stuck := false, hold := hold }) ∧
       (l.cfg.pulseMode = true → l.stuck = false → l.cfg.runt < l.pulse.getD 0 → l.state ≠ .quiet →
         falls = writes fun r => { r with counter := 0, level := false, pulse := none, stuck := false, hold := hold }) ∧
       (l.cfg.pulseMode = true → l.stuck = false → l.pulse.getD 0 ≤ l.cfg.runt →
         ∃ t n, falls = .next t ∧ PartKept s t ∧ t.floor.cells = s.floor.cells ∧ t.floor.machines = s.floor.machines ∧
           t.floor.lines.look i = some
             { l with counter := 0, level := false, pulse := none, runts := oneMore l.runts } ∧
           t.floor.notices.look 6 = some n ∧ n.pending = true ∧ n.last = some i) ∧
       (l.cfg.pulseMode = true → l.pulse.isSome = true → l.state ≠ .quiet → 2 ≤ l.counter → l.counter ≤ l.cfg.threshold →
         ∃ t n l', sticks = .next t ∧ PartKept s t ∧ t.floor.cells = s.floor.cells ∧
           t.floor.machines = s.floor.machines ∧ t.floor.lines.look i = some l' ∧
           { l' with counter := l.counter } =
             { l with pulse := none, hold := none, stuck := true, stucks := oneMore l.stucks } ∧
           t.floor.notices.look 6 = some n ∧ n.pending = true ∧ n.last = some i))) ∧
  (∀ (i moment : Nat) (l : Line) (s : State), s.live = true → TablesKept s → i ≤ 15 → s.floor.lines.look i = some l →
     let k := { s.control with now := max s.control.now moment }
     let band := s.floor.cells.keysWhere fun z => z.band.getLsbD i
     let quiet (u : State) (g : Line → Line) : Machine.Result :=
       let cells := u.floor.cells.each fun _ z => if z.band.getLsbD i then { z with embargo := z.embargo - 1 } else z
       let lines := u.floor.lines.upd i fun r =>
         { g r with
           state := .quiet, clearTimer := none, hold := none
           lastEnd := if u.control.clockRunning then some u.control.clock else none }
       .next { u with floor := Floor.offerCells u.control { u.floor with cells := cells, lines := lines } band }
     (l.hold = none → exec (.holdExpiry i) s = .next s) ∧
     (l.state ≠ .clearing ∨ l.clearTimer = none → exec (.clearOutExpiry i) s = .next s) ∧
     (l.hold = some moment → l.state ≠ .quiet → exec (.holdExpiry i) s = quiet { s with control := k } id) ∧
     (l.cfg.enabled = true → l.level = true → l.cfg.pulseMode = false → l.cfg.holdTime = 0 → l.state ≠ .quiet →
       exec (.filteredInactiveEdge i) s = quiet s fun r => { r with counter := 0, level := false }) ∧
     (NobodyWaits s.floor → ∀ control, Floor.offerCells control s.floor band = s.floor) ∧
     (l.state = .clearing → l.clearTimer = some moment →
       ∃ t n, exec (.clearOutExpiry i) s = .next t ∧ t.control = k ∧ t.ports = s.ports ∧
         t.floor.cells = s.floor.cells ∧ t.floor.machines = s.floor.machines ∧ t.floor.lanes = s.floor.lanes ∧
         t.floor.lines.look i = some
           { l with state := .breach, clearTimer := none, breaches := oneMore l.breaches } ∧
         (∀ j, j ≠ i → t.floor.lines.look j = s.floor.lines.look j) ∧
         t.floor.notices.look 1 = some n ∧ n.pending = true ∧ n.last = some i ∧
         ((s.floor.notices.look 1).map Notice.pending = some false →
           n.reason = some (.breach (s.floor.cells.countP fun e => e.2.band.getLsbD i && e.2.occ.taken)))))

/-- R153, R160, R155: each filtered edge of the evacuation input raises its cause; an edge to the level that stands
already changes nothing (log 5), and the filter counter goes to its end with the edge (log 13). The active edge takes a
part in NIGHT or RECALL to EVACUATION: the mode left is saved, the host silence timer stops, and EVAC joins every halt
set but a LOST machine's; one whose set was empty has a MOTION HALT in hand and is HALTED unless it is STOOD_DOWN. In
the other modes, and at the inactive edge, the mode stands. R159, R157: the host silence timer that runs out recalls
the part with reason SILENT and raises a MODE/MARK cause without subject; one that is stopped does not run out, so the
row then changes nothing (log 5). That the time base reaches its moment is the model's (log 2). -/
def Obligations.EvacuationAndSilenceMoveTheMode : Prop :=
  (∀ (s : State) (active : Bool), s.live = true → TablesKept s → s.evac.level = !active →
     let run := exec (if active then .evacuationActiveEdge else .evacuationInactiveEdge) s
     let enters : Prop := active = true ∧ (s.control.mode = .night ∨ s.control.mode = .recalling)
     let empty : Halts := ⟨false, false, false, false⟩
     exec (if active then .evacuationInactiveEdge else .evacuationActiveEdge) s = .next s ∧
     ∃ t n, run = .next t ∧
       t.evac = { counter := if active then s.control.timing.evacFilter else 0, level := active } ∧
       t.ports = s.ports ∧ t.marks = s.marks ∧ t.floor.lines = s.floor.lines ∧
       t.floor.notices.look 0 = some n ∧ n.pending = true ∧ n.last = none ∧
       ((s.floor.notices.look 0).map Notice.pending = some false →
         n.reason = some (if active then .evacActive else .evacInactive) ∧ n.count = 1) ∧
       (¬ enters → t.control = s.control ∧ t.floor.machines = s.floor.machines) ∧
       (enters →
         t.control = { s.control with
           mode := .evacuation, saved := some (if s.control.mode = .night then .night else .recalling)
           silence := none } ∧
         ∀ m x, s.floor.machines.look m = some x →
           (x.state = .lost ∨ x.halts.evac = true → t.floor.machines.look m = some x) ∧
           (x.state ≠ .lost → x.halts.evac = false → ∃ y, t.floor.machines.look m = some y ∧
             y.halts = { x.halts with evac := true } ∧
             (x.halts ≠ empty → y = { x with halts := y.halts }) ∧
             (x.halts = empty → InHand y (.motion false) ∧
               y.state = (if x.state = .stoodDown then .stoodDown else .halted) ∧
               y.request = (if x.refugeWait ∨ x.state = .stoodDown then x.request else none) ∧
               y.current = x.current ∧ y.ahead = x.ahead ∧ y.active = x.active ∧ y.staged = x.staged)))) ∧
  (∀ s : State, s.live = true → TablesKept s →
     (s.control.silence = none → exec .hostSilenceExpiry s = .next s) ∧
     ∀ moment, s.control.silence = some moment →
       ∃ t n, exec .hostSilenceExpiry s = .next t ∧
         t.control = { s.control with
           now := max s.control.now moment, mode := .recalling, recallReason := some .silent, silence := none } ∧
         t.ports = s.ports ∧ t.marks = s.marks ∧ t.floor.machines = s.floor.machines ∧
         ConcourseKept s.floor t.floor ∧ t.floor.notices.look 11 = some n ∧ n.pending = true ∧ n.last = none ∧
         ((s.floor.notices.look 11).map Notice.pending = some false → n.reason = some (.recalled .silent)))

/-- R139, R153, R142, R144: one sample of an input. The counter moves by one and holds at its ends; the level follows
at the ends alone. A sample that moves no level changes nothing else, but that a sample of an active level counts one
millisecond of a running pulse, up to the maximum width; a sample that moves the level does what the edge does, the
edge's own row bringing the counter to its end likewise (log 13); and the sample past the maximum width does what the
row LINE_STUCK does (log 12). Current means active on an ACTIVE-HIGH line, inactive on an ACTIVE-LOW one and at the
evacuation input. A disabled line takes no sample. -/
def Obligations.SamplesMoveTheFilter : Prop :=
  ∀ (i : Nat) (flow : Bool) (s : State), s.live = true → TablesKept s →
    let next (threshold counter : Nat) (active : Bool) : Nat :=
      if active then (if counter < threshold then counter + 1 else threshold) else counter - 1
    (∀ l, i ≤ 15 → s.floor.lines.look i = some l →
      let c := next l.cfg.threshold l.counter (flow != l.cfg.activeLow)
      let run := exec (.inputSample i flow) s
      let writes (g : Line → Line) : Machine.Result :=
        .next { s with floor := { s.floor with lines := s.floor.lines.upd i g } }
      (l.cfg.enabled = false → run = .next s) ∧
      (l.cfg.enabled = true → 1 ≤ l.cfg.threshold →
        (l.level = false → c ≠ l.cfg.threshold → run = writes fun r => { r with counter := c }) ∧
        (l.level = true → c ≠ 0 → l.pulse = none → run = writes fun r => { r with counter := c }) ∧
        (∀ w, l.level = true → c ≠ 0 → l.pulse = some w → w < l.cfg.maxWidth →
          run = writes fun r => { r with counter := c, pulse := some (w + 1) }) ∧
        (∀ w, l.level = true → c ≠ 0 → l.cfg.pulseMode = true → l.pulse = some w → l.cfg.maxWidth ≤ w →
          run = exec (.lineStuck i flow) s) ∧
        (l.level = false → c = l.cfg.threshold → run = exec (.filteredActiveEdge i) s) ∧
        (l.level = true → c = 0 → run = exec (.filteredInactiveEdge i) s))) ∧
    (1 ≤ s.control.timing.evacFilter →
      let c := next s.control.timing.evacFilter s.evac.counter (!flow)
      let run := exec (.inputSample 16 flow) s
      (s.evac.level = false → c ≠ s.control.timing.evacFilter →
        run = .next { s with evac := { s.evac with counter := c } }) ∧
      (s.evac.level = true → c ≠ 0 → run = .next { s with evac := { s.evac with counter := c } }) ∧
      (s.evac.level = false → c = s.control.timing.evacFilter → run = exec .evacuationActiveEdge s) ∧
      (s.evac.level = true → c = 0 → run = exec .evacuationInactiveEdge s))

/-! ## The drying time -/

/-- R48: the raw drying time is the exact quotient rounded up; under the settings' ranges numerator, denominator and
raw time lie where the rule says; the clamps give the applied time, and only a raw time above the high limit reports
the clamp; the applied time lies between the low limit and the high set value, and never exceeds 7,200 seconds. -/
def Obligations.DryingTimesAreExactAndBounded : Prop :=
  ∀ (s : State) (cls flow : Nat), DryingKept s → cls ≤ 7 → 1 ≤ flow → flow ≤ 3 →
    let d := s.control.drying
    let base := d.base.getD cls 0
    let factor := if flow = 1 then 12 else if flow = 2 then 16 else 22
    let numerator := base * factor * (64 + d.humidity) * 60
    let denominator := 1536 * (48 + d.temperature).toNat
    let raw := rawDryingTime base flow d.humidity d.temperature
    let applied := dryingAnswer d cls flow
    (raw - 1) * denominator < numerator ∧ numerator ≤ raw * denominator ∧
      1382400 ≤ numerator ∧ numerator ≤ 779328000 ∧ 58368 ≤ denominator ∧ denominator ≤ 135168 ∧
      11 ≤ raw ∧ raw ≤ 13352 ∧
      (raw < d.low → applied = (d.lowSet, false)) ∧
      (d.high < raw → applied = (d.highSet, true)) ∧
      (d.low ≤ raw → raw ≤ d.high → applied = (raw, false)) ∧
      d.low ≤ applied.1 ∧ applied.1 ≤ d.highSet ∧ applied.1 ≤ 7200
end

