-- ==== Sys2Proof/Laws/State.lean ====
section
/-! SUPPORT. One lemma for each field of each update of the state, true by rfl, so that no later proof unfolds a record
update. -/

namespace Sys2Proof.Machine

@[simp] theorem State.onFloor_pending (s : State) (g : Control → Floor → Floor) : (s.onFloor g).pending = s.pending := rfl
@[simp] theorem State.onFloor_powered (s : State) (g : Control → Floor → Floor) : (s.onFloor g).powered = s.powered := rfl
@[simp] theorem State.onFloor_resetHeld (s : State) (g : Control → Floor → Floor) : (s.onFloor g).resetHeld = s.resetHeld := rfl
@[simp] theorem State.onFloor_control (s : State) (g : Control → Floor → Floor) : (s.onFloor g).control = s.control := rfl
@[simp] theorem State.onFloor_floor (s : State) (g : Control → Floor → Floor) : (s.onFloor g).floor = g s.control s.floor := rfl
@[simp] theorem State.onFloor_marks (s : State) (g : Control → Floor → Floor) : (s.onFloor g).marks = s.marks := rfl
@[simp] theorem State.onFloor_evac (s : State) (g : Control → Floor → Floor) : (s.onFloor g).evac = s.evac := rfl
@[simp] theorem State.onFloor_ports (s : State) (g : Control → Floor → Floor) : (s.onFloor g).ports = s.ports := rfl

@[simp] theorem State.onControl_pending (s : State) (g : Control → Control) : (s.onControl g).pending = s.pending := rfl
@[simp] theorem State.onControl_powered (s : State) (g : Control → Control) : (s.onControl g).powered = s.powered := rfl
@[simp] theorem State.onControl_resetHeld (s : State) (g : Control → Control) : (s.onControl g).resetHeld = s.resetHeld := rfl
@[simp] theorem State.onControl_control (s : State) (g : Control → Control) : (s.onControl g).control = g s.control := rfl
@[simp] theorem State.onControl_floor (s : State) (g : Control → Control) : (s.onControl g).floor = s.floor := rfl
@[simp] theorem State.onControl_marks (s : State) (g : Control → Control) : (s.onControl g).marks = s.marks := rfl
@[simp] theorem State.onControl_evac (s : State) (g : Control → Control) : (s.onControl g).evac = s.evac := rfl
@[simp] theorem State.onControl_ports (s : State) (g : Control → Control) : (s.onControl g).ports = s.ports := rfl

@[simp] theorem State.advanceTo_pending (s : State) (t : Nat) : (s.advanceTo t).pending = s.pending := rfl
@[simp] theorem State.advanceTo_powered (s : State) (t : Nat) : (s.advanceTo t).powered = s.powered := rfl
@[simp] theorem State.advanceTo_resetHeld (s : State) (t : Nat) : (s.advanceTo t).resetHeld = s.resetHeld := rfl
@[simp] theorem State.advanceTo_control (s : State) (t : Nat) : (s.advanceTo t).control = { s.control with now := max s.control.now t } := rfl
@[simp] theorem State.advanceTo_floor (s : State) (t : Nat) : (s.advanceTo t).floor = s.floor := rfl
@[simp] theorem State.advanceTo_marks (s : State) (t : Nat) : (s.advanceTo t).marks = s.marks := rfl
@[simp] theorem State.advanceTo_evac (s : State) (t : Nat) : (s.advanceTo t).evac = s.evac := rfl
@[simp] theorem State.advanceTo_ports (s : State) (t : Nat) : (s.advanceTo t).ports = s.ports := rfl

@[simp] theorem State.takeFrame_pending (s : State) : s.takeFrame.pending = s.pending := rfl
@[simp] theorem State.takeFrame_powered (s : State) : s.takeFrame.powered = s.powered := rfl
@[simp] theorem State.takeFrame_resetHeld (s : State) : s.takeFrame.resetHeld = s.resetHeld := rfl
@[simp] theorem State.takeFrame_control (s : State) : s.takeFrame.control = s.control := rfl
@[simp] theorem State.takeFrame_floor (s : State) : s.takeFrame.floor = { s.floor with supTx := unsent s.floor.supTx } := rfl
@[simp] theorem State.takeFrame_marks (s : State) : s.takeFrame.marks = s.marks := rfl
@[simp] theorem State.takeFrame_evac (s : State) : s.takeFrame.evac = s.evac := rfl
@[simp] theorem State.takeFrame_ports (s : State) : s.takeFrame.ports = { s.ports with cmdQueue := s.ports.cmdQueue.tail } := rfl

@[simp] theorem State.reply_pending (s : State) (kind ref : Byte) (status : Status) (data : ReplyData) : (s.reply kind ref status data).pending = s.pending := rfl
@[simp] theorem State.reply_powered (s : State) (kind ref : Byte) (status : Status) (data : ReplyData) : (s.reply kind ref status data).powered = s.powered := rfl
@[simp] theorem State.reply_resetHeld (s : State) (kind ref : Byte) (status : Status) (data : ReplyData) : (s.reply kind ref status data).resetHeld = s.resetHeld := rfl
@[simp] theorem State.reply_control (s : State) (kind ref : Byte) (status : Status) (data : ReplyData) : (s.reply kind ref status data).control = s.control := rfl
@[simp] theorem State.reply_floor (s : State) (kind ref : Byte) (status : Status) (data : ReplyData) : (s.reply kind ref status data).floor = { s.floor with supTx := s.floor.supTx ++ [.reply kind ref status data] } := rfl
@[simp] theorem State.reply_marks (s : State) (kind ref : Byte) (status : Status) (data : ReplyData) : (s.reply kind ref status data).marks = s.marks := rfl
@[simp] theorem State.reply_evac (s : State) (kind ref : Byte) (status : Status) (data : ReplyData) : (s.reply kind ref status data).evac = s.evac := rfl
@[simp] theorem State.reply_ports (s : State) (kind ref : Byte) (status : Status) (data : ReplyData) : (s.reply kind ref status data).ports = s.ports := rfl

@[simp] theorem State.supCount_pending (s : State) (g : SupCounters → SupCounters) : (s.supCount g).pending = s.pending := rfl
@[simp] theorem State.supCount_powered (s : State) (g : SupCounters → SupCounters) : (s.supCount g).powered = s.powered := rfl
@[simp] theorem State.supCount_resetHeld (s : State) (g : SupCounters → SupCounters) : (s.supCount g).resetHeld = s.resetHeld := rfl
@[simp] theorem State.supCount_control (s : State) (g : SupCounters → SupCounters) : (s.supCount g).control = s.control := rfl
@[simp] theorem State.supCount_floor (s : State) (g : SupCounters → SupCounters) : (s.supCount g).floor = s.floor := rfl
@[simp] theorem State.supCount_marks (s : State) (g : SupCounters → SupCounters) : (s.supCount g).marks = s.marks := rfl
@[simp] theorem State.supCount_evac (s : State) (g : SupCounters → SupCounters) : (s.supCount g).evac = s.evac := rfl
@[simp] theorem State.supCount_ports (s : State) (g : SupCounters → SupCounters) : (s.supCount g).ports = { s.ports with supCounters := g s.ports.supCounters } := rfl

@[simp] theorem State.fleetCount_pending (s : State) (g : FleetCounters → FleetCounters) : (s.fleetCount g).pending = s.pending := rfl
@[simp] theorem State.fleetCount_powered (s : State) (g : FleetCounters → FleetCounters) : (s.fleetCount g).powered = s.powered := rfl
@[simp] theorem State.fleetCount_resetHeld (s : State) (g : FleetCounters → FleetCounters) : (s.fleetCount g).resetHeld = s.resetHeld := rfl
@[simp] theorem State.fleetCount_control (s : State) (g : FleetCounters → FleetCounters) : (s.fleetCount g).control = s.control := rfl
@[simp] theorem State.fleetCount_floor (s : State) (g : FleetCounters → FleetCounters) : (s.fleetCount g).floor = { s.floor with fleetCounters := g s.floor.fleetCounters } := rfl
@[simp] theorem State.fleetCount_marks (s : State) (g : FleetCounters → FleetCounters) : (s.fleetCount g).marks = s.marks := rfl
@[simp] theorem State.fleetCount_evac (s : State) (g : FleetCounters → FleetCounters) : (s.fleetCount g).evac = s.evac := rfl
@[simp] theorem State.fleetCount_ports (s : State) (g : FleetCounters → FleetCounters) : (s.fleetCount g).ports = s.ports := rfl

@[simp] theorem State.takeRecord_pending (s : State) : s.takeRecord.pending = s.pending := rfl
@[simp] theorem State.takeRecord_powered (s : State) : s.takeRecord.powered = s.powered := rfl
@[simp] theorem State.takeRecord_resetHeld (s : State) : s.takeRecord.resetHeld = s.resetHeld := rfl
@[simp] theorem State.takeRecord_control (s : State) : s.takeRecord.control = s.control := rfl
@[simp] theorem State.takeRecord_floor (s : State) : s.takeRecord.floor = s.floor := rfl
@[simp] theorem State.takeRecord_marks (s : State) : s.takeRecord.marks = s.marks := rfl
@[simp] theorem State.takeRecord_evac (s : State) : s.takeRecord.evac = s.evac := rfl
@[simp] theorem State.takeRecord_ports (s : State) : s.takeRecord.ports = { s.ports with fleetQueue := s.ports.fleetQueue.tail } := rfl

@[simp] theorem State.supAbandon_pending (s : State) : s.supAbandon.pending = s.pending := rfl
@[simp] theorem State.supAbandon_powered (s : State) : s.supAbandon.powered = s.powered := rfl
@[simp] theorem State.supAbandon_resetHeld (s : State) : s.supAbandon.resetHeld = s.resetHeld := rfl
@[simp] theorem State.supAbandon_control (s : State) : s.supAbandon.control = s.control := rfl
@[simp] theorem State.supAbandon_floor (s : State) : s.supAbandon.floor = s.floor := rfl
@[simp] theorem State.supAbandon_marks (s : State) : s.supAbandon.marks = s.marks := rfl
@[simp] theorem State.supAbandon_evac (s : State) : s.supAbandon.evac = s.evac := rfl
@[simp] theorem State.supAbandon_ports (s : State) : s.supAbandon.ports = { s.ports with supReading := [] } := rfl

@[simp] theorem State.fleetAbandon_pending (s : State) : s.fleetAbandon.pending = s.pending := rfl
@[simp] theorem State.fleetAbandon_powered (s : State) : s.fleetAbandon.powered = s.powered := rfl
@[simp] theorem State.fleetAbandon_resetHeld (s : State) : s.fleetAbandon.resetHeld = s.resetHeld := rfl
@[simp] theorem State.fleetAbandon_control (s : State) : s.fleetAbandon.control = s.control := rfl
@[simp] theorem State.fleetAbandon_floor (s : State) : s.fleetAbandon.floor = s.floor := rfl
@[simp] theorem State.fleetAbandon_marks (s : State) : s.fleetAbandon.marks = s.marks := rfl
@[simp] theorem State.fleetAbandon_evac (s : State) : s.fleetAbandon.evac = s.evac := rfl
@[simp] theorem State.fleetAbandon_ports (s : State) : s.fleetAbandon.ports = { s.ports with fleetReading := [] } := rfl

@[simp] theorem State.reply_live (s : State) (kind ref : Byte) (status : Status) (data : ReplyData) :
    (s.reply kind ref status data).live = s.live := rfl
@[simp] theorem State.takeRecord_live (s : State) : s.takeRecord.live = s.live := rfl
@[simp] theorem State.takeFrame_live (s : State) : s.takeFrame.live = s.live := rfl
@[simp] theorem State.onFloor_live (s : State) (g : Control → Floor → Floor) : (s.onFloor g).live = s.live := rfl
@[simp] theorem State.onControl_live (s : State) (g : Control → Control) : (s.onControl g).live = s.live := rfl

@[simp] theorem Floor.modMachine_cells (f : Floor) (m : Nat) (g : Scrubber → Scrubber) : (f.modMachine m g).cells = f.cells := rfl
@[simp] theorem Floor.modMachine_lanes (f : Floor) (m : Nat) (g : Scrubber → Scrubber) : (f.modMachine m g).lanes = f.lanes := rfl
@[simp] theorem Floor.modMachine_machines (f : Floor) (m : Nat) (g : Scrubber → Scrubber) : (f.modMachine m g).machines = f.machines.upd m g := rfl
@[simp] theorem Floor.modMachine_lines (f : Floor) (m : Nat) (g : Scrubber → Scrubber) : (f.modMachine m g).lines = f.lines := rfl
@[simp] theorem Floor.modMachine_fleetTx (f : Floor) (m : Nat) (g : Scrubber → Scrubber) : (f.modMachine m g).fleetTx = f.fleetTx := rfl
@[simp] theorem Floor.modMachine_fleetCounters (f : Floor) (m : Nat) (g : Scrubber → Scrubber) : (f.modMachine m g).fleetCounters = f.fleetCounters := rfl
@[simp] theorem Floor.modMachine_notices (f : Floor) (m : Nat) (g : Scrubber → Scrubber) : (f.modMachine m g).notices = f.notices := rfl
@[simp] theorem Floor.modMachine_ceiling (f : Floor) (m : Nat) (g : Scrubber → Scrubber) : (f.modMachine m g).ceiling = f.ceiling := rfl
@[simp] theorem Floor.modMachine_supTx (f : Floor) (m : Nat) (g : Scrubber → Scrubber) : (f.modMachine m g).supTx = f.supTx := rfl

@[simp] theorem Floor.modSettled_cells (f : Floor) (k : Control) (m : Nat) (g : Scrubber → Scrubber) : (Floor.modSettled k f m g).cells = f.cells := rfl
@[simp] theorem Floor.modSettled_lanes (f : Floor) (k : Control) (m : Nat) (g : Scrubber → Scrubber) : (Floor.modSettled k f m g).lanes = f.lanes := rfl
@[simp] theorem Floor.modSettled_machines (f : Floor) (k : Control) (m : Nat) (g : Scrubber → Scrubber) : (Floor.modSettled k f m g).machines = f.machines.upd m fun x => (g x).settle k.now k.timing.progressLimit := rfl
@[simp] theorem Floor.modSettled_lines (f : Floor) (k : Control) (m : Nat) (g : Scrubber → Scrubber) : (Floor.modSettled k f m g).lines = f.lines := rfl
@[simp] theorem Floor.modSettled_fleetTx (f : Floor) (k : Control) (m : Nat) (g : Scrubber → Scrubber) : (Floor.modSettled k f m g).fleetTx = f.fleetTx := rfl
@[simp] theorem Floor.modSettled_fleetCounters (f : Floor) (k : Control) (m : Nat) (g : Scrubber → Scrubber) : (Floor.modSettled k f m g).fleetCounters = f.fleetCounters := rfl
@[simp] theorem Floor.modSettled_notices (f : Floor) (k : Control) (m : Nat) (g : Scrubber → Scrubber) : (Floor.modSettled k f m g).notices = f.notices := rfl
@[simp] theorem Floor.modSettled_ceiling (f : Floor) (k : Control) (m : Nat) (g : Scrubber → Scrubber) : (Floor.modSettled k f m g).ceiling = f.ceiling := rfl
@[simp] theorem Floor.modSettled_supTx (f : Floor) (k : Control) (m : Nat) (g : Scrubber → Scrubber) : (Floor.modSettled k f m g).supTx = f.supTx := rfl

@[simp] theorem Floor.modLine_cells (f : Floor) (i : Nat) (g : Line → Line) : (f.modLine i g).cells = f.cells := rfl
@[simp] theorem Floor.modLine_lanes (f : Floor) (i : Nat) (g : Line → Line) : (f.modLine i g).lanes = f.lanes := rfl
@[simp] theorem Floor.modLine_machines (f : Floor) (i : Nat) (g : Line → Line) : (f.modLine i g).machines = f.machines := rfl
@[simp] theorem Floor.modLine_lines (f : Floor) (i : Nat) (g : Line → Line) : (f.modLine i g).lines = f.lines.upd i g := rfl
@[simp] theorem Floor.modLine_fleetTx (f : Floor) (i : Nat) (g : Line → Line) : (f.modLine i g).fleetTx = f.fleetTx := rfl
@[simp] theorem Floor.modLine_fleetCounters (f : Floor) (i : Nat) (g : Line → Line) : (f.modLine i g).fleetCounters = f.fleetCounters := rfl
@[simp] theorem Floor.modLine_notices (f : Floor) (i : Nat) (g : Line → Line) : (f.modLine i g).notices = f.notices := rfl
@[simp] theorem Floor.modLine_ceiling (f : Floor) (i : Nat) (g : Line → Line) : (f.modLine i g).ceiling = f.ceiling := rfl
@[simp] theorem Floor.modLine_supTx (f : Floor) (i : Nat) (g : Line → Line) : (f.modLine i g).supTx = f.supTx := rfl

@[simp] theorem Floor.countDiscarded_cells (f : Floor) : (f.countDiscarded).cells = f.cells := rfl
@[simp] theorem Floor.countDiscarded_lanes (f : Floor) : (f.countDiscarded).lanes = f.lanes := rfl
@[simp] theorem Floor.countDiscarded_machines (f : Floor) : (f.countDiscarded).machines = f.machines := rfl
@[simp] theorem Floor.countDiscarded_lines (f : Floor) : (f.countDiscarded).lines = f.lines := rfl
@[simp] theorem Floor.countDiscarded_fleetTx (f : Floor) : (f.countDiscarded).fleetTx = f.fleetTx := rfl
@[simp] theorem Floor.countDiscarded_fleetCounters (f : Floor) : (f.countDiscarded).fleetCounters = { f.fleetCounters with discarded := bump f.fleetCounters.discarded } := rfl
@[simp] theorem Floor.countDiscarded_notices (f : Floor) : (f.countDiscarded).notices = f.notices := rfl
@[simp] theorem Floor.countDiscarded_ceiling (f : Floor) : (f.countDiscarded).ceiling = f.ceiling := rfl
@[simp] theorem Floor.countDiscarded_supTx (f : Floor) : (f.countDiscarded).supTx = f.supTx := rfl

@[simp] theorem Floor.reviewBand_cells (f : Floor) (band : BitVec 16) : (f.reviewBand band).cells = f.cells := rfl
@[simp] theorem Floor.reviewBand_lanes (f : Floor) (band : BitVec 16) : (f.reviewBand band).lanes = f.lanes := rfl
@[simp] theorem Floor.reviewBand_machines (f : Floor) (band : BitVec 16) : (f.reviewBand band).machines = f.machines := rfl
@[simp] theorem Floor.reviewBand_lines (f : Floor) (band : BitVec 16) : (f.reviewBand band).lines = f.lines.each fun i l => if band.getLsbD i then l.review (f.bandTaken i) else l := rfl
@[simp] theorem Floor.reviewBand_fleetTx (f : Floor) (band : BitVec 16) : (f.reviewBand band).fleetTx = f.fleetTx := rfl
@[simp] theorem Floor.reviewBand_fleetCounters (f : Floor) (band : BitVec 16) : (f.reviewBand band).fleetCounters = f.fleetCounters := rfl
@[simp] theorem Floor.reviewBand_notices (f : Floor) (band : BitVec 16) : (f.reviewBand band).notices = f.notices := rfl
@[simp] theorem Floor.reviewBand_ceiling (f : Floor) (band : BitVec 16) : (f.reviewBand band).ceiling = f.ceiling := rfl
@[simp] theorem Floor.reviewBand_supTx (f : Floor) (band : BitVec 16) : (f.reviewBand band).supTx = f.supTx := rfl

@[simp] theorem Floor.clearOutstanding_cells (f : Floor) (m : Nat) : (f.clearOutstanding m).cells = f.cells := rfl
@[simp] theorem Floor.clearOutstanding_lanes (f : Floor) (m : Nat) : (f.clearOutstanding m).lanes = f.lanes := rfl
@[simp] theorem Floor.clearOutstanding_machines (f : Floor) (m : Nat) : (f.clearOutstanding m).machines = f.machines.upd m fun x => { x with outstanding := none, replyWindow := none } := rfl
@[simp] theorem Floor.clearOutstanding_lines (f : Floor) (m : Nat) : (f.clearOutstanding m).lines = f.lines := rfl
@[simp] theorem Floor.clearOutstanding_fleetTx (f : Floor) (m : Nat) : (f.clearOutstanding m).fleetTx = f.fleetTx.filter fun o => !decide (o.slot = m) := rfl
@[simp] theorem Floor.clearOutstanding_fleetCounters (f : Floor) (m : Nat) : (f.clearOutstanding m).fleetCounters = f.fleetCounters := rfl
@[simp] theorem Floor.clearOutstanding_notices (f : Floor) (m : Nat) : (f.clearOutstanding m).notices = f.notices := rfl
@[simp] theorem Floor.clearOutstanding_ceiling (f : Floor) (m : Nat) : (f.clearOutstanding m).ceiling = f.ceiling := rfl
@[simp] theorem Floor.clearOutstanding_supTx (f : Floor) (m : Nat) : (f.clearOutstanding m).supTx = f.supTx := rfl

/-! ### Outcomes -/

/-- A running module takes the event. -/
theorem event_live {g : State → State} {s : State} (h : s.live = true) : event g s = .next (g s) := by
  simp [event, h]

/-- A module without supply or with its reset input held takes no event. -/
theorem event_dead {g : State → State} {s : State} (h : s.live = false) : event g s = .next s := by
  simp [event, h]

/-- A frame at its turn is taken by a running module. -/
theorem takesCommand_live {s : State} {r : Record} (h : s.takesCommand r = true) : s.live = true := by
  simp only [State.takesCommand, Bool.and_eq_true] at h; exact h.1

/-- A record at its turn is taken by a running module. -/
theorem takesRecord_live {s : State} {r : Record} (h : s.takesRecord r = true) : s.live = true := by
  simp only [State.takesRecord, Bool.and_eq_true] at h; exact h.1

/-- The frame that heads the queue of a running module is at its turn. -/
theorem takesCommand_head {s : State} {r : Record} {rest : List Record} (h : s.live = true)
    (q : s.ports.cmdQueue = r :: rest) : s.takesCommand r = true := by
  simp [State.takesCommand, isNext, h, q]

/-- The record that heads the queue of a running module is at its turn. -/
theorem takesRecord_head {s : State} {r : Record} {rest : List Record} (h : s.live = true)
    (q : s.ports.fleetQueue = r :: rest) : s.takesRecord r = true := by
  simp [State.takesRecord, isNext, h, q]

/-- A running module takes the command at its turn whole and answers it once. -/
theorem command_taken {kind ref : Byte} {body : List Byte} {act : Action} {s : State}
    (h : s.takesCommand ⟨kind, ref, body⟩ = true) :
    command kind ref body act s =
      .next ((act s.takeFrame).1.reply kind ref (act s.takeFrame).2.1 (act s.takeFrame).2.2) := by
  simp [command, h]

/-- A command whose turn has not come changes nothing. -/
theorem command_waits {kind ref : Byte} {body : List Byte} {act : Action} {s : State}
    (h : s.takesCommand ⟨kind, ref, body⟩ = false) : command kind ref body act s = .next s := by
  simp [command, h]

/-- A machine record whose turn has not come changes nothing. -/
theorem machineRecord_waits {kind slot : Byte} {body : List Byte} {p v : Option (State → State)} {s : State}
    (h : s.takesRecord ⟨kind, slot, body⟩ = false) : machineRecord kind slot body p v s = .next s := by
  simp [machineRecord, h]

/-- All that one more byte can do at a port: between frames only the lead byte is held; a length byte above 250 ends the
frame; any later byte completes the frame that the bytes so far then spell, or is held. -/
theorem assemble_cases (reading : List Byte) (b : Byte) :
    reading = [] ∧ assemble reading b = (if b = 0xB5#8 then [b] else [], none) ∨
      (∃ lead, reading = [lead] ∧
        assemble reading b = if Config.bodyRoom < b.toNat then ([], some .overlong) else ([lead, b], none)) ∨
      2 ≤ reading.length ∧ ((∃ fr, readFrame (reading ++ [b]) = some fr ∧ assemble reading b = ([], some (.whole fr))) ∨
        readFrame (reading ++ [b]) = none ∧ assemble reading b = (reading ++ [b], none)) := by
  match reading with
  | [] => exact .inl ⟨rfl, rfl⟩
  | [lead] => exact .inr (.inl ⟨lead, rfl, rfl⟩)
  | one :: two :: rest =>
    refine .inr (.inr ⟨by simp, ?_⟩)
    cases h : readFrame (one :: two :: rest ++ [b]) with
    | none => exact .inr ⟨rfl, by simp only [assemble, h]⟩
    | some fr => exact .inl ⟨fr, rfl, by simp only [assemble, h]⟩

/-- An event always answers a next state. -/
theorem event_next (g : State → State) (s : State) : ∃ t, event g s = .next t := ⟨_, rfl⟩

/-- The step with a command in front is the command's meaning on the queue's rest. -/
theorem step_cons {s : State} {c : Instr} {rest : List Instr} (h : s.pending = c :: rest) :
    step s = exec c { s with pending := rest } := by
  simp [step, h]

/-- The step on an empty queue takes what a receive queue has at its head. -/
theorem step_takes {s : State} {c : Instr} (h : s.pending = []) (n : s.nextTaken = some c) : step s = exec c s := by
  simp [step, h, n]

/-- The step with nothing waiting anywhere passes one millisecond. -/
theorem step_idle {s : State} (h : s.pending = []) (n : s.nextTaken = none) :
    step s = .next (s.onControl fun k => { k with now := k.now + 1 }) := by
  simp [step, h, n]

end Sys2Proof.Machine
end

