-- ==== Sys2Proof/Laws/Table.lean ====
section
/-! SUPPORT. What each table operation does: one entry read after a write, and the numbers listed. -/

namespace Sys2Proof.Table

variable {α : Type}

@[simp] theorem look_nil (k : Nat) : Table.look ([] : Table α) k = none := rfl

theorem look_cons (j : Nat) (v : α) (t : Table α) (k : Nat) :
    Table.look ((j, v) :: t) k = if j = k then some v else Table.look t k := rfl

theorem look_mapped (t : Table α) (g : Nat → α → α) (k : Nat) :
    Table.look (t.map fun e => (e.1, g e.1 e.2)) k = (t.look k).map (g k) := by
  induction t with
  | nil => rfl
  | cons e t ih =>
    obtain ⟨j, v⟩ := e
    simp only [List.map_cons, look_cons, ih]
    split
    · next h => subst h; rfl
    · rfl

@[simp] theorem look_each (t : Table α) (g : Nat → α → α) (k : Nat) : (t.each g).look k = (t.look k).map (g k) :=
  look_mapped t g k

theorem upd_eq_each (t : Table α) (k : Nat) (g : α → α) : t.upd k g = t.each fun j v => if j = k then g v else v := by
  unfold Table.upd Table.each
  apply List.map_congr_left
  rintro ⟨j, v⟩ -
  by_cases h : j = k <;> simp [h]

theorem look_upd (t : Table α) (k j : Nat) (g : α → α) :
    (t.upd k g).look j = if j = k then (t.look j).map g else t.look j := by
  rw [upd_eq_each, look_each]
  by_cases h : j = k <;> simp [h]

@[simp] theorem look_upd_self (t : Table α) (k : Nat) (g : α → α) : (t.upd k g).look k = (t.look k).map g := by
  simp [look_upd]

@[simp] theorem look_upd_ne (t : Table α) {k j : Nat} (h : j ≠ k) (g : α → α) : (t.upd k g).look j = t.look j := by
  simp [look_upd, h]

@[simp] theorem keys_each (t : Table α) (g : Nat → α → α) : (t.each g).keys = t.keys := by
  simp [Table.keys, Table.each, Function.comp_def]

@[simp] theorem keys_upd (t : Table α) (k : Nat) (g : α → α) : (t.upd k g).keys = t.keys := by
  rw [upd_eq_each, keys_each]

theorem look_eq_none (t : Table α) (k : Nat) : t.look k = none ↔ k ∉ t.keys := by
  induction t with
  | nil => simp [Table.keys]
  | cons e t ih =>
    obtain ⟨j, v⟩ := e
    simp only [look_cons, Table.keys, List.map_cons, List.mem_cons, not_or] at ih ⊢
    by_cases h : j = k
    · simp [h]
    · simp [h, ih, Ne.symm h]

theorem look_isSome (t : Table α) (k : Nat) : (t.look k).isSome ↔ k ∈ t.keys := by
  have := look_eq_none t k
  cases h : t.look k <;> simp_all

theorem mem_keys_of_look {t : Table α} {k : Nat} {v : α} (h : t.look k = some v) : k ∈ t.keys :=
  (look_isSome t k).1 (by simp [h])

theorem mem_of_look {t : Table α} {k : Nat} {v : α} (h : t.look k = some v) : (k, v) ∈ t := by
  induction t with
  | nil => simp at h
  | cons e t ih =>
    obtain ⟨j, w⟩ := e
    rw [look_cons] at h
    split at h
    · next hj => subst hj; simp_all
    · exact List.mem_cons_of_mem _ (ih h)

/-- A written entry reads back, and every other entry reads as before, whatever the table. -/
theorem look_put (t : Table α) (k j : Nat) (v : α) : (t.put k v).look j = if j = k then some v else t.look j := by
  induction t with
  | nil =>
    by_cases h : j = k
    · simp [Table.put, look_cons, h]
    · simp [Table.put, look_cons, h, Ne.symm h]
  | cons e t ih =>
    obtain ⟨i, w⟩ := e
    unfold Table.put
    split
    · by_cases h : j = k
      · simp [look_cons, h]
      · simp [look_cons, h, Ne.symm h]
    · split
      · next h =>
        subst h
        by_cases h : j = k
        · simp [look_cons, h]
        · simp [look_cons, h, Ne.symm h]
      · next h =>
        simp only [look_cons, ih]
        by_cases hj : j = k
        · subst hj; simp [Ne.symm h]
        · simp [hj]

theorem keys_put_mem (t : Table α) (k j : Nat) (v : α) : j ∈ (t.put k v).keys ↔ j = k ∨ j ∈ t.keys := by
  rw [← look_isSome, ← look_isSome, look_put]
  by_cases h : j = k <;> simp [h]

theorem look_del (t : Table α) (k j : Nat) : (t.del k).look j = if j = k then none else t.look j := by
  induction t with
  | nil => simp [Table.del]
  | cons e t ih =>
    obtain ⟨i, w⟩ := e
    unfold Table.del at ih ⊢
    by_cases h : i = k
    · subst h
      by_cases hj : j = i
      · simp [hj] at ih ⊢; simpa [hj] using ih
      · simp [hj, look_cons, Ne.symm hj] at ih ⊢; simpa [hj] using ih
    · simp only [List.filter_cons, h, decide_false, Bool.not_false, if_true, look_cons, ih]
      by_cases hj : j = k
      · subst hj; simp [h]
      · simp [hj]

theorem keys_del (t : Table α) (k : Nat) : (t.del k).keys = t.keys.filter fun j => !decide (j = k) := by
  simp [Table.del, Table.keys, List.filter_map, Function.comp_def]

/-- The canonical form, as a proposition. -/
theorem wf_iff (bound : Nat) (t : Table α) :
    t.wf bound = true ↔ t.keys.Pairwise (· < ·) ∧ ∀ k ∈ t.keys, k < bound := by
  simp [Table.wf]

theorem wf_of_keys {β : Type} {bound : Nat} {t : Table α} {u : Table β} (h : u.keys = t.keys) :
    u.wf bound = t.wf bound := by
  simp only [Table.wf, h]

theorem keys_put_sorted (t : Table α) (k : Nat) (v : α) (h : t.keys.Pairwise (· < ·)) :
    (t.put k v).keys.Pairwise (· < ·) := by
  induction t with
  | nil => simp [Table.put, Table.keys]
  | cons e t ih =>
    obtain ⟨i, w⟩ := e
    have ht : (Table.keys ((i, w) :: t)) = i :: Table.keys t := rfl
    rw [ht, List.pairwise_cons] at h
    unfold Table.put
    split
    · next hk =>
      show (k :: i :: Table.keys t).Pairwise (· < ·)
      refine List.pairwise_cons.2 ⟨?_, List.pairwise_cons.2 h⟩
      intro j hj
      rcases List.mem_cons.1 hj with rfl | hj
      · exact hk
      · exact hk.trans (h.1 j hj)
    · split
      · next hk =>
        subst hk
        exact List.pairwise_cons.2 h
      · next hk hne =>
        show (i :: Table.keys (Table.put t k v)).Pairwise (· < ·)
        refine List.pairwise_cons.2 ⟨?_, ih h.2⟩
        intro j hj
        rcases (keys_put_mem t k j v).1 hj with rfl | hj
        · omega
        · exact h.1 j hj

/-- A write below the bound keeps the canonical form. -/
theorem wf_put {bound : Nat} {t : Table α} {k : Nat} {v : α} (h : t.wf bound = true) (hk : k < bound) :
    (t.put k v).wf bound = true := by
  rw [wf_iff] at h ⊢
  refine ⟨keys_put_sorted t k v h.1, fun j hj => ?_⟩
  rcases (keys_put_mem t k j v).1 hj with rfl | hj
  · exact hk
  · exact h.2 j hj

/-- A removal keeps the canonical form. -/
theorem wf_del {bound : Nat} {t : Table α} {k : Nat} (h : t.wf bound = true) : (t.del k).wf bound = true := by
  rw [wf_iff] at h ⊢
  rw [keys_del]
  exact ⟨h.1.filter _, fun j hj => h.2 j (List.mem_filter.1 hj).1⟩

/-- A change of entries keeps the canonical form. -/
theorem wf_each {bound : Nat} {t : Table α} {g : Nat → α → α} (h : t.wf bound = true) : (t.each g).wf bound = true := by
  rw [wf_of_keys (keys_each t g)]; exact h

theorem wf_upd {bound : Nat} {t : Table α} {k : Nat} {g : α → α} (h : t.wf bound = true) :
    (t.upd k g).wf bound = true := by
  rw [wf_of_keys (keys_upd t k g)]; exact h

end Sys2Proof.Table
end

