-- ==== Sys2Proof/Laws/Moves.lean ====
section
/-! SUPPORT. `Moved calm f g`: what no work on the floor changes, and the laws it keeps, record by record. With `calm`
the work changes no embargo count and no line between QUIET and an embargo. -/

namespace Sys2Proof.Laws

open Sys2Proof Sys2Proof.Machine Sys2Proof.Safety

/-- What stands in a machine's record, and the laws kept. -/
structure MachineMove (x y : Scrubber) : Prop where
  rank : y.rank = x.rank
  dock : y.dock = x.dock
  orders : OrdersKept x → OrdersKept y
  progress : ProgressKept x → ProgressKept y
  counts : CountsKept x → CountsKept y

/-- What stands in a cell. -/
structure CellMove (calm : Prop) (x y : Cell) : Prop where
  static : staticPart y = staticPart x
  embargo : calm → y.embargo = x.embargo
  washes : x.washes ≤ 255 → y.washes ≤ 255

/-- What stands in a lane. -/
structure LaneMove (x y : Lane) : Prop where
  cells : y.cells = x.cells

/-- What stands in a line. -/
structure LineMove (calm : Prop) (x y : Line) : Prop where
  cfg : y.cfg = x.cfg
  quiet : calm → (y.state = .quiet ↔ x.state = .quiet)
  counts : LineCountsKept x → LineCountsKept y

/-- What stands in a notice class. -/
structure NoticeMove (x y : Notice) : Prop where
  enabled : y.enabled = x.enabled
  kept : NoticeKept x → NoticeKept y

/-- Entry by entry, two tables list the same numbers with related records. -/
structure Related {α : Type} (r : α → α → Prop) (t u : Table α) : Prop where
  keys : u.keys = t.keys
  look : ∀ k x, t.look k = some x → ∃ y, u.look k = some y ∧ r x y

/-- NOTICE records alone have joined the tail of the transmitter's backlog. -/
def NoticesAdded (a b : List SupOut) : Prop := ∃ l, b = a ++ l ∧ ∀ o ∈ l, o.isReply = false

/-- The floor work that leads from `f` to `g`. -/
structure Moved (calm : Prop) (f g : Floor) : Prop where
  machines : Related MachineMove f.machines g.machines
  cells : Related (CellMove calm) f.cells g.cells
  lanes : Related LaneMove f.lanes g.lanes
  lines : Related (LineMove calm) f.lines g.lines
  notices : Related NoticeMove f.notices g.notices
  ceiling : g.ceiling = f.ceiling
  sup : NoticesAdded f.supTx g.supTx

variable {α : Type} {calm : Prop}

theorem MachineMove.refl (x : Scrubber) : MachineMove x x := ⟨rfl, rfl, id, id, id⟩

theorem MachineMove.trans {x y z : Scrubber} (h : MachineMove x y) (h' : MachineMove y z) : MachineMove x z :=
  ⟨h'.rank.trans h.rank, h'.dock.trans h.dock, h'.orders ∘ h.orders, h'.progress ∘ h.progress, h'.counts ∘ h.counts⟩

theorem CellMove.refl (x : Cell) : CellMove calm x x := ⟨rfl, fun _ => rfl, id⟩

theorem CellMove.trans {x y z : Cell} (h : CellMove calm x y) (h' : CellMove calm y z) : CellMove calm x z :=
  ⟨h'.static.trans h.static, fun c => (h'.embargo c).trans (h.embargo c), h'.washes ∘ h.washes⟩

theorem LaneMove.refl (x : Lane) : LaneMove x x := ⟨rfl⟩

theorem LaneMove.trans {x y z : Lane} (h : LaneMove x y) (h' : LaneMove y z) : LaneMove x z :=
  ⟨h'.cells.trans h.cells⟩

theorem LineMove.refl (x : Line) : LineMove calm x x := ⟨rfl, fun _ => Iff.rfl, id⟩

theorem LineMove.trans {x y z : Line} (h : LineMove calm x y) (h' : LineMove calm y z) : LineMove calm x z :=
  ⟨h'.cfg.trans h.cfg, fun c => (h'.quiet c).trans (h.quiet c), h'.counts ∘ h.counts⟩

theorem NoticeMove.refl (x : Notice) : NoticeMove x x := ⟨rfl, id⟩

theorem NoticeMove.trans {x y z : Notice} (h : NoticeMove x y) (h' : NoticeMove y z) : NoticeMove x z :=
  ⟨h'.enabled.trans h.enabled, h'.kept ∘ h.kept⟩

theorem Related.refl {r : α → α → Prop} (hr : ∀ x, r x x) (t : Table α) : Related r t t :=
  ⟨rfl, fun _ x h => ⟨x, h, hr x⟩⟩

theorem Related.trans {r : α → α → Prop} (hr : ∀ {x y z}, r x y → r y z → r x z) {t u v : Table α}
    (h : Related r t u) (h' : Related r u v) : Related r t v :=
  ⟨h'.keys.trans h.keys, fun k x hx => by
    obtain ⟨y, hy, hxy⟩ := h.look k x hx
    obtain ⟨z, hz, hyz⟩ := h'.look k y hy
    exact ⟨z, hz, hr hxy hyz⟩⟩

/-- A change of the entry that reads at `k`. -/
theorem Related.upd {r : α → α → Prop} (hr : ∀ x, r x x) (t : Table α) (k : Nat) (g : α → α)
    (h : ∀ x, t.look k = some x → r x (g x)) : Related r t (t.upd k g) :=
  ⟨Table.keys_upd t k g, fun j x hx => by
    rw [Table.look_upd]
    by_cases hj : j = k
    · subst hj; exact ⟨g x, by simp [hx], h x hx⟩
    · exact ⟨x, by simp [hx, hj], hr x⟩⟩

/-- A change of every entry. -/
theorem Related.each {r : α → α → Prop} (t : Table α) (g : Nat → α → α)
    (h : ∀ k x, t.look k = some x → r x (g k x)) : Related r t (t.each g) :=
  ⟨Table.keys_each t g, fun j x hx => ⟨g j x, by simp [hx], h j x hx⟩⟩

theorem Related.none {r : α → α → Prop} {t u : Table α} (h : Related r t u) {k : Nat} (hk : t.look k = none) :
    u.look k = none := by
  rw [Table.look_eq_none] at hk ⊢; rwa [h.keys]

/-- What reads after comes from what read before. -/
theorem Related.back {r : α → α → Prop} {t u : Table α} (h : Related r t u) {k : Nat} {y : α}
    (hy : u.look k = some y) : ∃ x, t.look k = some x ∧ r x y := by
  cases hx : t.look k with
  | none => rw [h.none hx] at hy; simp at hy
  | some x =>
    obtain ⟨y', hy', hr⟩ := h.look k x hx
    rw [hy] at hy'
    cases hy'
    exact ⟨x, rfl, hr⟩

theorem NoticesAdded.refl (a : List SupOut) : NoticesAdded a a := ⟨[], by simp⟩

theorem NoticesAdded.of_eq {a b : List SupOut} (h : b = a) : NoticesAdded a b := h ▸ .refl a

theorem NoticesAdded.trans {a b c : List SupOut} (h : NoticesAdded a b) (h' : NoticesAdded b c) : NoticesAdded a c := by
  obtain ⟨l, rfl, hl⟩ := h
  obtain ⟨l', rfl, hl'⟩ := h'
  exact ⟨l ++ l', by simp, fun o ho => (List.mem_append.1 ho).elim (hl o) (hl' o)⟩

namespace Moved

variable {f g h : Floor}

theorem refl (calm : Prop) (f : Floor) : Moved calm f f :=
  ⟨.refl .refl _, .refl .refl _, .refl .refl _, .refl .refl _, .refl .refl _, rfl, .refl _⟩

theorem trans (a : Moved calm f g) (b : Moved calm g h) : Moved calm f h :=
  ⟨a.machines.trans .trans b.machines, a.cells.trans .trans b.cells,
    a.lanes.trans .trans b.lanes, a.lines.trans .trans b.lines, a.notices.trans .trans b.notices,
    b.ceiling.trans a.ceiling, a.sup.trans b.sup⟩

/-- `trans`, the last piece of work first. -/
theorem after (b : Moved calm g h) (a : Moved calm f g) : Moved calm f h := a.trans b

/-- Calm work is floor work. -/
theorem weaken (a : Moved True f g) : Moved calm f g :=
  ⟨a.machines, ⟨a.cells.keys, fun k x hx => by
      obtain ⟨y, hy, m⟩ := a.cells.look k x hx
      exact ⟨y, hy, m.static, fun _ => m.embargo trivial, m.washes⟩⟩, a.lanes,
    ⟨a.lines.keys, fun k x hx => by
      obtain ⟨y, hy, m⟩ := a.lines.look k x hx
      exact ⟨y, hy, m.cfg, fun _ => m.quiet trivial, m.counts⟩⟩, a.notices, a.ceiling, a.sup⟩

/-- Work on machine records alone, beside the transmitters and counters. -/
theorem onMachines (h : Related MachineMove f.machines g.machines) (hc : g.cells = f.cells) (hl : g.lanes = f.lanes)
    (hi : g.lines = f.lines) (hn : g.notices = f.notices) (he : g.ceiling = f.ceiling)
    (hs : g.supTx = f.supTx) : Moved calm f g :=
  ⟨h, hc ▸ .refl .refl _, hl ▸ .refl .refl _, hi ▸ .refl .refl _, hn ▸ .refl .refl _, he, .of_eq hs⟩

/-- Work on cells alone. -/
theorem onCells (h : Related (CellMove calm) f.cells g.cells) (hm : g.machines = f.machines) (hl : g.lanes = f.lanes)
    (hi : g.lines = f.lines) (hn : g.notices = f.notices) (he : g.ceiling = f.ceiling)
    (hs : g.supTx = f.supTx) : Moved calm f g :=
  ⟨hm ▸ .refl .refl _, h, hl ▸ .refl .refl _, hi ▸ .refl .refl _, hn ▸ .refl .refl _, he, .of_eq hs⟩

/-- Work on lanes alone. -/
theorem onLanes (h : Related LaneMove f.lanes g.lanes) (hm : g.machines = f.machines)
    (hc : g.cells = f.cells) (hi : g.lines = f.lines) (hn : g.notices = f.notices) (he : g.ceiling = f.ceiling)
    (hs : g.supTx = f.supTx) :
    Moved calm f g :=
  ⟨hm ▸ .refl .refl _, hc ▸ .refl .refl _, h, hi ▸ .refl .refl _, hn ▸ .refl .refl _, he, .of_eq hs⟩

/-- Work on lines alone. -/
theorem onLines (h : Related (LineMove calm) f.lines g.lines) (hm : g.machines = f.machines) (hc : g.cells = f.cells)
    (hl : g.lanes = f.lanes) (hn : g.notices = f.notices) (he : g.ceiling = f.ceiling)
    (hs : g.supTx = f.supTx) : Moved calm f g :=
  ⟨hm ▸ .refl .refl _, hc ▸ .refl .refl _, hl ▸ .refl .refl _, h, hn ▸ .refl .refl _, he, .of_eq hs⟩

/-- Work on notices alone. -/
theorem onNotices (h : Related NoticeMove f.notices g.notices) (hm : g.machines = f.machines) (hc : g.cells = f.cells)
    (hl : g.lanes = f.lanes) (hi : g.lines = f.lines) (he : g.ceiling = f.ceiling)
    (hs : g.supTx = f.supTx) : Moved calm f g :=
  ⟨hm ▸ .refl .refl _, hc ▸ .refl .refl _, hl ▸ .refl .refl _, hi ▸ .refl .refl _, h, he, .of_eq hs⟩

/-- Work that touches only transmitters and link counters. -/
theorem onLinks (hm : g.machines = f.machines) (hc : g.cells = f.cells) (hl : g.lanes = f.lanes)
    (hi : g.lines = f.lines) (hn : g.notices = f.notices) (he : g.ceiling = f.ceiling)
    (hs : g.supTx = f.supTx) : Moved calm f g :=
  ⟨hm ▸ .refl .refl _, hc ▸ .refl .refl _, hl ▸ .refl .refl _, hi ▸ .refl .refl _, hn ▸ .refl .refl _, he, .of_eq hs⟩

/-- A run of pieces of floor work. -/
theorem foldl {β : Type} {op : Floor → β → Floor} (h : ∀ f b, Moved calm f (op f b)) (xs : List β) (f : Floor) :
    Moved calm f (xs.foldl op f) := by
  induction xs generalizing f with
  | nil => exact refl calm f
  | cons x xs ih => exact (h f x).trans (ih _)

end Moved

/-! ### Machine records -/

/-- A change that leaves orders, state, ahead list, progress timer and counts alone. -/
theorem MachineMove.quiet {x y : Scrubber} (rank : y.rank = x.rank) (dock : y.dock = x.dock) (q : y.queue = x.queue)
    (o : y.outstanding = x.outstanding) (s : y.state = x.state) (a : y.ahead = x.ahead) (p : y.progress = x.progress)
    (c1 : y.safeStops = x.safeStops) (c2 : y.earlyBeacons = x.earlyBeacons) (c3 : y.duplicates = x.duplicates) :
    MachineMove x y :=
  ⟨rank, dock, by unfold OrdersKept; rw [q, o, s]; exact id, by unfold ProgressKept; rw [p, s, a]; exact id,
    by unfold CountsKept; rw [c1, c2, c3]; exact id⟩

theorem progressKept_settle (x : Scrubber) (now limit : Nat) : ProgressKept (x.settle now limit) := by
  unfold ProgressKept Scrubber.settle
  split
  · next h => simp [h]
  · next h => simp [h]

/-- A settled change that enters LOST only with nothing in hand, and leaves orders and counts alone. -/
theorem MachineMove.settled {x y : Scrubber} (now limit : Nat) (rank : y.rank = x.rank) (dock : y.dock = x.dock)
    (orders : OrdersKept x → OrdersKept y) (counts : CountsKept x → CountsKept y) :
    MachineMove x (y.settle now limit) := by
  have e : ∀ (z : Scrubber), (z.settle now limit).rank = z.rank ∧ (z.settle now limit).dock = z.dock ∧
      (z.settle now limit).queue = z.queue ∧ (z.settle now limit).outstanding = z.outstanding ∧
      (z.settle now limit).state = z.state ∧ (z.settle now limit).safeStops = z.safeStops ∧
      (z.settle now limit).earlyBeacons = z.earlyBeacons ∧ (z.settle now limit).duplicates = z.duplicates := by
    intro z; unfold Scrubber.settle; split <;> exact ⟨rfl, rfl, rfl, rfl, rfl, rfl, rfl, rfl⟩
  obtain ⟨h1, h2, h3, h4, h5, h6, h7, h8⟩ := e y
  refine ⟨h1.trans rank, h2.trans dock, ?_, fun _ => progressKept_settle y now limit, ?_⟩
  · unfold OrdersKept at orders ⊢; rw [h3, h4, h5]; exact orders
  · unfold CountsKept at counts ⊢; rw [h6, h7, h8]; exact counts

/-- Orders stay kept when the record keeps its orders and does not become LOST. -/
theorem ordersKept_of {x y : Scrubber} (q : y.queue = x.queue) (o : y.outstanding = x.outstanding)
    (s : y.state = .lost → x.state = .lost) : OrdersKept x → OrdersKept y := by
  unfold OrdersKept; rw [q, o]; exact fun h => ⟨h.1, fun l => h.2 (s l)⟩

/-- A quiet change of machine `m`'s record is floor work. -/
theorem moved_modMachine (f : Floor) (m : Nat) (g : Scrubber → Scrubber)
    (h : ∀ x, f.machines.look m = some x → MachineMove x (g x)) : Moved calm f (f.modMachine m g) :=
  .onMachines (.upd .refl _ _ _ h) rfl rfl rfl rfl rfl rfl

/-- A settled change of machine `m`'s record is floor work. -/
theorem moved_modSettled (k : Control) (f : Floor) (m : Nat) (g : Scrubber → Scrubber)
    (h : ∀ x, f.machines.look m = some x →
      (g x).rank = x.rank ∧ (g x).dock = x.dock ∧ (OrdersKept x → OrdersKept (g x)) ∧ (CountsKept x → CountsKept (g x))) :
    Moved calm f (f.modSettled k m g) :=
  moved_modMachine f m _ fun x hx => by
    obtain ⟨h1, h2, h3, h4⟩ := h x hx
    exact MachineMove.settled _ _ h1 h2 h3 h4

/-- A settled change that leaves orders and counts alone and does not enter LOST. -/
theorem moved_modState (k : Control) (f : Floor) (m : Nat) (g : Scrubber → Scrubber)
    (h : ∀ x, (g x).rank = x.rank ∧ (g x).dock = x.dock ∧ (g x).queue = x.queue ∧ (g x).outstanding = x.outstanding ∧
      (g x).safeStops = x.safeStops ∧ (g x).earlyBeacons = x.earlyBeacons ∧ (g x).duplicates = x.duplicates ∧
      ((g x).state = .lost → x.state = .lost)) :
    Moved calm f (f.modSettled k m g) :=
  moved_modSettled k f m g fun x _ => by
    obtain ⟨h1, h2, h3, h4, h5, h6, h7, h8⟩ := h x
    exact ⟨h1, h2, ordersKept_of h3 h4 h8, by unfold CountsKept; rw [h5, h6, h7]; exact id⟩

end Sys2Proof.Laws
end

