-- ==== Sys2Proof/Laws/MovesOps.lean ====
section
/-! SUPPORT. Every shared operation over the floor is floor work: notices, orders, wait lists, occupancy, lanes,
releases, grants, offers, requests. -/

namespace Sys2Proof.Laws

open Sys2Proof Sys2Proof.Machine Sys2Proof.Safety

variable {calm : Prop}

/-! ### Notices -/

theorem noticeMove_sent (n : Notice) (h : n.pending = true) : NoticeMove n { n with sent := true } :=
  ⟨rfl, fun k => ⟨k.1, fun p => by simp [h] at p⟩⟩

theorem moved_sendIfDue (f : Floor) (number : Nat) : Moved calm f (f.sendIfDue number) := by
  unfold Floor.sendIfDue
  split
  · exact .refl _ _
  · next n hn =>
    split
    · next hd =>
      refine ⟨.refl .refl _, .refl .refl _, .refl .refl _, .refl .refl _,
        .upd NoticeMove.refl f.notices number (fun r => { r with sent := true }) fun x hx => ?_, rfl,
        ⟨[.notice number n], rfl, by simp [SupOut.isReply]⟩⟩
      rw [hn] at hx; cases hx
      exact noticeMove_sent n (by simp [Notice.due] at hd; exact hd.1.1.1)
    · exact .refl _ _

theorem moved_sendAllDue (f : Floor) : Moved calm f f.sendAllDue := .foldl moved_sendIfDue _ _

theorem noticeMove_withCause (n : Notice) (s : Option Nat) (r : Option NoticeReason) (c : Option Nat) :
    NoticeMove n (n.withCause s r c) := by
  unfold Notice.withCause
  split
  · next h =>
    refine ⟨rfl, fun k => ⟨fun _ => ?_, fun p => by simp [h] at p⟩⟩
    have := k.1 h
    simp only [bumpTo]
    split <;> omega
  · exact ⟨rfl, fun _ => ⟨fun _ => ⟨Nat.le_refl 1, (by decide : (1 : Nat) ≤ 255)⟩, fun p => by simp at p⟩⟩

theorem moved_raise (k : Control) (f : Floor) (cls : NoticeClass) (s : Option Nat) (r : Option NoticeReason) :
    Moved calm f (f.raise k cls s r) :=
  .after (moved_sendIfDue _ _) <|
    .onNotices (.upd NoticeMove.refl _ _ _ fun x _ => noticeMove_withCause x _ _ _) rfl rfl rfl rfl rfl rfl

/-! ### Orders -/

theorem order_kind_merge (q o : Order) (h : q.kind = o.kind) : (q.merge o).kind = q.kind := by
  cases q <;> cases o <;> simp_all [Order.merge, Order.kind]

theorem moved_deliver (f : Floor) (m : Nat) : Moved calm f (f.deliver m) := by
  unfold Floor.deliver
  split
  · exact .refl _ _
  · next x hx =>
    split
    · next o rest ho hq =>
      refine .onMachines (.upd MachineMove.refl f.machines m
        (fun y => { y with outstanding := some o, queue := rest }) fun y hy => ?_) rfl rfl rfl rfl rfl rfl
      rw [hx] at hy; cases hy
      refine ⟨rfl, rfl, fun k => ?_, id, id⟩
      have hq' : x.queue = o :: rest := hq
      refine ⟨?_, fun l => ?_⟩
      · have := k.1; rw [hq'] at this; exact (List.nodup_cons.1 this).2
      · have := (k.2 l).1; rw [hq'] at this; simp at this
    · exact .refl _ _

theorem moved_countDiscarded (f : Floor) : Moved calm f f.countDiscarded := .onLinks rfl rfl rfl rfl rfl rfl rfl

theorem moved_order (f : Floor) (m : Nat) (o : Order) : Moved calm f (f.order m o) := by
  unfold Floor.order
  split
  · exact moved_countDiscarded f
  · next x hx =>
    split
    · exact moved_countDiscarded f
    · next hl =>
      split
      · next q hq =>
        split
        · exact moved_countDiscarded f
        · refine (moved_modMachine f m _ fun y hy => ?_).trans (moved_deliver _ _)
          rw [hx] at hy; cases hy
          refine ⟨rfl, rfl, fun k => ⟨?_, fun l => absurd l hl⟩, id, id⟩
          have e : ((x.queue.map fun q' => if q'.kind = o.kind then q'.merge o else q').map Order.kind)
              = x.queue.map Order.kind := by
            rw [List.map_map]
            refine List.map_congr_left fun q' _ => ?_
            simp only [Function.comp]
            split
            · next h => exact order_kind_merge q' o h
            · rfl
          show (List.map Order.kind (x.queue.map fun q' => if q'.kind = o.kind then q'.merge o else q')).Nodup
          rw [e]; exact k.1
      · next hq =>
        refine (moved_modMachine f m _ fun y hy => ?_).trans (moved_deliver _ _)
        rw [hx] at hy; cases hy
        refine ⟨rfl, rfl, fun k => ⟨?_, fun l => absurd l hl⟩, id, id⟩
        show (List.map Order.kind (x.queue ++ [o])).Nodup
        rw [List.map_append, List.map_singleton]
        refine List.Nodup.append k.1 (by simp) ?_
        rw [List.disjoint_singleton]
        intro hm
        obtain ⟨q, hq1, hq2⟩ := List.mem_map.1 hm
        have := List.find?_eq_none.1 hq q hq1
        simp [hq2] at this

theorem moved_clearOutstanding (f : Floor) (m : Nat) : Moved calm f (f.clearOutstanding m) :=
  .onMachines (.upd MachineMove.refl f.machines m (fun x => { x with outstanding := none, replyWindow := none })
    fun _ _ => ⟨rfl, rfl, fun k => ⟨k.1, fun l => ⟨(k.2 l).1, rfl⟩⟩, id, id⟩)
    rfl rfl rfl rfl rfl rfl

theorem moved_flushOrders (f : Floor) (m : Nat) : Moved calm f (f.flushOrders m) :=
  .after (moved_modMachine _ _ _ fun _ _ => ⟨rfl, rfl, fun k => ⟨by simp, fun l => ⟨rfl, (k.2 l).2⟩⟩, id, id⟩)
    (moved_clearOutstanding f m)

/-! ### Wait lists -/

theorem moved_cellsUpd (f : Floor) (c : Nat) (g : Cell → Cell) (h : ∀ x, CellMove calm x (g x)) :
    Moved calm f { f with cells := f.cells.upd c g } :=
  .onCells (.upd .refl _ _ _ fun x _ => h x) rfl rfl rfl rfl rfl rfl

theorem moved_lanesUpd (f : Floor) (l : Nat) (g : Lane → Lane) (h : ∀ x, (g x).cells = x.cells) :
    Moved calm f { f with lanes := f.lanes.upd l g } :=
  .onLanes (.upd .refl _ _ _ fun x _ => ⟨h x⟩) rfl rfl rfl rfl rfl rfl

theorem moved_joinList (f : Floor) (m : Nat) (r : Bool) (t : Target) : Moved calm f (f.joinList m r t) := by
  cases t
  · exact moved_cellsUpd f _ _ fun x => ⟨rfl, fun _ => rfl, id⟩
  · exact moved_lanesUpd f _ _ fun x => rfl

theorem moved_quitList (f : Floor) (m : Nat) (t : Target) : Moved calm f (f.quitList m t) := by
  cases t
  · exact moved_cellsUpd f _ _ fun x => ⟨rfl, fun _ => rfl, id⟩
  · exact moved_lanesUpd f _ _ fun x => rfl

theorem moved_leaveWait (f : Floor) (m : Nat) : Moved calm f (f.leaveWait m) := by
  unfold Floor.leaveWait
  split
  · exact .refl _ _
  · exact .after (moved_modMachine _ _ _ fun _ _ => .quiet rfl rfl rfl rfl rfl rfl rfl rfl rfl rfl)
      (moved_quitList _ _ _)

theorem moved_leaveOrdinary (f : Floor) (m : Nat) : Moved calm f (f.leaveOrdinary m) := by
  unfold Floor.leaveOrdinary
  split
  · exact moved_leaveWait _ _
  · exact .refl _ _

/-! ### Occupancy -/

theorem lineMove_review (l : Line) (taken : Nat) : LineMove calm l (l.review taken) := by
  unfold Line.review
  simp only
  split
  · next h =>
    refine ⟨rfl, fun _ => ?_, id⟩
    rcases h.2 with h | h <;> simp [h]
  · exact ⟨rfl, fun _ => Iff.rfl, id⟩

theorem moved_reviewBand (f : Floor) (band : BitVec 16) : Moved calm f (f.reviewBand band) :=
  .onLines (.each f.lines (fun i l => if band.getLsbD i then l.review (f.bandTaken i) else l) fun i l _ => by
    split
    · exact lineMove_review _ _
    · exact .refl _) rfl rfl rfl rfl rfl rfl

theorem moved_setOcc (f : Floor) (c : Nat) (o : Occupancy) : Moved calm f (f.setOcc c o) := by
  unfold Floor.setOcc
  split
  · exact .refl _ _
  · simp only
    split
    · exact moved_cellsUpd f _ _ fun x => ⟨rfl, fun _ => rfl, id⟩
    · exact .after (moved_reviewBand _ _) (moved_cellsUpd f _ _ fun x => ⟨rfl, fun _ => rfl, id⟩)

/-! ### Lanes -/

theorem moved_enterLane (f : Floor) (m l : Nat) (d : Dir) : Moved calm f (f.enterLane m l d) := by
  unfold Floor.enterLane
  split
  · exact .refl _ _
  · split
    · exact .refl _ _
    · exact .after (g := f.modMachine m fun y => { y with laneDirs := y.laneDirs.put l d })
        (moved_lanesUpd _ l _ fun _ => rfl)
        (moved_modMachine f m _ fun _ _ => .quiet rfl rfl rfl rfl rfl rfl rfl rfl rfl rfl)

theorem moved_quitLane (f : Floor) (m l : Nat) : Moved calm f (f.quitLane m l) := by
  unfold Floor.quitLane
  split
  · exact .refl _ _
  · split
    · exact .after (g := f.modMachine m fun y => { y with laneDirs := y.laneDirs.del l })
        (moved_lanesUpd _ l _ fun _ => rfl)
        (moved_modMachine f m _ fun _ _ => .quiet rfl rfl rfl rfl rfl rfl rfl rfl rfl rfl)
    · exact .refl _ _

theorem moved_place (f : Floor) (m c : Nat) : Moved calm f (f.place m c) := by
  unfold Floor.place
  split
  · exact .refl _ _
  · split
    · exact .refl _ _
    · exact moved_enterLane _ _ _ _

/-! ### Releases -/

theorem moved_quitLaneOf (f : Floor) (m c : Nat) : Moved calm f (f.quitLaneOf m c) := by
  unfold Floor.quitLaneOf
  split
  · exact moved_quitLane _ _ _
  · exact .refl _ _

theorem moved_release (k : Control) (m : Nat) (f : Floor) (c : Nat) : Moved calm f (f.release k m c) :=
  .after (moved_quitLaneOf _ _ _) (moved_setOcc _ _ _)

theorem moved_releaseWet (k : Control) (m flow : Nat) (f : Floor) (c : Nat) :
    Moved calm f (f.releaseWet k m flow c) := by
  unfold Floor.releaseWet
  split
  · exact .refl _ _
  · have a := fun o => ((moved_setOcc (calm := calm) f c o).trans (moved_quitLaneOf _ m c)).trans
      (moved_cellsUpd _ c (fun y => { y with washes := bumpTo 255 y.washes, lastWashed := some k.clock })
        fun x => ⟨rfl, fun _ => rfl, fun h => by
          show bumpTo 255 x.washes ≤ 255
          simp only [bumpTo]; split <;> omega⟩)
    simp only
    split
    · exact (a _).trans (moved_raise _ _ _ _ _)
    · exact a _

theorem moved_releaseBehind (k : Control) (m flow : Nat) (f : Floor) (c : Nat) :
    Moved calm f (f.releaseBehind k m flow c) := by
  unfold Floor.releaseBehind
  split
  · exact moved_release _ _ _ _
  · exact moved_releaseWet _ _ _ _ _

/-! ### Grants, waits and offers -/

theorem moved_takeSpan (m : Nat) (f : Floor) (p : Nat) (cs : List Nat) : Moved calm f (Floor.takeSpan m f p cs) := by
  induction cs generalizing f p with
  | nil => exact .refl _ _
  | cons c rest ih =>
    unfold Floor.takeSpan
    simp only
    refine Moved.trans ?_ (ih _ _)
    split
    · exact .after (moved_enterLane _ _ _ _) (moved_setOcc _ _ _)
    · exact moved_setOcc _ _ _

theorem moved_grant (k : Control) (f : Floor) (m : Nat) (x : Scrubber) (span : List Nat) :
    Moved calm f (f.grant k m x span) :=
  .after (moved_order _ _ _) <|
    .after (moved_modState k _ m _ fun _ => ⟨rfl, rfl, rfl, rfl, rfl, rfl, rfl, nofun⟩) <| moved_takeSpan m f _ _

theorem resting_ne_lost (x : Scrubber) : x.resting ≠ .lost := by
  unfold Scrubber.resting; split <;> simp

theorem moved_beginWait (k : Control) (f : Floor) (m count : Nat) (t : Target) (r : WaitReason) :
    Moved calm f (f.beginWait k m count t r) := by
  unfold Floor.beginWait
  split
  · exact .after (moved_raise _ _ _ _ _) <| .after (moved_order _ _ _) <| moved_modState k f m _ fun x =>
      ⟨rfl, rfl, rfl, rfl, rfl, rfl, rfl, fun h => absurd h (resting_ne_lost x)⟩
  · exact .after (moved_order _ _ _) <|
      .after (moved_modState k _ m _ fun _ => ⟨rfl, rfl, rfl, rfl, rfl, rfl, rfl, nofun⟩) <| moved_joinList f m false t

theorem moved_grantRefuge (f : Floor) (m c : Nat) : Moved calm f (f.grantRefuge m c) :=
  .after (moved_order _ _ _) <|
    .after (moved_modMachine _ _ _ fun _ _ => .quiet rfl rfl rfl rfl rfl rfl rfl rfl rfl rfl) <|
      .after (moved_place _ _ _) (moved_setOcc _ _ _)

theorem moved_examine (k : Control) (f : Floor) (m : Nat) : Moved calm f (f.examine k m).1 := by
  unfold Floor.examine
  cases hx : f.machines.look m with
  | none => exact .refl _ _
  | some x =>
    cases hr : x.request with
    | none => simp only [hr]; exact .refl _ _
    | some p =>
      cases p with
      | refuge c => simp only [hr]; exact .refl _ _
      | ordinary count t =>
        simp only [hr]
        cases (f.leaveWait m).firstFail k m x.lastHeld (x.span count) [] with
        | none => exact .after (moved_grant _ _ _ _ _) (moved_leaveWait _ _)
        | some e =>
          obtain ⟨target, reason⟩ := e
          have h := (moved_leaveWait (calm := calm) f m).trans (moved_beginWait k _ m count target reason)
          simpa only using h

theorem moved_examineAll (k : Control) (f : Floor) (ms : List Nat) : Moved calm f (f.examineAll k ms) := by
  induction ms generalizing f with
  | nil => exact .refl _ _
  | cons m rest ih =>
    unfold Floor.examineAll
    have := moved_examine (calm := calm) k f m
    split
    · next h => rw [h] at this; exact this
    · next h => rw [h] at this; exact this.trans (ih _)

theorem moved_offerTo (k : Control) (f : Floor) (c : Nat) (x : Cell) : Moved calm f (f.offerTo k c x) := by
  unfold Floor.offerTo
  split
  · exact .after (moved_grantRefuge _ _ _) (moved_leaveWait _ _)
  · split
    · exact .refl _ _
    · exact moved_examineAll _ _ _

theorem moved_offerCell (k : Control) (f : Floor) (c : Nat) : Moved calm f (f.offerCell k c) := by
  unfold Floor.offerCell
  split
  · exact .refl _ _
  · split
    · exact moved_offerTo _ _ _ _
    · exact .refl _ _

theorem moved_offerLane (k : Control) (f : Floor) (l : Nat) : Moved calm f (f.offerLane k l) := by
  unfold Floor.offerLane
  split
  · exact .refl _ _
  · split
    · exact moved_examineAll _ _ _
    · exact .refl _ _

theorem moved_offerCells (k : Control) (f : Floor) (cs : List Nat) : Moved calm f (f.offerCells k cs) :=
  .foldl (moved_offerCell k) _ _

theorem moved_offerLanes (k : Control) (f : Floor) (cs : List Nat) : Moved calm f (f.offerLanes k cs) :=
  .foldl (moved_offerLane k) _ _

theorem moved_offerReleased (k : Control) (f : Floor) (cs : List Nat) : Moved calm f (f.offerReleased k cs) :=
  .after (moved_offerLanes _ _ _) (moved_offerCells _ _ _)

theorem moved_offerEverything (k : Control) (f : Floor) : Moved calm f (f.offerEverything k) :=
  .after (.foldl (moved_offerLane k) _ _) (moved_offerCells _ _ _)

/-! ### Requests -/

theorem moved_dropWait (k : Control) (f : Floor) (m : Nat) : Moved calm f (f.dropWait k m) := by
  unfold Floor.dropWait
  split
  · split
    · exact .after (moved_modState k _ m _ fun x =>
        ⟨rfl, rfl, rfl, rfl, rfl, rfl, rfl, fun h => absurd h (resting_ne_lost x)⟩) (moved_leaveWait _ _)
    · exact .refl _ _
  · exact .refl _ _

theorem moved_decideRequest (k : Control) (f : Floor) (m count : Nat) : Moved calm f (f.decideRequest k m count) := by
  unfold Floor.decideRequest
  split
  · exact .refl _ _
  · split
    · exact moved_order _ _ _
    · split
      · exact moved_grant _ _ _ _ _
      · exact moved_beginWait _ _ _ _ _ _

theorem moved_request (k : Control) (f : Floor) (m count : Nat) : Moved calm f (f.request k m count) :=
  .after (moved_decideRequest _ _ _ _) (moved_dropWait _ _ _)

/-! ### Legs and arrivals -/

theorem moved_promote (k : Control) (f : Floor) (m : Nat) (leg : Leg) (tell : Bool) :
    Moved calm f (f.promote k m leg tell) := by
  unfold Floor.promote
  have a : Moved calm f (_) := (moved_modMachine f m (fun x => { x with active := some ⟨leg, 0⟩, staged := none })
    fun _ _ => .quiet rfl rfl rfl rfl rfl rfl rfl rfl rfl rfl).trans
      (moved_order _ m (.leg leg.tag leg.flow leg.homing leg.cells))
  simp only
  split
  · exact a.trans (moved_raise _ _ _ _ _)
  · exact a

theorem toIdle_lost (s : MState) : s.toIdle = .lost → s = .lost := by
  cases s <;> simp [MState.toIdle]

theorem moved_endLeg (k : Control) (f : Floor) (m : Nat) (r : NoticeReason) : Moved calm f (f.endLeg k m r) :=
  .after (moved_raise _ _ _ _ _) <|
    moved_modState k f m _ fun x => ⟨rfl, rfl, rfl, rfl, rfl, rfl, rfl, toIdle_lost x.state⟩

theorem moved_decidePromotion (k : Control) (f : Floor) (m : Nat) : Moved calm f (f.decidePromotion k m) := by
  unfold Floor.decidePromotion
  split
  · exact .refl _ _
  · split
    · exact moved_endLeg _ _ _ _
    · split
      · exact moved_promote _ _ _ _ _
      · exact moved_endLeg _ _ _ _

theorem moved_attempt (k : Control) (tell : Bool) (f : Floor) (m : Nat) : Moved calm f (f.attempt k tell m) := by
  unfold Floor.attempt
  split
  · exact .refl _ _
  · split
    · exact .refl _ _
    · split
      · exact moved_promote _ _ _ _ _
      · exact .refl _ _

theorem moved_completeLeg (k : Control) (f : Floor) (m : Nat) : Moved calm f (f.completeLeg k m) := by
  unfold Floor.completeLeg
  have a : Moved calm f (f.modMachine m fun x => { x with safeStops := 0, active := none }) :=
    moved_modMachine f m _ fun x _ => ⟨rfl, rfl, id, id, fun h => ⟨Nat.zero_le _, h.2⟩⟩
  simp only
  split
  · exact .after (moved_modState k _ m _ fun x => ⟨rfl, rfl, rfl, rfl, rfl, rfl, rfl, toIdle_lost x.state⟩) a
  · exact a.trans (moved_decidePromotion _ _ _)

theorem arrivedAt_lost (x : Scrubber) (j : Nat) : (x.arrivedAt j).state = .lost → x.state = .lost := by
  unfold Scrubber.arrivedAt
  simp only
  split <;> simp

theorem moved_acceptArrival (k : Control) (f : Floor) (m : Nat) (x : Scrubber) (j : Nat) :
    Moved calm f (f.acceptArrival k m x j) := by
  unfold Floor.acceptArrival
  have a : Moved calm f (_) := (Moved.foldl (calm := calm)
    (moved_releaseBehind k m ((x.active.map fun a => a.leg.flow).getD 0)) (x.leftBehind j) f).trans
    (moved_modState k _ m (fun y => y.arrivedAt j) fun y =>
      ⟨rfl, rfl, rfl, rfl, rfl, rfl, rfl, arrivedAt_lost y j⟩)
  simp only
  split
  · exact a.trans (moved_completeLeg _ _ _)
  · exact a

end Sys2Proof.Laws
end

