-- ==== Sys2Proof/Laws/MovesEvents.lean ====
section
/-! SUPPORT. Every event's work on the floor is floor work: halts, loss, records, withdrawals, restores, timers, lines. -/

namespace Sys2Proof.Laws

open Sys2Proof Sys2Proof.Machine Sys2Proof.Safety

variable {calm : Prop}

/-! ### Halts -/

theorem moved_quiet (f : Floor) (m : Nat) (g : Scrubber → Scrubber) (h : ∀ x, MachineMove x (g x)) :
    Moved calm f (f.modMachine m g) := moved_modMachine f m g fun x _ => h x

theorem moved_addHalt (k : Control) (r : HaltReason) (f : Floor) (m : Nat) : Moved calm f (f.addHalt k r m) := by
  unfold Floor.addHalt
  split
  · exact .refl _ _
  · next x _ =>
    split
    · exact .refl _ _
    · have a : Moved calm f (f.modMachine m fun y => { y with halts := y.halts.write true r }) :=
        moved_quiet f m _ fun _ => .quiet rfl rfl rfl rfl rfl rfl rfl rfl rfl rfl
      simp only
      split
      · have b : Moved calm f (if x.state = .lost ∨ x.state = .stoodDown
            then f.modMachine m fun y => { y with halts := y.halts.write true r }
            else ((f.modMachine m fun y => { y with halts := y.halts.write true r }).leaveOrdinary m).modSettled k m
              fun y => { y with state := .halted }) := by
          split
          · exact a
          · exact .after (moved_modState k _ m _ fun _ => ⟨rfl, rfl, rfl, rfl, rfl, rfl, rfl, nofun⟩)
              (.after (moved_leaveOrdinary _ _) a)
        split
        · exact b
        · exact .after (moved_order _ _ _) b
      · exact a

theorem resumed_ne_lost (x : Scrubber) : x.resumed ≠ .lost := by
  unfold Scrubber.resumed; split <;> simp

theorem moved_removeHalt (k : Control) (r : HaltReason) (f : Floor) (m : Nat) : Moved calm f (f.removeHalt k r m) := by
  unfold Floor.removeHalt
  split
  · exact .refl _ _
  · split
    · have a : Moved calm f (f.modMachine m fun y => { y with halts := y.halts.write false r }) :=
        moved_quiet f m _ fun _ => .quiet rfl rfl rfl rfl rfl rfl rfl rfl rfl rfl
      simp only
      split
      · split
        · exact a
        · have b := a.trans (moved_order _ m (.motion true))
          split
          · exact b
          · exact .after (moved_attempt _ _ _ _) <| .after (moved_modState k _ m _ fun x =>
              ⟨rfl, rfl, rfl, rfl, rfl, rfl, rfl, fun h => absurd h (resumed_ne_lost x)⟩) b
      · exact a
    · exact .refl _ _

/-! ### Loss -/

theorem moved_blockCells (f : Floor) (m : Nat) : Moved calm f (f.blockCells m) :=
  .foldl (fun g c => moved_setOcc g c _) _ _

theorem moved_lose (k : Control) (f : Floor) (m : Nat) (r : NoticeReason) : Moved calm f (f.lose k m r) := by
  unfold Floor.lose
  refine .after (moved_raise _ _ _ _ _) <| .after (moved_modSettled k _ m _ fun x hx => ?_) <|
    .after (moved_flushOrders _ _) <| .after (moved_leaveWait _ _) (moved_blockCells _ _)
  refine ⟨rfl, rfl, fun _ => ?_, id⟩
  have e : x.queue = [] ∧ x.outstanding = none := by
    simp only [Floor.flushOrders, Floor.modMachine_machines, Floor.clearOutstanding_machines, Table.look_upd_self] at hx
    cases hy : ((f.blockCells m).leaveWait m).machines.look m with
    | none => simp [hy] at hx
    | some y => simp [hy] at hx; subst hx; exact ⟨rfl, rfl⟩
  exact ⟨by simp [e.1], fun _ => e⟩

theorem moved_countMiss (k : Control) (f : Floor) (m : Nat) (r : NoticeReason) : Moved calm f (f.countMiss k m r) := by
  unfold Floor.countMiss
  have a : Moved calm f (f.modMachine m fun x => { x with misses := x.misses + 1 }) :=
    moved_quiet f m _ fun _ => .quiet rfl rfl rfl rfl rfl rfl rfl rfl rfl rfl
  simp only
  split
  · exact a
  · split
    · exact .after (moved_lose _ _ _ _) a
    · exact a

/-! ### Supplies, stand-down, arrivals -/

theorem moved_recordSupplies (k : Control) (f : Floor) (m b w : Nat) : Moved calm f (f.recordSupplies k m b w) := by
  unfold Floor.recordSupplies
  split
  · exact .refl _ _
  · next x _ =>
    have a : Moved calm f (f.modMachine m fun y =>
        { y with battery := some b, water := some w, low := lowFlag k.timing b w x.low }) :=
      moved_quiet f m _ fun _ => .quiet rfl rfl rfl rfl rfl rfl rfl rfl rfl rfl
    simp only
    split
    · exact .after (moved_attempt _ _ _ _) a
    · exact a

theorem moved_standDown (k : Control) (f : Floor) (m code : Nat) : Moved calm f (f.standDown k m code) :=
  .after (moved_raise _ _ _ _ _) <|
    .after (moved_modState k _ m _ fun _ => ⟨rfl, rfl, rfl, rfl, rfl, rfl, rfl, nofun⟩) (moved_leaveOrdinary _ _)

theorem moved_unexpected (k : Control) (f : Floor) (m c : Nat) : Moved calm f (f.unexpected k m c) :=
  .after (moved_raise _ _ _ _ _) <| .after (moved_addHalt _ _ _ _) <|
    moved_quiet f m _ fun _ => .quiet rfl rfl rfl rfl rfl rfl rfl rfl rfl rfl

theorem moved_refugeArrival (k : Control) (f : Floor) (m : Nat) (x : Scrubber) (r : Nat) :
    Moved calm f (f.refugeArrival k m x r) :=
  .after (moved_offerReleased _ _ _) <|
    .after (moved_quiet _ m _ fun _ => .quiet rfl rfl rfl rfl rfl rfl rfl rfl rfl rfl) (moved_release _ _ _ _)

theorem bump_le (n : Nat) (h : n ≤ 65535) : bump n ≤ 65535 := by
  unfold bump Config.counterLast; split <;> omega

theorem moved_arrival (k : Control) (f : Floor) (m c : Nat) : Moved calm f (f.arrival k m c) := by
  unfold Floor.arrival
  split
  · exact .refl _ _
  · split
    · exact .after (moved_offerReleased _ _ _) (moved_acceptArrival _ _ _ _ _)
    · split
      · exact moved_refugeArrival _ _ _ _ _
      · split
        · exact moved_quiet f m _ fun x => ⟨rfl, rfl, id, id, fun h => ⟨h.1, h.2.1, bump_le _ h.2.2⟩⟩
        · exact moved_unexpected _ _ _ _

theorem moved_arrive (k : Control) (f : Floor) (m c count : Nat) : Moved calm f (f.arrive k m c count) := by
  unfold Floor.arrive
  simp only
  split
  · exact moved_arrival _ _ _ _
  · exact .after (moved_request _ _ _ _) (moved_arrival _ _ _ _)

/-! ### Withdrawals -/

theorem moved_startWithdrawal (k : Control) (cancel : Bool) (refuge : Option Nat) (f : Floor) (m : Nat) :
    Moved calm f (f.startWithdrawal k cancel refuge m) := by
  unfold Floor.startWithdrawal
  split
  · exact .refl _ _
  · next x _ =>
    split
    · exact .refl _ _
    · have a : Moved calm f (if x.state = .waiting
          then (f.leaveWait m).modSettled k m fun y => { y with state := .running } else f) := by
        split
        · exact .after (moved_modState k _ m _ fun _ => ⟨rfl, rfl, rfl, rfl, rfl, rfl, rfl, nofun⟩) (moved_leaveWait _ _)
        · exact .refl _ _
      simp only
      exact .after (moved_order _ _ _) <|
        .after (moved_quiet _ m _ fun _ => .quiet rfl rfl rfl rfl rfl rfl rfl rfl rfl rfl) a

theorem moved_settleWithdrawal (f : Floor) (m : Nat) : Moved calm f (f.settleWithdrawal m) :=
  moved_quiet f m _ fun _ => .quiet rfl rfl rfl rfl rfl rfl rfl rfl rfl rfl

theorem moved_waitForRefuge (k : Control) (f : Floor) (m r : Nat) (o : Occupancy) :
    Moved calm f (f.waitForRefuge k m r o) := by
  unfold Floor.waitForRefuge
  have a : Moved calm f ((f.joinList m true (.cell r)).modMachine m fun x => { x with request := some (.refuge r) }) :=
    .after (moved_quiet _ m _ fun _ => .quiet rfl rfl rfl rfl rfl rfl rfl rfl rfl rfl) (moved_joinList _ _ _ _)
  simp only
  split
  · exact .after (moved_order _ _ _) (.after (moved_raise _ _ _ _ _) a)
  · exact .after (moved_order _ _ _) a

theorem moved_settleRefuge (k : Control) (f : Floor) (m r : Nat) (kept : Bool) :
    Moved calm f (f.settleRefuge k m r kept) := by
  unfold Floor.settleRefuge
  split
  · exact .refl _ _
  · split
    · exact .after (moved_order _ _ _) (moved_quiet f m _ fun _ => .quiet rfl rfl rfl rfl rfl rfl rfl rfl rfl rfl)
    · split
      · exact moved_grantRefuge _ _ _
      · exact moved_waitForRefuge _ _ _ _ _

theorem moved_discardLegs (k : Control) (f : Floor) (m : Nat) (r : NoticeReason) :
    Moved calm f (f.discardLegs k m r) := by
  unfold Floor.discardLegs
  split
  · exact .refl _ _
  · have a : Moved calm f (f.modSettled k m fun y =>
        { y with
          active := none
          staged := none
          state := y.state.toIdle
          withdrawal := y.withdrawal.map fun w => { w with deferred := false } }) :=
      moved_modState k f m _ fun x => ⟨rfl, rfl, rfl, rfl, rfl, rfl, rfl, toIdle_lost x.state⟩
    simp only
    split
    · exact .after (moved_raise _ _ _ _ _) a
    · exact a

theorem afterKeep_lost (x : Scrubber) : x.afterKeep = .lost → x.state = .lost := by
  unfold Scrubber.afterKeep; split
  · split <;> simp
  · exact id

theorem moved_settleLegs (k : Control) (f : Floor) (m : Nat) (cancel embargoed : Bool) :
    Moved calm f (f.settleLegs k m cancel embargoed) := by
  unfold Floor.settleLegs
  split
  · exact .after (moved_settleWithdrawal _ _) (moved_discardLegs _ _ _ _)
  · have a : Moved calm f ((f.modSettled k m fun x => { x with state := x.afterKeep }).settleWithdrawal m) :=
      .after (moved_settleWithdrawal _ _) <|
        moved_modState k f m _ fun x => ⟨rfl, rfl, rfl, rfl, rfl, rfl, rfl, afterKeep_lost x⟩
    simp only
    split
    · exact .after (moved_decidePromotion _ _ _) a
    · exact a

theorem moved_stopAt (k : Control) (f : Floor) (m : Nat) (x : Scrubber) (cancel : Bool) (s : Nat) (j : Option Nat) :
    Moved calm f (f.stopAt k m x cancel s j) := by
  unfold Floor.stopAt
  have a : Moved calm f (match j with | some j => f.acceptArrival k m x j | none => f) := by
    cases j
    · exact .refl _ _
    · exact moved_acceptArrival _ _ _ _ _
  have b : ∀ g, Moved calm f g → ∀ (cs : List Nat) c e, Moved calm f
      (((cs.foldl (Floor.release k m) g).modSettled k m fun y => { y with ahead := [] }).settleLegs k m c e) :=
    fun g hg cs c e => .after (moved_settleLegs _ _ _ _ _) <|
      .after (moved_modState k _ m _ fun _ => ⟨rfl, rfl, rfl, rfl, rfl, rfl, rfl, id⟩) <|
        .after (.foldl (fun h c => moved_release k m h c) _ _) hg
  simp only
  refine .after (moved_offerReleased _ _ _) ?_
  split
  · exact .after (moved_settleRefuge _ _ _ _ _) (b _ a _ _ _)
  · exact b _ a _ _ _

theorem moved_ackWithdraw (k : Control) (f : Floor) (m : Nat) (cancel : Bool) (s : Nat) :
    Moved calm f (f.ackWithdraw k m cancel s) := by
  unfold Floor.ackWithdraw
  split
  · exact .refl _ _
  · split
    · exact moved_stopAt _ _ _ _ _ _ _
    · split
      · exact moved_stopAt _ _ _ _ _ _ _
      · exact .after (moved_settleWithdrawal _ _) (moved_unexpected _ _ _ _)

theorem moved_decline (k : Control) (f : Floor) (m tag : Nat) (cells : List Nat) :
    Moved calm f (f.decline k m tag cells) := by
  unfold Floor.decline
  split
  · exact .refl _ _
  · next x _ =>
    split
    · have a : Moved calm f (((f.modMachine m fun y => { y with active := none }).raise k .legAborted (some m)
          (some .declined)).modMachine m fun y => { y with staged := none }) :=
        .after (moved_quiet _ m _ fun _ => .quiet rfl rfl rfl rfl rfl rfl rfl rfl rfl rfl) <|
          .after (moved_raise _ _ _ _ _) <|
            moved_quiet f m _ fun _ => .quiet rfl rfl rfl rfl rfl rfl rfl rfl rfl rfl
      simp only
      split
      · exact .after (moved_modState k _ m _ fun y => ⟨rfl, rfl, rfl, rfl, rfl, rfl, rfl, toIdle_lost y.state⟩)
          (.after (moved_leaveOrdinary _ _) a)
      · exact .after (moved_startWithdrawal _ _ _ _ _) a
    · exact .refl _ _

theorem moved_ackEffects (k : Control) (f : Floor) (m stop : Nat) (declined : Bool) (o : Order) :
    Moved calm f (f.ackEffects k m stop declined o) := by
  cases o
  · simp only [Floor.ackEffects]
    split
    · exact moved_decline _ _ _ _ _
    · exact .refl _ _
  · exact .refl _ _
  · exact .refl _ _
  · exact moved_ackWithdraw _ _ _ _ _

theorem moved_ack (k : Control) (f : Floor) (m kind stop : Nat) (declined : Bool) :
    Moved calm f (f.ack k m kind stop declined) := by
  unfold Floor.ack
  split
  · split
    · exact .after (moved_deliver _ _) (.after (moved_clearOutstanding _ _) (moved_ackEffects _ _ _ _ _ _))
    · exact .onLinks rfl rfl rfl rfl rfl rfl rfl
  · exact .onLinks rfl rfl rfl rfl rfl rfl rfl

/-! ### The remaining records, timers and commands on machines -/

theorem moved_beacon (k : Control) (f : Floor) (m b w : Nat) : Moved calm f (f.beacon k m b w) := by
  unfold Floor.beacon
  split
  · exact .refl _ _
  · split
    · exact moved_recordSupplies _ _ _ _ _
    · split
      · exact .after (moved_recordSupplies _ _ _ _ _) <|
          moved_quiet f m _ fun _ => .quiet rfl rfl rfl rfl rfl rfl rfl rfl rfl rfl
      · exact .after (moved_countMiss _ _ _ _) <|
          moved_quiet f m _ fun x => ⟨rfl, rfl, id, id, fun h => ⟨h.1, bump_le _ h.2.1, h.2.2⟩⟩

theorem moved_faultStop (k : Control) (f : Floor) (m code : Nat) : Moved calm f (f.faultStop k m code) := by
  unfold Floor.faultStop
  split
  · exact .refl _ _
  · next x _ =>
    have a : Moved calm f (f.modMachine m fun y =>
        { y with safeStops := bumpTo 15 x.safeStops, lastFault := some code }) :=
      moved_modMachine f m _ fun y hy => by
        next hx => rw [hx] at hy; cases hy
                   refine ⟨rfl, rfl, id, id, fun h => ⟨?_, h.2⟩⟩
                   show bumpTo 15 x.safeStops ≤ 15
                   have := h.1
                   unfold bumpTo; split <;> omega
    simp only
    split
    · exact a
    · split
      · exact .after (moved_standDown _ _ _ _) a
      · exact .after (moved_raise _ _ _ _ _) (.after (moved_addHalt _ _ _ _) a)

theorem moved_restart (k : Control) (f : Floor) (m : Nat) : Moved calm f (f.restart k m) := by
  unfold Floor.restart
  split
  · exact .refl _ _
  · split
    · exact .refl _ _
    · exact moved_removeHalt _ _ _ _

theorem moved_frameSent (k : Control) (f : Floor) (m : Nat) : Moved calm f (f.frameSent k m) := by
  unfold Floor.frameSent
  split
  · exact .after (moved_quiet _ m _ fun _ => .quiet rfl rfl rfl rfl rfl rfl rfl rfl rfl rfl)
      (.onLinks rfl rfl rfl rfl rfl rfl rfl)
  · exact .refl _ _

theorem moved_replyExpiry (k : Control) (f : Floor) (m : Nat) : Moved calm f (f.replyExpiry k m) := by
  unfold Floor.replyExpiry
  have a : Moved calm f (f.modMachine m fun x => { x with replyWindow := none }) :=
    moved_quiet f m _ fun _ => .quiet rfl rfl rfl rfl rfl rfl rfl rfl rfl rfl
  have b : Moved calm f (if k.mode = .standby then f.modMachine m fun x => { x with replyWindow := none }
      else (f.modMachine m fun x => { x with replyWindow := none }).countMiss k m .reply) := by
    split
    · exact a
    · exact .after (moved_countMiss _ _ _ _) a
  simp only
  split
  · exact b.trans (.onLinks rfl rfl rfl rfl rfl rfl rfl)
  · exact b

theorem moved_beaconExpiry (k : Control) (f : Floor) (m : Nat) : Moved calm f (f.beaconExpiry k m) :=
  .after (moved_countMiss _ _ _ _) <| moved_quiet f m _ fun _ => .quiet rfl rfl rfl rfl rfl rfl rfl rfl rfl rfl

theorem moved_stall (k : Control) (f : Floor) (m : Nat) : Moved calm f (f.stall k m) :=
  .after (moved_raise _ _ _ _ _) <|
    .after (moved_modState k _ m _ fun _ => ⟨rfl, rfl, rfl, rfl, rfl, rfl, rfl, nofun⟩) (moved_leaveOrdinary _ _)

theorem moved_freeCell (k : Control) (f : Floor) (c : Nat) : Moved calm f (f.freeCell k c) :=
  .after (moved_offerCell _ _ _) (moved_setOcc _ _ _)

theorem moved_attemptAll (k : Control) (f : Floor) : Moved calm f (f.attemptAll k) := .foldl (moved_attempt k true) _ _

theorem moved_loadLeg (k : Control) (f : Floor) (m : Nat) (leg : Leg) : Moved calm f (f.loadLeg k m leg) :=
  .after (moved_attempt _ _ _ _) <| moved_quiet f m _ fun _ => .quiet rfl rfl rfl rfl rfl rfl rfl rfl rfl rfl

theorem moved_cancelLeg (k : Control) (f : Floor) (m : Nat) (w : Bool) : Moved calm f (f.cancelLeg k m w) := by
  unfold Floor.cancelLeg
  have a : Moved calm f (f.modMachine m fun x => { x with staged := none }) :=
    moved_quiet f m _ fun _ => .quiet rfl rfl rfl rfl rfl rfl rfl rfl rfl rfl
  simp only
  split
  · exact .after (moved_startWithdrawal _ _ _ _ _) a
  · exact a

theorem restored_ne_lost (x : Scrubber) (k : Control) (c : Nat) : (x.restored k c).state ≠ .lost := by
  unfold Scrubber.restored; simp only; split <;> simp

theorem moved_restore (k : Control) (f : Floor) (m c : Nat) : Moved calm f (f.restore k m c) := by
  unfold Floor.restore
  have a : ∀ g : Floor, Moved calm g ((g.modSettled k m fun x => x.restored k c).removeHalt k .position m) := fun g =>
    .after (moved_removeHalt _ _ _ _) <| moved_modSettled k g m _ fun x _ =>
      ⟨rfl, rfl, fun h => ⟨h.1, fun l => absurd l (restored_ne_lost x k c)⟩, fun h => ⟨Nat.zero_le _, h.2⟩⟩
  have b : Moved calm f (_) := ((moved_leaveWait f m).trans
    (.foldl (fun h d => moved_release k m h d) (f.otherCells m c) _)).trans <|
      (moved_setOcc _ c (.held m)).trans <| (moved_place _ m c).trans (a _)
  simp only
  refine .after (moved_offerReleased _ _ _) ?_
  split
  · split
    · exact b
    · exact .after (moved_startWithdrawal _ _ _ _ _) b
  · exact b

/-! ### Lines -/

theorem lineMove_hold {x y : Line} (h1 : y.cfg = x.cfg) (h2 : y.state = x.state) (h3 : y.runts = x.runts)
    (h4 : y.stucks = x.stucks) (h5 : y.breaches = x.breaches) : LineMove calm x y :=
  ⟨h1, fun _ => by rw [h2], by unfold LineCountsKept; rw [h3, h4, h5]; exact id⟩

theorem moved_modLine (f : Floor) (i : Nat) (g : Line → Line) (h : ∀ x, LineMove calm x (g x)) :
    Moved calm f (f.modLine i g) :=
  .onLines (.upd .refl f.lines i g fun x _ => h x) rfl rfl rfl rfl rfl rfl

theorem lineMove_bumps {x y : Line} (h1 : y.cfg = x.cfg) (h2 : y.state = x.state)
    (h3 : LineCountsKept x → LineCountsKept y) : LineMove calm x y := ⟨h1, fun _ => by rw [h2], h3⟩

theorem moved_withdrawRaised (k : Control) (raised : List Nat) (f : Floor) (m : Nat) :
    Moved calm f (f.withdrawRaised k raised m) := by
  unfold Floor.withdrawRaised
  split
  · exact .refl _ _
  · simp only
    split
    · exact .refl _ _
    · split
      · exact moved_startWithdrawal _ _ _ _ _
      · exact moved_startWithdrawal _ _ _ _ _

/-- R145 step 1: the counts of line `i`'s band rise. -/
theorem moved_raiseCounts (f : Floor) (i : Nat) :
    Moved False f { f with cells := f.cells.each fun _ c => if c.inBand i then { c with embargo := c.embargo + 1 } else c } :=
  .onCells (.each f.cells (fun _ c => if c.inBand i then { c with embargo := c.embargo + 1 } else c) fun _ x _ => by
    split
    · exact ⟨rfl, nofun, id⟩
    · exact .refl _) rfl rfl rfl rfl rfl rfl

/-- R146 step 1: the counts of line `i`'s band fall. -/
theorem moved_lowerCounts (f : Floor) (i : Nat) :
    Moved False f { f with cells := f.cells.each fun _ c => if c.inBand i then { c with embargo := c.embargo - 1 } else c } :=
  .onCells (.each f.cells (fun _ c => if c.inBand i then { c with embargo := c.embargo - 1 } else c) fun _ x _ => by
    split
    · exact ⟨rfl, nofun, id⟩
    · exact .refl _) rfl rfl rfl rfl rfl rfl

theorem moved_startEmbargo (k : Control) (f : Floor) (i : Nat) : Moved False f (f.startEmbargo k i) :=
  .after (moved_modLine _ i _ fun _ => ⟨rfl, nofun, id⟩) <|
    .after (.foldl (moved_withdrawRaised k _) _ _) (moved_raiseCounts f i)

theorem moved_endEmbargo (k : Control) (f : Floor) (i : Nat) : Moved False f (f.endEmbargo k i) :=
  .after (moved_offerCells _ _ _) <|
    .after (moved_modLine _ i _ fun _ => ⟨rfl, nofun, id⟩) (moved_lowerCounts f i)

theorem moved_startIfQuiet (k : Control) (f : Floor) (i : Nat) : Moved False f (f.startIfQuiet k i) := by
  unfold Floor.startIfQuiet
  split
  · exact .refl _ _
  · split
    · exact moved_startEmbargo _ _ _
    · exact .refl _ _

theorem moved_endIfInForce (k : Control) (f : Floor) (i : Nat) : Moved False f (f.endIfInForce k i) := by
  unfold Floor.endIfInForce
  split
  · exact .refl _ _
  · split
    · exact .refl _ _
    · exact moved_endEmbargo _ _ _

theorem moved_startHold (k : Control) (f : Floor) (i : Nat) : Moved calm f (f.startHold k i) :=
  moved_modLine f i _ fun _ => lineMove_hold rfl rfl rfl rfl rfl

theorem moved_activeEdge (k : Control) (f : Floor) (i : Nat) : Moved False f (f.activeEdge k i) := by
  unfold Floor.activeEdge
  split
  · exact .refl _ _
  · split
    · exact moved_modLine f i _ fun _ => lineMove_hold rfl rfl rfl rfl rfl
    · split
      · exact moved_startEmbargo _ _ _
      · exact moved_modLine f i _ fun _ => lineMove_hold rfl rfl rfl rfl rfl

theorem moved_inactiveEdge (k : Control) (f : Floor) (i : Nat) : Moved False f (f.inactiveEdge k i) := by
  unfold Floor.inactiveEdge
  split
  · exact .refl _ _
  · split
    · have a : Moved False f (f.modLine i fun r => { r with pulse := none, stuck := false }) :=
        moved_modLine f i _ fun _ => lineMove_hold rfl rfl rfl rfl rfl
      simp only
      split
      · exact .after (moved_startHold _ _ _) a
      · split
        · exact .after (moved_raise _ _ _ _ _) <| .after (moved_modLine _ i _ fun _ =>
            lineMove_bumps rfl rfl fun h => ⟨bump_le _ h.1, h.2⟩) a
        · exact .after (moved_startIfQuiet _ _ _) (.after (moved_startHold _ _ _) a)
    · split
      · exact moved_endIfInForce _ _ _
      · exact moved_startHold _ _ _

theorem moved_stuckLine (k : Control) (f : Floor) (i : Nat) : Moved False f (f.stuckLine k i) :=
  .after (moved_raise _ _ _ _ _) <|
    .after (moved_modLine _ i _ fun _ => lineMove_bumps rfl rfl fun h => ⟨h.1, bump_le _ h.2.1, h.2.2⟩) <|
      .after (moved_startIfQuiet _ _ _) <| moved_modLine f i _ fun _ => lineMove_hold rfl rfl rfl rfl rfl

theorem moved_countPulse (k : Control) (f : Floor) (i : Nat) : Moved False f (f.countPulse k i) := by
  unfold Floor.countPulse
  split
  · exact .refl _ _
  · split
    · exact .refl _ _
    · split
      · exact moved_stuckLine _ _ _
      · exact moved_modLine f i _ fun _ => lineMove_hold rfl rfl rfl rfl rfl

theorem moved_sampleLine (k : Control) (f : Floor) (i : Nat) (flow : Bool) : Moved False f (f.sampleLine k i flow) := by
  unfold Floor.sampleLine
  split
  · exact .refl _ _
  · next l _ =>
    split
    · have a : Moved False f (f.modLine i fun r =>
          { r with
            counter := (filterSample l.cfg.threshold l.counter l.level (l.cfg.rawActive flow)).1
            level := (filterSample l.cfg.threshold l.counter l.level (l.cfg.rawActive flow)).2 }) :=
        moved_modLine f i _ fun _ => lineMove_hold rfl rfl rfl rfl rfl
      simp only
      split
      · split
        · exact .after (moved_countPulse _ _ _) a
        · exact a
      · split
        · exact .after (moved_activeEdge _ _ _) a
        · exact .after (moved_inactiveEdge _ _ _) a
    · exact .refl _ _

theorem moved_activeEdgeEvent (k : Control) (f : Floor) (i : Nat) : Moved False f (f.activeEdgeEvent k i) := by
  unfold Floor.activeEdgeEvent
  split
  · exact .refl _ _
  · split
    · exact .after (moved_activeEdge _ _ _) <| moved_modLine f i _ fun _ => lineMove_hold rfl rfl rfl rfl rfl
    · exact .refl _ _

theorem moved_inactiveEdgeEvent (k : Control) (f : Floor) (i : Nat) : Moved False f (f.inactiveEdgeEvent k i) := by
  unfold Floor.inactiveEdgeEvent
  split
  · exact .refl _ _
  · split
    · exact .after (moved_inactiveEdge _ _ _) <| moved_modLine f i _ fun _ => lineMove_hold rfl rfl rfl rfl rfl
    · exact .refl _ _

theorem moved_stuckEvent (k : Control) (f : Floor) (i : Nat) (flow : Bool) : Moved False f (f.stuckEvent k i flow) := by
  unfold Floor.stuckEvent
  split
  · exact .refl _ _
  · split
    · simp only
      split
      · exact .after (moved_stuckLine _ _ _) <| moved_modLine f i _ fun _ => lineMove_hold rfl rfl rfl rfl rfl
      · exact .refl _ _
    · exact .refl _ _

theorem moved_holdExpiry (k : Control) (f : Floor) (i : Nat) : Moved False f (f.holdExpiry k i) :=
  .after (moved_endIfInForce _ _ _) <| moved_modLine f i _ fun _ => lineMove_hold rfl rfl rfl rfl rfl

end Sys2Proof.Laws
end

