-- ==== Sys2Proof/Laws/Worked.lean ====
section
/-! SUPPORT. `Worked s t`: what every command and event leaves alone, but the setting-up commands, NOTICE CLEAR, MACHINE
WITHDRAW and the three module events: floor work, the backlog aside, and the settings, queues and tables' numbers. -/

namespace Sys2Proof.Laws

open Sys2Proof Sys2Proof.Machine Sys2Proof.Safety

/-- The floor without the supervisory transmitter's backlog. -/
def unheard (f : Floor) : Floor := { f with supTx := [] }

theorem Moved.unheard {calm : Prop} {f g : Floor} (h : Moved calm f g) : Moved calm (unheard f) (unheard g) :=
  ⟨h.machines, h.cells, h.lanes, h.lines, h.notices, h.ceiling, .refl _⟩

/-- What stands between a state and the state that a command or event leaves. -/
structure Worked (s t : State) : Prop where
  floor : Moved False (unheard s.floor) (unheard t.floor)
  pending : t.pending = s.pending
  powered : t.powered = s.powered
  held : t.resetHeld = s.resetHeld
  timing : t.control.timing = s.control.timing
  drying : t.control.drying = s.control.drying
  marks : t.marks.keys = s.marks.keys
  zones : t.control.zones.keys = s.control.zones.keys
  queues : QueuesKept s → QueuesKept t

namespace Worked

theorem refl (s : State) : Worked s s := ⟨.refl _ _, rfl, rfl, rfl, rfl, rfl, rfl, rfl, id⟩

theorem trans {s t u : State} (a : Worked s t) (b : Worked t u) : Worked s u :=
  ⟨a.floor.trans b.floor, b.pending.trans a.pending, b.powered.trans a.powered, b.held.trans a.held, b.timing.trans a.timing,
   b.drying.trans a.drying, b.marks.trans a.marks, b.zones.trans a.zones, b.queues ∘ a.queues⟩

theorem after {s t u : State} (b : Worked t u) (a : Worked s t) : Worked s u := a.trans b

theorem onFloor (s : State) (g) (h : ∀ k f, Moved False f (g k f)) : Worked s (s.onFloor g) :=
  ⟨(h _ _).unheard, rfl, rfl, rfl, rfl, rfl, rfl, rfl, id⟩

theorem onControl (s : State) (g : Control → Control) (h1 : (g s.control).timing = s.control.timing)
  (h2 : (g s.control).drying = s.control.drying) (h3 : (g s.control).zones.keys = s.control.zones.keys) :
  Worked s (s.onControl g) := ⟨.refl _ _, rfl, rfl, rfl, h1, h2, rfl, h3, id⟩
end Worked

theorem worked_closeZone (z s) : Worked s (State.closeZone z s) := .onControl _ _ rfl rfl (by simp)

theorem worked_openZone (z s) : Worked s (State.openZone z s) := by
  unfold State.openZone
  split
  · exact .refl _
  · exact .after (.onFloor _ _ fun k f => moved_offerCells _ _ _) (.onControl _ _ rfl rfl (by simp))

theorem worked_enterRecall (r o s) : Worked s (State.enterRecall r o s) := by
  unfold State.enterRecall
  simp only
  split
  · exact .onControl _ _ rfl rfl rfl
  · exact .after (.onFloor _ _ fun k f => moved_raise _ _ _ _ _) (.onControl _ _ rfl rfl rfl)

theorem worked_takeAction (i a s) : Worked s (State.takeAction i a s) := by
  cases a <;> simp only [State.takeAction]
  · exact worked_closeZone _ _
  · exact worked_openZone _ _
  · split
    · exact worked_enterRecall _ _ _
    · exact .refl _
  · exact .refl _

theorem worked_marks (s : State) (m : Table Mark) (h : m.keys = s.marks.keys) : Worked s {s with marks := m} :=
  ⟨.refl _ _, rfl, rfl, rfl, rfl, rfl, h, rfl, id⟩

theorem worked_evac (s : State) (m) : Worked s {s with evac := m} :=
  ⟨.refl _ _, rfl, rfl, rfl, rfl, rfl, rfl, rfl, id⟩

theorem worked_fireMark (s i) : Worked s (State.fireMark s i) := by
  unfold State.fireMark
  split
  · exact .after (worked_takeAction _ _ _) (.after (.onFloor _ _ fun k f => moved_raise _ _ _ _ _) (worked_marks _ _ (by simp)))
  · exact .refl _

theorem worked_fireMarks (is s) : Worked s (State.fireMarks is s) := by
  unfold State.fireMarks
  induction is generalizing s with
  | nil => exact .refl _
  | cons i is ih => exact (worked_fireMark s i).trans (ih _)

theorem worked_advance (s t) : Worked s (State.advanceTo s t) := .onControl _ _ rfl rfl rfl

theorem worked_clockTick (s) : Worked s (State.clockTick s) := by
  unfold State.clockTick
  split
  · simp only
    have a := (worked_advance s s.control.clockDue).trans (.onControl _ (fun k => { k with clockDue := k.clockDue + 1000 }) rfl rfl rfl)
    split
    · exact .after (worked_fireMarks _ _) (.after (.onControl _ _ rfl rfl rfl) a)
    · exact a
  · exact .refl _

theorem worked_enterEvac (m s) : Worked s (State.enterEvacuation m s) :=
  .after (.onFloor _ _ fun k _ => .foldl (fun f b => moved_addHalt k .evac f b) _ _) (.onControl _ _ rfl rfl rfl)

theorem worked_evacEdge (a s) : Worked s (State.evacEdge a s) := by
  have h : ∀ r, Worked s (s.onFloor (fun k f => f.raise k .evacuation none r)) := fun r => .onFloor s _ fun k f => moved_raise _ _ _ _ _
  cases a
  · exact h _
  · unfold State.evacEdge
    simp only [if_true]
    split
    · exact .after (worked_enterEvac _ _) (h _)
    · exact .after (worked_enterEvac _ _) (h _)
    · exact h _

theorem worked_sampleEvac (a s) : Worked s (State.sampleEvac a s) := by
  unfold State.sampleEvac
  simp only
  split
  · exact worked_evac _ _
  · exact .after (worked_evacEdge _ _) (worked_evac _ _)

theorem worked_evacEdgeEvent (a s) : Worked s (State.evacEdgeEvent a s) := by
  unfold State.evacEdgeEvent
  split
  · exact .refl _
  · exact .after (worked_evacEdge _ _) (worked_evac _ _)

theorem moved_beginNight (k f) : Moved False f (Floor.beginNight k f) := by
  unfold Floor.beginNight
  refine .after (g := {f with cells := f.cells.each fun _ c => { c with washes := 0, lastWashed := none }}) ?_ ?_
  · exact .onMachines (.each f.machines (fun _ x => x.beginNight k) fun i x _ => .quiet rfl rfl rfl rfl rfl rfl rfl rfl rfl rfl) rfl rfl rfl rfl rfl rfl
  · exact .onCells (.each f.cells (fun _ c => { c with washes := 0, lastWashed := none }) fun i x _ => ⟨rfl, fun _ => rfl, fun _ => Nat.zero_le _⟩) rfl rfl rfl rfl rfl rfl

theorem worked_beginNight (s) : Worked s (State.beginNight s) := by
  unfold State.beginNight
  simp only
  refine .after (worked_fireMarks _ _) ?_
  refine .after (.onControl _ _ rfl rfl rfl) ?_
  refine .after (.onFloor _ _ moved_beginNight) ?_
  refine .after (worked_marks _ _ (by simp)) ?_
  refine .after (.onFloor _ _ fun k f => moved_offerCells _ _ _) ?_
  refine .after (.onControl _ _ rfl rfl (by simp [Control.openZones])) ?_
  exact .onControl _ _ rfl rfl rfl

theorem worked_resumeAll (m s) : Worked s (State.resumeAll m s) := by
  unfold State.resumeAll
  simp only
  refine .after (.onFloor _ _ fun k f => moved_offerEverything _ _) ?_
  refine .after (.onFloor _ _ fun k f => .foldl (fun f b => moved_removeHalt k .evac f b) _ _) ?_
  split
  · exact .after (.onControl _ _ rfl rfl rfl) (.onControl _ _ rfl rfl rfl)
  · exact (.onControl _ _ rfl rfl rfl)

theorem worked_endNight (s) : Worked s (State.endNight s) := by
  unfold State.endNight
  refine .after (.onControl _ _ rfl rfl rfl) (.onFloor _ (fun _ f => { f with machines := f.machines.each fun _ x => x.endNight }) fun _ f => ?_)
  exact .onMachines (.each f.machines (fun _ x => x.endNight) fun _ _ _ => .quiet rfl rfl rfl rfl rfl rfl rfl rfl rfl rfl) rfl rfl rfl rfl rfl rfl

theorem worked_expire (d g s) (h : ∀ k f, Moved False f (g k f)) : Worked s (State.expire d g s) := by
  unfold State.expire
  split
  · exact .after (.onFloor _ _ h) (worked_advance _ _)
  · exact .refl _

theorem worked_takeFrame (s : State) : Worked s s.takeFrame :=
  ⟨.refl _ _, rfl, rfl, rfl, rfl, rfl, rfl, rfl, fun h => ⟨by simpa using (Nat.sub_le _ 1).trans h.1, h.2⟩⟩

theorem worked_reply (k r st d s) : Worked s (State.reply k r st d s) := ⟨.refl _ _, rfl, rfl, rfl, rfl, rfl, rfl, rfl, id⟩

theorem worked_supCount (s g) : Worked s (State.supCount s g) := ⟨.refl _ _, rfl, rfl, rfl, rfl, rfl, rfl, rfl, id⟩

theorem worked_fleetCount (s g) : Worked s (State.fleetCount s g) := ⟨.onLinks rfl rfl rfl rfl rfl rfl rfl, rfl, rfl, rfl, rfl, rfl, rfl, rfl, id⟩

theorem worked_takeRecord (s : State) : Worked s s.takeRecord :=
  ⟨.refl _ _, rfl, rfl, rfl, rfl, rfl, rfl, rfl, fun h => ⟨h.1, by simpa using (Nat.sub_le _ 1).trans h.2⟩⟩

theorem worked_supAbandon (s : State) : Worked s s.supAbandon := ⟨.refl _ _, rfl, rfl, rfl, rfl, rfl, rfl, rfl, id⟩

theorem worked_fleetAbandon (s : State) : Worked s s.fleetAbandon := ⟨.refl _ _, rfl, rfl, rfl, rfl, rfl, rfl, rfl, id⟩

/-- What is taken at its turn, and otherwise leaves all as it stands. -/
theorem worked_turn {b : Bool} {s t u : State} (h : Worked s u)
    (e : (Host.Outcome.next (if b then u else s) : Machine.Result) = .next t) : Worked s t := by
  cases e; split
  · exact h
  · exact .refl _

theorem worked_event {g s t} (h : Worked s (g s)) (e : event g s = .next t) : Worked s t := worked_turn h e

theorem worked_command {kind ref body act s t} (h : ∀ s, Worked s (act s).1) (e : command kind ref body act s = .next t) : Worked s t :=
  worked_turn ((worked_takeFrame s).trans ((h s.takeFrame).trans (worked_reply _ _ _ _ _))) e

theorem worked_badLength (s) : Worked s (badLength s).1 := worked_supCount s fun c => { c with lengths := bump c.lengths }

theorem worked_refuse (a b s) : Worked s (refuse a b s).1 := .refl _

theorem worked_withoutBody {body act} (h : ∀ s, Worked s (act s).1) (s) : Worked s (withoutBody body act s).1 := by
  unfold withoutBody; split
  · exact h _
  · exact worked_badLength _

theorem worked_record {kind slot body p v s t} (hp : ∀ a, p = some a → ∀ s, Worked s (a s)) (hv : ∀ a, v = some a → ∀ s, Worked s (a s))
    (e : machineRecord kind slot body p v s = .next t) : Worked s t := by
  refine worked_turn (Worked.after ?_ (worked_takeRecord _)) e
  simp only
  split
  · exact worked_fleetCount _ _
  · next act =>
    split
    · exact worked_fleetCount _ _
    · split
      · exact worked_fleetCount _ _
      · split
        · next f => exact hv f rfl _
        · split
          · exact .onFloor _ _ fun k f => moved_quiet f _ _ fun _ => .quiet rfl rfl rfl rfl rfl rfl rfl rfl rfl rfl
          · exact hp act rfl _

theorem worked_onFloor (g : Control → Floor → Floor) (h : ∀ k f, Moved False f (g k f)) : ∀ a, (some fun s => State.onFloor s g) = some a → ∀ s, Worked s (a s) := by
  intro a e s; cases e; exact .onFloor _ _ h

theorem worked_modeAnswer {s u : State} {st} (h : Worked s u) : Worked s (u.modeAnswer st).1 := h

theorem worked_nightRecall (s) : Worked s (State.nightRecall s).1 := by
  unfold State.nightRecall; split
  · exact .refl _
  · exact worked_modeAnswer (worked_enterRecall _ _ _)
  · exact worked_modeAnswer (.onControl _ _ rfl rfl rfl)
  · exact .refl _
  · exact .refl _

theorem worked_nightContinue (s) : Worked s (State.nightContinue s).1 := by
  unfold State.nightContinue; split
  · exact .refl _
  · exact worked_modeAnswer (.after (.onFloor _ _ moved_attemptAll) (.after (.onControl _ _ rfl rfl rfl) (.onControl _ _ rfl rfl rfl)))
  · exact worked_modeAnswer (.after (.onFloor _ _ moved_attemptAll) (.onControl _ _ rfl rfl rfl))
  · exact .refl _
  · exact .refl _

theorem worked_clockSet (v s) : Worked s (State.clockSet v s).1 := by
  unfold State.clockSet; split
  · exact .refl _
  · split
    · exact .refl _
    · exact .after (worked_fireMarks _ _) (.onControl _ _ rfl rfl rfl)

theorem worked_zone (z g) (h : ∀ s, Worked s (g s)) (s) : Worked s (State.zoneCommand z g s).1 := by
  unfold State.zoneCommand; split
  · exact .refl _
  · split
    · exact h _
    · exact .refl _

theorem worked_supFrame (fr s) : Worked s (State.supFrame fr s) := by
  unfold State.supFrame
  split
  · have a : Worked s { s with ports := { s.ports with hostFlashes := s.ports.hostFlashes + 1 } } :=
      ⟨.refl _ _, rfl, rfl, rfl, rfl, rfl, rfl, rfl, id⟩
    have b : ∀ s : State, Worked s (if s.control.silence.isSome then s.onControl Control.startSilence else s) := by
      intro s; split
      · exact .onControl _ _ rfl rfl rfl
      · exact .refl _
    have c : ∀ s : State, Worked s (if s.ports.cmdQueue.length < Config.commandQueueRoom then
        { s with ports := { s.ports with cmdQueue := s.ports.cmdQueue ++ [⟨fr.kind, fr.ref, fr.body⟩] } }
      else s.supCount fun c => { c with overruns := bump c.overruns }) := by
      intro s; split
      · next h => exact ⟨.refl _ _, rfl, rfl, rfl, rfl, rfl, rfl, rfl, fun q => ⟨by simp [Config.commandQueueRoom] at *; omega, q.2⟩⟩
      · exact worked_supCount _ _
    exact (a.trans (b _)).trans (c _)
  · exact worked_supCount _ _

theorem worked_fleetFrame (fr s) : Worked s (State.fleetFrame fr s) := by
  unfold State.fleetFrame
  split
  · have a : Worked s { s with ports := { s.ports with fleetFlashes := s.ports.fleetFlashes + 1 } } :=
      ⟨.refl _ _, rfl, rfl, rfl, rfl, rfl, rfl, rfl, id⟩
    have c : ∀ s : State, Worked s (if s.ports.fleetQueue.length < Config.fleetQueueRoom then
        { s with ports := { s.ports with fleetQueue := s.ports.fleetQueue ++ [⟨fr.kind, fr.ref, fr.body⟩] } }
      else s.fleetCount fun c => { c with overruns := bump c.overruns }) := by
      intro s; split
      · next h => exact ⟨.refl _ _, rfl, rfl, rfl, rfl, rfl, rfl, rfl, fun q => ⟨q.1, by simp [Config.fleetQueueRoom] at *; omega⟩⟩
      · exact worked_fleetCount _ _
    exact a.trans (c _)
  · exact worked_fleetCount _ _

theorem worked_supByte (s : State) (b : Byte) : Worked s (s.supByte b) := by
  have a : ∀ held, Worked s { s with ports := { s.ports with supReading := held } } :=
    fun _ => ⟨.refl _ _, rfl, rfl, rfl, rfl, rfl, rfl, rfl, id⟩
  unfold State.supByte
  simp only
  split
  · exact a _
  · exact (a _).trans (worked_supCount _ _)
  · exact (a _).trans (worked_supFrame _ _)

theorem worked_fleetByte (s : State) (b : Byte) : Worked s (s.fleetByte b) := by
  have a : ∀ held, Worked s { s with ports := { s.ports with fleetReading := held } } :=
    fun _ => ⟨.refl _ _, rfl, rfl, rfl, rfl, rfl, rfl, rfl, id⟩
  unfold State.fleetByte
  simp only
  split
  · exact a _
  · exact (a _).trans (worked_fleetCount _ _)
  · exact (a _).trans (worked_fleetFrame _ _)

theorem worked_supBytes (bytes s) : Worked s (State.supBytes bytes s) := by
  unfold State.supBytes
  induction bytes generalizing s with
  | nil => exact .refl _
  | cons b bytes ih => exact (worked_supByte s b).trans (ih _)

theorem worked_fleetBytes (bytes s) : Worked s (State.fleetBytes bytes s) := by
  unfold State.fleetBytes
  induction bytes generalizing s with
  | nil => exact .refl _
  | cons b bytes ih => exact (worked_fleetByte s b).trans (ih _)

theorem moved_breach (k f i) : Moved False f (Floor.breach k f i) :=
  .after (moved_raise _ _ _ _ _) <| moved_modLine _ _ _ fun _ => ⟨rfl, nofun, fun h => ⟨h.1, h.2.1, bump_le _ h.2.2⟩⟩

/-- The meaning of every command but the setting-up ones, NOTICE CLEAR, MACHINE WITHDRAW and the module's own events. -/
theorem exec_worked (c : Instr) (s t : State) (e : exec c s = .next t) :
    (∃ r b, c = .cellDefine r b ∨ c = .laneDefine r b ∨ c = .lineSetup r b ∨ c = .timingSetup r b ∨ c = .machineEnroll r b ∨ c = .fleetReset r b ∨ c = .dryingSetup r b ∨ c = .environmentSet r b ∨ c = .noticeControl r b ∨ c = .noticeClear r b ∨ c = .machineWithdraw r b)
    ∨ c = .fullReset ∨ c = .resetInputHeld ∨ c = .powerLoss ∨ Worked s t := by
  cases c
  case cellDefine r b => exact .inl ⟨r, b, by simp⟩
  case laneDefine r b => exact .inl ⟨r, b, by simp⟩
  case lineSetup r b => exact .inl ⟨r, b, by simp⟩
  case timingSetup r b => exact .inl ⟨r, b, by simp⟩
  case machineEnroll r b => exact .inl ⟨r, b, by simp⟩
  case fleetReset r b => exact .inl ⟨r, b, by simp⟩
  case dryingSetup r b => exact .inl ⟨r, b, by simp⟩
  case environmentSet r b => exact .inl ⟨r, b, by simp⟩
  case noticeControl r b => exact .inl ⟨r, b, by simp⟩
  case noticeClear r b => exact .inl ⟨r, b, by simp⟩
  case machineWithdraw r b => exact .inl ⟨r, b, by simp⟩
  case fullReset => exact .inr (.inl rfl)
  case resetInputHeld => exact .inr (.inr (.inl rfl))
  case powerLoss => exact .inr (.inr (.inr (.inl rfl)))
  all_goals refine .inr (.inr (.inr (.inr ?_)))
  case nightBegin r b =>
    refine worked_command (worked_withoutBody fun s => ?_) e
    split
    · exact .refl _
    · split
      · exact .refl _
      · split
        · exact .refl _
        · exact worked_beginNight _
  case markSet r b =>
    refine worked_command (fun s => ?_) e
    split
    · next i t2 t1 t0 a z =>
      unfold State.markSet
      cases readAction a z with
      | none => exact .refl _
      | some a =>
        simp only
        split
        · unfold State.writeMark
          split
          · exact worked_marks _ _ (by simp)
          · exact .refl _
        · exact .refl _
    · exact worked_badLength _
  case markClear r b =>
    refine worked_command (fun s => ?_) e
    split
    · unfold State.writeMark
      split
      · exact worked_marks _ _ (by simp)
      · exact .refl _
    · exact worked_badLength _
  case noticeRead r b => exact worked_command (worked_withoutBody fun s => .refl _) e
  case cellRead r b =>
    refine worked_command (fun s => ?_) e
    split
    · unfold State.cellRead
      split
      · exact .refl _
      · split <;> exact .refl _
    · exact worked_badLength _
  case machineRead r b =>
    refine worked_command (fun s => ?_) e
    split
    · unfold State.machineRead
      split
      · exact .refl _
      · split <;> exact .refl _
    · exact worked_badLength _
  case laneRead r b =>
    refine worked_command (fun s => ?_) e
    split
    · unfold State.laneRead
      split
      · split <;> exact .refl _
      · exact .refl _
    · exact worked_badLength _
  case lineRead r b =>
    refine worked_command (fun s => ?_) e
    split
    · unfold State.lineRead
      split
      · exact .refl _
      · split <;> exact .refl _
    · exact worked_badLength _
  case countersRead r b => exact worked_command (worked_withoutBody fun s => .refl _) e
  case mapCheck r b => exact worked_command (worked_withoutBody fun s => .refl _) e
  case nightRecall r b => exact worked_command (worked_withoutBody worked_nightRecall) e
  case nightContinue r b => exact worked_command (worked_withoutBody worked_nightContinue) e
  case nightEnd r b =>
    refine worked_command (worked_withoutBody fun s => ?_) e
    split
    · exact .refl _
    · split
      · exact .refl _
      · exact worked_endNight _
  case resumeAll r b =>
    refine worked_command (worked_withoutBody fun s => ?_) e
    unfold State.resumeAllCommand
    split
    · exact .refl _
    · split
      · exact .refl _
      · exact worked_resumeAll _ _
  case clockSet r b =>
    refine worked_command (fun s => ?_) e
    split
    · exact worked_clockSet _ _
    · exact worked_badLength _
  case legLoad r b =>
    refine worked_command (fun s => ?_) e
    split
    · split
      · unfold State.legLoad
        split
        · exact .refl _
        · exact .onFloor _ _ fun k f => moved_loadLeg _ _ _ _
      · exact worked_badLength _
    · exact worked_badLength _
  case legCancel r b =>
    refine worked_command (fun s => ?_) e
    split
    · unfold State.legCancel
      repeat' split
      all_goals first | exact .refl _ | exact .onFloor _ _ fun k f => moved_cancelLeg _ _ _ _
    · exact worked_badLength _
  case machineHalt r b =>
    refine worked_command (fun s => ?_) e
    split
    · unfold State.machineHalt
      split
      · exact .refl _
      · exact .onFloor _ _ fun k f => .foldl (fun f b => moved_addHalt k _ f b) _ _
    · exact worked_badLength _
  case machineResume r b =>
    refine worked_command (fun s => ?_) e
    split
    · unfold State.machineResume
      split
      · exact .refl _
      · exact .onFloor _ _ fun k f => .foldl (fun f b => moved_removeHalt k _ f b) _ _
    · exact worked_badLength _
  case machineRestore r b =>
    refine worked_command (fun s => ?_) e
    split
    · unfold State.machineRestore
      split
      · exact .refl _
      · exact .onFloor _ _ fun k f => moved_restore _ _ _ _
    · exact worked_badLength _
  case zoneClose r b =>
    refine worked_command (fun s => ?_) e
    split
    · exact worked_zone _ _ (worked_closeZone _) _
    · exact worked_badLength _
  case zoneOpen r b =>
    refine worked_command (fun s => ?_) e
    split
    · exact worked_zone _ _ (worked_openZone _) _
    · exact worked_badLength _
  case supervisoryUnknownKind k r b =>
    simp only [exec, execSupervisoryUnknownKind] at e
    split at e
    · cases e
    · exact worked_command (act := unknownKind) (fun s => worked_supCount s fun c => { c with unknown := bump c.unknown }) e
  case supervisoryFrame fr => exact worked_event (worked_supBytes _ _) e
  case supervisoryGapTimeout =>
    simp only [exec, execSupervisoryGapTimeout] at e
    refine worked_event ?_ e
    split
    · exact .refl _
    · exact (worked_supAbandon _).trans (worked_supCount _ _)
  case supervisoryBreak => exact worked_event (g := fun s => s.supAbandon.supCount fun c => { c with breaks := bump c.breaks }) ((worked_supAbandon _).trans (worked_supCount _ _)) e
  case fleetFrame fr => exact worked_event (worked_fleetBytes _ _) e
  case fleetGapTimeout =>
    simp only [exec, execFleetGapTimeout] at e
    refine worked_event ?_ e
    split
    · exact .refl _
    · exact (worked_fleetAbandon _).trans (worked_fleetCount _ _)
  case fleetBreak => exact worked_event (g := fun s => s.fleetAbandon.fleetCount fun c => { c with breaks := bump c.breaks }) ((worked_fleetAbandon _).trans (worked_fleetCount _ _)) e
  case fleetUnknownKind k r b =>
    simp only [exec, execFleetUnknownKind] at e
    split at e
    · cases e
    · exact worked_turn (.after (worked_fleetCount _ _) (worked_takeRecord _)) e
  case beacon sl b =>
    unfold exec execBeacon at e
    refine worked_record (v := none) ?_ (fun _ h => nomatch h) e
    split
    · exact worked_onFloor _ fun k f => moved_beacon _ _ _ _ _
    · exact fun _ h => nomatch h
  case arrive sl b =>
    unfold exec execArrive at e
    refine worked_record (v := none) ?_ (fun _ h => nomatch h) e
    split
    · exact worked_onFloor _ fun k f => moved_arrive _ _ _ _ _
    · exact fun _ h => nomatch h
  case request sl b =>
    unfold exec execRequest at e
    refine worked_record ?_ ?_ e
    · split
      · exact worked_onFloor _ fun k f => moved_request _ _ _ _
      · exact fun _ h => nomatch h
    · split
      · intro a h s; cases h; exact worked_fleetCount _ _
      · exact fun _ h => nomatch h
  case ack sl b =>
    unfold exec execAck at e
    refine worked_record ?_ ?_ e
    · split
      · exact worked_onFloor _ fun k f => moved_ack _ _ _ _ _ _
      · exact fun _ h => nomatch h
    · split
      · exact fun _ h => nomatch h
      · intro a h s; cases h; exact worked_fleetCount _ _
  case faultStop sl b =>
    unfold exec execFaultStop at e
    refine worked_record ?_ ?_ e
    · split
      · exact worked_onFloor _ fun k f => moved_faultStop _ _ _ _
      · exact fun _ h => nomatch h
    · split
      · intro a h s; cases h; exact worked_fleetCount _ _
      · exact fun _ h => nomatch h
  case restart sl b =>
    unfold exec execRestart at e
    refine worked_record (v := none) ?_ (fun _ h => nomatch h) e
    split
    · exact worked_onFloor _ fun k f => moved_restart _ _ _
    · exact fun _ h => nomatch h
  case hostSilenceExpiry =>
    refine worked_event ?_ e
    unfold State.silenceExpiry
    split
    · exact .after (worked_enterRecall _ _ _) (worked_advance _ _)
    · exact .refl _
  case clockAdvance => exact worked_event (worked_clockTick _) e
  case evacuationActiveEdge => exact worked_event (worked_evacEdgeEvent _ _) e
  case evacuationInactiveEdge => exact worked_event (worked_evacEdgeEvent _ _) e
  case inputSample i fl =>
    simp only [exec, execInputSample] at e
    split at e
    · exact worked_event (.onFloor _ _ fun k f => moved_sampleLine _ _ _ _) e
    · split at e
      · exact worked_event (worked_sampleEvac _ _) e
      · cases e
  case fleetFrameSent m =>
    simp only [exec, execFleetFrameSent] at e
    split at e
    · exact worked_event (.onFloor _ _ fun k f => moved_frameSent _ _ _) e
    · cases e
  case replyWindowExpiry m =>
    simp only [exec, execReplyWindowExpiry] at e
    split at e
    · exact worked_event (worked_expire _ _ _ fun k f => moved_replyExpiry _ _ _) e
    · cases e
  case beaconTimerExpiry m =>
    simp only [exec, execBeaconTimerExpiry] at e
    split at e
    · exact worked_event (worked_expire _ _ _ fun k f => moved_beaconExpiry _ _ _) e
    · cases e
  case progressTimerExpiry m =>
    simp only [exec, execProgressTimerExpiry] at e
    split at e
    · exact worked_event (worked_expire _ _ _ fun k f => moved_stall _ _ _) e
    · cases e
  case guardExpiry m =>
    simp only [exec, execGuardExpiry] at e
    split at e
    · exact worked_event (worked_expire _ _ _ fun k f => moved_freeCell _ _ _) e
    · cases e
  case wetExpiry m =>
    simp only [exec, execWetExpiry] at e
    split at e
    · exact worked_event (worked_expire _ _ _ fun k f => moved_freeCell _ _ _) e
    · cases e
  case filteredActiveEdge m =>
    simp only [exec, execFilteredActiveEdge] at e
    split at e
    · exact worked_event (.onFloor _ _ fun k f => moved_activeEdgeEvent _ _ _) e
    · cases e
  case filteredInactiveEdge m =>
    simp only [exec, execFilteredInactiveEdge] at e
    split at e
    · exact worked_event (.onFloor _ _ fun k f => moved_inactiveEdgeEvent _ _ _) e
    · cases e
  case lineStuck m fl =>
    simp only [exec, execLineStuck] at e
    split at e
    · exact worked_event (.onFloor _ _ fun k f => moved_stuckEvent _ _ _ _) e
    · cases e
  case holdExpiry m =>
    simp only [exec, execHoldExpiry] at e
    split at e
    · exact worked_event (worked_expire _ _ _ fun k f => moved_holdExpiry _ _ _) e
    · cases e
  case clearOutExpiry m =>
    simp only [exec, execClearOutExpiry] at e
    split at e
    · exact worked_event (worked_expire _ _ _ fun k f => moved_breach _ _ _) e
    · cases e

end Sys2Proof.Laws
end

