-- ==== Sys2Proof/Tests/Slice0.lean ====
section
/-! SUPPORT. Tests: a term that each well-formedness check refuses, the worked figures of the spec, one step of most
commands on a small concourse, and for each statement with hypotheses a state and operands that meet them. -/

namespace Sys2Proof.Tests

open Sys2Proof Sys2Proof.Machine Sys2Proof.Safety

-- One theorem at a time: the kernel evaluations below take memory when run side by side.
set_option Elab.async false

/-! ### A small concourse

Seven cells: dock 0 of machine 1 and dock 6 of machine 2 at the head of a row 1, 2, 3, 4, 5; cell 3 in the band of line
0 with refuge 2; cells 4 and 5 the lane 0. -/

def tile (neighbours : List Nat) : Cell :=
  { kind := .openFloor, owner := none, zone := 0, floorClass := 0, band := 0#16, neighbours := neighbours
    refuge := none, lane := none, occ := .free, embargo := 0, waiters := [], washes := 0, lastWashed := none }

def dockCell (m : Nat) (neighbours : List Nat) : Cell :=
  { tile neighbours with kind := .dock, owner := some m, occ := .held m }

def cells : Table Cell :=
  [ (0, dockCell 1 [1]), (1, tile [0, 2, 6]), (2, tile [1, 3]), (3, { tile [2, 4] with band := 1#16, refuge := some 2 }),
    (4, { tile [3, 5] with lane := some (0, 0) }), (5, { tile [4] with lane := some (0, 1) }), (6, dockCell 2 [1]) ]

/-- In STANDBY: the map, and machines 1 and 2 on their docks. -/
def park : State :=
  { State.reset with floor := { State.reset.floor with
      cells := cells
      lanes := [(0, { cells := [4, 5], dir := none, holders := 0, waiters := [] })]
      machines := [(1, Scrubber.enrolled 0 0), (2, Scrubber.enrolled 1 6)] } }

/-- In NIGHT, with machine 1's record as given. -/
def night (x : Scrubber) : State :=
  { park with
    control := { park.control with mode := .night, clockRunning := true, clockDue := 1000 }
    floor := { park.floor with machines := park.floor.machines.put 1 x } }

/-- The state in another part mode. -/
def inMode (mode : Mode) (s : State) : State := { s with control := { s.control with mode := mode } }

/-- The state with one cell changed. -/
def withCell (c : Nat) (g : Cell → Cell) (s : State) : State :=
  { s with floor := { s.floor with cells := s.floor.cells.upd c g } }

/-- The state with one line changed. -/
def withLine (i : Nat) (g : Line → Line) (s : State) : State :=
  { s with floor := { s.floor with lines := s.floor.lines.upd i g } }

/-- The state with machine 2's record as given. -/
def withSecond (y : Scrubber) (s : State) : State :=
  { s with floor := { s.floor with machines := s.floor.machines.put 2 y } }

/-- Machine 1 on its dock. -/
def rests : Scrubber := Scrubber.enrolled 0 0

/-- A washing leg from dock 0 to cell 3. -/
def wash : Leg := { tag := 7, flow := 2, homing := false, cells := [0, 1, 2, 3] }

/-- Machine 1 on its dock with that leg active and nothing granted. -/
def starts : Scrubber := { rests with active := some ⟨wash, 0⟩ }

/-- Machine 1 running on that leg, with cell 1 granted. -/
def drives : Scrubber := { starts with state := .running, ahead := [1], progress := some 60000 }

/-- In NIGHT, machine 1 driving with cell 1 HELD. -/
def onTheWay : State := withCell 1 (fun z => { z with occ := .held 1 }) (night drives)

/-- The state after a command. -/
def after (c : Instr) (s : State) : State :=
  match exec c s with
  | .next t => t
  | _ => s

/-- The status of the last reply formed. -/
def lastStatus (s : State) : Option Status :=
  match s.floor.supTx.getLast? with
  | some (.reply _ _ status _) => some status
  | _ => none

/-- What holds of every listed entry holds of every entry looked up. -/
theorem all_looked {α : Type} {t : Table α} {p : Nat → α → Prop} (h : ∀ e ∈ t, p e.1 e.2) :
    ∀ k v, t.look k = some v → p k v := fun _ _ e => h _ (Table.mem_of_look e)

/-- Nobody waits where no listed cell and no listed lane has a waiter. -/
theorem nobodyWaits_of {f : Floor} (h : (∀ e ∈ f.cells, e.2.waiters = []) ∧ ∀ e ∈ f.lanes, e.2.waiters = []) :
    NobodyWaits f := ⟨all_looked h.1, all_looked h.2⟩

/-! ### Ill-formed terms, one for each check -/

theorem test_body_too_long : (Instr.cellRead 0#8 (List.replicate 251 0#8)).wellFormed = false := by decide +kernel
theorem test_record_too_long : (Instr.beacon 1#8 (List.replicate 251 0#8)).wellFormed = false := by decide +kernel
theorem test_known_kind_given_as_unknown : (Instr.supervisoryUnknownKind 1#8 0#8 []).wellFormed = false := by decide
theorem test_machine_kind_given_as_unknown : (Instr.fleetUnknownKind 0x41#8 1#8 []).wellFormed = false := by decide
theorem test_unknown_body_too_long :
    (Instr.fleetUnknownKind 0x40#8 1#8 (List.replicate 251 0#8)).wellFormed = false := by decide +kernel
theorem test_slot_zero : (Instr.beaconTimerExpiry 0).wellFormed = false := by decide
theorem test_slot_25 : (Instr.fleetFrameSent 25).wellFormed = false := by decide
theorem test_cell_512 : (Instr.guardExpiry 512).wellFormed = false := by decide
theorem test_line_16 : (Instr.holdExpiry 16).wellFormed = false := by decide
theorem test_input_17 : (Instr.inputSample 17 true).wellFormed = false := by decide
theorem test_no_word_spells_a_command : decodeTableWord 8 1 = none := by decide

/-! ### The spec's own figures -/

/-- R170: the CRC of the nine ASCII bytes 1 to 9. -/
theorem test_crc_check_value :
    crc16 [0x31#8, 0x32#8, 0x33#8, 0x34#8, 0x35#8, 0x36#8, 0x37#8, 0x38#8, 0x39#8] = 0x29B1#16 := by decide +kernel
/-- 3.7.1: reference conditions, no rounding. -/
theorem test_drying_reference : rawDryingTime 600 2 32 12 = 600 := by decide
/-- Table 3-4: a 600 s class after full reset. -/
theorem test_drying_after_reset :
    (List.range 3).map (fun i => dryingAnswer {} 0 (i + 1)) = [(509, false), (679, false), (934, false)] := by decide
/-- 3.7.3: terrazzo. -/
theorem test_drying_terrazzo : rawDryingTime 600 2 55 8 = 797 := by decide
/-- 3.7.4: the high clamp. -/
theorem test_drying_high_clamp :
    rawDryingTime 2400 3 90 2 = 6353 ∧
      dryingAnswer { base := [2400], highSet := 4500, humidity := 90, temperature := 2 } 0 3 = (4500, true) := by decide
/-- 3.7.5: the low clamp. -/
theorem test_drying_low_clamp :
    rawDryingTime 60 1 10 30 = 27 ∧
      dryingAnswer { base := [60], humidity := 10, temperature := 30 } 0 1 = (120, false) := by decide
/-- Table 3-5: the extremes. -/
theorem test_drying_extremes : rawDryingTime 3600 3 100 (-10) = 13352 ∧ rawDryingTime 30 1 0 40 = 11 := by decide
/-- Table 9-4: the sample that brings the counter to the threshold makes the level active. -/
theorem test_filter_reaches_threshold :
    ((after (.inputSample 0 true) (withLine 0 (fun l => { l with cfg := { l.cfg with enabled := true }, counter := 19 })
      park)).floor.lines.look 0).map (fun l => (l.counter, l.level)) = some (20, true) := by decide

/-! ### One step -/

/-- R156: NIGHT BEGIN opens the night on a map without fault; R7: its refusal outside STANDBY. -/
theorem test_night_begins :
    (after (.nightBegin 1#8 []) park).control.mode = .night ∧
      (after (.nightBegin 1#8 []) park).control.silence = some 120000 ∧
      lastStatus (after (.nightBegin 1#8 []) (night rests)) = some .refusedMode := by decide +kernel
/-- R17, Table 1-3 code 11: a dock that is no longer its machine's refuses NIGHT BEGIN. -/
theorem test_map_fault_refuses_night :
    lastStatus (after (.nightBegin 1#8 []) (withCell 0 (fun z => { z with owner := some 3 }) park)) =
      some .mapFault := by decide +kernel
/-- R14: CELL READ of an undefined cell and of a number above 511. -/
theorem test_cell_read_statuses :
    lastStatus (after (.cellRead 1#8 [0#8, 9#8]) park) = some .notDefined ∧
      lastStatus (after (.cellRead 1#8 [2#8, 0#8]) park) = some .badValue := by decide +kernel
/-- R8, R11: a CELL DEFINE of one OPEN cell. -/
theorem test_cell_define :
    ((after (.cellDefine 1#8 [1#8, 0#8, 9#8, 1#8, 0xFF#8, 4#8, 2#8, 0#8, 0#8, 0xFF#8, 0xFF#8, 1#8, 0#8, 5#8])
      park).floor.cells.look 9).map (fun z => (z.zone, z.floorClass, z.neighbours)) = some (4, 2, [5]) := by
  decide +kernel
/-- R105: a dock of another slot refuses enrolment; R106: MACHINE WITHDRAW in STANDBY releases the dock to GUARD. -/
theorem test_enrol_and_withdraw :
    lastStatus (after (.machineEnroll 1#8 [3#8, 0#8, 0#8, 6#8]) park) = some .badValue ∧
      ((after (.machineWithdraw 1#8 [1#8]) park).floor.cells.look 0).map Cell.occ = some (.guarded 5000) := by
  decide +kernel
/-- R174: the early limit is checked against the beacon interval of the same command, as position 2. -/
theorem test_timing_early_limit :
    (after (.timingSetup 1#8 [2#8, 0x07#8, 0xD0#8, 4#8, 1#8, 0x90#8, 0#8, 60#8, 0#8, 5#8, 0#8, 10#8, 3#8, 20#8, 10#8,
      0#8, 120#8, 50#8]) park).floor.supTx = [.reply 4#8 1#8 .badValue (.timingRefused 2)] := by decide +kernel
/-- R28, R73: a request of two cells is granted whole. -/
theorem test_request_granted :
    ((after (.request 1#8 [2#8]) (night starts)).floor.machines.look 1).map
        (fun x => (x.state, x.ahead, x.progress, x.outstanding)) =
      some (.running, [1, 2], some 60000, some (.answer (.grant [1, 2] false))) := by decide +kernel
/-- R29: a span with a WET cell grants nothing and waits on that cell. -/
theorem test_request_waits_on_wet :
    (let t := after (.request 1#8 [2#8]) (withCell 2 (fun z => { z with occ := .wet 9000 false }) (night starts))
     ((t.floor.machines.look 1).map fun x => (x.state, x.request, x.outstanding),
       t.floor.cells.look 1 = some (tile [0, 2, 6]))) =
      (some (.waiting, some (.ordinary 2 (.cell 2)), some (.answer (.wait .wet))), True) := by
  simp only [Prod.mk.injEq, eq_iff_iff, iff_true]; decide +kernel
/-- R34, Table 3-4: the cell left behind a leg of flow level 2 is WET for 679 s. -/
theorem test_arrival_leaves_wet :
    ((after (.arrive 1#8 [0#8, 1#8, 0#8]) onTheWay).floor.cells.look 0).map (fun z => (z.occ, z.washes, z.lastWashed)) =
      some (.wet 679000 false, 1, some 0) := by decide +kernel
/-- R121: an arrival anywhere else halts the machine for POSITION. -/
theorem test_arrival_off_route :
    ((after (.arrive 1#8 [0#8, 5#8, 0#8]) onTheWay).floor.machines.look 1).map
        (fun x => (x.state, x.halts.position, x.reported, x.ahead)) = some (.halted, true, some 5, [1]) := by
  decide +kernel
/-- R108, R112: a valid beacon restarts the beacon timer; battery below the reserve sets LOW. -/
theorem test_beacon :
    ((after (.beacon 1#8 [19#8, 200#8]) (night rests)).floor.machines.look 1).map
        (fun x => (x.battery, x.water, x.low, x.beaconTimer)) = some (some 19, some 100, true, some 5000) := by
  decide +kernel
/-- R118: FAULT STOP joins MACHINE to the halt set, and no MOTION HALT is sent. -/
theorem test_fault_stop :
    ((after (.faultStop 1#8 [3#8]) onTheWay).floor.machines.look 1).map
        (fun x => (x.state, x.safeStops, x.lastFault, x.queue, x.outstanding)) =
      some (.halted, 1, some 3, [], none) := by decide +kernel
/-- R98: an ACK with nothing outstanding is a stray ACK. -/
theorem test_stray_ack :
    (after (.ack 1#8 [1#8, 0#8, 0#8, 0#8]) (night rests)).floor.fleetCounters.strayAcks = 1 := by decide +kernel
/-- R97, R99: a sent frame starts the reply window; a window that runs out repeats the order. -/
theorem test_reply_window :
    (let x := { rests with outstanding := some (.motion false) }
     let s : State := { night x with floor := { (night x).floor with fleetTx := [⟨1, .motion false⟩] } }
     let t := after (.fleetFrameSent 1) s
     let u := after (.replyWindowExpiry 1) t
     ((t.floor.machines.look 1).map Scrubber.replyWindow, u.floor.fleetCounters.repeats, u.floor.fleetTx)) =
      (some (some 400), 1, [⟨1, .motion false⟩]) := by decide +kernel
/-- R110, R36: the miss that reaches the threshold makes the machine LOST and its cells BLOCKED. -/
theorem test_lost :
    (let t := after (.beaconTimerExpiry 1) (night { rests with misses := 3, beaconTimer := some 5000 })
     ((t.floor.machines.look 1).map fun x => (x.state, x.misses), (t.floor.cells.look 0).map Cell.occ)) =
      (some (.lost, 4), some (.blocked 1)) := by decide +kernel
/-- R20: a GUARD interval that runs out leaves the cell FREE. -/
theorem test_guard_expires :
    ((after (.guardExpiry 2) (withCell 2 (fun z => { z with occ := .guarded 5000 }) park)).floor.cells.look 2).map
        Cell.occ = some .free := by decide +kernel
/-- R145, R21: a filtered active edge in LEVEL mode raises the band's count; with nobody in the band the line is CLEAR. -/
theorem test_embargo_starts :
    (let t := after (.filteredActiveEdge 0) (withLine 0 (fun l => { l with cfg := { l.cfg with enabled := true } })
        (night rests))
     ((t.floor.cells.look 3).map Cell.embargo, (t.floor.lines.look 0).map fun l => (l.state, l.lastStart))) =
      (some 1, some (.clear, some 0)) := by decide +kernel
/-- R160, R115: the evacuation edge takes the part to EVACUATION and halts every machine. -/
theorem test_evacuation :
    (let t := after .evacuationActiveEdge onTheWay
     (t.control.mode, t.control.saved, (t.floor.machines.look 1).map fun x => (x.state, x.outstanding))) =
      (.evacuation, some .night, some (.halted, some (.motion false))) := by decide +kernel
/-- R164, R167: the advance onto an ARMED mark with action RECALL recalls the part. -/
theorem test_mark_recalls :
    (let t := after .clockAdvance { night rests with marks := (night rests).marks.put 3 (.armed 1 .recalling) }
     (t.control.mode, t.control.recallReason, t.control.clock, t.marks.look 3)) =
      (.recalling, some .mark, 1, some (.fired 1 .recalling)) := by decide +kernel
/-- R169 to R171: a frame with a wrong check word is counted and dropped. -/
theorem test_bad_crc :
    (after (.supervisoryFrame [0xB5#8, 0#8, 0x20#8, 1#8, 0#8, 0#8]) park).ports.supCounters.crc = 1 := by decide +kernel
/-- R87: bytes before the lead byte are skipped, and a frame cut in two is held and then completed. -/
theorem test_frame_in_two_pieces :
    (let wire := frameWire 0x46#8 1#8 []
     let s := after (.fleetFrame ([7#8, 0#8] ++ wire.take 3)) park
     (s.ports.fleetReading, (after (.fleetFrame (wire.drop 3)) s).ports.fleetQueue)) =
      ([0xB5#8, 0#8, 0x46#8], [⟨0x46#8, 1#8, []⟩]) := by decide +kernel
/-- R171: a gap while a frame is being read counts a framing error; between frames it is none. -/
theorem test_gap_only_within_a_frame :
    (after .supervisoryGapTimeout (after (.supervisoryFrame [0xB5#8]) park)).ports.supCounters.framing = 1 ∧
      (after .supervisoryGapTimeout park).ports.supCounters.framing = 0 := by decide +kernel
/-- R172: with no command waiting a step takes the frame at the head of the command receive queue. -/
theorem test_step_takes_the_head :
    (match step (after (.supervisoryFrame (frameWire 0x20#8 9#8 [])) (night rests)) with
     | .next t => (t.control.mode, t.ports.cmdQueue, lastStatus t)
     | _ => (.standby, [], none)) = (.recalling, [], some .done) := by decide +kernel
/-- R109: TIMING SETUP leaves the misses of a LOST machine where the lost threshold stands, and moves them with it. -/
theorem test_timing_moves_misses_with_the_threshold :
    (let s := withSecond { rests with state := .lost } park
     let setup (lost : Byte) : Instr := .timingSetup 1#8 [5#8, 0x03#8, 0xE8#8, lost, 1#8, 0x90#8, 0#8, 60#8, 0#8, 5#8, 0#8,
       10#8, 3#8, 20#8, 10#8, 0#8, 120#8, 50#8]
     [4#8, 5#8].map fun lost => ((after (setup lost) s).floor.machines.look 2).map Scrubber.misses) =
      [some 0, some 5] := by decide +kernel

/-! ### States and operands that meet the hypotheses of the statements

Each theorem is named after the statement it serves, and shows a state and operands that meet the hypotheses of its
clauses, at the ends of their ranges where they have ranges. -/

/-- `TablesKept` as a test that evaluates. -/
def tablesOk (s : State) : Bool :=
  s.floor.cells.wf Config.cellCount && s.floor.lanes.wf Config.laneCount &&
    s.floor.machines.wf (Config.slotCount + 1) && decide (0 ∉ s.floor.machines.keys) &&
    decide (s.floor.lines.keys = List.range Config.lineCount) &&
    decide (s.floor.notices.keys = List.range Config.classCount) &&
    decide (s.marks.keys = List.range Config.markCount) && decide (s.control.zones.keys = List.range Config.zoneCount)

theorem stands_of {s : State} (h : (s.live && tablesOk s) = true) : s.live = true ∧ TablesKept s := by
  simp only [tablesOk, Bool.and_eq_true, decide_eq_true_eq] at h
  exact ⟨h.1, h.2.1.1.1.1.1.1.1, h.2.1.1.1.1.1.1.2, h.2.1.1.1.1.1.2, h.2.1.1.1.1.2, h.2.1.1.1.2, h.2.1.1.2, h.2.1.2,
    h.2.2⟩

/-- A running module with both receive queues empty. -/
def ready (s : State) : Bool := s.live && s.ports.cmdQueue.isEmpty && s.ports.fleetQueue.isEmpty

/-- There any command and any machine record takes its turn. -/
theorem turns_of_ready {s : State} (h : ready s = true) (r : Record) :
    s.live = true ∧ s.takesCommand r = true ∧ s.takesRecord r = true := by
  simp only [ready, Bool.and_eq_true, List.isEmpty_iff] at h
  simp [State.takesCommand, State.takesRecord, isNext, h.1.1, h.1.2, h.2]

/-- The state with commands waiting. -/
def queued (cs : List Instr) (s : State) : State := { s with pending := cs }

/-- The state without supply. -/
def dark (s : State) : State := { s with powered := false }

theorem test_meets_StepRunsTheFrontCommand :
    (queued [.fullReset] park).pending = .fullReset :: [] ∧ (park.pending = [] ∧ ready park = true) ∧
      (let s := after (.supervisoryFrame (frameWire 0x20#8 9#8 [])) park
       s.pending = [] ∧ s.live = true ∧ s.ports.cmdQueue = ⟨0x20#8, 9#8, []⟩ :: []) ∧
      (let s := after (.fleetFrame (frameWire 0x46#8 1#8 [])) park
       s.pending = [] ∧ s.live = true ∧ s.ports.cmdQueue = [] ∧ s.ports.fleetQueue = ⟨0x46#8, 1#8, []⟩ :: []) := by
  decide +kernel
theorem test_meets_OnlyImpossibleCommandsStop :
    (Instr.inputSample 16 true).wellFormed = true ∧ isSlot 0 = false ∧ isSlot 25 = false ∧ isCell 512 = false ∧
      isLine 16 = false ∧ isLine 17 = false ∧ isCommandKind 0x01#8 = true ∧ isCommandKind 0x2C#8 = true ∧
      isMachineKind 0x41#8 = true ∧ isMachineKind 0x46#8 = true := by decide
theorem test_meets_QueueAndSilentModuleAreLeftAlone :
    (dark park).live = false ∧ exec .clockAdvance (dark park) = .next (dark park) ∧
      ∃ t, exec .clockAdvance (night rests) = .next t := ⟨by decide, rfl, _, rfl⟩

/-- A night under way, with an arrival waiting to be taken. -/
def busy : State := queued [.arrive 1#8 [0#8, 1#8, 0#8]] onTheWay

/-- What holds of machine 1 driving and of machine 2 on its dock holds of every machine of `busy`. -/
theorem busy_machines {p : Nat → Scrubber → Prop} (one : p 1 drives) (two : p 2 (Scrubber.enrolled 1 6)) :
    ∀ m x, busy.floor.machines.look m = some x → p m x := by
  refine all_looked (t := [(1, drives), (2, Scrubber.enrolled 1 6)]) fun e h => ?_
  simp only [List.mem_cons, List.not_mem_nil, or_false] at h
  rcases h with rfl | rfl
  exacts [one, two]

/-- R71: a route that goes over no cell twice comes again over none. -/
theorem noReturn_of_nodup {cells : List Nat} (h : cells.Nodup) : NoReturn cells := by
  intro i j c less _ first second
  obtain ⟨bound, _⟩ := List.getElem?_eq_some_iff.1 first
  exact absurd ((h.getElem_inj_iff (hi := bound) (hj := (List.getElem?_eq_some_iff.1 second).1)).1
    (by rw [← Option.some_inj, ← List.getElem?_eq_getElem, ← List.getElem?_eq_getElem, first, second])) (by omega)

/-- The cells that a machine holds, told from the list of cells. -/
theorem busy_holds (m : Nat) (held : List Nat)
    (h : ∀ e ∈ busy.floor.cells, e.2.occ = .held m ↔ e.1 ∈ held) (known : ∀ c ∈ held, (busy.floor.cells.look c).isSome) :
    ∀ c, (busy.floor.cells.look c).map Cell.occ = some (.held m) ↔ c ∈ held := by
  intro c
  cases e : busy.floor.cells.look c with
  | none => exact ⟨nofun, fun member => absurd (known c member) (by simp [e])⟩
  | some z => simpa using h (c, z) (Table.mem_of_look e)

theorem busy_holdings : HoldingsKept busy := by
  refine ⟨busy_machines ⟨nofun, fun a e => by cases e; decide +kernel, nofun⟩ ⟨nofun, nofun, nofun⟩,
    busy_machines ⟨by unfold StandingKept; decide +kernel, ⟨fun a e => ?_, nofun⟩, by decide, nofun, fun _ =>
        ⟨by decide, busy_holds 1 _ (by decide +kernel) (by decide +kernel)⟩, nofun⟩
      ⟨by unfold StandingKept; decide +kernel, ⟨nofun, nofun⟩, by decide, nofun, fun _ =>
        ⟨by decide, busy_holds 2 _ (by decide +kernel) (by decide +kernel)⟩, nofun⟩, ?_⟩
  · cases e; exact ⟨noReturn_of_nodup (by decide), by decide, by decide, by decide⟩
  · intro c z m e
    have each : ∀ e ∈ busy.floor.cells, ∀ n ∈ [e.2.occ], n = .held 1 ∨ n = .held 2 ∨ n = .free := by decide +kernel
    have one : busy.floor.machines.look 1 = some drives := by decide +kernel
    have two : busy.floor.machines.look 2 = some (Scrubber.enrolled 1 6) := by decide +kernel
    rcases each (c, z) (Table.mem_of_look e) z.occ (by simp) with h | h | h <;> rw [h] <;> refine ⟨fun h => ?_, nofun⟩
    · cases h; exact ⟨_, one, by decide⟩
    · cases h; exact ⟨_, two, by decide⟩
    · cases h

theorem busy_waits : WaitsKept busy := by
  have nobody : NobodyWaits busy.floor := nobodyWaits_of (by decide +kernel)
  have idle : ∀ m x, busy.floor.machines.look m = some x → x.request = none := busy_machines rfl rfl
  refine ⟨busy_machines ⟨⟨nofun, nofun⟩, nofun, nofun⟩ ⟨⟨nofun, nofun⟩, nofun, nofun⟩, ?_, ?_, ?_, ?_⟩
  · intro c z e; simp [nobody.1 c z e]
  · intro l r e; simp [nobody.2 l r e]
  · refine fun m c refuge => ⟨fun ⟨z, e, h⟩ => ?_, fun ⟨x, p, e, h, _⟩ => ?_⟩
    · rw [nobody.1 c z e] at h; cases h
    · rw [idle m x e] at h; cases h
  · refine fun m l => ⟨fun ⟨r, e, h⟩ => ?_, fun ⟨x, n, e, h⟩ => ?_⟩
    · rw [nobody.2 l r e] at h; cases h
    · rw [idle m x e] at h; cases h

theorem busy_lanes : LanesKept busy := by
  have places : ∀ e ∈ busy.floor.cells, (e.2.lane = none ∨ e.2.occ = .free) ∧
      (e.2.lane = none ∨ e.1 = 4 ∧ e.2.lane = some (0, 0) ∨ e.1 = 5 ∧ e.2.lane = some (0, 1)) := by decide +kernel
  have unheld : ∀ m l, busy.floor.hasLaneCell m l = false := by
    intro m l
    refine List.any_eq_false.2 fun e h => ?_
    rcases (places e h).1 with none | free
    · simp [none]
    · simp [free, Occupancy.ownedBy]
  have lane : ∀ l r, busy.floor.lanes.look l = some r → l = 0 ∧ r = ⟨[4, 5], none, 0, []⟩ :=
    all_looked (p := fun l (r : Lane) => l = 0 ∧ r = ⟨[4, 5], none, 0, []⟩) (by decide +kernel)
  refine ⟨fun c l i => ⟨fun h => ?_, fun ⟨r, e, h⟩ => ?_⟩,
    busy_machines ⟨by decide, fun l => (unheld 1 l).symm⟩ ⟨by decide, fun l => (unheld 2 l).symm⟩, fun l r e => ?_⟩
  · obtain ⟨z, e, stands⟩ := Option.bind_eq_some_iff.1 h
    rcases (places (c, z) (Table.mem_of_look e)).2 with none | ⟨rfl, there⟩ | ⟨rfl, there⟩
    · cases none.symm.trans stands
    · cases there.symm.trans stands; exact ⟨_, rfl, rfl⟩
    · cases there.symm.trans stands; exact ⟨_, rfl, rfl⟩
  · obtain ⟨rfl, rfl⟩ := lane l r e
    match i, h with
    | 0, rfl => rfl
    | 1, rfl => rfl
  · obtain ⟨rfl, rfl⟩ := lane l r e
    exact ⟨by decide +kernel, ⟨fun _ => rfl, fun _ => rfl⟩, fun m x d h => busy_machines (p := fun _ x =>
      x.laneDirs.look 0 = some d → _) nofun nofun m x h⟩

/-- StepsKeepTheTables to StepsKeepCountsQueuesAndRanges: a state that keeps every law, and its next step. -/
theorem test_meets_StepsKeepEachLaw :
    TablesKept busy ∧ ModeKept busy ∧ AllOrdersKept busy ∧ AllProgressKept busy ∧ AllNoticesKept busy ∧
      EmbargoKept busy ∧ BandsKept busy ∧ CountersKept busy ∧ QueuesKept busy ∧ DryingKept busy ∧ ConcourseLaws busy ∧
      ∃ t, step busy = .next t := by
  have tables : TablesKept busy := (stands_of (by decide +kernel)).2
  have progress : AllProgressKept busy := all_looked (p := fun _ x => ProgressKept x) (by unfold ProgressKept; decide +kernel)
  refine ⟨tables, by unfold ModeKept; decide +kernel,
    all_looked (p := fun _ x => OrdersKept x) (by unfold OrdersKept; decide +kernel), progress,
    all_looked (p := fun _ x => NoticeKept x) (by unfold NoticeKept; decide +kernel),
    ⟨by decide +kernel,
      all_looked (p := fun _ (x : Cell) => x.embargo = busy.floor.embargoFor x.band) (by decide +kernel)⟩,
    all_looked (p := fun i (l : Line) => (l.state ≠ .quiet → (l.state = .clear ↔ busy.floor.bandTaken i = 0)) ∧
      (l.clearTimer.isSome = true → l.state = .clearing) ∧
      (busy.live = true → l.clearOutput = decide (busy.floor.bandTaken i = 0))) (by decide +kernel),
    ⟨all_looked (p := fun _ (x : Cell) => x.washes ≤ 255) (by decide +kernel),
      all_looked (p := fun _ x => CountsKept x) (by unfold CountsKept; decide +kernel),
      all_looked (p := fun _ x => LineCountsKept x) (by unfold LineCountsKept; decide +kernel),
      by unfold FleetCountersKept; decide +kernel, by unfold SupCountersKept; decide +kernel⟩,
    by unfold QueuesKept; decide +kernel, by unfold DryingKept; decide +kernel,
    ⟨tables, progress, busy_holdings, busy_waits, busy_lanes⟩, _, rfl⟩

/-- One command for each of the six transitions of Table 10-1 that another state than the start's takes. -/
theorem test_meets_ModeMovesOnlyByItsCauses :
    ModeKept park ∧ (after (.nightBegin 0#8 []) park).control.mode ≠ park.control.mode ∧
      ModeKept (night rests) ∧ (after (.nightRecall 0#8 []) (night rests)).control.mode ≠ .night ∧
      (after .evacuationActiveEdge (night rests)).control.mode ≠ .night := by
  unfold ModeKept; decide +kernel
/-- Another command than those named; an enrolment, and a withdrawal, of slot 2; a fleet without repeated slots. -/
theorem test_meets_OnlyTheirCommandsChangeSettingsAndMap :
    (∃ t, exec .clockAdvance (night rests) = .next t) ∧ Instr.clockAdvance ≠ .fullReset ∧
      (∀ r b, Instr.clockAdvance ≠ .cellDefine r b ∧ Instr.clockAdvance ≠ .timingSetup r b) ∧
      (let s := after (.machineWithdraw 1#8 [2#8]) park
       park.floor.machines.look 2 ≠ none ∧ s.floor.machines.look 2 = none ∧
         (after (.machineEnroll 1#8 [2#8, 3#8, 0#8, 6#8]) (withCell 6 (fun z => { z with occ := .free }) s)).floor.machines.look 2 ≠
           none) ∧ park.floor.machines.keys.Nodup :=
  ⟨⟨_, rfl⟩, by decide, fun _ _ => ⟨nofun, nofun⟩, by decide +kernel, by decide⟩
/-- ZONE CLOSE refused in STANDBY; one whose turn has not come, and a record likewise. -/
theorem test_meets_CommandsAreAnsweredOnceOrRefused :
    ready park = true ∧ hostFrame (.zoneClose 5#8 [0#8]) = some ⟨0x2B#8, 5#8, [0#8]⟩ ∧
      (∃ t, exec (.zoneClose 5#8 [0#8]) park = .next t) ∧
      (after (.zoneClose 5#8 [0#8]) park).floor.supTx.getLast? = some (.reply 0x2B#8 5#8 .refusedMode .nothing) ∧
      (after (.supervisoryFrame (frameWire 0x20#8 9#8 [])) park).takesCommand ⟨0x2B#8, 5#8, [0#8]⟩ = false ∧
      machineFrame (.restart 1#8 []) = some ⟨0x46#8, 1#8, []⟩ ∧
      (after (.fleetFrame (frameWire 0x46#8 2#8 [])) park).takesRecord ⟨0x46#8, 1#8, []⟩ = false :=
  ⟨by decide, by decide, ⟨_, rfl⟩, by decide +kernel, by decide +kernel, by decide, by decide +kernel⟩

/-- Three frames wait in the command receive queue; with one more it is full. -/
def fullQueues (n m : Nat) : State :=
  { park with ports := { park.ports with
      cmdQueue := List.replicate n ⟨0x20#8, 0#8, []⟩, fleetQueue := List.replicate m ⟨0x46#8, 1#8, []⟩ } }

theorem test_meets_FramesAreReceivedOrCounted :
    250 < (251#8 : Byte).toNat ∧ (∀ b ∈ [0xB4#8, 0xB6#8, 0#8], b ≠ 0xB5#8) ∧ (List.replicate 250 (0xB5#8 : Byte)).length ≤ 250 ∧
      (0#16 : BitVec 16) ≠ frameCrc 0x20#8 1#8 [] ∧ park.ports.supReading = [] ∧ park.ports.fleetReading = [] ∧
      (after (.supervisoryFrame [0xB5#8]) park).ports.supReading ≠ [] ∧
      (after (.fleetFrame [0xB5#8]) park).ports.fleetReading ≠ [] ∧
      (fullQueues 3 15).ports.cmdQueue.length < 4 ∧ 4 ≤ (fullQueues 4 16).ports.cmdQueue.length ∧
      (fullQueues 3 15).ports.fleetQueue.length < 16 ∧ 16 ≤ (fullQueues 4 16).ports.fleetQueue.length ∧
      (fullQueues 4 16).live = true := by decide +kernel
theorem test_meets_UnknownKindsAndWrongLengths :
    ready park = true ∧ isCommandKind 0x16#8 = false ∧ isMachineKind 0x47#8 = false ∧
      hostFrame (.cellRead 0#8 [1#8]) = some ⟨0x18#8, 0#8, [1#8]⟩ ∧ lengthSuits (.cellRead 0#8 [1#8]) [1#8] = false ∧
      lengthSuits (.legLoad 0#8 [1#8, 0#8, 0#8, 0#8, 0#8, 1#8, 0#8]) [1#8, 0#8, 0#8, 0#8, 0#8, 1#8, 0#8] = false ∧
      ([1#8] : List Byte).length ≠ 2 := by decide

/-- The turn of each query; a cell, a slot, a lane and a line that stand, the last number of each that does not, and the
first beyond the range; the evacuation input's number; a map with a fault and one without. -/
theorem test_meets_QueriesReportAndChangeNothing :
    (∀ r : Record, park.takesCommand r = true) ∧
      (∃ z, park.floor.cells.look 6 = some z) ∧ park.floor.cells.look (be16 1#8 0xFF#8) = none ∧
      be16 0#8 6#8 = 6 ∧ be16 1#8 0xFF#8 = 511 ∧ be16 2#8 0#8 = 512 ∧
      (∃ x, park.floor.machines.look 1 = some x) ∧ park.floor.machines.look (24#8 : Byte).toNat = none ∧
      (0#8 : Byte).toNat < 1 ∧ 24 < (25#8 : Byte).toNat ∧
      (∃ l, park.floor.lanes.look 0 = some l) ∧ park.floor.lanes.look (15#8 : Byte).toNat = none ∧
      15 < (16#8 : Byte).toNat ∧ (∃ l, park.floor.lines.look (15#8 : Byte).toNat = some l) ∧
      (16#8 : Byte).toNat = 16 ∧ park.floor.lines.look (17#8 : Byte).toNat = none ∧ park.floor.mapFault = none ∧
      (withCell 6 (fun z => { z with band := 1#16 }) park).floor.mapFault = some ⟨9, .cell 6, none⟩ ∧
      lastStatus (after (.cellRead 5#8 [2#8, 0#8]) park) = some .badValue ∧
      lastStatus (after (.laneRead 5#8 [15#8]) park) = some .notDefined :=
  ⟨fun r => (turns_of_ready (by decide) r).2.1, ⟨_, rfl⟩, by decide +kernel, by decide, by decide, by decide, ⟨_, rfl⟩, by decide,
    by decide, by decide, ⟨_, rfl⟩, by decide, by decide, ⟨_, rfl⟩, by decide, by decide, by decide +kernel,
    by decide +kernel, by decide +kernel, by decide +kernel⟩
/-- A cell that is its own neighbour; one that a later cell does not name back; a band's cell whose refuge lies in a band; a
dock in a band; a lane whose steps are no neighbours; a dock that is another slot's; a map without fault. -/
theorem test_meets_MapCheckNamesTheFirstFault :
    ready park = true ∧ TablesKept park ∧
      [ withCell 0 (fun z => { z with neighbours := [1, 0] }) park, withCell 5 (fun z => { z with neighbours := [4, 9] }) park,
        withCell 5 (fun z => { z with neighbours := [4, 1] }) park, withCell 3 (fun z => { z with refuge := some 9 }) park,
        withCell 3 (fun z => { z with refuge := some 1 }) park, withCell 2 (fun z => { z with band := 2#16 }) park,
        withCell 2 (fun z => { z with lane := some (1, 0) }) park, withCell 2 (fun z => { z with kind := .dock }) park,
        withCell 6 (fun z => { z with band := 1#16 }) park,
        { park with floor := { park.floor with lanes := park.floor.lanes.upd 0 fun r => { r with cells := [5, 2] } } },
        withCell 6 (fun z => { z with owner := some 1 }) park, park ].map (fun s => s.floor.mapFault) =
      [ some ⟨1, .cell 0, some 0⟩, some ⟨2, .cell 5, some 9⟩, some ⟨3, .cell 5, some 1⟩, some ⟨4, .cell 3, some 9⟩,
        some ⟨5, .cell 3, some 1⟩, some ⟨6, .cell 3, some 2⟩, some ⟨7, .cell 3, some 2⟩, some ⟨8, .cell 3, some 2⟩,
        some ⟨9, .cell 6, none⟩, some ⟨10, .lane 0 1, some 5⟩, some ⟨11, .slot 2, some 6⟩, none ] :=
  ⟨by decide, (stands_of (by decide +kernel)).2, by decide +kernel⟩

/-- An OPEN entry, and one that fits no cell. -/
def entry (number kind : Nat) (neighbours : List Nat) : CellEntry :=
  { number := number, kind := kind, owner := none, zone := 31, floorClass := 7, band := 0#16, refuge := none
    neighbours := neighbours }

/-- The five checks of Table 1-2, and an entry that passes them all: a number above 511; a number named twice; a VOID
entry of an undefined cell, and of a lane's cell; a cell that is HELD; a new cell 511. -/
theorem test_meets_CellDefineChecksThenWrites :
    ready park = true ∧ park.control.mode = .standby ∧ (night rests).control.mode ≠ .standby ∧
      readEntries 1 [0x01#8, 0xFF#8, 1#8, 0xFF#8, 31#8, 7#8, 0#8, 0#8, 0xFF#8, 0xFF#8, 1#8, 0#8, 5#8] =
        some [entry 511 1 [5]] ∧
      ¬ (entry 512 1 [5]).number ≤ 511 ∧
      2 ≤ ([entry 9 1 [5], entry 9 1 [5]].map CellEntry.number).count 9 ∧
      ((entry 9 0 []).kind = 0 ∧ park.floor.cells.look 9 = none) ∧
      (∃ c, park.floor.cells.look 4 = some c ∧ c.lane ≠ none) ∧
      (∃ c, park.floor.cells.look 0 = some c ∧ (c.occ ≠ .free ∨ c.waiters ≠ [])) ∧
      ((entry 511 1 [5]).number ≤ 511 ∧ (entry 511 1 [5]).owner = none ∧ (entry 511 1 [5]).zone ≤ 31 ∧
        (entry 511 1 [5]).floorClass ≤ 7 ∧ (∀ n ∈ (entry 511 1 [5]).neighbours, n ≤ 511) ∧
        (entry 511 1 [5]).neighbours.Nodup ∧ park.floor.cells.look 511 = none) :=
  ⟨by decide, by decide, by decide, by decide +kernel, by decide, by decide, by decide, ⟨_, rfl, by decide⟩,
    ⟨_, rfl, by decide⟩, by decide⟩

/-- The map with lane 0 as given. -/
def withLane (g : Lane → Lane) : State := { park with floor := { park.floor with lanes := park.floor.lanes.upd 0 g } }

/-- Lane 15 made of cells 1 and 2; lane 0 taken away; and for each check of Table 4-2 cells, or a lane, that fail it. -/
theorem test_meets_LaneDefineChecksThenWrites :
    ready park = true ∧ park.control.mode = .standby ∧ be16s [0#8, 1#8, 0#8, 2#8] = [1, 2] ∧ [1, 2].Nodup ∧
      (∀ c ∈ [1, 2], c ≤ 511 ∧ ∃ x, park.floor.cells.look c = some x ∧ ∀ e, x.lane = some e → e.1 = 15) ∧
      (∃ x, park.floor.cells.look 1 = some x ∧ 2 ∈ x.neighbours) ∧ park.floor.lanes.look 15 = none ∧
      (∀ c ∈ [1, 2], ∀ x, park.floor.cells.look c = some x → x.occ = .free ∧ x.waiters = []) ∧
      (park.floor.lanes.look 0).isSome = true ∧
      (∀ c ∈ [4, 5], ∀ x, park.floor.cells.look c = some x → x.occ = .free ∧ x.waiters = []) ∧
      ((night rests).control.mode ≠ .standby ∧ 15 < (16#8 : Byte).toNat ∧ [1].length = 1 ∧ 16 < (List.range 17).length) ∧
      (511 < be16 2#8 0#8 ∧ 2 ≤ [1, 2, 1].count 1 ∧ park.floor.cells.look 511 = none ∧
        (park.floor.cells.look 4).map Cell.lane = some (some (0, 0)) ∧
        (park.floor.cells.look 1).map Cell.neighbours = some [0, 2, 6] ∧
        (park.floor.cells.look 0).map Cell.occ = some (.held 1) ∧
        ((withLane fun r => { r with holders := 1 }).floor.lanes.look 0).map Lane.holders = some 1) := by
  refine ⟨by decide, by decide, by decide, by decide, ?_, ⟨_, rfl, by decide⟩, by decide, ?_, by decide, ?_, by decide,
    by decide +kernel⟩
  · intro c h
    simp only [List.mem_cons, List.not_mem_nil, or_false] at h
    rcases h with rfl | rfl <;> exact ⟨by decide, _, rfl, nofun⟩
  all_goals
    intro c h x e
    simp only [List.mem_cons, List.not_mem_nil, or_false] at h
    rcases h with rfl | rfl <;> cases e <;> exact ⟨rfl, rfl⟩

/-- Line 15 with every field at an end of its range; a line under embargo, with nobody waiting. -/
theorem test_meets_LineSetupReplacesAndRestarts :
    ready park = true ∧ park.control.mode = .standby ∧ (night rests).control.mode ≠ .standby ∧
      (1 ≤ (1#8 : Byte).toNat ∧ be16 3#8 0xE8#8 ≤ 1000 ∧ be16 3#8 0xE8#8 + 1 ≤ be16 3#8 0xE9#8 ∧ be16 7#8 8#8 ≤ 1800 ∧
        5 ≤ be16 1#8 0x2C#8 ∧ be16 1#8 0x2C#8 ≤ 300) ∧
      (∃ l, park.floor.lines.look 15 = some l ∧ l.state = .quiet) ∧
      (∃ l, (withLine 15 (fun r => { r with state := .clear }) park).floor.lines.look 15 = some l ∧ l.state ≠ .quiet) ∧
      NobodyWaits (withLine 15 (fun r => { r with state := .clear }) park).floor :=
  ⟨by decide, by decide, by decide, by decide, ⟨_, rfl, by decide⟩, ⟨_, rfl, by decide⟩,
    nobodyWaits_of (by decide +kernel)⟩
theorem test_meets_TimingSetupReadsOrReplaces : ready park = true ∧ ready (night rests) = true := by decide

/-- Slot 24 enrolled on a FREE dock 511 of its own that closes a lane; the refusals on the way. -/
def spareDock : State :=
  { park with floor := { park.floor with
      cells := park.floor.cells.put 511 { dockCell 24 [1] with occ := .free, lane := some (15, 1) }
      lanes := park.floor.lanes.put 15 { cells := [1, 511], dir := none, holders := 0, waiters := [] } } }

theorem test_meets_MachineEnrollChecksThenEnrols :
    ready spareDock = true ∧ spareDock.control.mode = .standby ∧ (spareDock.floor.machines.look 1).isSome = true ∧
      spareDock.floor.machines.look 24 = none ∧ spareDock.floor.cells.look 510 = none ∧
      (∃ c, spareDock.floor.cells.look 0 = some c ∧ c.owner ≠ some 24) ∧
      (∃ c, (withCell 511 (fun z => { z with embargo := 1 }) spareDock).floor.cells.look 511 = some c ∧ c.kind = .dock ∧
        c.owner = some 24 ∧ c.embargo ≠ 0) ∧
      ∃ c, spareDock.floor.cells.look 511 = some c ∧ c.kind = .dock ∧ c.owner = some 24 ∧ c.occ = .free ∧
        c.embargo = 0 ∧ ∀ l i, c.lane = some (l, i) → (spareDock.floor.lanes.look l).isSome = true := by
  refine ⟨by decide, by decide, by decide, by decide, by decide, ⟨_, rfl, by decide⟩,
    ⟨_, rfl, by decide, by decide, by decide⟩, _, rfl, by decide, by decide, by decide, by decide, ?_⟩
  intro l i e; cases e; decide
theorem test_meets_FleetResetPutsTheFleetHome :
    ready park = true ∧ TablesKept park ∧ park.control.mode = .standby ∧ (night rests).control.mode ≠ .standby :=
  ⟨by decide, (stands_of (by decide +kernel)).2, by decide, by decide⟩

/-- No mark at time 0; two of them; a map with a fault; the evacuation input active. -/
theorem test_meets_NightBeginOpensTheNight :
    ready park = true ∧ TablesKept park ∧ park.control.mode = .standby ∧ park.evac.level = false ∧
      park.floor.mapFault = none ∧ NobodyWaits park.floor ∧
      (∀ i, ∀ m, park.marks.look i = some m → m = .empty) ∧
      ({ park with marks := park.marks.put 15 (.fired 0 .recalling) } : State).marks.look 15 =
        some (.fired 0 .recalling) ∧
      (withCell 0 (fun z => { z with owner := some 3 }) park).floor.mapFault = some ⟨11, .slot 1, some 0⟩ ∧
      ({ park with evac := ⟨50, true⟩ } : State).evac.level = true :=
  ⟨by decide, (stands_of (by decide +kernel)).2, by decide, by decide, by decide +kernel,
    nobodyWaits_of (by decide +kernel), all_looked (p := fun _ (m : Mark) => m = .empty) (by decide +kernel),
    by decide +kernel, by decide +kernel, by decide⟩

/-- Both parts at ends of their ranges; a base time of 29, and limits that do not fit as a set. -/
theorem test_meets_DryingSettingsAreReplacedOrClamped :
    ready park = true ∧ (3#8 : Byte).getLsbD 0 = (some (List.replicate 8 3600)).isSome ∧
      (3#8 : Byte).getLsbD 1 = (some (1, 1, 7200, 7200)).isSome ∧ (∀ b ∈ List.replicate 8 3600, 30 ≤ b ∧ b ≤ 3600) ∧
      ([30, 29][1]? = some 29 ∧ ¬ (30 ≤ 29 ∧ 29 ≤ 3600)) ∧ ¬ (61 ≤ 60) ∧
      (100 < (101#8 : Byte).toNat ∧ (0xF5#8 : Byte).toInt < -10 ∧ 40 < (41#8 : Byte).toInt) := by decide +kernel

/-- Mark 15 at 86,399; mark 16. -/
theorem test_meets_MarksAreSetAndCleared :
    ready park = true ∧ (15#8 : Byte).toNat ≤ 15 ∧ 15 < (16#8 : Byte).toNat ∧
      (1#8 : Byte).toNat * 65536 + (0x51#8 : Byte).toNat * 256 + (0x7F#8 : Byte).toNat = 86399 ∧
      (31#8 : Byte).toNat ≤ 31 := by decide
theorem test_meets_NoticeCommandsSendWhatIsDue :
    ready park = true ∧ TablesKept park ∧ (12#8 : Byte).toNat ≤ 12 ∧ 12 < (13#8 : Byte).toNat ∧
      (11#8 : Byte).toNat ≤ 11 ∧ 11 < (12#8 : Byte).toNat ∧ (12#8 : Byte) ≠ 0xFF#8 :=
  ⟨by decide, (stands_of (by decide +kernel)).2, by decide⟩

/-- In RECALL, machine 1 ready with a staged leg. -/
def recalled : State := inMode .recalling (night { rests with staged := some wash })

/-- In EVACUATION with the saved mode given, machine 1's record as given. -/
def evacuated (saved : SavedMode) (x : Scrubber) : State :=
  { night x with control := { (night x).control with mode := .evacuation, saved := some saved } }

theorem test_meets_RecallAndContinueByMode :
    ready recalled = true ∧ TablesKept recalled ∧ recalled.control.mode = .recalling ∧ park.control.mode = .standby ∧
      (night rests).control.mode = .night ∧ (evacuated .night rests).control.saved = some .night ∧
      (evacuated .recalling rests).control.saved = some .recalling ∧
      (∃ x, recalled.floor.machines.look 1 = some x ∧ x.state = .idle ∧ x.active = none ∧ x.withdrawal = none ∧
        x.staged = some wash ∧ x.low = false) ∧
      ∃ x, recalled.floor.machines.look 2 = some x ∧ x.staged = none :=
  ⟨by decide, (stands_of (by decide +kernel)).2, by decide, by decide, by decide, by decide, by decide,
    ⟨_, rfl, by decide⟩, _, rfl, by decide⟩

/-- Every machine home; machine 1 away from its dock; an evacuation that halted machine 1 on the way. -/
theorem test_meets_NightsAndEvacuationsEnd :
    ready recalled = true ∧ TablesKept recalled ∧ recalled.control.mode = .recalling ∧
      (∀ m (x : Scrubber), recalled.floor.machines.look m = some x →
        x.state = .idle ∧ x.current = x.dock ∧ x.withdrawal = none) ∧
      (∃ x, (inMode .recalling onTheWay).floor.machines.look 1 = some x ∧ x.state = .running) ∧
      (let s := evacuated .night { drives with state := .halted, halts := { evac := true } }
       ready s = true ∧ ModeKept s ∧ TablesKept s ∧ NobodyWaits s.floor ∧ s.evac.level = false ∧
         s.control.saved = some .night ∧ ∃ x, s.floor.machines.look 1 = some x ∧ x.halts = { evac := true }) := by
  refine ⟨by decide, (stands_of (by decide +kernel)).2, by decide,
    all_looked (p := fun _ (x : Scrubber) => x.state = .idle ∧ x.current = x.dock ∧ x.withdrawal = none)
      (by decide +kernel), ⟨_, rfl, by decide⟩, by decide, ?_, (stands_of (by decide +kernel)).2,
    nobodyWaits_of (by decide +kernel), by decide, by decide, _, rfl, by decide⟩
  unfold ModeKept; decide +kernel

/-- In NIGHT at a clock value, with mark 15 as given. -/
def atClock (v : Nat) (m : Mark) : State :=
  { night rests with
    control := { (night rests).control with clock := v }, marks := (night rests).marks.put 15 m }

/-- Marks 3, 7 and 15 armed below; CLOCK SET fires them by time, then by index, the advance by index. A class that was
clear counts the recall of mark 15 too. -/
theorem test_meets_TheClockFiresItsMarks :
    (let armed (t7 : Nat) : State :=
       let s := atClock 9 (.armed 10 .recalling)
       { s with marks := (s.marks.put 3 (.armed 10 .noticeOnly)).put 7 (.armed t7 (.zoneClose 31)) }
     (armed 10).live = true ∧ TablesKept (armed 10) ∧
       ((List.range 16).filter fun i => decide ((armed 10).armedTime i = some (9 + 1))) = [3, 7, 15] ∧
       (armed 11).takesCommand ⟨0x24#8, 0#8, [0#8, 0#8, 11#8]⟩ = true ∧ TablesKept (armed 11) ∧
       (∀ n ∈ [3, 7, 15], ((armed 11).armedTime n).any (fun t => 9 < t && t ≤ 11) = true) ∧
       (∀ n ∈ [3, 7, 15], (((armed 11).armedTime 3).getD 0 < ((armed 11).armedTime n).getD 0 ∨
           ((armed 11).armedTime 3).getD 0 = ((armed 11).armedTime n).getD 0 ∧ 3 ≤ n) ∧
         ((armed 11).armedTime n).getD 0 ≤ ((armed 11).armedTime 7).getD 0) ∧
       ((after .clockAdvance (armed 10)).floor.notices.look 11).map (fun n => (n.count, n.first, n.last)) =
         some (4, some 3, some 15) ∧
       ((after (.clockSet 0#8 [0#8, 0#8, 11#8]) (armed 11)).floor.notices.look 11).map (fun n => (n.count, n.first, n.last)) =
         some (4, some 3, some 7)) ∧
    (atClock 86398 (.armed 86399 .recalling)).live = true ∧ TablesKept (atClock 86398 (.armed 86399 .recalling)) ∧
      (atClock 86398 (.armed 86399 .recalling)).marks.look 15 = some (.armed (86398 + 1) .recalling) ∧
      (1#8 : Byte).toNat * 65536 + (0x51#8 : Byte).toNat * 256 + (0x7F#8 : Byte).toNat ≤ 86399 ∧
      86399 < (1#8 : Byte).toNat * 65536 + (0x51#8 : Byte).toNat * 256 + (0x80#8 : Byte).toNat ∧
      86399 ≤ (atClock 86399 .empty).control.clock ∧ (atClock 86399 .empty).control.clockRunning = true ∧
      park.control.clockRunning = false ∧
      (atClock 0 (.armed 1 (.zoneClose 31))).marks.look 15 = some (.armed (0 + 1) (.zoneClose 31)) :=
  ⟨⟨by decide, (stands_of (by decide +kernel)).2, by decide +kernel, by decide, (stands_of (by decide +kernel)).2,
      by decide +kernel, by decide +kernel, by decide +kernel, by decide +kernel⟩,
    by decide, (stands_of (by decide +kernel)).2, by decide +kernel, by decide, by decide, by decide, by decide,
    by decide, by decide +kernel⟩
theorem test_meets_ZonesCloseAndOpen :
    ready (night rests) = true ∧ TablesKept (night rests) ∧ (night rests).control.mode ≠ .standby ∧
      (31#8 : Byte).toNat ≤ 31 ∧ 31 < (32#8 : Byte).toNat ∧ (night rests).control.zones.look 31 = some true ∧
      (after (.zoneClose 0#8 [31#8]) (night rests)).control.zones.look 31 = some false :=
  ⟨by decide, (stands_of (by decide +kernel)).2, by decide, by decide, by decide, by decide, by decide +kernel⟩

/-- The leg that `wash` names, loaded into machine 1: ready, or driving; the refusals on the way. -/
theorem test_meets_LegLoadChecksThenStages :
    ready (night rests) = true ∧ be16s [0#8, 0#8, 0#8, 1#8, 0#8, 2#8, 0#8, 3#8] = [0, 1, 2, 3] ∧
      [0#8, 0#8, 0#8, 1#8, 0#8, 2#8, 0#8, (3#8 : Byte)].length = 2 * (4#8 : Byte).toNat ∧
      (night rests).floor.machines.look 1 = some rests ∧ (night rests).floor.machines.look 24 = none ∧
      (∀ c ∈ [0, 1, 2, 3], (night rests).floor.cells.look c ≠ none) ∧
      (night rests).floor.routeFault 1 rests [0, 1, 2, 3] = none ∧
      (night rests).floor.routeFault 1 rests [0, 2] = some (1, 2) ∧
      (rests.state = .idle ∧ rests.active = none ∧ rests.withdrawal = none ∧ rests.staged = none ∧
        rests.refuge = none ∧ rests.request = none) ∧ drives.state ≠ .idle ∧ (night rests).floor.cells.look 511 = none := by
  decide +kernel
/-- A leg through both ends of the lane passes; one that reverses in it does not. -/
theorem test_meets_RouteTestsPassExactly :
    [0, 1, 2, 3, 4, 5] ≠ [] ∧ (∀ c ∈ [0, 1, 2, 3, 4, 5], (park.floor.cells.look c).isSome = true) ∧
      park.floor.routeFault 1 rests [0, 1, 2, 3, 4, 5] = none ∧ (park.floor.routeFault 1 rests [0, 1, 0]).isSome = true := by
  decide +kernel
/-- Machine 1 on its leg, with no WITHDRAW queued and with one queued behind another that names refuge 2. -/
theorem test_meets_LegCancelDiscardsOrWithdraws :
    (let x := { drives with
       withdrawal := some ⟨true, some 2, false⟩, outstanding := some (.withdraw true none), queue := [.withdraw false (some 2)] }
     ready (night x) = true ∧ (night x).floor.machines.look 1 = some x ∧ x.active ≠ none ∧ x.state ≠ .lost ∧
       queuedRefuge x = some 2 ∧ queuedRefuge drives = none ∧
       ((after (.legCancel 5#8 [1#8, 2#8]) (night x)).floor.machines.look 1).map (fun y => y.queue) =
         some [.withdraw true (some 2)]) ∧
    ready onTheWay = true ∧ onTheWay.control.mode ≠ .standby ∧ onTheWay.floor.machines.look 1 = some drives ∧
      drives.active ≠ none ∧ drives.staged = none ∧ drives.state ≠ .lost ∧
      (∃ x, recalled.floor.machines.look 1 = some x ∧ x.staged ≠ none ∧ x.active = none) ∧
      onTheWay.floor.machines.look 24 = none ∧ (1 ≤ (24#8 : Byte).toNat ∧ (24#8 : Byte).toNat ≤ 24) :=
  ⟨by decide +kernel, by decide, by decide, by decide +kernel, by decide, by decide, by decide, ⟨_, rfl, by decide⟩,
    by decide, by decide⟩
theorem test_meets_HaltAndResumeWriteHost :
    ready onTheWay = true ∧ TablesKept onTheWay ∧ onTheWay.control.mode ≠ .standby ∧ isSlot 25 = false ∧
      (∃ x, onTheWay.floor.machines.look 1 = some x ∧ x.state ≠ .lost ∧ x.halts = ⟨false, false, false, false⟩) ∧
      (∃ x, (night { rests with state := .lost }).floor.machines.look 1 = some x ∧ x.state = .lost) ∧
      TablesKept (night { rests with state := .halted, halts := { host := true } }) ∧
      ∃ x, (night { rests with state := .halted, halts := { host := true } }).floor.machines.look 1 = some x ∧
        x.halts.host = true :=
  ⟨by decide, (stands_of (by decide +kernel)).2, by decide, by decide, ⟨_, rfl, by decide, by decide⟩,
    ⟨_, rfl, by decide⟩, (stands_of (by decide +kernel)).2, _, rfl, by decide⟩

/-- Machine 1 LOST on its dock, which it blocks. -/
def lost : State := withCell 0 (fun z => { z with occ := .blocked 1 }) (night { rests with state := .lost, misses := 4 })

theorem test_meets_MachineRestoreChecksThenPlaces :
    ready lost = true ∧ TablesKept lost ∧ NobodyWaits lost.floor ∧ lost.floor.machines.look 24 = none ∧
      511 < be16 2#8 0#8 ∧ lost.floor.cells.look 511 = none ∧
      (∃ x, lost.floor.machines.look 1 = some x ∧ x.state = .lost ∧ x.withdrawal = none) ∧
      (∃ z, lost.floor.cells.look 0 = some z ∧ z.occ = .blocked 1 ∧ z.owner = some 1 ∧ z.embargo = 0) ∧
      (∃ x, lost.floor.machines.look 1 = some x ∧ x.queuedWithdraw = none) ∧
      (∃ z, (withCell 0 (fun z => { z with embargo := 1, refuge := some 2 }) lost).floor.cells.look 0 = some z ∧
        z.occ = .blocked 1 ∧ z.embargo ≠ 0) ∧
      (∃ z, lost.floor.cells.look 2 = some z ∧ z.occ = .free ∧ z.embargo = 0 ∧ z.kind ≠ .dock) ∧
      ∃ z, lost.floor.cells.look 6 = some z ∧ z.occ = .held 2 :=
  ⟨by decide, (stands_of (by decide +kernel)).2, nobodyWaits_of (by decide +kernel), by decide, by decide, by decide,
    ⟨_, rfl, by decide, by decide⟩, ⟨_, rfl, by decide, by decide, by decide⟩, ⟨_, rfl, by decide⟩,
    ⟨_, rfl, by decide, by decide⟩, ⟨_, rfl, by decide, by decide, by decide⟩, _, rfl, by decide⟩
theorem test_meets_MachineWithdrawEmptiesTheSlot :
    ready lost = true ∧ TablesKept lost ∧ NobodyWaits lost.floor ∧ lost.floor.machines.look 24 = none ∧
      (∃ x, lost.floor.machines.look 1 = some x ∧ x.state = .lost) ∧
      (∃ x, park.floor.machines.look 1 = some x ∧ x.state = .idle ∧ park.control.mode = .standby) ∧
      ∃ x, onTheWay.floor.machines.look 1 = some x ∧ x.state = .running :=
  ⟨by decide, (stands_of (by decide +kernel)).2, nobodyWaits_of (by decide +kernel), by decide, ⟨_, rfl, by decide⟩,
    ⟨_, rfl, by decide, by decide⟩, _, rfl, by decide⟩
theorem test_meets_RecordsAreCheckedBeforeUse :
    ready lost = true ∧ (0#8 : Byte).toNat < 1 ∧ 24 < (25#8 : Byte).toNat ∧ lost.floor.machines.look 24 = none ∧
      (∃ x, lost.floor.machines.look 1 = some x ∧ x.state = .lost) ∧ 4 < (5#8 : Byte).toNat ∧
      ∃ x, lost.floor.machines.look 2 = some x :=
  ⟨by decide, by decide, by decide, by decide, ⟨_, rfl, by decide⟩, by decide, _, rfl⟩

/-- A beacon on its moment, and one sooner than the early limit; the supplies that clear LOW for a staged leg. -/
theorem test_meets_BeaconsAreJudged :
    ready (night rests) = true ∧ (night rests).floor.machines.look 1 = some rests ∧ rests.state ≠ .lost ∧
      park.control.mode = .standby ∧ rests.lastBeacon = none ∧ rests.low = false ∧
      (let s := night { rests with lastBeacon := some 0 }
       ¬ s.control.timing.earlyLimit ≤ s.control.now - 0 ∧ rests.misses + 1 < s.control.timing.lostThreshold) ∧
      ((night rests).control.timing.batteryReserve + 5 ≤ min (25#8 : Byte).toNat 100 ∧
        (night rests).control.timing.waterReserve + 5 ≤ min (15#8 : Byte).toNat 100) ∧
      (night { rests with low := true, staged := some wash }).floor.machines.look 1 =
        some { rests with low := true, staged := some wash } := by decide +kernel

/-- Machine 1 one miss from the lost threshold: its beacon timer, its reply window, an early beacon. -/
theorem test_meets_TheLastMissLosesTheMachine :
    (let x := { drives with misses := 3, beaconTimer := some 5000, replyWindow := some 400, lastBeacon := some 0 }
     ready (night x) = true ∧ TablesKept (night x) ∧ (night x).floor.machines.look 1 = some x ∧ x.state ≠ .lost ∧
       (night x).control.timing.lostThreshold ≤ x.misses + 1 ∧ (night x).control.mode ≠ .standby ∧
       (night x).control.now - 0 < (night x).control.timing.earlyLimit) :=
  ⟨by decide, (stands_of (by decide +kernel)).2, by decide +kernel⟩

/-- An order that joins, one that replaces, two that merge, and the refuge GRANT that stands. -/
theorem test_meets_OrdersJoinReplaceOrMerge :
    park.floor.machines.look 24 = none ∧ park.floor.machines.look 1 = some rests ∧ rests.queue = [] ∧
      rests.outstanding = none ∧
      ([Order.motion false] = [] ++ .motion false :: [] ∧ (Order.motion false).kind = (Order.motion true).kind) ∧
      ((Order.withdraw false none).kind = 4 ∧ (Order.withdraw true (some 511)).kind = 4) ∧
      (let x := { rests with refuge := some 2, queue := [.answer (.grant [2] true)], outstanding := some (.motion true) }
       (night x).floor.machines.look 1 = some x ∧ x.refuge = some 2 ∧ x.outstanding ≠ none) := by decide +kernel

/-- Machine 1 driven to refuge 2, on its dock, and at cell 511 that nobody granted. -/
theorem test_meets_ArrivalsOffTheRouteAndRequests :
    (let x := { rests with refuge := some 2 }
     let s := withCell 2 (fun z => { z with occ := .held 1 }) (night x)
     ready s = true ∧ TablesKept s ∧ NobodyWaits s.floor ∧ s.floor.machines.look 1 = some x ∧ x.state ≠ .lost ∧
       2 ∉ x.ahead ∧ x.refuge = some 2 ∧ x.refuge ≠ some 0 ∧ x.current = 0 ∧ 511 ∉ x.ahead ∧ x.current ≠ 511 ∧
       (4#8 : Byte) ≠ 0#8) :=
  ⟨by decide, (stands_of (by decide +kernel)).2, nobodyWaits_of (by decide +kernel), by decide +kernel⟩

/-- Machine 1 arrives at the first or the second of two ahead cells, short of the end of its leg. -/
theorem test_meets_AcceptedArrivalsLeaveWetFloor :
    (let x := { drives with ahead := [1, 2] }
     let s := withCell 2 (fun z => { z with occ := .held 1 }) (withCell 1 (fun z => { z with occ := .held 1 }) (night x))
     ready s = true ∧ TablesKept s ∧ NobodyWaits s.floor ∧ s.floor.machines.look 1 = some x ∧ x.state ≠ .lost ∧
       (x.current :: x.ahead).Nodup ∧ x.ahead[0]? = some 1 ∧ x.ahead[1]? = some (be16 0#8 2#8) ∧
       x.active = some ⟨wash, 0⟩ ∧ 0 + 0 + 2 ≠ wash.cells.length ∧ 0 + 1 + 2 ≠ wash.cells.length ∧
       (dryingAnswer s.control.drying 0 2).2 = false ∧
       (dryingAnswer { s.control.drying with high := 678 } 0 2).2 = true ∧
       (let s := { s with control := { s.control with drying := { s.control.drying with high := 678 } } }
        ([0, 1].filter fun n => (s.floor.cells.look n).any fun z => (dryingAnswer s.control.drying z.floorClass 2).2) = [0, 1] ∧
          ((after (.arrive 1#8 [0#8, 2#8, 0#8]) s).floor.notices.look 10).map (fun n => (n.count, n.first, n.last)) =
            some (2, some 0, some 1))) :=
  ⟨by decide, (stands_of (by decide +kernel)).2, nobodyWaits_of (by decide +kernel), by decide +kernel⟩

/-- Machine 1 about to arrive at the end of its leg: with nothing staged, with a staged leg, with a withdrawal pending. -/
theorem test_meets_CompletionDecidesThePromotion :
    (let x := { drives with current := 2, ahead := [3], active := some ⟨wash, 2⟩ }
     let s := withCell 3 (fun z => { z with occ := .held 1 }) (withCell 2 (fun z => { z with occ := .held 1 }) (night x))
     ready s = true ∧ TablesKept s ∧ NobodyWaits s.floor ∧ s.floor.machines.look 1 = some x ∧ x.state ≠ .lost ∧
       (x.current :: x.ahead).Nodup ∧ x.ahead[0]? = some (be16 0#8 3#8) ∧ 2 + 0 + 2 = wash.cells.length ∧
       x.withdrawal = none ∧ x.staged = none ∧ x.low = false ∧
       (night { x with staged := some wash }).floor.machines.look 1 = some { x with staged := some wash } ∧
       (night { x with withdrawal := some ⟨true, none, false⟩ }).floor.machines.look 1 =
         some { x with withdrawal := some ⟨true, none, false⟩ }) :=
  ⟨by decide, (stands_of (by decide +kernel)).2, nobodyWaits_of (by decide +kernel), by decide +kernel⟩

/-- Machine 1 waits on cell 2, which was WET when it asked for two cells, and has become FREE. -/
def waiting : State :=
  withCell 2 (fun z => { z with occ := .free })
    (after (.request 1#8 [2#8]) (withCell 2 (fun z => { z with occ := .wet 9000 false }) (night starts)))

/-- Each of rows 1 to 5 of Table 2-5, and each row of Table 2-4; a machine that waits. -/
theorem test_meets_RequestAndGrantRowsInOrder :
    ready (night rests) = true ∧ (night rests).floor.machines.look 1 = some rests ∧ rests.state ≠ .waiting ∧
      rests.active = none ∧ (evacuated .night rests).control.mode = .evacuation ∧
      ({ rests with withdrawal := some ⟨false, none, false⟩ } : Scrubber).withdrawal ≠ none ∧
      wash.cells.drop (3 + 0 + 1) = [] ∧ wash.cells.drop (0 + 1 + 1) ≠ [] ∧ 4 ≤ [1, 2, 3, 4].length ∧
      (∃ z, park.floor.cells.look 1 = some z ∧ z.occ = .free ∧ z.embargo = 0 ∧ z.lane = none ∧
        park.control.zones.look z.zone = some true) ∧
      (∃ z, park.floor.cells.look 4 = some z ∧ z.lane = some (0, 0)) ∧
      (∃ z, park.floor.cells.look 6 = some z ∧ z.occ = .held 2) ∧
      (ready waiting = true ∧ TablesKept waiting ∧
        (waiting.floor.machines.look 1).map (fun x => (x.state, x.request)) =
          some (.waiting, some (.ordinary 2 (.cell 2)))) :=
  ⟨by decide, by decide +kernel, by decide, by decide, by decide, by decide, by decide, by decide, by decide,
    ⟨_, rfl, by decide, by decide, by decide, by decide +kernel⟩, ⟨_, rfl, by decide⟩, ⟨_, rfl, by decide⟩,
    by decide +kernel, (stands_of (by decide +kernel)).2, by decide +kernel⟩

/-- Machine 1 asks: every cell free; cell 2 held by a machine that does not wait; cell 1 held by one that waits for
machine 1's dock. -/
theorem test_meets_SpansAreGrantedWholeOrWaitedFor :
    ready (night starts) = true ∧ TablesKept (night starts) ∧ (night starts).floor.machines.look 1 = some starts ∧
      (starts.state = .idle ∧ starts.request = none ∧ starts.refuge = none ∧ starts.withdrawal = none ∧
        starts.active = some ⟨wash, 0⟩ ∧ wash.cells.drop 1 ≠ [] ∧ starts.ahead.length < 4) ∧
      (night starts).floor.firstFail (night starts).control 1 0 [1, 2, 3] [] = none ∧
      (let s := withCell 2 (fun z => { z with occ := .held 2 }) (night starts)
       s.floor.firstFail s.control 1 0 [1, 2, 3] [] = some (.cell 2, .occupied) ∧ s.floor.closesRing 1 (.cell 2) = false) ∧
      (let s := withSecond { Scrubber.enrolled 1 6 with state := .waiting, request := some (.ordinary 1 (.cell 0)) }
         (withCell 1 (fun z => { z with occ := .held 2 }) (night starts))
       TablesKept s ∧ s.floor.firstFail s.control 1 0 [1, 2, 3] [] = some (.cell 1, .occupied) ∧
         s.floor.closesRing 1 (.cell 1) = true) :=
  ⟨by decide, (stands_of (by decide +kernel)).2, by decide +kernel, by decide, by decide +kernel, by decide +kernel,
    (stands_of (by decide +kernel)).2, by decide +kernel⟩
theorem test_meets_TheRingSearchFindsEveryRing :
    park.floor.machines.wf 25 = true ∧ 0 ∉ park.floor.machines.keys := by decide

/-- Nothing outstanding; each kind outstanding; a LEG declined that is active, and one that is not. -/
theorem test_meets_AcksMatchByKind :
    (let o : Order := .leg wash.tag wash.flow wash.homing wash.cells
     let x := { drives with outstanding := some o }
     ready (night x) = true ∧ TablesKept (night x) ∧ (night x).floor.machines.look 1 = some x ∧ x.state ≠ .lost ∧
       x.outstanding.map Order.kind ≠ some (4#8 : Byte).toNat ∧ o.kind = (1#8 : Byte).toNat ∧
       x.active = some ⟨wash, 0⟩ ∧ (1#8 : Byte) ≠ 0#8 ∧ x.ahead ≠ [] ∧ starts.ahead = [] ∧
       (Order.answer .legEnd).kind = 2 ∧ (Order.motion true).kind = 3 ∧ wash.tag ≠ 8) :=
  ⟨by decide, (stands_of (by decide +kernel)).2, by decide +kernel⟩

/-- Machine 1 stopped on its own cell, on its ahead cell, elsewhere, with another WITHDRAW queued, with a completion deferred
and a leg staged; on cell 3 under embargo, whose refuge 2 is free, ahead, or held. -/
theorem test_meets_WithdrawAcksSettleTheMachine :
    (let x := { drives with outstanding := some (.withdraw true none), withdrawal := some ⟨true, none, false⟩ }
     let s := withCell 1 (fun z => { z with occ := .held 1 }) (night x)
     ready s = true ∧ TablesKept s ∧ NobodyWaits s.floor ∧ s.floor.machines.look 1 = some x ∧ x.state ≠ .lost ∧
       x.state ≠ .waiting ∧ x.queue = [] ∧ (x.current :: x.ahead).Nodup ∧ 511 ∉ x.current :: x.ahead ∧
       (s.floor.cells.look x.current).map Cell.embargo = some 0 ∧ be16 0#8 1#8 ∈ x.ahead ∧
       (s.floor.cells.look 1).map Cell.embargo = some 0 ∧ x.withdrawal ≠ none ∧
       (let y := { x with
          outstanding := some (.withdraw false none), queue := [.withdraw true none], staged := some wash
          withdrawal := some ⟨false, none, true⟩ }
        (night y).floor.machines.look 1 = some y ∧ (y.queue.find? fun o => decide (o.kind = 4)) ≠ none)) ∧
    (let x := { rests with
       outstanding := some (.withdraw false none), staged := some wash, withdrawal := some ⟨false, none, true⟩ }
     ready (night x) = true ∧ TablesKept (night x) ∧ NobodyWaits (night x).floor ∧
       (night x).floor.machines.look 1 = some x ∧ x.queue = [] ∧ x.low = false ∧ (night x).control.mode = .night) ∧
    (let x := { rests with current := 3, outstanding := some (.withdraw true (some 2)) }
     let s := withCell 3 (fun z => { z with occ := .held 1, embargo := 1 }) (night x)
     ready s = true ∧ TablesKept s ∧ NobodyWaits s.floor ∧ s.floor.machines.look 1 = some x ∧ x.refuge = none ∧
       x.request = none ∧ (s.floor.cells.look 3).map (fun z => (z.embargo, z.refuge)) = some (1, some 2) ∧ 2 ≠ x.current ∧
       (s.floor.cells.look 2).map (fun q => (q.occ, q.embargo)) = some (.free, 0) ∧ 2 ∉ x.ahead ∧
       2 ∈ ({ x with ahead := [2] } : Scrubber).ahead ∧
       ((withCell 2 (fun q => { q with occ := .held 2 }) s).floor.cells.look 2).map Cell.occ = some (.held 2)) :=
  ⟨⟨by decide, (stands_of (by decide +kernel)).2, nobodyWaits_of (by decide +kernel), by decide +kernel⟩,
    ⟨by decide, (stands_of (by decide +kernel)).2, nobodyWaits_of (by decide +kernel), by decide +kernel⟩,
    by decide, (stands_of (by decide +kernel)).2, nobodyWaits_of (by decide +kernel), by decide +kernel⟩

/-- A first safe stop, and the fourth, over the stand-down threshold of 3; machines that MACHINE halts alone, and with
HOST; one that is STOOD_DOWN. -/
theorem test_meets_FaultStopsAndRestarts :
    ready onTheWay = true ∧ TablesKept onTheWay ∧ onTheWay.floor.machines.look 1 = some drives ∧ drives.state ≠ .lost ∧
      drives.state ≠ .stoodDown ∧ (1#8 : Byte) ≠ 0#8 ∧ drives.safeStops + 1 ≤ onTheWay.control.timing.standDown ∧
      (night { drives with safeStops := 3 }).control.timing.standDown < 3 + 1 ∧
      ({ machine := true } : Halts) ≠ { host := true, machine := true } ∧ drives.halts.machine = false ∧
      (night { rests with state := .halted, halts := { machine := true } }).floor.machines.look 1 =
        some { rests with state := .halted, halts := { machine := true } } ∧
      (night { rests with state := .stoodDown }).floor.machines.look 1 = some { rests with state := .stoodDown } :=
  ⟨by decide, (stands_of (by decide +kernel)).2, by decide +kernel⟩

/-- Machine 1 with every timer running and its order in the transmitter; machine 2 with none. -/
theorem test_meets_MachineTimersRunOut :
    (let x := { drives with
       replyWindow := some 400, outstanding := some (.motion true), beaconTimer := some 400, progress := some 400 }
     let s : State := { night x with floor := { (night x).floor with fleetTx := [⟨1, .motion true⟩] } }
     ready s = true ∧ TablesKept s ∧ s.floor.machines.look 1 = some x ∧ (∃ o ∈ s.floor.fleetTx, o.slot = 1) ∧
       (∀ o ∈ s.floor.fleetTx, o.slot ≠ 2) ∧ x.misses + 1 < s.control.timing.lostThreshold ∧
       rests.replyWindow = none ∧ rests.beaconTimer = none ∧ rests.progress = none) :=
  ⟨by decide, (stands_of (by decide +kernel)).2, by decide +kernel⟩

/-- Machine 1, rank 0, and machine 2, rank 1, wait on cell 1. -/
def contested : State :=
  withCell 1 (fun z => { z with occ := .guarded 5000, waiters := [⟨2, false⟩, ⟨1, false⟩] })
    (withSecond { Scrubber.enrolled 1 6 with state := .waiting, request := some (.ordinary 1 (.cell 1)) }
      (night { starts with
        state := .waiting, request := some (.ordinary 1 (.cell 1)), active := some ⟨{ wash with cells := [0, 1] }, 0⟩ }))

/-- A WET cell with nobody waiting, under embargo, and with a refuge waiter; a contested cell in GUARD. -/
theorem test_meets_IntervalsRunOutAndOffer :
    (let s := withCell 2 (fun z => { z with occ := .wet 9000 true, waiters := [⟨1, true⟩] })
       (night { rests with request := some (.refuge 2) })
     ready s = true ∧ TablesKept s ∧
       (s.floor.cells.look 2).map (fun z => (z.occ, z.embargo, z.waiters)) = some (.wet 9000 true, 0, [⟨1, true⟩]) ∧
       s.floor.machines.look 1 = some { rests with request := some (.refuge 2) }) ∧
    ((park.floor.cells.look 2).map Cell.waiters = some [] ∧ (1 : Nat) ≠ 0 ∧
      (evacuated .night rests).control.mode = .evacuation) ∧
    (ready contested = true ∧ TablesKept contested ∧
      (contested.floor.cells.look 1).map (fun z => (z.occ, z.embargo, z.lane, z.waiters)) =
        some (.guarded 5000, 0, none, [⟨2, false⟩, ⟨1, false⟩]) ∧
      (contested.floor.machines.look 1).map (fun x => (x.rank, x.state, x.request, x.refuge, x.ahead)) =
        some (0, .waiting, some (.ordinary 1 (.cell 1)), none, []) ∧
      (contested.floor.machines.look 2).map Scrubber.rank = some 1 ∧ [0, 1].drop (0 + 0 + 1) = [1] ∧
      contested.control.zones.look 0 = some true ∧ contested.control.mode ≠ .evacuation) :=
  ⟨⟨by decide, (stands_of (by decide +kernel)).2, by decide +kernel⟩, by decide +kernel,
    by decide, (stands_of (by decide +kernel)).2, rfl, rfl, rfl, rfl, rfl, by decide⟩

/-- Machine 1 waits on cell 2, FREE now: its span 1, 2 is grantable, or fails at cell 1, whose holder rests, or waits for
machine 1's dock. Machine 1 waits on lane 0, which nobody holds. A cell under embargo; a lane with a holder. -/
theorem test_meets_WaitersAreGrantedOrMovedAtOffers :
    (waiting.floor.cells.wf 512 = true ∧ waiting.floor.lanes.wf 16 = true ∧ waiting.floor.machines.wf 25 = true ∧
      waiting.floor.notices.keys = List.range 12 ∧ waiting.control.mode ≠ .evacuation ∧
      (waiting.floor.machines.look 1).map (fun x => (x.rank, x.state, x.request)) =
        some (0, .waiting, some (.ordinary 2 (.cell 2))) ∧
      (waiting.floor.machines.look 1).map (fun x => (x.refuge, x.active, x.ahead)) = some (none, some ⟨wash, 0⟩, []) ∧
      (waiting.floor.cells.look 2).map (fun z => (z.occ, z.embargo, z.waiters)) = some (.free, 0, [⟨1, false⟩]) ∧
      waiting.control.zones.look 0 = some true) ∧
    ([ waiting, withCell 1 (fun z => { z with occ := .held 2 }) waiting,
       withSecond { Scrubber.enrolled 1 6 with state := .waiting, request := some (.ordinary 1 (.cell 0)) }
         (withCell 1 (fun z => { z with occ := .held 2 }) waiting) ].map fun s =>
        (s.floor.firstFail s.control 1 0 [1, 2] [], s.floor.closesRing 1 (.cell 1))) =
      [(none, false), (some (.cell 1, .occupied), false), (some (.cell 1, .occupied), true)] ∧
    (let x := { starts with
       current := 3, state := .waiting, request := some (.ordinary 1 (.lane 0))
       active := some ⟨{ wash with cells := [3, 4] }, 0⟩ }
     let s := night x
     let f := { s.floor with lanes := s.floor.lanes.upd 0 fun r => { r with waiters := [1] } }
     f.lanes.wf 16 = true ∧ f.machines.look 1 = some x ∧ f.lanes.look 0 = some ⟨[4, 5], none, 0, [1]⟩ ∧
       f.laneOf 4 = some (0, 0) ∧ x.laneDirs.look 0 = none) ∧
    ((withCell 3 (fun z => { z with embargo := 1 }) park).floor.cells.look 3).map Cell.embargo = some 1 ∧
    ((withLane fun r => { r with holders := 1 }).floor.lanes.look 0).map Lane.holders = some 1 :=
  ⟨by decide +kernel, by decide +kernel, by decide +kernel, by decide +kernel, by decide +kernel⟩

/-- In NIGHT, machine 1 driving with cell 3 ahead, line 0 as given. -/
def underLine (g : Line → Line) : State :=
  withLine 0 (fun l => g { l with cfg := { l.cfg with enabled := true } })
    (withCell 3 (fun z => { z with occ := .held 1 }) (night { drives with current := 2, ahead := [3] }))

/-- A LEVEL line that rises; a pulse one above the runt width; a pulse line that is stuck. -/
theorem test_meets_EmbargoStartsWithdrawMachines :
    TablesKept (underLine id) ∧ ready (underLine id) = true ∧
      ((underLine id).floor.lines.look 0).map (fun l => (l.cfg.enabled, l.state, l.level, l.cfg.pulseMode)) =
        some (true, .quiet, false, false) ∧
      ((underLine fun l => { l with cfg := { l.cfg with pulseMode := true }, level := true, counter := 2, pulse := some 51 }).floor.lines.look 0).map
          (fun l => (l.level, l.cfg.pulseMode, l.stuck, decide (l.cfg.runt < l.pulse.getD 0), l.pulse.isSome,
            decide (2 ≤ l.counter ∧ l.counter ≤ l.cfg.threshold))) = some (true, true, false, true, true, true) ∧
      (underLine id).floor.machines.look 1 = some { drives with current := 2, ahead := [3] } ∧
      2 ∉ [3] ∧ (∃ z, (underLine id).floor.cells.look 3 = some z ∧ z.band.getLsbD 0 = true ∧ z.embargo = 0) :=
  ⟨(stands_of (by decide +kernel)).2, by decide, by decide +kernel, by decide +kernel, by decide +kernel, by decide,
    _, rfl, by decide, by decide⟩

/-- A disabled line; a line under embargo that rises, falls, ends or breaches; a runt of the runt width. -/
theorem test_meets_EdgesAndEndsOfAnEmbargo :
    TablesKept park ∧ (park.floor.lines.look 15).map (fun l => l.cfg.enabled) = some false ∧
      (let s := underLine fun l => { l with state := .clearing, hold := some 30000, clearTimer := some 45000 }
       ready s = true ∧ TablesKept s ∧ NobodyWaits s.floor ∧
         (s.floor.lines.look 0).map (fun l => (l.state, l.hold, l.clearTimer, l.level)) =
           some (.clearing, some 30000, some 45000, false)) ∧
      (let s := underLine fun l => { l with level := true, cfg := { l.cfg with pulseMode := true }, pulse := some 50 }
       TablesKept s ∧ (s.floor.lines.look 0).map (fun l => (l.level, l.stuck, decide (l.pulse.getD 0 ≤ l.cfg.runt))) =
         some (true, false, true)) ∧
      (let s := underLine fun l => { l with level := true, state := .clear, cfg := { l.cfg with holdTime := 0 } }
       TablesKept s ∧ (s.floor.lines.look 0).map (fun l => (l.level, l.cfg.pulseMode, l.cfg.holdTime, l.state)) =
         some (true, false, 0, .clear)) :=
  ⟨(stands_of (by decide +kernel)).2, by decide +kernel,
    ⟨by decide, (stands_of (by decide +kernel)).2, nobodyWaits_of (by decide +kernel), by decide +kernel⟩,
    ⟨(stands_of (by decide +kernel)).2, by decide +kernel⟩, (stands_of (by decide +kernel)).2, by decide +kernel⟩
theorem test_meets_EvacuationAndSilenceMoveTheMode :
    ready onTheWay = true ∧ TablesKept onTheWay ∧ onTheWay.evac.level = !true ∧ onTheWay.control.mode = .night ∧
      ({ onTheWay with evac := ⟨50, true⟩ } : State).evac.level = !false ∧ park.control.mode = .standby ∧
      onTheWay.control.silence = none ∧
      (after (.nightBegin 0#8 []) park).control.silence = some 120000 ∧
      TablesKept (after (.nightBegin 0#8 []) park) :=
  ⟨by decide, (stands_of (by decide +kernel)).2, by decide, by decide, by decide, by decide, by decide,
    by decide +kernel, (stands_of (by decide +kernel)).2⟩

/-- A counter that rises short of the threshold, and onto it; one that falls short of 0, and onto it; the same for the
evacuation input; a pulse at its maximum width. -/
theorem test_meets_SamplesMoveTheFilter :
    TablesKept (underLine id) ∧ ready (underLine id) = true ∧
      ((underLine id).floor.lines.look 0).map (fun l => (l.cfg.enabled, decide (1 ≤ l.cfg.threshold), l.counter)) =
        some (true, true, 0) ∧ 0 + 1 ≠ 20 ∧ 19 + 1 = 20 ∧ 20 - 1 ≠ 0 ∧ 1 - 1 = 0 ∧
      ((underLine fun l => { l with level := true, counter := 1 }).floor.lines.look 0).map
        (fun l => (l.level, l.counter, l.pulse)) = some (true, 1, none) ∧
      ((underLine fun l => { l with level := true, counter := 20, cfg := { l.cfg with pulseMode := true }, pulse := some 2000 }).floor.lines.look 0).map
        (fun l => (l.pulse, l.cfg.maxWidth)) = some (some 2000, 2000) ∧
      (1 ≤ park.control.timing.evacFilter ∧ park.evac.level = false ∧ 49 + 1 = park.control.timing.evacFilter) :=
  ⟨(stands_of (by decide +kernel)).2, by decide, by decide +kernel, by decide, by decide, by decide, by decide,
    by decide +kernel, by decide +kernel, by decide⟩
theorem test_meets_DryingTimesAreExactAndBounded :
    DryingKept park ∧ (7 ≤ 7) ∧ (1 ≤ 1 ∧ 3 ≤ 3) ∧ rawDryingTime 30 1 50 15 < park.control.drying.low ∧
      park.control.drying.high < rawDryingTime 3600 3 50 15 ∧
      (park.control.drying.low ≤ rawDryingTime 600 1 50 15 ∧ rawDryingTime 600 1 50 15 ≤ park.control.drying.high) := by
  unfold DryingKept; decide +kernel

end Sys2Proof.Tests
end

section
/-! SUPPORT. What the setting-up commands, NOTICE CLEAR, MACHINE WITHDRAW and the module's own events do, said once:
with `Worked` this is all that any command can do. -/

namespace Sys2Proof.Laws

open Sys2Proof Sys2Proof.Machine Sys2Proof.Safety

/-- What every related record keeps reads the same in both tables. -/
theorem Related.map_look {α β : Type} {r : α → α → Prop} {t u : Table α} {p : α → β} (h : Related r t u)
    (keeps : ∀ x y, r x y → p y = p x) (k : Nat) : (u.look k).map p = (t.look k).map p := by
  cases hx : t.look k with
  | none => rw [h.none hx]
  | some x =>
    obtain ⟨y, hy, rel⟩ := h.look k x hx
    simp [hy, keeps x y rel]

/-- The state `u` with one reply formed on it. -/
def Replied (u t : State) : Prop := ∃ kind ref status data, t = u.reply kind ref status data

/-- What an accepted command that is not floor work makes of the state `s` before its reply, with the checks it passed. -/
inductive Written (s : State) : Instr → State → Prop
  | cellDefine (ref body) (es : List CellEntry) (passed : s.floor.cellChecks es = none) :
      Written s (.cellDefine ref body) (s.takeFrame.onFloor fun _ f => es.foldl Floor.applyEntry f)
  | laneDefine (ref body) (l : Nat) (cs : List Nat) (passed : s.floor.laneChecks l cs = none) :
      Written s (.laneDefine ref body) (s.takeFrame.onFloor fun _ f => f.defineLane l cs)
  | lineSetup (ref body) (i : Nat) (cfg : LineConfig) :
      Written s (.lineSetup ref body) (s.takeFrame.onFloor fun k f => f.setupLine k i cfg)
  | timingSetup (ref body) (settings : Timing) : Written s (.timingSetup ref body) (s.takeFrame.replaceTiming settings)
  | machineEnroll (ref) (slot rank d1 d0 : Byte) (z : Cell) (known : isSlot slot.toNat = true)
      (absent : s.floor.machines.look slot.toNat = none) (dock : s.floor.cells.look (be16 d1 d0) = some z)
      (free : z.occ = .free) :
      Written s (.machineEnroll ref [slot, rank, d1, d0])
        (s.takeFrame.onFloor fun _ f => f.enroll slot.toNat rank.toNat (be16 d1 d0))
  | fleetReset (ref body) : Written s (.fleetReset ref body) s.takeFrame.fleetReset
  | dryingSetup (ref body) (d : Drying) :
      Written s (.dryingSetup ref body) (s.takeFrame.onControl fun k => { k with drying := d })
  | environmentSet (ref body) (d : Drying) :
      Written s (.environmentSet ref body) (s.takeFrame.onControl fun k => { k with drying := d })
  | noticeControl (ref body) (mask : BitVec 16) (ceiling : Nat) :
      Written s (.noticeControl ref body) (s.takeFrame.onFloor fun _ f => Floor.sendAllDue
        { f with ceiling := ceiling, notices := f.notices.each fun n r => { r with enabled := mask.getLsbD n } })
  | noticeClear (ref body) (named : Nat → Bool) :
      Written s (.noticeClear ref body) (s.takeFrame.onFloor fun _ f => Floor.sendAllDue
        { f with notices := f.notices.each fun n r => if named n then r.cleared else r })
  | machineWithdraw (ref) (slot : Byte) (x : Scrubber) (known : s.floor.machines.look slot.toNat = some x) :
      Written s (.machineWithdraw ref [slot]) (s.takeFrame.onFloor fun k f => f.withdraw k slot.toNat)

/-- LANE DEFINE's sixth check does not read the transmitter's backlog. -/
theorem laneGap_heard (f : Floor) (backlog : List SupOut) (cs : List Nat) :
    ({ f with supTx := backlog } : Floor).laneGap cs = f.laneGap cs := by
  induction cs with
  | nil => rfl
  | cons p rest ih =>
    cases rest with
    | nil => rfl
    | cons c rest => simp only [Floor.laneGap, ih]

/-- LANE DEFINE's checks do not read the transmitter's backlog. -/
@[simp] theorem laneChecks_heard (f : Floor) (backlog : List SupOut) (l : Nat) (cs : List Nat) :
    ({ f with supTx := backlog } : Floor).laneChecks l cs = f.laneChecks l cs := by
  simp only [Floor.laneChecks, laneGap_heard]; rfl

/-- A command that is taken is answered on the state that its action leaves. -/
theorem command_cases {kind ref : Byte} {body : List Byte} {act : Action} {s t : State}
    (e : command kind ref body act s = .next t) :
    t = s ∨ s.takesCommand ⟨kind, ref, body⟩ = true ∧ Replied (act s.takeFrame).1 t := by
  cases e
  cases turn : s.takesCommand ⟨kind, ref, body⟩ with
  | false => exact .inl (if_neg (by simp))
  | true => exact .inr ⟨rfl, _, _, _, _, if_pos rfl⟩

/-- The floor of a refused command: nothing is written on it but the transmitter's backlog. -/
structure Refused (s t : State) : Prop where
  work : Worked s t
  floor : ∃ backlog, t.floor = { s.floor with supTx := backlog }

theorem Refused.refl (s : State) : Refused s s := ⟨.refl s, _, rfl⟩

theorem Refused.trans {s t u : State} (a : Refused s t) (b : Refused t u) : Refused s u := by
  obtain ⟨work, _, floor⟩ := a
  obtain ⟨work', backlog, floor'⟩ := b
  exact ⟨work.trans work', backlog, by rw [floor', floor]⟩

theorem refused_takeFrame (s : State) : Refused s s.takeFrame := ⟨worked_takeFrame s, _, rfl⟩

theorem refused_badLength (s : State) : Refused s (badLength s).1 := ⟨worked_badLength s, _, rfl⟩

theorem refused_replied {s u t : State} (h : Refused s u) (r : Replied u t) : Refused s t := by
  obtain ⟨kind, ref, status, data, rfl⟩ := r
  exact h.trans ⟨worked_reply _ _ _ _ _, _, rfl⟩

/-- What a command's action makes of the state `s` whose frame it has taken. -/
inductive Effect (s : State) (c : Instr) (u : State) : Prop
  | refused (same : Refused s.takeFrame u)
  | written (write : Written s c u)

/-- A command whose action has an `Effect` is refused, or writes and is answered. -/
theorem command_written {kind ref : Byte} {body : List Byte} {act : Action} {c : Instr} {s t : State}
    (h : Effect s c (act s.takeFrame).1) (e : command kind ref body act s = .next t) :
    Refused s t ∨ ∃ u, Written s c u ∧ Replied u t := by
  rcases command_cases e with rfl | ⟨-, replied⟩
  · exact .inl (.refl _)
  · rcases h with same | write
    · exact .inl (refused_replied ((refused_takeFrame s).trans same) replied)
    · exact .inr ⟨_, write, replied⟩

theorem cellDefine_written (ref : Byte) (body : List Byte) (s t : State) (e : exec (.cellDefine ref body) s = .next t) :
    Refused s t ∨ ∃ u, Written s (.cellDefine ref body) u ∧ Replied u t := by
  refine command_written ?_ e
  split
  · next count bytes =>
    cases readEntries count.toNat bytes with
    | none => exact .refused (refused_badLength _)
    | some es =>
      simp only [State.cellDefine]
      split
      · exact .refused (.refl _)
      · split
        · exact .refused (.refl _)
        · split
          · exact .refused (.refl _)
          · next passed => exact .written (.cellDefine ref _ es passed)
  · exact .refused (refused_badLength _)

theorem laneDefine_written (ref : Byte) (body : List Byte) (s t : State) (e : exec (.laneDefine ref body) s = .next t) :
    Refused s t ∨ ∃ u, Written s (.laneDefine ref body) u ∧ Replied u t := by
  refine command_written ?_ e
  split
  · split
    · unfold State.laneDefine
      split
      · exact .refused (.refl _)
      · split
        · exact .refused (.refl _)
        · exact .refused (.refl _)
        · next passed => exact .written (.laneDefine ref _ _ _ (by simpa using passed))
    · exact .refused (refused_badLength _)
  · exact .refused (refused_badLength _)

theorem lineSetup_written (ref : Byte) (body : List Byte) (s t : State) (e : exec (.lineSetup ref body) s = .next t) :
    Refused s t ∨ ∃ u, Written s (.lineSetup ref body) u ∧ Replied u t := by
  refine command_written ?_ e
  split
  · unfold State.lineSetup
    split
    · exact .refused (.refl _)
    · split
      · exact .refused (.refl _)
      · next cfg _ =>
        split
        · exact .written (.lineSetup ref _ _ cfg)
        · exact .refused (.refl _)
  · exact .refused (refused_badLength _)

theorem timingSetup_written (ref : Byte) (body : List Byte) (s t : State)
    (e : exec (.timingSetup ref body) s = .next t) :
    Refused s t ∨ ∃ u, Written s (.timingSetup ref body) u ∧ Replied u t := by
  refine command_written ?_ e
  split
  · exact .refused (.refl _)
  · cases readTiming body with
    | none => exact .refused (refused_badLength _)
    | some settings =>
      simp only [State.timingSetup]
      split
      · exact .refused (.refl _)
      · split
        · exact .refused (.refl _)
        · exact .written (.timingSetup ref body settings)

theorem machineEnroll_written (ref : Byte) (body : List Byte) (s t : State)
    (e : exec (.machineEnroll ref body) s = .next t) :
    Refused s t ∨ ∃ u, Written s (.machineEnroll ref body) u ∧ Replied u t := by
  refine command_written ?_ e
  split
  · next slot rank d1 d0 =>
    unfold State.enroll
    split
    · exact .refused (.refl _)
    · split
      · exact .refused (.refl _)
      · next range =>
        split
        · exact .refused (.refl _)
        · next absent =>
          split
          · exact .refused (.refl _)
          · next z dock =>
            split
            · exact .refused (.refl _)
            · split
              · next free =>
                exact .written (.machineEnroll ref slot rank d1 d0 z (by simpa using fun h => range (.inl h))
                  (by simpa using absent) dock free.1)
              · exact .refused (.refl _)
  · exact .refused (refused_badLength _)

theorem fleetReset_written (ref : Byte) (body : List Byte) (s t : State) (e : exec (.fleetReset ref body) s = .next t) :
    Refused s t ∨ ∃ u, Written s (.fleetReset ref body) u ∧ Replied u t := by
  refine command_written ?_ e
  unfold withoutBody
  split
  · simp only
    split
    · exact .refused (.refl _)
    · exact .written (.fleetReset ref body)
  · exact .refused (refused_badLength _)

theorem dryingSetup_written (ref : Byte) (body : List Byte) (s t : State)
    (e : exec (.dryingSetup ref body) s = .next t) :
    Refused s t ∨ ∃ u, Written s (.dryingSetup ref body) u ∧ Replied u t := by
  refine command_written ?_ e
  split
  · refine iteInduction (motive := fun act : Action => Effect s _ (act s.takeFrame).1) (fun _ => ?_)
      fun _ => .refused (refused_badLength _)
    unfold State.dryingSetup
    split
    · exact .refused (.refl _)
    · exact .written (.dryingSetup ref _ _)
  · exact .refused (refused_badLength _)

theorem environmentSet_written (ref : Byte) (body : List Byte) (s t : State)
    (e : exec (.environmentSet ref body) s = .next t) :
    Refused s t ∨ ∃ u, Written s (.environmentSet ref body) u ∧ Replied u t := by
  refine command_written ?_ e
  split
  · exact .written (.environmentSet ref _ _)
  · exact .refused (refused_badLength _)

theorem noticeControl_written (ref : Byte) (body : List Byte) (s t : State)
    (e : exec (.noticeControl ref body) s = .next t) :
    Refused s t ∨ ∃ u, Written s (.noticeControl ref body) u ∧ Replied u t := by
  refine command_written ?_ e
  split
  · unfold State.noticeControl
    split
    · exact .refused (.refl _)
    · exact .written (.noticeControl ref _ _ _)
  · exact .refused (refused_badLength _)

theorem noticeClear_written (ref : Byte) (body : List Byte) (s t : State)
    (e : exec (.noticeClear ref body) s = .next t) :
    Refused s t ∨ ∃ u, Written s (.noticeClear ref body) u ∧ Replied u t := by
  refine command_written ?_ e
  split
  · split
    · exact .written (.noticeClear ref _ _)
    · split
      · exact .written (.noticeClear ref _ _)
      · exact .refused (.refl _)
  · exact .refused (refused_badLength _)

theorem machineWithdraw_written (ref : Byte) (body : List Byte) (s t : State)
    (e : exec (.machineWithdraw ref body) s = .next t) :
    Refused s t ∨ ∃ u, Written s (.machineWithdraw ref body) u ∧ Replied u t := by
  refine command_written ?_ e
  split
  · next slot =>
    unfold State.machineWithdraw
    split
    · exact .refused (.refl _)
    · split
      · exact .refused (.refl _)
      · next x known =>
        split
        · exact .written (.machineWithdraw ref slot x known)
        · exact .refused (.refl _)
  · exact .refused (refused_badLength _)

/-- All that a command can do: floor work, a write of `Written` with its reply, or an event of the whole module. -/
theorem exec_cases {c : Instr} {s t : State} (e : exec c s = .next t) :
    Worked s t ∨ (∃ u, Written s c u ∧ Replied u t) ∨ c = .fullReset ∧ t = { State.reset with pending := s.pending } ∨
      c = .resetInputHeld ∧ t = { s with resetHeld := true, floor := s.floor.openOutputs } ∨
      c = .powerLoss ∧ t = { s with powered := false, floor := s.floor.openOutputs } := by
  have written {c : Instr} (h : Refused s t ∨ ∃ u, Written s c u ∧ Replied u t) :=
    h.imp Refused.work (Or.inl (b := c = .fullReset ∧ t = { State.reset with pending := s.pending } ∨
      c = .resetInputHeld ∧ t = { s with resetHeld := true, floor := s.floor.openOutputs } ∨
      c = .powerLoss ∧ t = { s with powered := false, floor := s.floor.openOutputs }))
  rcases exec_worked c s t e with
    ⟨r, b, rfl | rfl | rfl | rfl | rfl | rfl | rfl | rfl | rfl | rfl | rfl⟩ | rfl | rfl | rfl | work
  · exact written (cellDefine_written r b s t e)
  · exact written (laneDefine_written r b s t e)
  · exact written (lineSetup_written r b s t e)
  · exact written (timingSetup_written r b s t e)
  · exact written (machineEnroll_written r b s t e)
  · exact written (fleetReset_written r b s t e)
  · exact written (dryingSetup_written r b s t e)
  · exact written (environmentSet_written r b s t e)
  · exact written (noticeControl_written r b s t e)
  · exact written (noticeClear_written r b s t e)
  · exact written (machineWithdraw_written r b s t e)
  · cases e; exact .inr (.inr (.inl ⟨rfl, rfl⟩))
  · cases e; exact .inr (.inr (.inr (.inl ⟨rfl, rfl⟩)))
  · cases e; exact .inr (.inr (.inr (.inr ⟨rfl, rfl⟩)))
  · exact .inl work

/-- What every command keeps, and a new front of the queue and a passing millisecond leave alone, every step keeps. -/
theorem step_keeps {P : State → Prop} (queue : ∀ (s : State) rest, P s → P { s with pending := rest })
    (tick : ∀ s : State, P s → P (s.onControl fun k => { k with now := k.now + 1 }))
    (keeps : ∀ c s t, P s → exec c s = .next t → P t) {s t : State} (h : P s) (e : step s = .next t) : P t := by
  cases pending : s.pending with
  | cons c rest => exact keeps c _ t (queue s rest h) (step_cons pending ▸ e)
  | nil =>
    cases next : s.nextTaken with
    | some c => exact keeps c s t h (step_takes pending next ▸ e)
    | none => rw [step_idle pending next] at e; cases e; exact tick s h

end Sys2Proof.Laws
end

section
/-! ## The tables' canonical form (O5) -/

namespace Sys2Proof.Laws

open Sys2Proof Sys2Proof.Machine Sys2Proof.Safety

/-- The five tables of the floor list the same numbers. -/
structure SameNumbers (f g : Floor) : Prop where
  cells : g.cells.keys = f.cells.keys
  lanes : g.lanes.keys = f.lanes.keys
  machines : g.machines.keys = f.machines.keys
  lines : g.lines.keys = f.lines.keys
  notices : g.notices.keys = f.notices.keys

theorem SameNumbers.refl (f : Floor) : SameNumbers f f := ⟨rfl, rfl, rfl, rfl, rfl⟩

theorem SameNumbers.trans {f g h : Floor} (a : SameNumbers f g) (b : SameNumbers g h) : SameNumbers f h :=
  ⟨b.cells.trans a.cells, b.lanes.trans a.lanes, b.machines.trans a.machines, b.lines.trans a.lines,
    b.notices.trans a.notices⟩

theorem Moved.sameNumbers {calm : Prop} {f g : Floor} (h : Moved calm f g) : SameNumbers f g :=
  ⟨h.cells.keys, h.lanes.keys, h.machines.keys, h.lines.keys, h.notices.keys⟩

/-- The tables stay canonical where every table lists the same numbers. -/
theorem tablesKept_of_sameNumbers {s t : State} (h : TablesKept s) (floor : SameNumbers s.floor t.floor)
    (marks : t.marks.keys = s.marks.keys) (zones : t.control.zones.keys = s.control.zones.keys) : TablesKept t := by
  obtain ⟨cells, lanes, machines, slots, lines, notices, marked, zoned⟩ := h
  exact ⟨(Table.wf_of_keys floor.cells).trans cells, (Table.wf_of_keys floor.lanes).trans lanes,
    (Table.wf_of_keys floor.machines).trans machines, floor.machines ▸ slots, floor.lines.trans lines,
    floor.notices.trans notices, marks.trans marked, zones.trans zoned⟩

/-- Work on the floor that keeps the numbers keeps the tables canonical. -/
theorem tablesKept_onFloor {s : State} {g : Control → Floor → Floor} (h : TablesKept s)
    (floor : SameNumbers s.floor (g s.control s.floor)) : TablesKept (s.onFloor g) :=
  tablesKept_of_sameNumbers (t := s.onFloor g) h floor rfl rfl

theorem tablesKept_worked {s t : State} (w : Worked s t) (h : TablesKept s) : TablesKept t :=
  have floor := w.floor.sameNumbers
  tablesKept_of_sameNumbers h ⟨floor.cells, floor.lanes, floor.machines, floor.lines, floor.notices⟩ w.marks w.zones

/-- A write of the cells that is canonical keeps the tables so. -/
theorem tablesKept_cells {s : State} {cells : Table Cell} (h : TablesKept s) (wf : cells.wf Config.cellCount = true) :
    TablesKept { s with floor := { s.floor with cells := cells } } := ⟨wf, h.2⟩

/-- A write of the lanes that is canonical keeps the tables so. -/
theorem tablesKept_lanes {s : State} {lanes : Table Lane} (h : TablesKept s) (wf : lanes.wf Config.laneCount = true) :
    TablesKept { s with floor := { s.floor with lanes := lanes } } := ⟨h.1, wf, h.2.2⟩

/-- A write of the fleet that is canonical, without slot 0, keeps the tables so. -/
theorem tablesKept_machines {s : State} {machines : Table Scrubber} (h : TablesKept s)
    (wf : machines.wf (Config.slotCount + 1) = true) (slots : 0 ∉ machines.keys) :
    TablesKept { s with floor := { s.floor with machines := machines } } := by
  obtain ⟨cells, lanes, -, -, rest⟩ := h
  exact ⟨cells, lanes, wf, slots, rest⟩

/-- The fleet of a canonical state: the form of its table, and no slot 0. -/
theorem machines_of_tablesKept {s : State} (h : TablesKept s) :
    s.floor.machines.wf (Config.slotCount + 1) = true ∧ 0 ∉ s.floor.machines.keys := by
  obtain ⟨-, -, wf, slots, -⟩ := h
  exact ⟨wf, slots⟩

theorem sameNumbers_setupLine (k : Control) (f : Floor) (i : Nat) (cfg : LineConfig) :
    SameNumbers f (f.setupLine k i cfg) := by
  have line (f : Floor) (g : Line → Line) : SameNumbers f (f.modLine i g) :=
    ⟨rfl, rfl, rfl, Table.keys_upd _ _ _, rfl⟩
  exact ((line f _).trans (moved_endIfInForce k _ i).sameNumbers).trans (line _ _)

/-- R179, R180: a change of every class and the sending tests after it. -/
theorem sameNumbers_sendAllDue (f : Floor) (ceiling : Nat) (g : Nat → Notice → Notice) :
    SameNumbers f (Floor.sendAllDue { f with ceiling := ceiling, notices := f.notices.each g }) := by
  have changed : SameNumbers f { f with ceiling := ceiling, notices := f.notices.each g } :=
    ⟨rfl, rfl, rfl, rfl, Table.keys_each _ _⟩
  exact changed.trans (moved_sendAllDue (calm := True) _).sameNumbers

/-- R9, check 1: every entry of a list that passes the checks names a cell that exists. -/
theorem isCell_of_cellChecks {f : Floor} {es : List CellEntry} (passed : f.cellChecks es = none) :
    ∀ e ∈ es, isCell e.number = true := by
  intro e he
  have fit : firstPosition es (fun e => !e.wellFormed) = none := by
    have := List.findSome?_eq_none_iff.1 passed _ (List.mem_cons_self)
    simpa using this
  have wellFormed : e.wellFormed = true := by
    simpa using List.findIdx?_eq_none_iff.1 (Option.map_eq_none_iff.1 fit) e he
  unfold CellEntry.wellFormed at wellFormed
  split at wellFormed
  · exact wellFormed
  · simp only [Bool.and_eq_true] at wellFormed; simp [wellFormed]

/-- R11 to R13: one entry of an existing cell keeps the cells canonical, and leaves all else. -/
theorem applyEntry_cells_wf {f : Floor} {e : CellEntry} (number : isCell e.number = true)
    (h : f.cells.wf Config.cellCount = true) : (f.applyEntry e).cells.wf Config.cellCount = true := by
  unfold Floor.applyEntry
  split
  · exact Table.wf_del h
  · exact Table.wf_put h (by simpa [isCell] using number)

/-- CELL DEFINE writes the cells alone. -/
theorem applyEntry_frame (f : Floor) (e : CellEntry) : f.applyEntry e = { f with cells := (f.applyEntry e).cells } := by
  unfold Floor.applyEntry; split <;> rfl

theorem applyEntries_frame (es : List CellEntry) (f : Floor) :
    es.foldl Floor.applyEntry f = { f with cells := (es.foldl Floor.applyEntry f).cells } := by
  induction es generalizing f with
  | nil => rfl
  | cons e es ih => rw [List.foldl_cons, ih, applyEntry_frame]

theorem applyEntries_cells_wf (es : List CellEntry) (f : Floor) (numbers : ∀ e ∈ es, isCell e.number = true)
    (h : f.cells.wf Config.cellCount = true) : (es.foldl Floor.applyEntry f).cells.wf Config.cellCount = true := by
  induction es generalizing f with
  | nil => exact h
  | cons e es ih =>
    exact ih _ (fun e' he => numbers e' (List.mem_cons_of_mem _ he))
      (applyEntry_cells_wf (numbers e List.mem_cons_self) h)

/-- Table 4-2, check 1: a LANE DEFINE that passes the checks names a lane that exists. -/
theorem lane_lt_of_laneChecks {f : Floor} {l : Nat} {cs : List Nat} (passed : f.laneChecks l cs = none) :
    l < Config.laneCount := by
  unfold Floor.laneChecks at passed
  simp only at passed
  split at passed
  · cases passed
  · next range => simp only [not_or, not_not] at range; exact range.1

theorem defineLane_cells (f : Floor) (l : Nat) (cs : List Nat) :
    (f.defineLane l cs).cells = f.cells.each fun n c => c.joinLane l (cs.findIdx? fun m => decide (m = n)) := rfl

/-- R56: LANE DEFINE keeps cells and lanes canonical. -/
theorem defineLane_lanes_wf {f : Floor} {l : Nat} {cs : List Nat} (bound : l < Config.laneCount)
    (h : f.lanes.wf Config.laneCount = true) : (f.defineLane l cs).lanes.wf Config.laneCount = true := by
  unfold Floor.defineLane
  simp only
  split
  · exact Table.wf_del h
  · exact Table.wf_put h bound

theorem moved_dockMachine {calm : Prop} (f : Floor) (m : Nat) : Moved calm f (f.dockMachine m) := by
  unfold Floor.dockMachine
  split
  · exact .after (moved_place _ _ _) (moved_setOcc _ _ _)
  · exact .refl _ _

/-- R106: the work of a MACHINE WITHDRAW before the slot is emptied. -/
theorem moved_withdrawReleases {calm : Prop} (k : Control) (f : Floor) (m : Nat) :
    Moved calm f ((f.cellsOf m).foldl (Floor.release k m) ((f.leaveWait m).flushOrders m)) :=
  .after (.foldl (fun g c => moved_release k m g c) _ _) (.after (moved_flushOrders _ _) (moved_leaveWait _ _))

/-- Entries picked from a table list some of its numbers, in their order. -/
theorem keys_filter_sublist {α : Type} (t : Table α) (p : Nat × α → Bool) :
    (Table.keys (t.filter p)).Sublist t.keys := List.filter_sublist.map _

theorem wf_filter {α : Type} {bound : Nat} {t : Table α} (p : Nat × α → Bool) (h : t.wf bound = true) :
    Table.wf bound (t.filter p) = true := by
  rw [Table.wf_iff] at h ⊢
  exact ⟨h.1.sublist (keys_filter_sublist t p), fun k hk => h.2 k ((keys_filter_sublist t p).subset hk)⟩

/-- R168 step 2: the fleet with the machines whose dock is no longer their own taken out, and the others newly
enrolled. -/
def fitFleet (f : Floor) : Table Scrubber :=
  Table.each (f.machines.filter fun e => f.dockFit e.1 e.2.dock) fun _ x => Scrubber.enrolled x.rank x.dock

/-- R168 steps 1 to 4: the concourse cleared, with the fleet enrolled and not yet on its docks. -/
def clearedFloor (f : Floor) : Floor :=
  { f with
    fleetTx := [], fleetCounters := {}, machines := fitFleet f, cells := f.cells.each fun _ c => c.fleetReset
    lanes := f.lanes.each fun _ r => { r with dir := none, holders := 0, waiters := [] } }

/-- R168 step 5: the fleet put on its docks. -/
def dockedFloor (f : Floor) : Floor := (fitFleet f).keys.foldl Floor.dockMachine (clearedFloor f)

/-- R168 step 6: the embargo counts taken from the lines. -/
def recounted (g : Floor) : Floor := { g with cells := g.cells.each fun _ c => { c with embargo := g.embargoFor c.band } }

/-- R168: the steps of FLEET RESET over the floor by name. -/
theorem fleetReset_eq (k : Control) (f : Floor) : f.fleetReset k =
    let g := recounted (dockedFloor f)
    { g with
      lines := g.lines.each fun i l => l.fleetReset k.now (g.bandTaken i)
      notices := g.notices.each fun _ n => n.cleared } := rfl

/-- What FLEET RESET leaves of the numbers: those of the fit machines. -/
theorem sameNumbers_fleetReset (k : Control) (f : Floor) : SameNumbers { f with machines := fitFleet f } (f.fleetReset k) := by
  have docked : SameNumbers (clearedFloor f) (dockedFloor f) :=
    (Moved.foldl (calm := True) moved_dockMachine (fitFleet f).keys (clearedFloor f)).sameNumbers
  have cleared : SameNumbers { f with machines := fitFleet f } (clearedFloor f) :=
    ⟨by simp [clearedFloor], by simp [clearedFloor], rfl, rfl, rfl⟩
  rw [fleetReset_eq]
  exact (cleared.trans docked).trans ⟨by simp [recounted], rfl, rfl, by simp [recounted], by simp [recounted]⟩

theorem keys_fitFleet (f : Floor) :
    (fitFleet f).keys = Table.keys (f.machines.filter fun e => f.dockFit e.1 e.2.dock) := Table.keys_each _ _

theorem tablesKept_fleetReset {s : State} (h : TablesKept s) : TablesKept s.fleetReset := by
  have fit : TablesKept { s with floor := { s.floor with machines := fitFleet s.floor } } := by
    obtain ⟨wf, slots⟩ := machines_of_tablesKept h
    exact tablesKept_machines h (Table.wf_each (wf_filter _ wf))
      fun zero => slots ((keys_filter_sublist _ _).subset (keys_fitFleet s.floor ▸ zero))
  exact tablesKept_of_sameNumbers fit (sameNumbers_fleetReset s.control s.floor) rfl
    (by simp [State.fleetReset, Control.openZones])

theorem tablesKept_written {s u : State} {c : Instr} (w : Written s c u) (h : TablesKept s) : TablesKept u := by
  have taken : TablesKept s.takeFrame := h
  cases w with
  | cellDefine ref body es passed =>
    rw [State.onFloor, applyEntries_frame]
    exact tablesKept_cells taken (applyEntries_cells_wf es _ (isCell_of_cellChecks passed) h.1)
  | laneDefine ref body l cs passed =>
    have cells : (s.floor.defineLane l cs).cells.wf Config.cellCount = true := by
      rw [defineLane_cells]; exact Table.wf_each h.1
    have lanes : (s.floor.defineLane l cs).lanes.wf Config.laneCount = true :=
      defineLane_lanes_wf (lane_lt_of_laneChecks passed) h.2.1
    exact tablesKept_lanes (tablesKept_cells taken (cells := (s.floor.defineLane l cs).cells) cells) lanes
  | lineSetup ref body i cfg => exact tablesKept_onFloor taken (sameNumbers_setupLine _ _ i cfg)
  | timingSetup ref body settings =>
    exact tablesKept_of_sameNumbers taken ⟨rfl, rfl, by simp [State.replaceTiming], rfl, rfl⟩ rfl rfl
  | machineEnroll ref slot rank d1 d0 z known absent dock free =>
    obtain ⟨wf, slots⟩ := machines_of_tablesKept h
    simp only [isSlot, Bool.and_eq_true, decide_eq_true_eq] at known
    have enrolled := tablesKept_machines taken
      (Table.wf_put (v := Scrubber.enrolled rank.toNat (be16 d1 d0)) wf (k := slot.toNat) (by omega))
      fun zero => ((Table.keys_put_mem _ _ _ _).1 zero).elim (by omega) slots
    exact tablesKept_of_sameNumbers enrolled (moved_dockMachine (calm := True) _ _).sameNumbers rfl rfl
  | fleetReset ref body => exact tablesKept_fleetReset taken
  | dryingSetup ref body d => exact taken
  | environmentSet ref body d => exact taken
  | noticeControl ref body mask ceiling =>
    exact tablesKept_onFloor taken (sameNumbers_sendAllDue _ ceiling fun n r => { r with enabled := mask.getLsbD n })
  | noticeClear ref body named =>
    exact tablesKept_onFloor taken (sameNumbers_sendAllDue _ _ fun n r => if named n then r.cleared else r)
  | machineWithdraw ref slot x known =>
    let m := slot.toNat
    let g := (s.takeFrame.floor.cellsOf m).foldl (Floor.release s.control m)
      ((s.takeFrame.floor.leaveWait m).flushOrders m)
    have released : TablesKept { s.takeFrame with floor := g } :=
      tablesKept_of_sameNumbers taken (moved_withdrawReleases (calm := True) s.control _ m).sameNumbers rfl rfl
    have emptied : TablesKept { s.takeFrame with floor := { g with machines := g.machines.del m } } := by
      obtain ⟨wf, slots⟩ := machines_of_tablesKept released
      refine tablesKept_machines released (Table.wf_del wf) fun zero => slots ?_
      exact (List.mem_filter.1 (Table.keys_del g.machines m ▸ zero)).1
    exact tablesKept_of_sameNumbers emptied (moved_offerReleased (calm := True) s.control _ _).sameNumbers rfl rfl

theorem tablesKept_reset (rest : List Instr) : TablesKept { State.reset with pending := rest } :=
  have reset : TablesKept State.reset := by unfold TablesKept; decide
  reset

theorem exec_keeps_tables (c : Instr) (s t : State) (h : TablesKept s) (e : exec c s = .next t) : TablesKept t := by
  have open_outputs : SameNumbers s.floor s.floor.openOutputs := ⟨rfl, rfl, rfl, by simp [Floor.openOutputs], rfl⟩
  rcases exec_cases e with work | ⟨u, write, kind, ref, status, data, rfl⟩ | ⟨-, rfl⟩ | ⟨-, rfl⟩ | ⟨-, rfl⟩
  · exact tablesKept_worked work h
  · exact (tablesKept_written write h : TablesKept u)
  · exact tablesKept_reset s.pending
  · exact tablesKept_of_sameNumbers h open_outputs rfl rfl
  · exact tablesKept_of_sameNumbers h open_outputs rfl rfl

/-- Settles O5: no command but CELL DEFINE, LANE DEFINE, MACHINE ENROLL, MACHINE WITHDRAW and FLEET RESET changes what
numbers a table lists, and their checks keep the numbers in range. -/
theorem stepsKeepTheTables : Obligations.StepsKeepTheTables := fun _ _ h e =>
  step_keeps (P := TablesKept) (fun _ _ h => h) (fun _ h => h) exec_keeps_tables h e

end Sys2Proof.Laws
end

section
/-! ## Lane locks (O11): what the law reads of the floor

The law of R59 to R62 reads little of the floor: each cell's lane field and owner, each machine's recorded directions, and
each lane's cells, direction and holder count. `view` takes these out, so that work on anything else leaves the view as
it is, and the law is proved of the four operations that do change it. -/

namespace Sys2Proof.Table

variable {α β : Type}

theorem look_of_mem {t : Table α} {k : Nat} {v : α} (once : t.keys.Nodup) (h : (k, v) ∈ t) : t.look k = some v := by
  induction t with
  | nil => cases h
  | cons e t ih =>
    obtain ⟨j, w⟩ := e
    obtain ⟨fresh, once⟩ := List.nodup_cons.1 once
    rcases List.mem_cons.1 h with h | h
    · cases h; simp [look_cons]
    · have known : k ∈ Table.keys t := List.mem_map.2 ⟨_, h, rfl⟩
      rw [look_cons, if_neg (fun eq : j = k => fresh (eq ▸ known)), ih once h]

/-- Every entry rewritten by `g`, under its number. -/
def remap (g : α → β) (t : Table α) : Table β := t.map fun e => (e.1, g e.2)

@[simp] theorem look_remap (g : α → β) (t : Table α) (k : Nat) : (remap g t).look k = (t.look k).map g := by
  induction t with
  | nil => rfl
  | cons e t ih =>
    obtain ⟨j, v⟩ := e
    simp only [remap, List.map_cons, look_cons] at ih ⊢
    split <;> simp_all

@[simp] theorem keys_remap (g : α → β) (t : Table α) : (remap g t).keys = t.keys := by
  simp [remap, Table.keys, Function.comp_def]

/-- A change of one entry, seen through `g`. -/
theorem remap_upd {g : α → β} {t : Table α} {k : Nat} {u : α → α} {w : β → β} (h : ∀ x, g (u x) = w (g x)) :
    remap g (t.upd k u) = (remap g t).upd k w := by
  simp only [remap, Table.upd, List.map_map]
  refine List.map_congr_left fun e _ => ?_
  by_cases eq : e.1 = k <;> simp [eq, h]

theorem remap_upd_same {g : α → β} {t : Table α} {k : Nat} {u : α → α} (h : ∀ x, g (u x) = g x) :
    remap g (t.upd k u) = remap g t := by
  simp only [remap, Table.upd, List.map_map]
  refine List.map_congr_left fun e _ => ?_
  by_cases eq : e.1 = k <;> simp [eq, h]

theorem remap_each_same {g : α → β} {t : Table α} {u : Nat → α → α} (h : ∀ k x, g (u k x) = g x) :
    remap g (t.each u) = remap g t := by
  simp [remap, Table.each, h]

theorem remap_put (g : α → β) (t : Table α) (k : Nat) (v : α) : remap g (t.put k v) = (remap g t).put k (g v) := by
  induction t with
  | nil => rfl
  | cons e t ih =>
    obtain ⟨j, w⟩ := e
    simp only [remap, Table.put, List.map_cons] at ih ⊢
    split
    · rfl
    · split
      · rfl
      · rw [List.map_cons, ih]

theorem remap_del (g : α → β) (t : Table α) (k : Nat) : remap g (t.del k) = (remap g t).del k := by
  simp [remap, Table.del, List.filter_map, Function.comp_def]

/-- A change that leaves the one entry it reaches as it is changes nothing. -/
theorem upd_eq_self {t : Table α} {k : Nat} {g : α → α} (once : t.keys.Nodup) (h : ∀ x, t.look k = some x → g x = x) :
    t.upd k g = t := by
  refine (List.map_congr_left fun e he => ?_).trans (List.map_id' t)
  obtain ⟨j, v⟩ := e
  simp only
  split
  · next eq => subst eq; rw [h v (look_of_mem once he)]
  · rfl

/-- How many entries pass the test after a change of one entry: one more or one fewer, as that entry's test moved. -/
theorem countP_upd {t : Table α} {k : Nat} {g : α → α} {x : α} (p : α → Bool) (once : t.keys.Nodup)
    (h : t.look k = some x) :
    (t.upd k g).countP (fun e => p e.2) + (if p x then 1 else 0) =
      t.countP (fun e => p e.2) + if p (g x) then 1 else 0 := by
  induction t with
  | nil => cases h
  | cons e t ih =>
    obtain ⟨j, v⟩ := e
    obtain ⟨fresh, once⟩ := List.nodup_cons.1 once
    rw [look_cons] at h
    by_cases eq : j = k
    · subst eq
      have rest : Table.upd t j g = t := (List.map_congr_left fun e he =>
        if_neg fun (eq : e.1 = j) => fresh (List.mem_map.2 ⟨e, he, eq⟩)).trans (List.map_id' t)
      obtain rfl : v = x := by simpa using h
      rw [show Table.upd ((j, v) :: t) j g = (j, g v) :: Table.upd t j g by simp [Table.upd], rest]
      simp only [List.countP_cons]
      omega
    · rw [if_neg eq] at h
      rw [show Table.upd ((j, v) :: t) k g = (j, v) :: Table.upd t k g by simp [Table.upd, eq]]
      simp only [List.countP_cons]
      have := ih once h
      omega

/-- A new entry that fails the test counts for nothing. -/
theorem countP_put {t : Table α} {k : Nat} {v : α} (p : α → Bool) (fresh : t.look k = none) (h : p v = false) :
    (t.put k v).countP (fun e => p e.2) = t.countP fun e => p e.2 := by
  induction t with
  | nil => simp [Table.put, h]
  | cons e t ih =>
    obtain ⟨j, w⟩ := e
    rw [look_cons] at fresh
    have ne : ¬ k = j := fun eq => by simp [eq] at fresh
    rw [if_neg (Ne.symm ne)] at fresh
    unfold Table.put
    split
    · simp [h]
    · rw [List.countP_cons, List.countP_cons, ih fresh]

/-- An entry that fails the test is taken out without loss to the count. -/
theorem countP_del {t : Table α} {k : Nat} (p : α → Bool) (once : t.keys.Nodup)
    (h : ∀ x, t.look k = some x → p x = false) : (t.del k).countP (fun e => p e.2) = t.countP fun e => p e.2 := by
  unfold Table.del
  rw [List.countP_filter]
  refine List.countP_congr fun e he => ?_
  by_cases eq : e.1 = k
  · have := h e.2 (eq ▸ look_of_mem once he); simp [this]
  · simp [eq]

end Sys2Proof.Table

namespace Sys2Proof.Laws

open Sys2Proof Sys2Proof.Machine Sys2Proof.Safety

/-- R59: the machine by which a cell is HELD or BLOCKED. -/
def owner : Occupancy → Option Nat
  | .held m => some m
  | .blocked m => some m
  | _ => none

theorem ownedBy_iff (o : Occupancy) (m : Nat) : o.ownedBy m = true ↔ owner o = some m := by
  cases o <;> simp [Occupancy.ownedBy, owner]

/-- What the law reads of a cell. -/
structure Spot where
  place : Option (Nat × Nat)
  owner : Option Nat

/-- What the law reads of a lane. -/
structure Lock where
  cells : List Nat
  dir : Option Dir
  holders : Nat

/-- What the law reads of the floor. -/
structure View where
  spots : Table Spot
  fleet : Table (Table Dir)
  locks : Table Lock

def spotOf (c : Cell) : Spot := ⟨c.lane, owner c.occ⟩

def lockOf (r : Lane) : Lock := ⟨r.cells, r.dir, r.holders⟩

def view (f : Floor) : View :=
  ⟨Table.remap spotOf f.cells, Table.remap Scrubber.laneDirs f.machines, Table.remap lockOf f.lanes⟩

namespace View

/-- R5: the lane field of a cell. -/
def placeOf (v : View) (c : Nat) : Option (Nat × Nat) := (v.spots.look c).bind Spot.place

/-- The machine that has the cell HELD or BLOCKED. -/
def ownerOf (v : View) (c : Nat) : Option Nat := (v.spots.look c).bind Spot.owner

/-- R59: machine `m` has some cell of lane `l` HELD or BLOCKED. -/
def Has (v : View) (m l : Nat) : Prop := ∃ c i, v.placeOf c = some (l, i) ∧ v.ownerOf c = some m

/-- The cell's owner changes. -/
def occupy (v : View) (c : Nat) (o : Option Nat) : View :=
  { v with spots := v.spots.upd c fun s => { s with owner := o } }

/-- R59 of the view. -/
def enter (v : View) (m l : Nat) (d : Dir) : View :=
  match v.fleet.look m with
  | none => v
  | some ds =>
    if (ds.look l).isSome then v
    else
      { v with
        fleet := v.fleet.upd m fun ds => ds.put l d
        locks := v.locks.upd l fun r =>
          { r with holders := r.holders + 1, dir := if r.holders = 0 then some d else r.dir } }

/-- R60 of the view: machine `m`, with no cell of lane `l` left, stops being a holder. -/
def leave (v : View) (m l : Nat) : View :=
  { v with
    fleet := v.fleet.upd m fun ds => ds.del l
    locks := v.locks.upd l fun r => { r with holders := r.holders - 1, dir := if r.holders ≤ 1 then none else r.dir } }

@[simp] theorem placeOf_occupy (v : View) (c : Nat) (o : Option Nat) (d : Nat) :
    (v.occupy c o).placeOf d = v.placeOf d := by
  simp only [placeOf, occupy, Table.look_upd]
  split
  · cases v.spots.look d <;> rfl
  · rfl

theorem ownerOf_occupy (v : View) (c : Nat) (o : Option Nat) (d : Nat) :
    (v.occupy c o).ownerOf d = if d = c then (v.spots.look c).bind fun _ => o else v.ownerOf d := by
  simp only [ownerOf, occupy, Table.look_upd]
  split
  · next eq => subst eq; cases v.spots.look d <;> rfl
  · rfl

/-- A cell in a lane is listed, so that a new owner of it is read back. -/
theorem ownerOf_occupy_self {v : View} {c : Nat} {o : Option Nat} {place : Nat × Nat} (h : v.placeOf c = some place) :
    (v.occupy c o).ownerOf c = o := by
  obtain ⟨s, hs, -⟩ := Option.bind_eq_some_iff.1 h
  simp [ownerOf_occupy, hs]

/-- A change of owner that neither takes the cell from machine `m` nor gives it to `m`, or that is in another lane. -/
theorem has_occupy {v : View} {c m l : Nat} {o : Option Nat}
    (h : ∀ i, v.placeOf c = some (l, i) → (v.ownerOf c = some m ↔ o = some m)) : (v.occupy c o).Has m l ↔ v.Has m l := by
  have each (d i : Nat) : (v.placeOf d = some (l, i) ∧ (v.occupy c o).ownerOf d = some m) ↔
      v.placeOf d = some (l, i) ∧ v.ownerOf d = some m := by
    refine and_congr_right fun here => ?_
    by_cases eq : d = c
    · subst eq; rw [ownerOf_occupy_self here, h i here]
    · rw [ownerOf_occupy, if_neg eq]
  simp only [Has, placeOf_occupy, each]

@[simp] theorem spots_enter (v : View) (m l : Nat) (d : Dir) : (v.enter m l d).spots = v.spots := by
  unfold enter; split
  · rfl
  · split <;> rfl

@[simp] theorem placeOf_enter (v : View) (m l : Nat) (d : Dir) (c : Nat) : (v.enter m l d).placeOf c = v.placeOf c := by
  simp [placeOf]

@[simp] theorem ownerOf_enter (v : View) (m l : Nat) (d : Dir) (c : Nat) : (v.enter m l d).ownerOf c = v.ownerOf c := by
  simp [ownerOf]

/-- R5, R54, R59 to R62 of the view, with the tables' numbers once each. For the machines and lanes of `skip` it is left
open that a direction is recorded exactly where the machine has some cell: so it is between a change of owner and the
entry or exit that follows. -/
structure Lawful (skip : Nat → Nat → Prop) (v : View) : Prop where
  spotsOnce : v.spots.keys.Nodup
  slotsOnce : v.fleet.keys.Nodup
  lanes : v.locks.wf Config.laneCount = true
  places : ∀ c l i, v.placeOf c = some (l, i) ↔ ∃ r, v.locks.look l = some r ∧ r.cells[i]? = some c
  dirs : ∀ m ds, v.fleet.look m = some ds → ds.wf Config.laneCount = true ∧
    ∀ l, ¬ skip m l → ((ds.look l).isSome = true ↔ v.Has m l)
  locks : ∀ l r, v.locks.look l = some r → r.holders = v.fleet.countP (fun e => (e.2.look l).isSome) ∧
    (r.dir = none ↔ r.holders = 0) ∧ ∀ m ds d, v.fleet.look m = some ds → ds.look l = some d → r.dir = some d

/-- The law with nothing left open. -/
abbrev Locked (v : View) : Prop := Lawful (fun _ _ => False) v

/-- Machine `m` and lane `l` alone. -/
abbrev Only (m l : Nat) : Nat → Nat → Prop := fun n k => n = m ∧ k = l

/-- A change of owners alone keeps the law where it moves nothing that the law says. -/
theorem Lawful.occupy {skip skip' : Nat → Nat → Prop} {v : View} (law : Lawful skip v) (c : Nat) (o : Option Nat)
    (h : ∀ m l, ¬ skip' m l → ¬ skip m l ∧ ∀ i, v.placeOf c = some (l, i) → (v.ownerOf c = some m ↔ o = some m)) :
    Lawful skip' (v.occupy c o) where
  spotsOnce := by simpa [View.occupy] using law.spotsOnce
  slotsOnce := law.slotsOnce
  lanes := law.lanes
  places d l i := by rw [placeOf_occupy]; exact law.places d l i
  dirs m ds hm := ⟨(law.dirs m ds hm).1, fun l open' => by
    obtain ⟨shut, same⟩ := h m l open'
    rw [has_occupy same]; exact (law.dirs m ds hm).2 l shut⟩
  locks := law.locks

/-- A cell outside the lanes may change hands. -/
theorem Locked.occupy_outside {v : View} (law : Locked v) {c : Nat} (o : Option Nat) (outside : v.placeOf c = none) :
    Locked (v.occupy c o) :=
  law.occupy c o fun _ _ _ => ⟨id, fun _ here => by simp [outside] at here⟩

/-- The cell belongs to machine `m` or to nobody. -/
def Free (v : View) (m c : Nat) : Prop := ∀ n, v.ownerOf c = some n → n = m

/-- A cell of lane `l` that is `m`'s or nobody's, and is so afterwards, leaves open `m` and `l` alone. -/
theorem Locked.occupy_inside {v : View} (law : Locked v) {m c l i : Nat} {o : Option Nat} (inside : v.placeOf c = some (l, i))
    (free : v.Free m c) (after : ∀ n, o = some n → n = m) : Lawful (Only m l) (v.occupy c o) :=
  law.occupy c o fun n k other => ⟨id, fun j here => by
    rw [inside] at here; cases here
    have ne : n ≠ m := fun eq => other ⟨eq, rfl⟩
    exact ⟨fun h => absurd (free n h) ne, fun h => absurd (after n h) ne⟩⟩

/-- What was left open for `m` and `l` stands of itself. -/
theorem Lawful.close {v : View} {m l : Nat} (law : Lawful (Only m l) v)
    (h : ∀ ds, v.fleet.look m = some ds → ((ds.look l).isSome = true ↔ v.Has m l)) : Locked v :=
  { law with
    dirs := fun n ds hn => ⟨(law.dirs n ds hn).1, fun k _ => by
      by_cases eq : n = m ∧ k = l
      · obtain ⟨rfl, rfl⟩ := eq; exact h ds hn
      · exact (law.dirs n ds hn).2 k eq⟩ }

/-- Machine `m`'s directions and lane `l`'s lock written together, so that they agree again with the cells. -/
theorem Lawful.relock {v : View} {m l : Nat} {ds : Table Dir} {r : Lock} (law : Lawful (Only m l) v)
    (hm : v.fleet.look m = some ds) (hr : v.locks.look l = some r) (g : Table Dir → Table Dir) (h : Lock → Lock)
    (wf : (g ds).wf Config.laneCount = true) (elsewhere : ∀ k, k ≠ l → (g ds).look k = ds.look k)
    (here : ((g ds).look l).isSome = true ↔ v.Has m l) (cells : (h r).cells = r.cells)
    (count : (h r).holders + (if (ds.look l).isSome then 1 else 0) = r.holders + if ((g ds).look l).isSome then 1 else 0)
    (free : (h r).dir = none ↔ (h r).holders = 0) (own : ∀ d, (g ds).look l = some d → (h r).dir = some d)
    (others : ∀ n ds' d, n ≠ m → v.fleet.look n = some ds' → ds'.look l = some d → (h r).dir = some d) :
    Locked { v with fleet := v.fleet.upd m g, locks := v.locks.upd l h } where
  spotsOnce := law.spotsOnce
  slotsOnce := by simpa using law.slotsOnce
  lanes := (Table.wf_of_keys (Table.keys_upd v.locks l h)).trans law.lanes
  places c k i := by
    refine (law.places c k i).trans ?_
    by_cases eq : k = l
    · subst eq; simp [hr, cells]
    · simp [Table.look_upd_ne _ eq]
  dirs n ds' hn := by
    by_cases eq : n = m
    · subst eq
      obtain rfl : g ds = ds' := by simpa [hm] using hn
      refine ⟨wf, fun k _ => ?_⟩
      by_cases ek : k = l
      · subst ek; exact here
      · rw [elsewhere k ek]; exact (law.dirs n ds hm).2 k fun only => ek only.2
    · rw [Table.look_upd_ne _ eq] at hn
      exact ⟨(law.dirs n ds' hn).1, fun k _ => (law.dirs n ds' hn).2 k fun only => eq only.1⟩
  locks k r' hr' := by
    have counted := Table.countP_upd (g := g) (fun ds => (ds.look k).isSome) law.slotsOnce hm
    by_cases ek : k = l
    · subst ek
      obtain rfl : h r = r' := by simpa [hr] using hr'
      refine ⟨?_, free, fun n ds' d hn hd => ?_⟩
      · have := (law.locks k r hr).1; simp only at counted ⊢; omega
      · by_cases eq : n = m
        · subst eq
          obtain rfl : g ds = ds' := by simpa [hm] using hn
          exact own d hd
        · exact others n ds' d eq (by simpa [Table.look_upd_ne _ eq] using hn) hd
    · rw [Table.look_upd_ne _ ek] at hr'
      obtain ⟨holders, none_iff, agree⟩ := law.locks k r' hr'
      refine ⟨?_, none_iff, fun n ds' d hn hd => ?_⟩
      · rw [elsewhere k ek] at counted; simp only at counted ⊢; omega
      · by_cases eq : n = m
        · subst eq
          obtain rfl : g ds = ds' := by simpa [hm] using hn
          exact agree n ds d hm (elsewhere k ek ▸ hd)
        · exact agree n ds' d (by simpa [Table.look_upd_ne _ eq] using hn) hd

/-- Each lane in which a machine has a cell is defined. -/
theorem Lawful.lane_of_has {skip : Nat → Nat → Prop} {v : View} {m l : Nat} (law : Lawful skip v) (has : v.Has m l) :
    ∃ r, v.locks.look l = some r := by
  obtain ⟨c, i, here, -⟩ := has
  obtain ⟨r, known, -⟩ := (law.places c l i).1 here
  exact ⟨r, known⟩

theorem Lawful.lane_lt {skip : Nat → Nat → Prop} {v : View} {l : Nat} {r : Lock} (law : Lawful skip v)
    (known : v.locks.look l = some r) : l < Config.laneCount :=
  ((Table.wf_iff _ _).1 law.lanes).2 l (Table.mem_keys_of_look known)

/-- R59: machine `m`, which has a cell of lane `l`, enters it in the lane's direction, or in any if the lane is FREE. -/
theorem Lawful.enter {v : View} {m l : Nat} {d : Dir} (law : Lawful (Only m l) v) (has : v.Has m l)
    (dir : ∀ r, v.locks.look l = some r → r.dir = none ∨ r.dir = some d) : Locked (v.enter m l d) := by
  obtain ⟨r, known⟩ := law.lane_of_has has
  unfold View.enter
  split
  · next absent => exact law.close fun ds hm => by simp [absent] at hm
  · next ds hm =>
    split
    · next recorded =>
      refine law.close fun ds' hm' => ?_
      obtain rfl : ds = ds' := by simpa [hm] using hm'
      exact ⟨fun _ => has, fun _ => recorded⟩
    · next new =>
      obtain ⟨-, none_iff, agree⟩ := law.locks l r known
      have dir' : (if r.holders = 0 then some d else r.dir) = some d := by
        split
        · rfl
        · next some => exact (dir r known).resolve_left fun none => some (none_iff.1 none)
      refine law.relock hm known (fun ds => ds.put l d) _ (Table.wf_put (law.dirs m ds hm).1 (law.lane_lt known))
        (fun k ne => by simp [Table.look_put, ne]) (by simpa [Table.look_put] using has) rfl
        (by simp [Table.look_put, new]) (by simp [dir']) (fun d' hd => by simpa [Table.look_put, dir'] using hd)
        fun n ds' d' _ hn hd => ?_
      have taken := agree n ds' d' hn hd
      show (if r.holders = 0 then some d else r.dir) = some d'
      rw [dir', ← (dir r known).resolve_left (by simp [taken]), taken]

/-- R60: machine `m`, which recorded a direction in lane `l` and has no cell of it left, leaves it. -/
theorem Lawful.leave {v : View} {m l : Nat} {ds : Table Dir} {d : Dir} (law : Lawful (Only m l) v)
    (hm : v.fleet.look m = some ds) (recorded : ds.look l = some d) (gone : ¬ v.Has m l)
    (known : ∃ r, v.locks.look l = some r) :
    Locked (v.leave m l) := by
  obtain ⟨r, known⟩ := known
  obtain ⟨holders, none_iff, agree⟩ := law.locks l r known
  have one := Table.countP_upd (g := fun ds => ds.del l) (fun ds => (ds.look l).isSome) law.slotsOnce hm
  simp only [recorded, Table.look_del, if_pos, Option.isSome_some, Option.isSome_none, Bool.false_eq_true, if_false] at one
  refine law.relock hm known (fun ds => ds.del l) _ (Table.wf_del (law.dirs m ds hm).1)
    (fun k ne => by simp [Table.look_del, ne]) (by simpa [Table.look_del] using gone) rfl
    (by simp [Table.look_del, recorded]; omega) ?_ (fun d' hd => by simp [Table.look_del] at hd)
    fun n ds' d' ne hn hd => ?_
  · show (if r.holders ≤ 1 then none else r.dir) = none ↔ r.holders - 1 = 0
    by_cases last : r.holders ≤ 1
    · simp [last]
    · simp only [last, if_false, none_iff]; omega
  · show (if r.holders ≤ 1 then none else r.dir) = some d'
    have another : 0 < (v.fleet.upd m fun ds => ds.del l).countP (fun e => (e.2.look l).isSome) :=
      List.countP_pos_iff.2 ⟨(n, ds'), Table.mem_of_look (by simpa [Table.look_upd_ne _ ne] using hn), by simp [hd]⟩
    rw [if_neg (by omega), agree n ds' d' hn hd]

end View
end Sys2Proof.Laws
end

section
/-! ### Work that the law does not read

Each lemma says that one operation leaves the view as it is. -/

namespace Sys2Proof.Laws

open Sys2Proof Sys2Proof.Machine Sys2Proof.Safety

-- One theorem at a time, as in the tests above: side by side their threads' stacks take the memory.
set_option Elab.async false

theorem view_foldl {β : Type} {op : Floor → β → Floor} (h : ∀ f b, view (op f b) = view f) (xs : List β) (f : Floor) :
    view (xs.foldl op f) = view f := by
  induction xs generalizing f with
  | nil => rfl
  | cons x xs ih => rw [List.foldl_cons, ih, h]

theorem view_machines {f : Floor} {t : Table Scrubber} (h : Table.remap Scrubber.laneDirs t = (view f).fleet) :
    view { f with machines := t } = view f := by
  simp only [view, h]

theorem view_cells {f : Floor} {t : Table Cell} (h : Table.remap spotOf t = (view f).spots) :
    view { f with cells := t } = view f := by
  simp only [view, h]

theorem view_lanes {f : Floor} {t : Table Lane} (h : Table.remap lockOf t = (view f).locks) :
    view { f with lanes := t } = view f := by
  simp only [view, h]

/-- A change of a record that keeps its recorded directions. -/
theorem view_modMachine (f : Floor) (m : Nat) {g : Scrubber → Scrubber}
    (h : ∀ x, (g x).laneDirs = x.laneDirs := by intro; rfl) :
    view (f.modMachine m g) = view f := view_machines (Table.remap_upd_same h)

@[simp] theorem settle_laneDirs (x : Scrubber) (now limit : Nat) : (x.settle now limit).laneDirs = x.laneDirs := by
  unfold Scrubber.settle; split <;> rfl

theorem view_modSettled (k : Control) (f : Floor) (m : Nat) {g : Scrubber → Scrubber}
    (h : ∀ x, (g x).laneDirs = x.laneDirs := by intro; rfl) : view (f.modSettled k m g) = view f :=
  view_modMachine f m fun x => by rw [settle_laneDirs, h]

theorem view_cellsUpd (f : Floor) (c : Nat) {g : Cell → Cell} (h : ∀ x, spotOf (g x) = spotOf x) :
    view { f with cells := f.cells.upd c g } = view f := view_cells (Table.remap_upd_same h)

theorem view_cellsEach (f : Floor) {g : Nat → Cell → Cell} (h : ∀ c x, spotOf (g c x) = spotOf x) :
    view { f with cells := f.cells.each g } = view f := view_cells (Table.remap_each_same h)

theorem view_lanesUpd (f : Floor) (l : Nat) {g : Lane → Lane} (h : ∀ r, lockOf (g r) = lockOf r) :
    view { f with lanes := f.lanes.upd l g } = view f := view_lanes (Table.remap_upd_same h)

/-! #### Notices and orders -/

@[simp] theorem view_sendIfDue (f : Floor) (n : Nat) : view (f.sendIfDue n) = view f := by
  unfold Floor.sendIfDue
  split
  · rfl
  · split <;> rfl

@[simp] theorem view_sendAllDue (f : Floor) : view f.sendAllDue = view f := view_foldl view_sendIfDue _ f

@[simp] theorem view_raise (f : Floor) (k : Control) (cls : NoticeClass) (s : Option Nat) (r : Option NoticeReason) :
    view (f.raise k cls s r) = view f := view_sendIfDue _ _

@[simp] theorem view_deliver (f : Floor) (m : Nat) : view (f.deliver m) = view f := by
  unfold Floor.deliver
  split
  · rfl
  · split
    · next o rest _ _ => exact view_modMachine f m (g := fun y => { y with outstanding := some o, queue := rest })
    · rfl

@[simp] theorem view_order (f : Floor) (m : Nat) (o : Order) : view (f.order m o) = view f := by
  unfold Floor.order
  split
  · rfl
  · split
    · rfl
    · split
      · split
        · rfl
        · exact (view_deliver _ m).trans (view_modMachine f m)
      · exact (view_deliver _ m).trans (view_modMachine f m)

@[simp] theorem view_clearOutstanding (f : Floor) (m : Nat) : view (f.clearOutstanding m) = view f :=
  view_modMachine f m (g := fun x => { x with outstanding := none, replyWindow := none })

@[simp] theorem view_flushOrders (f : Floor) (m : Nat) : view (f.flushOrders m) = view f :=
  (view_modMachine _ m).trans (view_clearOutstanding f m)

/-! #### Wait lists -/

@[simp] theorem view_joinList (f : Floor) (m : Nat) (refuge : Bool) (t : Target) :
    view (f.joinList m refuge t) = view f := by
  cases t
  · exact view_cellsUpd f _ fun _ => rfl
  · exact view_lanesUpd f _ fun _ => rfl

@[simp] theorem view_quitList (f : Floor) (m : Nat) (t : Target) : view (f.quitList m t) = view f := by
  cases t
  · exact view_cellsUpd f _ fun _ => rfl
  · exact view_lanesUpd f _ fun _ => rfl

@[simp] theorem view_leaveWait (f : Floor) (m : Nat) : view (f.leaveWait m) = view f := by
  unfold Floor.leaveWait
  split
  · rfl
  · exact (view_modMachine _ m).trans (view_quitList _ _ _)

@[simp] theorem view_leaveOrdinary (f : Floor) (m : Nat) : view (f.leaveOrdinary m) = view f := by
  unfold Floor.leaveOrdinary
  split
  · exact view_leaveWait _ _
  · rfl

@[simp] theorem view_beginWait (k : Control) (f : Floor) (m count : Nat) (t : Target) (r : WaitReason) :
    view (f.beginWait k m count t r) = view f := by
  unfold Floor.beginWait
  split
  · simp only [view_raise, view_order]; exact view_modSettled k f m
  · simp only [view_order]; exact (view_modSettled k _ m).trans (view_joinList f m false t)

@[simp] theorem view_dropWait (k : Control) (f : Floor) (m : Nat) : view (f.dropWait k m) = view f := by
  unfold Floor.dropWait
  split
  · split
    · exact (view_modSettled k _ m).trans (view_leaveWait f m)
    · rfl
  · rfl

/-! #### Legs -/

@[simp] theorem view_promote (k : Control) (f : Floor) (m : Nat) (leg : Leg) (tell : Bool) :
    view (f.promote k m leg tell) = view f := by
  have promoted : view ((f.modMachine m fun x => { x with active := some ⟨leg, 0⟩, staged := none }).order m
      (.leg leg.tag leg.flow leg.homing leg.cells)) = view f :=
    (view_order _ _ _).trans (view_modMachine f m)
  unfold Floor.promote
  simp only
  split
  · exact (view_raise _ _ _ _ _).trans promoted
  · exact promoted

@[simp] theorem view_endLeg (k : Control) (f : Floor) (m : Nat) (r : NoticeReason) :
    view (f.endLeg k m r) = view f := (view_raise _ _ _ _ _).trans (view_modSettled k f m)

@[simp] theorem view_decidePromotion (k : Control) (f : Floor) (m : Nat) : view (f.decidePromotion k m) = view f := by
  unfold Floor.decidePromotion
  split
  · rfl
  · split
    · exact view_endLeg _ _ _ _
    · split
      · exact view_promote _ _ _ _ _
      · exact view_endLeg _ _ _ _

@[simp] theorem view_attempt (k : Control) (tell : Bool) (f : Floor) (m : Nat) :
    view (f.attempt k tell m) = view f := by
  unfold Floor.attempt
  split
  · rfl
  · split
    · rfl
    · split
      · exact view_promote _ _ _ _ _
      · rfl

@[simp] theorem view_completeLeg (k : Control) (f : Floor) (m : Nat) : view (f.completeLeg k m) = view f := by
  have completed : view (f.modMachine m fun x => { x with safeStops := 0, active := none }) = view f :=
    view_modMachine f m
  unfold Floor.completeLeg
  simp only
  split
  · exact (view_modSettled k _ m).trans completed
  · exact (view_decidePromotion _ _ _).trans completed

@[simp] theorem view_loadLeg (k : Control) (f : Floor) (m : Nat) (leg : Leg) : view (f.loadLeg k m leg) = view f :=
  (view_attempt _ _ _ _).trans (view_modMachine f m)

@[simp] theorem view_attemptAll (k : Control) (f : Floor) : view (f.attemptAll k) = view f :=
  view_foldl (view_attempt k true) _ f

/-! #### Halts, supplies, stand-down -/

@[simp] theorem view_addHalt (k : Control) (r : HaltReason) (f : Floor) (m : Nat) : view (f.addHalt k r m) = view f := by
  unfold Floor.addHalt
  split
  · rfl
  · next x _ =>
    split
    · rfl
    · have added : view (f.modMachine m fun y => { y with halts := y.halts.write true r }) = view f :=
        view_modMachine f m
      have halted : view (if x.state = .lost ∨ x.state = .stoodDown
          then f.modMachine m fun y => { y with halts := y.halts.write true r }
          else ((f.modMachine m fun y => { y with halts := y.halts.write true r }).leaveOrdinary m).modSettled k m
            fun y => { y with state := .halted }) = view f := by
        split
        · exact added
        · exact ((view_modSettled k _ m).trans (view_leaveOrdinary _ m)).trans added
      simp only
      split
      · split
        · exact halted
        · exact (view_order _ _ _).trans halted
      · exact added

@[simp] theorem view_removeHalt (k : Control) (r : HaltReason) (f : Floor) (m : Nat) :
    view (f.removeHalt k r m) = view f := by
  unfold Floor.removeHalt
  split
  · rfl
  · split
    · have removed : view (f.modMachine m fun y => { y with halts := y.halts.write false r }) = view f :=
        view_modMachine f m
      simp only
      split
      · split
        · exact removed
        · split
          · exact (view_order _ _ _).trans removed
          · exact (view_attempt _ _ _ _).trans ((view_modSettled k _ m).trans
              ((view_order _ _ _).trans removed))
      · exact removed
    · rfl

@[simp] theorem view_recordSupplies (k : Control) (f : Floor) (m b w : Nat) :
    view (f.recordSupplies k m b w) = view f := by
  unfold Floor.recordSupplies
  split
  · rfl
  · next x _ =>
    have recorded : view (f.modMachine m fun y =>
        { y with battery := some b, water := some w, low := lowFlag k.timing b w x.low }) = view f :=
      view_modMachine f m
    simp only
    split
    · exact (view_attempt _ _ _ _).trans recorded
    · exact recorded

@[simp] theorem view_standDown (k : Control) (f : Floor) (m code : Nat) : view (f.standDown k m code) = view f :=
  (view_raise _ _ _ _ _).trans ((view_modSettled k _ m).trans (view_leaveOrdinary f m))

@[simp] theorem view_unexpected (k : Control) (f : Floor) (m c : Nat) : view (f.unexpected k m c) = view f :=
  (view_raise _ _ _ _ _).trans ((view_addHalt _ _ _ _).trans (view_modMachine f m))

@[simp] theorem view_faultStop (k : Control) (f : Floor) (m code : Nat) : view (f.faultStop k m code) = view f := by
  unfold Floor.faultStop
  split
  · rfl
  · next x _ =>
    have counted : view (f.modMachine m fun y =>
        { y with safeStops := bumpTo 15 x.safeStops, lastFault := some code }) = view f := view_modMachine f m
    simp only
    split
    · exact counted
    · split
      · exact (view_standDown _ _ _ _).trans counted
      · exact (view_raise _ _ _ _ _).trans ((view_addHalt _ _ _ _).trans counted)

@[simp] theorem view_restart (k : Control) (f : Floor) (m : Nat) : view (f.restart k m) = view f := by
  unfold Floor.restart
  split
  · rfl
  · split
    · rfl
    · exact view_removeHalt _ _ _ _

@[simp] theorem view_stall (k : Control) (f : Floor) (m : Nat) : view (f.stall k m) = view f :=
  (view_raise _ _ _ _ _).trans ((view_modSettled k _ m).trans (view_leaveOrdinary f m))

@[simp] theorem view_frameSent (k : Control) (f : Floor) (m : Nat) : view (f.frameSent k m) = view f := by
  unfold Floor.frameSent
  split
  · exact view_modMachine _ m
  · rfl

/-! #### Withdrawals -/

@[simp] theorem view_startWithdrawal (k : Control) (cancel : Bool) (refuge : Option Nat) (f : Floor) (m : Nat) :
    view (f.startWithdrawal k cancel refuge m) = view f := by
  unfold Floor.startWithdrawal
  split
  · rfl
  · next x _ =>
    split
    · rfl
    · have left : view (if x.state = .waiting
          then (f.leaveWait m).modSettled k m fun y => { y with state := .running } else f) = view f := by
        split
        · exact (view_modSettled k _ m).trans (view_leaveWait f m)
        · rfl
      exact (view_order _ _ _).trans ((view_modMachine _ m).trans left)

@[simp] theorem view_settleWithdrawal (f : Floor) (m : Nat) : view (f.settleWithdrawal m) = view f :=
  view_modMachine f m

@[simp] theorem view_waitForRefuge (k : Control) (f : Floor) (m r : Nat) (o : Occupancy) :
    view (f.waitForRefuge k m r o) = view f := by
  have joined : view ((f.joinList m true (.cell r)).modMachine m fun x => { x with request := some (.refuge r) }) = view f :=
    (view_modMachine _ m).trans (view_joinList _ _ _ _)
  unfold Floor.waitForRefuge
  refine (view_order _ _ _).trans ?_
  split
  · exact (view_raise _ _ _ _ _).trans joined
  · exact joined

@[simp] theorem view_discardLegs (k : Control) (f : Floor) (m : Nat) (r : NoticeReason) :
    view (f.discardLegs k m r) = view f := by
  unfold Floor.discardLegs
  split
  · rfl
  · simp only
    split
    · exact (view_raise _ _ _ _ _).trans (view_modSettled k f m)
    · exact view_modSettled k f m

@[simp] theorem view_settleLegs (k : Control) (f : Floor) (m : Nat) (cancel embargoed : Bool) :
    view (f.settleLegs k m cancel embargoed) = view f := by
  unfold Floor.settleLegs
  split
  · exact (view_settleWithdrawal _ _).trans (view_discardLegs _ _ _ _)
  · have kept : view ((f.modSettled k m fun x => { x with state := x.afterKeep }).settleWithdrawal m) = view f :=
      (view_settleWithdrawal _ _).trans (view_modSettled k f m)
    simp only
    split
    · exact (view_decidePromotion _ _ _).trans kept
    · exact kept

@[simp] theorem view_decline (k : Control) (f : Floor) (m tag : Nat) (cells : List Nat) :
    view (f.decline k m tag cells) = view f := by
  unfold Floor.decline
  split
  · rfl
  · next x _ =>
    split
    · have discarded : view (((f.modMachine m fun y => { y with active := none }).raise k .legAborted (some m)
          (some .declined)).modMachine m fun y => { y with staged := none }) = view f :=
        (view_modMachine _ m).trans ((view_raise _ _ _ _ _).trans (view_modMachine f m))
      simp only
      split
      · exact (view_modSettled k _ m).trans ((view_leaveOrdinary _ _).trans discarded)
      · exact (view_startWithdrawal _ _ _ _ _).trans discarded
    · rfl

@[simp] theorem view_cancelLeg (k : Control) (f : Floor) (m : Nat) (w : Bool) : view (f.cancelLeg k m w) = view f := by
  have discarded : view (f.modMachine m fun x => { x with staged := none }) = view f := view_modMachine f m
  unfold Floor.cancelLeg
  simp only
  split
  · exact (view_startWithdrawal _ _ _ _ _).trans discarded
  · exact discarded

@[simp] theorem view_withdrawRaised (k : Control) (raised : List Nat) (f : Floor) (m : Nat) :
    view (f.withdrawRaised k raised m) = view f := by
  unfold Floor.withdrawRaised
  split
  · rfl
  · simp only
    split
    · rfl
    · split
      · exact view_startWithdrawal _ _ _ _ _
      · exact view_startWithdrawal _ _ _ _ _

/-! #### Lines -/

/-- A change of embargo counts. -/
@[simp] theorem view_band (f : Floor) (i : Nat) (g : Nat → Nat) :
    view { f with cells := f.cells.each fun _ c => if c.inBand i then { c with embargo := g c.embargo } else c } = view f :=
  view_cellsEach f fun _ x => by split <;> rfl

@[simp] theorem view_startEmbargo (k : Control) (f : Floor) (i : Nat) : view (f.startEmbargo k i) = view f :=
  (view_foldl (view_withdrawRaised k _) _ _).trans (view_band f i (· + 1))

@[simp] theorem view_startIfQuiet (k : Control) (f : Floor) (i : Nat) : view (f.startIfQuiet k i) = view f := by
  unfold Floor.startIfQuiet
  split
  · rfl
  · split
    · exact view_startEmbargo _ _ _
    · rfl

@[simp] theorem view_activeEdge (k : Control) (f : Floor) (i : Nat) : view (f.activeEdge k i) = view f := by
  unfold Floor.activeEdge
  split
  · rfl
  · split
    · rfl
    · split
      · exact view_startEmbargo _ _ _
      · rfl

@[simp] theorem view_stuckLine (k : Control) (f : Floor) (i : Nat) : view (f.stuckLine k i) = view f :=
  (view_raise _ _ _ _ _).trans (view_startIfQuiet k (f.modLine i _) i)

@[simp] theorem view_countPulse (k : Control) (f : Floor) (i : Nat) : view (f.countPulse k i) = view f := by
  unfold Floor.countPulse
  split
  · rfl
  · split
    · rfl
    · split
      · exact view_stuckLine _ _ _
      · rfl

@[simp] theorem view_activeEdgeEvent (k : Control) (f : Floor) (i : Nat) : view (f.activeEdgeEvent k i) = view f := by
  unfold Floor.activeEdgeEvent
  split
  · rfl
  · split
    · exact view_activeEdge k (f.modLine i _) i
    · rfl

@[simp] theorem view_stuckEvent (k : Control) (f : Floor) (i : Nat) (flow : Bool) :
    view (f.stuckEvent k i flow) = view f := by
  unfold Floor.stuckEvent
  split
  · rfl
  · split
    · simp only
      split
      · exact view_stuckLine k (f.modLine i _) i
      · rfl
    · rfl

@[simp] theorem view_breach (k : Control) (f : Floor) (i : Nat) : view (f.breach k i) = view f := view_raise _ _ _ _ _

end Sys2Proof.Laws
end

section
/-! ### Work that the law reads: a cell changes hands, a machine enters or leaves a lane -/

namespace Sys2Proof.Laws

open Sys2Proof Sys2Proof.Machine Sys2Proof.Safety

-- One theorem at a time, as in the tests above: side by side their threads' stacks take the memory.
set_option Elab.async false

/-- A change of an entry that is not listed changes nothing. -/
theorem upd_of_none {α : Type} {t : Table α} {k : Nat} {g : α → α} (h : t.look k = none) : t.upd k g = t :=
  (List.map_congr_left fun e he => if_neg fun (eq : e.1 = k) =>
    (Table.look_eq_none t k).1 h (List.mem_map.2 ⟨e, he, eq⟩)).trans (List.map_id' t)

/-! #### The view of each operation -/

theorem spots_setOcc (t : Table Cell) (c : Nat) (o : Occupancy) :
    Table.remap spotOf (t.upd c fun y => { y with occ := o }) =
      (Table.remap spotOf t).upd c fun s => { s with owner := owner o } := Table.remap_upd fun _ => rfl

theorem fleet_put (t : Table Scrubber) (m l : Nat) (d : Dir) :
    Table.remap Scrubber.laneDirs (t.upd m fun y => { y with laneDirs := y.laneDirs.put l d }) =
      (Table.remap Scrubber.laneDirs t).upd m fun ds => ds.put l d := Table.remap_upd fun _ => rfl

theorem fleet_del (t : Table Scrubber) (m l : Nat) :
    Table.remap Scrubber.laneDirs (t.upd m fun y => { y with laneDirs := y.laneDirs.del l }) =
      (Table.remap Scrubber.laneDirs t).upd m fun ds => ds.del l := Table.remap_upd fun _ => rfl

theorem locks_enter (t : Table Lane) (l : Nat) (d : Dir) :
    Table.remap lockOf (t.upd l fun r =>
        { r with holders := r.holders + 1, dir := if r.holders = 0 then some d else r.dir }) =
      (Table.remap lockOf t).upd l fun r =>
        { r with holders := r.holders + 1, dir := if r.holders = 0 then some d else r.dir } :=
  Table.remap_upd fun _ => rfl

theorem locks_leave (t : Table Lane) (l : Nat) :
    Table.remap lockOf (t.upd l fun r =>
        { r with holders := r.holders - 1, dir := if r.holders ≤ 1 then none else r.dir }) =
      (Table.remap lockOf t).upd l fun r =>
        { r with holders := r.holders - 1, dir := if r.holders ≤ 1 then none else r.dir } :=
  Table.remap_upd fun _ => rfl

theorem view_setOcc (f : Floor) (c : Nat) (o : Occupancy) : view (f.setOcc c o) = (view f).occupy c (owner o) := by
  have written : view { f with cells := f.cells.upd c fun y => { y with occ := o } } = (view f).occupy c (owner o) := by
    simp only [view, View.occupy, spots_setOcc]
  unfold Floor.setOcc
  split
  · next absent => rw [← written, upd_of_none absent]
  · simp only
    split <;> exact written

theorem view_enterLane (f : Floor) (m l : Nat) (d : Dir) : view (f.enterLane m l d) = (view f).enter m l d := by
  unfold Floor.enterLane View.enter
  simp only [view, Table.look_remap]
  cases f.machines.look m with
  | none => rfl
  | some x =>
    simp only [Option.map_some]
    split
    · rfl
    · simp only [Floor.modMachine_machines, Floor.modMachine_cells, fleet_put, locks_enter]

theorem laneOf_eq (f : Floor) (c : Nat) : f.laneOf c = (view f).placeOf c := by
  simp only [Floor.laneOf, View.placeOf, view, Table.look_remap]
  cases f.cells.look c <;> rfl

theorem ownerOf_view (f : Floor) (c : Nat) : (view f).ownerOf c = (f.cells.look c).bind fun z => owner z.occ := by
  simp only [View.ownerOf, view, Table.look_remap]
  cases f.cells.look c <;> rfl

theorem hasLaneCell_iff {f : Floor} (once : f.cells.keys.Nodup) (m l : Nat) :
    f.hasLaneCell m l = true ↔ (view f).Has m l := by
  simp only [Floor.hasLaneCell, List.any_eq_true, Bool.and_eq_true, ownedBy_iff]
  constructor
  · rintro ⟨⟨c, z⟩, listed, owned, inside⟩
    have known := Table.look_of_mem once listed
    split at inside
    · next l' i here =>
      obtain rfl := of_decide_eq_true inside
      exact ⟨c, i, by rw [← laneOf_eq, Floor.laneOf, known]; exact here, by rw [ownerOf_view, known]; exact owned⟩
    · cases inside
  · rintro ⟨c, i, here, owned⟩
    rw [← laneOf_eq] at here
    obtain ⟨z, known, stands⟩ := Option.bind_eq_some_iff.1 here
    rw [ownerOf_view, known] at owned
    exact ⟨(c, z), Table.mem_of_look known, owned, by simp [stands]⟩

theorem cellsOnce_of_locked {skip : Nat → Nat → Prop} {f : Floor} (law : View.Lawful skip (view f)) :
    f.cells.keys.Nodup := by simpa [view] using law.spotsOnce

/-- R60: machine `m` leaves the lane where it has no cell of it left. -/
theorem quitLane_locked {f : Floor} {m l : Nat} (law : View.Lawful (View.Only m l) (view f))
    (known : ∃ r, (view f).locks.look l = some r)
    (kept : ∀ ds, (view f).fleet.look m = some ds → (view f).Has m l → (ds.look l).isSome = true) :
    View.Locked (view (f.quitLane m l)) := by
  have once := cellsOnce_of_locked law
  unfold Floor.quitLane
  split
  · next absent => exact law.close fun ds hm => by simp [view, absent] at hm
  · next x hx =>
    have hm : (view f).fleet.look m = some x.laneDirs := by simp [view, hx]
    split
    · next gone =>
      simp only [Bool.and_eq_true, Bool.not_eq_true', Option.isSome_iff_exists] at gone
      obtain ⟨⟨d, recorded⟩, gone⟩ := gone
      have left := law.leave hm recorded (fun has => by rw [(hasLaneCell_iff once m l).2 has] at gone; cases gone) known
      simp only [View.leave, view, ← fleet_del, ← locks_leave] at left
      exact left
    · next same =>
      refine law.close fun ds hds => ?_
      obtain rfl : x.laneDirs = ds := by simpa [hm] using hds
      refine ⟨fun recorded => ?_, kept _ hm⟩
      by_contra none
      exact same (by simpa [recorded] using fun has => none ((hasLaneCell_iff once m l).1 has))

/-! #### Giving up cells -/

/-- No cell of `w` has an owner that it has not in `v`. -/
def Frees (v w : View) : Prop := ∀ c n, w.ownerOf c = some n → v.ownerOf c = some n

theorem Frees.refl (v : View) : Frees v v := fun _ _ => id

theorem Frees.trans {u v w : View} (a : Frees u v) (b : Frees v w) : Frees u w := fun c n h => a c n (b c n h)

theorem Frees.free {v w : View} (h : Frees v w) {m c : Nat} (free : v.Free m c) : w.Free m c :=
  fun n owned => free n (h c n owned)

/-- What becomes of the floor as machine `m` gives up cell `c`: nothing that the law reads, or the cell is nobody's and
`m` leaves its lane if no other cell keeps it there. -/
def GivenUp (m c : Nat) (f g : Floor) : Prop :=
  view g = view f ∨ ∃ o, owner o = none ∧ view g = view ((f.setOcc c o).quitLaneOf m c)

theorem spots_quitLaneOf (f : Floor) (m c : Nat) : (view (f.quitLaneOf m c)).spots = (view f).spots := by
  unfold Floor.quitLaneOf Floor.quitLane
  split
  · split
    · rfl
    · split <;> rfl
  · rfl

theorem GivenUp.frees {m c : Nat} {f g : Floor} (h : GivenUp m c f g) : Frees (view f) (view g) := by
  rcases h with same | ⟨o, nobody, same⟩
  · rw [same]; exact .refl _
  · intro d n owned
    rw [same, View.ownerOf, spots_quitLaneOf, ← View.ownerOf, view_setOcc, View.ownerOf_occupy] at owned
    split at owned
    · simp [nobody] at owned
    · exact owned

theorem GivenUp.locked {m c : Nat} {f g : Floor} (h : GivenUp m c f g) (law : View.Locked (view f))
    (free : (view f).Free m c) : View.Locked (view g) := by
  rcases h with same | ⟨o, nobody, same⟩
  · rw [same]; exact law
  · have place : (f.setOcc c o).laneOf c = (view f).placeOf c := by rw [laneOf_eq, view_setOcc, View.placeOf_occupy]
    rw [same, Floor.quitLaneOf, place]
    split
    · next l i inside =>
      have loose : View.Lawful (View.Only m l) (view (f.setOcc c o)) :=
        view_setOcc f c o ▸ law.occupy_inside inside free (by simp [nobody])
      obtain ⟨r, known, -⟩ := (law.places c l i).1 inside
      refine quitLane_locked loose ⟨r, by rw [view_setOcc]; exact known⟩ fun ds hm has => ?_
      rw [view_setOcc] at hm has
      refine ((law.dirs m ds hm).2 l id).2 ?_
      obtain ⟨d, j, here, owned⟩ := has
      rw [View.placeOf_occupy] at here
      rw [View.ownerOf_occupy] at owned
      split at owned
      · simp [nobody] at owned
      · exact ⟨d, j, here, owned⟩
    · next outside => rw [view_setOcc]; exact law.occupy_outside _ outside

theorem guardOcc_nobody (k : Control) (f : Floor) (c : Nat) : owner (f.guardOcc k c) = none := by
  simp only [Floor.guardOcc]
  generalize (if (f.laneOf c).isSome then k.timing.laneGuard else k.timing.openGuard) = guard
  split <;> rfl

theorem givenUp_release (k : Control) (m : Nat) (f : Floor) (c : Nat) : GivenUp m c f (f.release k m c) :=
  .inr ⟨f.guardOcc k c, guardOcc_nobody k f c, rfl⟩

theorem givenUp_releaseWet (k : Control) (m flow : Nat) (f : Floor) (c : Nat) :
    GivenUp m c f (f.releaseWet k m flow c) := by
  unfold Floor.releaseWet
  split
  · exact .inl rfl
  · next z _ =>
    refine .inr ⟨.wet (k.now + (dryingAnswer k.drying z.floorClass flow).1 * 1000)
      (dryingAnswer k.drying z.floorClass flow).2, rfl, ?_⟩
    simp only
    split
    · exact (view_raise _ _ _ _ _).trans (view_cellsUpd _ c fun _ => rfl)
    · exact view_cellsUpd _ c fun _ => rfl

theorem givenUp_releaseBehind (k : Control) (m flow : Nat) (f : Floor) (c : Nat) :
    GivenUp m c f (f.releaseBehind k m flow c) := by
  unfold Floor.releaseBehind
  split
  · exact givenUp_release k m f c
  · exact givenUp_releaseWet k m flow f c

/-- A machine gives up one cell after another. -/
theorem frees_foldl {op : Floor → Nat → Floor} {m : Nat} (h : ∀ f c, GivenUp m c f (op f c)) (cs : List Nat) (f : Floor) :
    Frees (view f) (view (cs.foldl op f)) := by
  induction cs generalizing f with
  | nil => exact .refl _
  | cons c cs ih => exact (h f c).frees.trans (ih _)

theorem locked_foldl {op : Floor → Nat → Floor} {m : Nat} (h : ∀ f c, GivenUp m c f (op f c)) (cs : List Nat) (f : Floor)
    (free : ∀ c ∈ cs, (view f).Free m c) (law : View.Locked (view f)) : View.Locked (view (cs.foldl op f)) := by
  induction cs generalizing f with
  | nil => exact law
  | cons c cs ih =>
    exact ih _ (fun d hd => (h f c).frees.free (free d (List.mem_cons_of_mem _ hd)))
      ((h f c).locked law (free c List.mem_cons_self))

/-! #### Taking cells -/

theorem spots_place (f : Floor) (m c : Nat) : (view (f.place m c)).spots = (view f).spots := by
  unfold Floor.place
  split
  · rfl
  · split
    · rfl
    · rw [view_enterLane, View.spots_enter]

/-- A cell that is `m`'s or nobody's becomes HELD by `m`, and `m` enters its lane. -/
theorem hold_locked {f : Floor} {m c : Nat} (law : View.Locked (view f)) (free : (view f).Free m c) :
    View.Locked (view ((f.setOcc c (.held m)).place m c)) := by
  have place : (f.setOcc c (.held m)).laneOf c = (view f).placeOf c := by
    rw [laneOf_eq, view_setOcc, View.placeOf_occupy]
  unfold Floor.place
  rw [place]
  split
  · next outside => rw [view_setOcc]; exact law.occupy_outside _ outside
  · next l i inside =>
    obtain ⟨lock, known, -⟩ := (law.places c l i).1 inside
    have loose : View.Lawful (View.Only m l) (view (f.setOcc c (.held m))) :=
      view_setOcc f c (.held m) ▸ law.occupy_inside inside free (by simp [owner])
    split
    · next absent =>
      have still : (view (f.setOcc c (.held m))).locks.look l = some lock := by rw [view_setOcc]; exact known
      simp [view, absent] at still
    · next r hr =>
      rw [view_enterLane]
      refine loose.enter ⟨c, i, ?_, ?_⟩ fun lock' h' => ?_
      · rw [view_setOcc, View.placeOf_occupy, inside]
      · rw [view_setOcc, View.ownerOf_occupy_self inside]; rfl
      · obtain rfl : lockOf r = lock' := by simpa [view, hr] using h'
        show r.dir = none ∨ r.dir = some _
        cases r.dir <;> simp

theorem locked_grantRefuge {f : Floor} {m c : Nat} (law : View.Locked (view f)) (free : (view f).Free m c) :
    View.Locked (view (f.grantRefuge m c)) := by
  rw [Floor.grantRefuge, view_order, view_modMachine]
  exact hold_locked law free

/-- R57 of the view: the direction of travel at `c`, stepped onto from `p`. -/
def View.travel (v : View) (p c : Nat) : Option (Nat × Dir) :=
  (v.placeOf c).map fun li => (li.1, stepDir li.1 li.2 (v.placeOf p))

theorem travel_eq (f : Floor) (p c : Nat) : f.travel p c = (view f).travel p c := by
  simp only [Floor.travel, View.travel, laneOf_eq]

/-- A lane's direction in the view. -/
def View.dirOf (v : View) (l : Nat) : Option Dir := (v.locks.look l).bind Lock.dir

theorem tentativeDir_nil (f : Floor) (l : Nat) : tentativeDir f [] l = (view f).dirOf l := by
  simp only [tentativeDir, List.find?_nil, View.dirOf, view, Table.look_remap]
  cases f.lanes.look l <;> rfl

theorem tentativeDir_cons (f : Floor) (l l' : Nat) (d : Dir) (taken : List (Nat × Dir)) :
    tentativeDir f ((l, d) :: taken) l' = if l' = l then some d else tentativeDir f taken l' := by
  unfold tentativeDir
  by_cases eq : l' = l
  · simp [eq]
  · simp [eq, Ne.symm eq]

/-- R25: a grantable cell is FREE or `m`'s own, and its lane is FREE or has the direction of travel. -/
theorem grantable {k : Control} {f : Floor} {m p c : Nat} {taken : List (Nat × Dir)}
    (h : f.failingRow k m p c taken = none) : (view f).Free m c ∧ ∀ l d, f.travel p c = some (l, d) →
      tentativeDir f taken l = none ∨ tentativeDir f taken l = some d := by
  unfold Floor.failingRow at h
  split at h
  · cases h
  · next z known =>
    split at h
    · cases h
    · cases h
    · cases h
    · next occ _ _ _ =>
      split at h
      · cases h
      · next own =>
        split at h
        · cases h
        · split at h
          · cases h
          · refine ⟨fun n owned => ?_, fun l d step => ?_⟩
            · rw [ownerOf_view, known] at owned
              have own : z.occ = .free ∨ z.occ = .held m := by
                by_cases free : z.occ = .free
                · exact .inl free
                · exact .inr (not_not.1 fun held => own ⟨free, held⟩)
              rcases own with occ | occ <;> simp [occ, owner] at owned
              exact owned.symm
            · simp only [step] at h
              split at h
              · next fresh => exact .inl fresh
              · next d' dir =>
                split at h
                · next eq => exact .inr (eq ▸ dir)
                · cases h

/-- After an entry the lane has the direction entered, and every other lane its own. -/
theorem View.dirOf_enter {v : View} {m l : Nat} {ds : Table Dir} {r : Lock} {d : Dir} (law : v.Lawful (View.Only m l))
    (hm : v.fleet.look m = some ds) (known : v.locks.look l = some r) (dir : r.dir = none ∨ r.dir = some d) (l' : Nat) :
    (v.enter m l d).dirOf l' = if l' = l then some d else v.dirOf l' := by
  obtain ⟨-, none_iff, agree⟩ := law.locks l r known
  unfold View.enter
  simp only [hm]
  split
  · next recorded =>
    obtain ⟨d', recorded⟩ := Option.isSome_iff_exists.1 recorded
    have taken := agree m ds d' hm recorded
    split
    · next eq => subst eq; rw [View.dirOf, known]; exact dir.resolve_left (by simp [taken])
    · rfl
  · simp only [View.dirOf]
    split
    · next eq =>
      subst eq
      simp only [Table.look_upd_self, known, Option.map_some, Option.bind_some]
      split
      · rfl
      · next some => exact dir.resolve_left fun none => some (none_iff.1 none)
    · next ne => rw [Table.look_upd_ne _ ne]

theorem View.fleet_enter_look {v : View} {m l n : Nat} {d : Dir} (h : (v.fleet.look n).isSome = true) :
    ((v.enter m l d).fleet.look n).isSome = true := by
  unfold View.enter
  split
  · exact h
  · split
    · exact h
    · rw [Table.look_upd]; split <;> simpa using h

/-- R28, R59: a span found grantable on `f₀`, with the directions `taken` fixed by its earlier cells, is taken cell by
cell: `f` is `f₀` with those earlier cells taken. -/
theorem locked_takeSpan {k : Control} {f₀ : Floor} {m : Nat} (cs : List Nat) (f : Floor) (p : Nat)
    (taken : List (Nat × Dir)) (fits : f₀.firstFail k m p cs taken = none) (law : View.Locked (view f))
    (enrolled : ((view f).fleet.look m).isSome = true) (places : ∀ c, (view f).placeOf c = (view f₀).placeOf c)
    (free : ∀ c, (view f₀).Free m c → (view f).Free m c) (dirs : ∀ l, (view f).dirOf l = tentativeDir f₀ taken l) :
    View.Locked (view (Floor.takeSpan m f p cs)) := by
  induction cs generalizing f p taken with
  | nil => exact law
  | cons c rest ih =>
    unfold Floor.firstFail at fits
    split at fits
    · cases fits
    · cases fits
    · next row =>
      obtain ⟨mine, step⟩ := grantable row
      have travel : f.travel p c = f₀.travel p c := by simp only [travel_eq, View.travel, places]
      have freed (d : Nat) (h : (view f₀).Free m d) : ((view f).occupy c (some m)).Free m d := fun n owned => by
        rw [View.ownerOf_occupy] at owned
        split at owned
        · obtain ⟨_, -, owned⟩ := Option.bind_eq_some_iff.1 owned; exact (Option.some.inj owned).symm
        · exact free d h n owned
      unfold Floor.takeSpan
      simp only [travel]
      cases moves : f₀.travel p c with
      | none =>
        have outside : (view f).placeOf c = none := by
          rw [travel_eq, View.travel, Option.map_eq_none_iff] at moves; rw [places, moves]
        simp only [moves, Option.toList_none, List.nil_append] at fits ⊢
        refine ih _ c taken fits ?_ ?_ ?_ ?_ ?_ <;> rw [view_setOcc]
        · exact law.occupy_outside _ outside
        · exact enrolled
        · exact fun d => (View.placeOf_occupy _ _ _ d).trans (places d)
        · exact freed
        · exact dirs
      | some e =>
        obtain ⟨l, d⟩ := e
        obtain ⟨i, inside⟩ : ∃ i, (view f).placeOf c = some (l, i) := by
          rw [travel_eq, View.travel, Option.map_eq_some_iff] at moves
          obtain ⟨⟨l', i⟩, here, eq⟩ := moves
          cases eq
          exact ⟨i, by rw [places, here]⟩
        obtain ⟨r, known, -⟩ := (law.places c l i).1 inside
        obtain ⟨ds, hm⟩ := Option.isSome_iff_exists.1 enrolled
        have loose : View.Lawful (View.Only m l) ((view f).occupy c (some m)) :=
          law.occupy_inside inside (free c mine) (by simp)
        have dir : r.dir = none ∨ r.dir = some d := by
          have := step l d moves
          rwa [← dirs l, View.dirOf, known] at this
        simp only [moves, Option.toList_some, List.singleton_append] at fits ⊢
        refine ih _ c _ fits ?_ ?_ ?_ ?_ ?_ <;> rw [view_enterLane, view_setOcc]
        · refine loose.enter ⟨c, i, ?_, View.ownerOf_occupy_self inside⟩ fun r' h' => ?_
          · rw [View.placeOf_occupy, inside]
          · obtain rfl : r = r' := by simpa [View.occupy, known] using h'
            exact dir
        · exact View.fleet_enter_look (by exact enrolled)
        · exact fun e => by rw [View.placeOf_enter, View.placeOf_occupy, places]
        · exact fun e h n owned => freed e h n (by rwa [View.ownerOf_enter] at owned)
        · intro l'
          rw [show owner (.held m) = some m from rfl, View.dirOf_enter loose (ds := ds) hm known dir, tentativeDir_cons]
          split
          · rfl
          · exact dirs l'

end Sys2Proof.Laws
end

section
/-! ### Every event's work keeps the law -/

namespace Sys2Proof.Laws

open Sys2Proof Sys2Proof.Machine Sys2Proof.Safety

-- One theorem at a time, as in the tests above: side by side their threads' stacks take the memory.
set_option Elab.async false

/-- The work from `f` to `g` keeps the law of lane locks. -/
def Keeps (f g : Floor) : Prop := View.Locked (view f) → View.Locked (view g)

theorem Keeps.refl (f : Floor) : Keeps f f := id

theorem Keeps.trans {f g h : Floor} (a : Keeps f g) (b : Keeps g h) : Keeps f h := b ∘ a

/-- `trans`, the last piece of work first. -/
theorem Keeps.after {f g h : Floor} (b : Keeps g h) (a : Keeps f g) : Keeps f h := b ∘ a

/-- Work that the law does not read. -/
theorem Keeps.unread {f g : Floor} (h : view g = view f) : Keeps f g := fun law => h ▸ law

theorem Keeps.foldl {β : Type} {op : Floor → β → Floor} (h : ∀ f b, Keeps f (op f b)) (xs : List β) (f : Floor) :
    Keeps f (xs.foldl op f) := by
  induction xs generalizing f with
  | nil => exact .refl f
  | cons x xs ih => exact (h f x).trans (ih _)

/-! #### Grants and offers -/

theorem free_of_occ {f : Floor} {m c : Nat} {z : Cell} (known : f.cells.look c = some z) (h : z.occ = .free) :
    (view f).Free m c := fun n owned => by simp [ownerOf_view, known, h, owner] at owned

/-- R28: the grant of a span found grantable. -/
theorem keeps_grant {k : Control} {f : Floor} {m : Nat} {x : Scrubber} {span : List Nat}
    (fits : f.firstFail k m x.lastHeld span [] = none) (enrolled : (f.machines.look m).isSome = true) :
    Keeps f (f.grant k m x span) := fun law => by
  rw [Floor.grant, view_order, view_modSettled]
  exact locked_takeSpan span f _ [] fits law (by simpa [view] using enrolled) (fun _ => rfl) (fun _ => id)
    fun l => (tentativeDir_nil f l).symm

theorem leaveWait_enrolled {f : Floor} {m n : Nat} (h : (f.machines.look n).isSome = true) :
    ((f.leaveWait m).machines.look n).isSome = true := by
  rw [Table.look_isSome] at h ⊢
  rwa [(moved_leaveWait (calm := True) f m).machines.keys]

theorem keeps_examine (k : Control) (f : Floor) (m : Nat) : Keeps f (f.examine k m).1 := by
  unfold Floor.examine
  cases hx : f.machines.look m with
  | none => exact .refl f
  | some x =>
    cases hr : x.request with
    | none => simp only [hr]; exact .refl f
    | some p =>
      cases p with
      | refuge c => simp only [hr]; exact .refl f
      | ordinary count t =>
        have left : Keeps f (f.leaveWait m) := .unread (view_leaveWait f m)
        have enrolled : ((f.leaveWait m).machines.look m).isSome = true := leaveWait_enrolled (by simp [hx])
        simp only [hr]
        cases fits : (f.leaveWait m).firstFail k m x.lastHeld (x.span count) [] with
        | none => exact left.trans (keeps_grant fits enrolled)
        | some e =>
          obtain ⟨target, reason⟩ := e
          have waits : Keeps (f.leaveWait m) ((f.leaveWait m).beginWait k m count target reason) :=
            .unread (view_beginWait k _ m count target reason)
          have both := left.trans waits
          simpa only using both

theorem keeps_examineAll (k : Control) (f : Floor) (ms : List Nat) : Keeps f (f.examineAll k ms) := by
  induction ms generalizing f with
  | nil => exact .refl f
  | cons m rest ih =>
    have one := keeps_examine k f m
    unfold Floor.examineAll
    split
    · next g h => rw [h] at one; exact one
    · next g h => rw [h] at one; exact one.trans (ih g)

theorem keeps_offerCell (k : Control) (f : Floor) (c : Nat) : Keeps f (f.offerCell k c) := by
  unfold Floor.offerCell
  split
  · exact .refl f
  · next z known =>
    split
    · next available =>
      unfold Floor.offerTo
      split
      · next w _ =>
        intro law
        have left : view (f.leaveWait w.slot) = view f := view_leaveWait f w.slot
        exact locked_grantRefuge (left ▸ law) (left ▸ free_of_occ known available.1)
      · split
        · exact .refl f
        · exact keeps_examineAll k f _
    · exact .refl f

theorem keeps_offerLane (k : Control) (f : Floor) (l : Nat) : Keeps f (f.offerLane k l) := by
  unfold Floor.offerLane
  split
  · exact .refl f
  · split
    · exact keeps_examineAll k f _
    · exact .refl f

theorem keeps_offerCells (k : Control) (f : Floor) (cs : List Nat) : Keeps f (f.offerCells k cs) :=
  .foldl (keeps_offerCell k) cs f

theorem keeps_offerReleased (k : Control) (f : Floor) (cs : List Nat) : Keeps f (f.offerReleased k cs) :=
  .after (.foldl (keeps_offerLane k) _ _) (keeps_offerCells k f cs)

theorem keeps_offerEverything (k : Control) (f : Floor) : Keeps f (f.offerEverything k) :=
  .after (.foldl (keeps_offerLane k) _ _) (keeps_offerCells k f _)

theorem keeps_request (k : Control) (f : Floor) (m count : Nat) : Keeps f (f.request k m count) := by
  unfold Floor.request
  refine .after ?_ (.unread (view_dropWait k f m))
  unfold Floor.decideRequest
  split
  · exact .refl _
  · next x hx =>
    split
    · exact .unread (view_order _ _ _)
    · split
      · next fits => exact keeps_grant fits (by simp [hx])
      · exact .unread (view_beginWait _ _ _ _ _ _)

/-- R20: an interval that runs out makes nobody's cell FREE. -/
theorem keeps_freeCell (k : Control) (f : Floor) (c : Nat) (nobody : (view f).ownerOf c = none) :
    Keeps f (f.freeCell k c) := by
  refine .after (keeps_offerCell _ _ _) fun law => ?_
  rw [view_setOcc]
  exact law.occupy c _ fun m l _ => ⟨id, fun _ _ => by simp [nobody, owner]⟩

/-! #### Loss -/

/-- R36: a BLOCKED cell is still the machine's. -/
theorem view_blockCells {f : Floor} (m : Nat) (once : f.cells.keys.Nodup) : view (f.blockCells m) = view f := by
  have held : ∀ c ∈ f.cells.keysWhere fun z => decide (z.occ = .held m), (view f).ownerOf c = some m := by
    intro c hc
    obtain ⟨⟨c, z⟩, listed, rfl⟩ := List.mem_map.1 hc
    obtain ⟨listed, occ⟩ := List.mem_filter.1 listed
    have occ : z.occ = .held m := of_decide_eq_true occ
    rw [ownerOf_view, Table.look_of_mem once listed]
    simp [occ, owner]
  have again (g : Floor) (same : view g = view f) (c : Nat) (owned : (view f).ownerOf c = some m) :
      view (g.setOcc c (.blocked m)) = view f := by
    rw [view_setOcc, same, View.occupy, Table.upd_eq_self (by simpa [view] using once)]
    intro s hs
    rw [View.ownerOf, hs] at owned
    exact (congrArg (Spot.mk s.place) owned.symm :)
  unfold Floor.blockCells
  generalize f.cells.keysWhere (fun z => decide (z.occ = .held m)) = cs at held
  suffices ∀ g, view g = view f → view (cs.foldl (fun g c => g.setOcc c (.blocked m)) g) = view f from this f rfl
  induction cs with
  | nil => exact fun g same => same
  | cons c cs ih =>
    exact fun g same => ih (fun d hd => held d (List.mem_cons_of_mem _ hd)) _ (again g same c (held c List.mem_cons_self))

theorem keeps_lose (k : Control) (f : Floor) (m : Nat) (r : NoticeReason) : Keeps f (f.lose k m r) := fun law => by
  rw [Floor.lose, view_raise, view_modSettled, view_flushOrders, view_leaveWait,
    view_blockCells m (cellsOnce_of_locked law)]
  exact law

theorem keeps_countMiss (k : Control) (f : Floor) (m : Nat) (r : NoticeReason) : Keeps f (f.countMiss k m r) := by
  have counted : Keeps f (f.modMachine m fun x => { x with misses := x.misses + 1 }) := .unread (view_modMachine f m)
  unfold Floor.countMiss
  simp only
  split
  · exact counted
  · split
    · exact .after (keeps_lose _ _ _ _) counted
    · exact counted

theorem keeps_beacon (k : Control) (f : Floor) (m b w : Nat) : Keeps f (f.beacon k m b w) := by
  unfold Floor.beacon
  split
  · exact .refl f
  · split
    · exact .unread (view_recordSupplies _ _ _ _ _)
    · split
      · exact .unread ((view_recordSupplies _ _ _ _ _).trans (view_modMachine f m))
      · exact .after (keeps_countMiss _ _ _ _) (.unread (view_modMachine f m))

theorem keeps_replyExpiry (k : Control) (f : Floor) (m : Nat) : Keeps f (f.replyExpiry k m) := by
  have stopped : Keeps f (f.modMachine m fun x => { x with replyWindow := none }) := .unread (view_modMachine f m)
  have missed : Keeps f (if k.mode = .standby then f.modMachine m fun x => { x with replyWindow := none }
      else (f.modMachine m fun x => { x with replyWindow := none }).countMiss k m .reply) := by
    split
    · exact stopped
    · exact .after (keeps_countMiss _ _ _ _) stopped
  unfold Floor.replyExpiry
  simp only
  split
  · exact missed.trans (.unread rfl)
  · exact missed

theorem keeps_beaconExpiry (k : Control) (f : Floor) (m : Nat) : Keeps f (f.beaconExpiry k m) :=
  .after (keeps_countMiss _ _ _ _) (.unread (view_modMachine f m))

/-! #### Lines -/

theorem keeps_endEmbargo (k : Control) (f : Floor) (i : Nat) : Keeps f (f.endEmbargo k i) :=
  .after (keeps_offerCells _ _ _) (.unread (view_band f i (· - 1)))

theorem keeps_endIfInForce (k : Control) (f : Floor) (i : Nat) : Keeps f (f.endIfInForce k i) := by
  unfold Floor.endIfInForce
  split
  · exact .refl f
  · split
    · exact .refl f
    · exact keeps_endEmbargo k f i

theorem keeps_inactiveEdge (k : Control) (f : Floor) (i : Nat) : Keeps f (f.inactiveEdge k i) := by
  unfold Floor.inactiveEdge
  split
  · exact .refl f
  · split
    · simp only
      split
      · exact .unread rfl
      · split
        · exact .unread (view_raise _ _ _ _ _)
        · exact .unread (view_startIfQuiet k (Floor.startHold k (f.modLine i _) i) i)
    · split
      · exact keeps_endIfInForce k f i
      · exact .unread rfl

theorem keeps_inactiveEdgeEvent (k : Control) (f : Floor) (i : Nat) : Keeps f (f.inactiveEdgeEvent k i) := by
  unfold Floor.inactiveEdgeEvent
  split
  · exact .refl f
  · split
    · exact keeps_inactiveEdge k (f.modLine i _) i
    · exact .refl f

theorem keeps_sampleLine (k : Control) (f : Floor) (i : Nat) (flow : Bool) : Keeps f (f.sampleLine k i flow) := by
  unfold Floor.sampleLine
  split
  · exact .refl f
  · split
    · simp only
      split
      · split
        · exact .unread (view_countPulse k (f.modLine i _) i)
        · exact .refl f
      · split
        · exact .unread (view_activeEdge k (f.modLine i _) i)
        · exact keeps_inactiveEdge k (f.modLine i _) i
    · exact .refl f

theorem keeps_holdExpiry (k : Control) (f : Floor) (i : Nat) : Keeps f (f.holdExpiry k i) :=
  keeps_endIfInForce k (f.modLine i _) i

theorem keeps_setupLine (k : Control) (f : Floor) (i : Nat) (cfg : LineConfig) : Keeps f (f.setupLine k i cfg) :=
  keeps_endIfInForce k (f.modLine i _) i

/-! #### Arrivals and acknowledgements: the machine's own cells are given up -/

/-- The cells that a machine holds along its route are its own. -/
def OwnRoute (f : Floor) (m : Nat) (x : Scrubber) : Prop := ∀ c ∈ x.current :: x.ahead, (view f).Free m c

theorem OwnRoute.leftBehind {f : Floor} {m : Nat} {x : Scrubber} (own : OwnRoute f m x) (j : Nat) :
    ∀ c ∈ x.leftBehind j, (view f).Free m c := fun c hc =>
  own c ((List.mem_cons.1 hc).elim (fun eq => eq ▸ List.mem_cons_self)
    fun h => List.mem_cons_of_mem _ (List.mem_of_mem_take h))

theorem view_acceptArrival (k : Control) (f : Floor) (m : Nat) (x : Scrubber) (j : Nat) :
    view (f.acceptArrival k m x j) =
      view ((x.leftBehind j).foldl (Floor.releaseBehind k m ((x.active.map fun a => a.leg.flow).getD 0)) f) := by
  unfold Floor.acceptArrival
  simp only
  split
  · rw [view_completeLeg, view_modSettled]
  · rw [view_modSettled]

theorem keeps_acceptArrival (k : Control) {f : Floor} {m : Nat} {x : Scrubber} (own : OwnRoute f m x) (j : Nat) :
    Keeps f (f.acceptArrival k m x j) := fun law => by
  rw [view_acceptArrival]
  exact locked_foldl (givenUp_releaseBehind k m _) _ f (own.leftBehind j) law

theorem frees_acceptArrival (k : Control) (f : Floor) (m : Nat) (x : Scrubber) (j : Nat) :
    Frees (view f) (view (f.acceptArrival k m x j)) := by
  rw [view_acceptArrival]
  exact frees_foldl (givenUp_releaseBehind k m _) _ f

theorem keeps_refugeArrival (k : Control) {f : Floor} {m : Nat} {x : Scrubber} (own : OwnRoute f m x) (r : Nat) :
    Keeps f (f.refugeArrival k m x r) := by
  refine .after (keeps_offerReleased _ _ _) fun law => ?_
  rw [view_modMachine]
  exact (givenUp_release k m f x.current).locked law (own _ List.mem_cons_self)

theorem keeps_arrival (k : Control) {f : Floor} {m : Nat} (own : ∀ x, f.machines.look m = some x → OwnRoute f m x)
    (c : Nat) : Keeps f (f.arrival k m c) := by
  unfold Floor.arrival
  split
  · exact .refl f
  · next x hx =>
    split
    · exact .after (keeps_offerReleased _ _ _) (keeps_acceptArrival k (own x hx) _)
    · split
      · exact keeps_refugeArrival k (own x hx) c
      · split
        · exact .unread (view_modMachine f m)
        · exact .unread (view_unexpected _ _ _ _)

theorem keeps_arrive (k : Control) {f : Floor} {m : Nat} (own : ∀ x, f.machines.look m = some x → OwnRoute f m x)
    (c count : Nat) : Keeps f (f.arrive k m c count) := by
  unfold Floor.arrive
  simp only
  split
  · exact keeps_arrival k own c
  · exact .after (keeps_request _ _ _ _) (keeps_arrival k own c)

theorem keeps_settleRefuge (k : Control) (f : Floor) (m r : Nat) (kept : Bool) : Keeps f (f.settleRefuge k m r kept) := by
  unfold Floor.settleRefuge
  split
  · exact .refl f
  · next z known =>
    split
    · exact .unread ((view_order _ _ _).trans (view_modMachine f m))
    · split
      · next available => exact fun law => locked_grantRefuge law (free_of_occ known available.1)
      · exact .unread (view_waitForRefuge _ _ _ _ _)

theorem mem_of_mem_ascending {xs : List Nat} {c : Nat} (h : c ∈ ascending xs) : c ∈ xs := by
  simpa [ascending] using (List.mem_filter.1 h).2

/-- A stop: the machine gives up cells that are its own, and the rest of the work is not read. -/
theorem keeps_settled (k : Control) {f g : Floor} {m : Nat} (reach : Keeps f g) (frees : Frees (view f) (view g))
    {given : List Nat} (own : ∀ c ∈ given, (view f).Free m c) (cancel embargoed : Bool) :
    Keeps f ((((given.foldl (Floor.release k m) g).modSettled k m fun y => { y with ahead := [] }).settleLegs k m
      cancel embargoed)) := fun law => by
  rw [view_settleLegs, view_modSettled]
  exact locked_foldl (givenUp_release k m) _ _ (fun c hc => frees.free (own c hc)) (reach law)

theorem keeps_stopAt (k : Control) {f : Floor} {m : Nat} {x : Scrubber} (own : OwnRoute f m x) (cancel : Bool) (s : Nat)
    (j : Option Nat) : Keeps f (f.stopAt k m x cancel s j) := by
  have given {cs : List Nat} (p : Nat → Bool) (sub : cs ⊆ x.ahead) : ∀ c ∈ (ascending cs).filter p, (view f).Free m c :=
    fun c hc => own c (List.mem_cons_of_mem _ (sub (mem_of_mem_ascending (List.mem_filter.1 hc).1)))
  cases j with
  | none =>
    unfold Floor.stopAt
    simp only
    split
    · exact (keeps_settled k (.refl f) (.refl _) (given _ (List.Subset.refl _)) _ _).trans
        ((keeps_settleRefuge _ _ _ _ _).trans (keeps_offerReleased _ _ _))
    · exact (keeps_settled k (.refl f) (.refl _) (given _ (List.Subset.refl _)) _ _).trans (keeps_offerReleased _ _ _)
  | some j =>
    have reach : Keeps f (f.acceptArrival k m x j) := keeps_acceptArrival k own j
    have frees := frees_acceptArrival k f m x j
    unfold Floor.stopAt
    simp only
    split
    · exact (keeps_settled k reach frees (given _ (List.drop_subset _ _)) _ _).trans
        ((keeps_settleRefuge _ _ _ _ _).trans (keeps_offerReleased _ _ _))
    · exact (keeps_settled k reach frees (given _ (List.drop_subset _ _)) _ _).trans (keeps_offerReleased _ _ _)

theorem keeps_ack (k : Control) {f : Floor} {m : Nat} (own : ∀ x, f.machines.look m = some x → OwnRoute f m x)
    (kind stop : Nat) (declined : Bool) : Keeps f (f.ack k m kind stop declined) := by
  have withdraws (cancel : Bool) : Keeps f (f.ackWithdraw k m cancel stop) := by
    unfold Floor.ackWithdraw
    split
    · exact .refl f
    · next x hx =>
      split
      · exact keeps_stopAt k (own x hx) _ _ _
      · split
        · exact keeps_stopAt k (own x hx) _ _ _
        · exact .unread ((view_settleWithdrawal _ _).trans (view_unexpected _ _ _ _))
  have effects (o : Order) : Keeps f (f.ackEffects k m stop declined o) := by
    cases o with
    | leg =>
      simp only [Floor.ackEffects]
      split
      · exact .unread (view_decline _ _ _ _ _)
      · exact .refl f
    | withdraw cancel => exact withdraws cancel
    | answer => exact .refl f
    | motion => exact .refl f
  unfold Floor.ack
  split
  · next o _ =>
    split
    · exact .after (.unread ((view_deliver _ _).trans (view_clearOutstanding _ _))) (effects o)
    · exact .unread rfl
  · exact .unread rfl

/-! #### Restore, enrolment, withdrawal of a slot -/

theorem mem_cellsOf {f : Floor} (once : f.cells.keys.Nodup) {m c : Nat} (h : c ∈ f.cellsOf m) :
    (view f).ownerOf c = some m := by
  obtain ⟨⟨c, z⟩, listed, rfl⟩ := List.mem_map.1 h
  obtain ⟨listed, owned⟩ := List.mem_filter.1 listed
  rw [ownerOf_view, Table.look_of_mem once listed]
  exact (ownedBy_iff _ _).1 owned

theorem keeps_restore (k : Control) {f : Floor} {m c : Nat} (free : (view f).Free m c) : Keeps f (f.restore k m c) := by
  unfold Floor.restore
  refine .after (keeps_offerReleased _ _ _) ?_
  have placed : Keeps f ((((((f.otherCells m c).foldl (Floor.release k m) (f.leaveWait m)).setOcc c (.held m)).place m
      c).modSettled k m fun x => x.restored k c).removeHalt k .position m) := fun law => by
    have waits : view (f.leaveWait m) = view f := view_leaveWait f m
    rw [view_removeHalt, view_modSettled]
    refine hold_locked (locked_foldl (givenUp_release k m) _ _ (fun d hd => ?_) (waits ▸ law))
      ((frees_foldl (givenUp_release k m) _ _).free (waits ▸ free))
    have owned := mem_cellsOf (cellsOnce_of_locked law) (List.mem_filter.1 hd).1
    rw [waits]
    exact fun n h => Option.some.inj (h.symm.trans owned)
  split
  · split
    · exact placed
    · exact .after (.unread (view_startWithdrawal _ _ _ _ _)) placed
  · exact placed

/-- R106: once a machine has no cell and so no recorded direction, its slot may be emptied. -/
theorem View.Lawful.unenroll {v : View} {m : Nat} (law : v.Locked) (gone : ∀ l, ¬ v.Has m l) :
    View.Locked { v with fleet := v.fleet.del m } where
  spotsOnce := law.spotsOnce
  slotsOnce := by
    rw [Table.keys_del]; exact law.slotsOnce.filter _
  lanes := law.lanes
  places := law.places
  dirs n ds hn := by
    rw [Table.look_del] at hn
    split at hn
    · cases hn
    · exact law.dirs n ds hn
  locks l r hr := by
    obtain ⟨holders, none_iff, agree⟩ := law.locks l r hr
    refine ⟨?_, none_iff, fun n ds d hn hd => ?_⟩
    · rw [holders, Table.countP_del (fun ds => (ds.look l).isSome) law.slotsOnce]
      exact fun ds hm => by simpa using mt ((law.dirs m ds hm).2 l id).1 (gone l)
    · rw [Table.look_del] at hn
      split at hn
      · cases hn
      · exact agree n ds d hn hd

/-- R105: a new machine with no cell records no direction. -/
theorem View.Lawful.enroll {v : View} {m : Nat} (law : v.Locked) (sorted : v.fleet.keys.Pairwise (· < ·))
    (absent : v.fleet.look m = none) (none : ∀ l, ¬ v.Has m l) :
    View.Locked { v with fleet := v.fleet.put m [] } where
  spotsOnce := law.spotsOnce
  slotsOnce := (Table.keys_put_sorted _ m [] sorted).imp Nat.ne_of_lt
  lanes := law.lanes
  places := law.places
  dirs n ds hn := by
    rw [Table.look_put] at hn
    split at hn
    · next eq => cases hn; subst eq; exact ⟨rfl, fun l _ => ⟨fun h => absurd h (by simp), fun has => absurd has (none l)⟩⟩
    · exact law.dirs n ds hn
  locks l r hr := by
    obtain ⟨holders, none_iff, agree⟩ := law.locks l r hr
    refine ⟨?_, none_iff, fun n ds d hn hd => ?_⟩
    · rw [holders, Table.countP_put (fun ds => (ds.look l).isSome) absent rfl]
    · rw [Table.look_put] at hn
      split at hn
      · cases hn; cases hd
      · exact agree n ds d hn hd

end Sys2Proof.Laws
end

section
/-! ### The setting-up commands keep the law -/

namespace Sys2Proof.Laws

open Sys2Proof Sys2Proof.Machine Sys2Proof.Safety

-- One theorem at a time, as in the tests above: side by side their threads' stacks take the memory.
set_option Elab.async false

/-! #### MACHINE WITHDRAW -/

theorem owned_mem_cellsOf {f : Floor} {m c : Nat} (h : (view f).ownerOf c = some m) : c ∈ f.cellsOf m := by
  rw [ownerOf_view] at h
  obtain ⟨z, known, owned⟩ := Option.bind_eq_some_iff.1 h
  exact List.mem_map.2 ⟨(c, z), List.mem_filter.2 ⟨Table.mem_of_look known, (ownedBy_iff _ _).2 owned⟩, rfl⟩

theorem ownerOf_release (k : Control) (f : Floor) (m c : Nat) : (view (f.release k m c)).ownerOf c = none := by
  have cells : (view (f.release k m c)).spots = ((view f).occupy c (owner (f.guardOcc k c))).spots := by
    rw [← view_setOcc]; exact spots_quitLaneOf _ m c
  rw [View.ownerOf, cells, ← View.ownerOf, View.ownerOf_occupy, if_pos rfl, guardOcc_nobody]
  cases (view f).spots.look c <;> rfl

/-- Cells given up one after another are nobody's. -/
theorem nobody_of_released (k : Control) (m : Nat) (cs : List Nat) (f : Floor) :
    ∀ c ∈ cs, (view (cs.foldl (Floor.release k m) f)).ownerOf c = none := by
  induction cs generalizing f with
  | nil => exact fun _ h => absurd h List.not_mem_nil
  | cons d cs ih =>
    intro c hc
    rcases List.mem_cons.1 hc with rfl | hc
    · refine Option.eq_none_iff_forall_ne_some.2 fun n owned => ?_
      have before := frees_foldl (givenUp_release k m) cs (f.release k m c) c n owned
      rw [ownerOf_release] at before
      cases before
    · exact ih _ c hc

theorem keeps_withdraw (k : Control) (f : Floor) (m : Nat) : Keeps f (f.withdraw k m) := by
  unfold Floor.withdraw
  refine .after (keeps_offerReleased _ _ _) fun law => ?_
  have same : view ((f.leaveWait m).flushOrders m) = view f := (view_flushOrders _ m).trans (view_leaveWait f m)
  have mine : ∀ c ∈ f.cellsOf m, (view ((f.leaveWait m).flushOrders m)).Free m c := fun c hc n owned => by
    rw [same, mem_cellsOf (cellsOnce_of_locked law) hc] at owned
    exact (Option.some.inj owned).symm
  have released := locked_foldl (givenUp_release k m) (f.cellsOf m) _ mine (same ▸ law)
  have gone : ∀ l, ¬ (view ((f.cellsOf m).foldl (Floor.release k m) ((f.leaveWait m).flushOrders m))).Has m l := by
    rintro l ⟨c, i, -, owned⟩
    have before := frees_foldl (givenUp_release k m) (f.cellsOf m) _ c m owned
    rw [nobody_of_released k m _ _ c (owned_mem_cellsOf (same ▸ before))] at owned
    cases owned
  simp only [view, Table.remap_del]
  exact View.Lawful.unenroll released gone

/-! #### MACHINE ENROLL -/

/-- R105: a slot that is not enrolled and has no cell is enrolled on a dock that is FREE. -/
theorem keeps_enroll {f : Floor} {m rank dock : Nat} {z : Cell} (sorted : f.machines.keys.Pairwise (· < ·))
    (absent : f.machines.look m = none) (none : ∀ c, (view f).ownerOf c ≠ some m) (known : f.cells.look dock = some z)
    (free : z.occ = .free) : Keeps f (f.enroll m rank dock) := fun law => by
  unfold Floor.enroll Floor.dockMachine
  simp only [Table.look_put, if_pos]
  refine hold_locked ?_ (free_of_occ known free)
  have enrolled := View.Lawful.enroll (m := m) law (by simpa [view] using sorted) (by simpa [view] using absent)
    fun l ⟨c, _, _, owned⟩ => none c owned
  simp only [view, Table.remap_put]
  exact enrolled

/-! #### FLEET RESET -/

/-- R168 steps 2 to 4: nobody has a cell and every lane is FREE. -/
theorem locked_clearedFloor {f : Floor} (law : View.Locked (view f)) : View.Locked (view (clearedFloor f)) where
  spotsOnce := by simpa [view, clearedFloor] using law.spotsOnce
  slotsOnce := by
    have slots : f.machines.keys.Nodup := by simpa [view] using law.slotsOnce
    simpa [view, clearedFloor, keys_fitFleet] using slots.sublist (keys_filter_sublist _ _)
  lanes := (Table.wf_of_keys (by simp [view, clearedFloor])).trans law.lanes
  places c l i := by
    have place : (view (clearedFloor f)).placeOf c = (view f).placeOf c := by
      simp only [View.placeOf, view, clearedFloor, Table.look_remap, Table.look_each]
      cases f.cells.look c <;> rfl
    rw [place, law.places]
    simp only [view, clearedFloor, Table.look_remap, Table.look_each]
    cases f.lanes.look l <;> simp [lockOf]
  dirs m ds hm := by
    simp only [view, clearedFloor, fitFleet, Table.look_remap, Table.look_each, Option.map_eq_some_iff] at hm
    obtain ⟨x, ⟨y, -, rfl⟩, rfl⟩ := hm
    refine ⟨rfl, fun l _ => ⟨fun h => absurd h (by simp [Scrubber.enrolled]), ?_⟩⟩
    rintro ⟨c, i, -, owned⟩
    simp only [ownerOf_view, clearedFloor, Table.look_each] at owned
    cases h : f.cells.look c <;> simp [h, Cell.fleetReset, owner] at owned
  locks l r hr := by
    simp only [view, clearedFloor, Table.look_remap, Table.look_each, Option.map_eq_some_iff] at hr
    obtain ⟨_, ⟨r, -, rfl⟩, rfl⟩ := hr
    have nobody : ∀ e ∈ (view (clearedFloor f)).fleet, e.2.look l = none := by
      simp only [view, clearedFloor, fitFleet, Table.remap, Table.each, List.map_map, List.mem_map]
      rintro _ ⟨e, -, rfl⟩
      rfl
    refine ⟨(List.countP_eq_zero.2 fun e he => by simp [nobody e he]).symm, by simp [lockOf], fun m ds d hm hd => ?_⟩
    simp [nobody _ (Table.mem_of_look hm)] at hd

/-- R7: the owner of a dock. -/
def dockOwner (f : Floor) (c : Nat) : Option (Option Nat) := (f.cells.look c).map Cell.owner

/-- A floor on which some of the machines of `f` have been put on their docks. -/
structure Docking (f g : Floor) : Prop where
  law : View.Locked (view g)
  moved : Moved True f g
  owned : ∀ c n, (view g).ownerOf c = some n → dockOwner f c = some (some n)

/-- One machine more on its dock, which is its own. -/
theorem Docking.step {f g : Floor} {m : Nat} (docking : Docking f g)
    (own : ∀ x, f.machines.look m = some x → dockOwner f x.dock = some (some m)) : Docking f (g.dockMachine m) := by
  have moved := docking.moved.trans (moved_dockMachine g m)
  unfold Floor.dockMachine at moved ⊢
  split
  · next y hy =>
    simp only [hy] at moved
    obtain ⟨x, hx, rel⟩ := docking.moved.machines.back hy
    have mine : dockOwner f y.dock = some (some m) := rel.dock ▸ own x hx
    refine ⟨hold_locked docking.law fun n owned => ?_, moved, fun c n owned => ?_⟩
    · have := docking.owned _ n owned
      rw [mine] at this
      cases this; rfl
    · rw [View.ownerOf, spots_place, ← View.ownerOf, view_setOcc, View.ownerOf_occupy] at owned
      split at owned
      · next eq =>
        obtain ⟨_, -, owned⟩ := Option.bind_eq_some_iff.1 owned
        cases owned
        exact eq ▸ mine
      · exact docking.owned c n owned
  · exact docking

theorem Docking.foldl {f : Floor} (own : ∀ m x, f.machines.look m = some x → dockOwner f x.dock = some (some m))
    (ms : List Nat) {g : Floor} (docking : Docking f g) : Docking f (ms.foldl Floor.dockMachine g) := by
  induction ms generalizing g with
  | nil => exact docking
  | cons m ms ih => exact ih (docking.step (own m))

/-- R168 step 2: the dock of a machine that stands is its own. -/
theorem dockOwner_clearedFloor {f : Floor} {m : Nat} {x : Scrubber} (h : (clearedFloor f).machines.look m = some x) :
    dockOwner (clearedFloor f) x.dock = some (some m) := by
  simp only [clearedFloor, fitFleet, Table.look_each, Option.map_eq_some_iff] at h
  obtain ⟨y, known, rfl⟩ := h
  have fit : f.dockFit m y.dock = true := (List.mem_filter.1 (Table.mem_of_look known)).2
  unfold Floor.dockFit at fit
  split at fit
  · next z hz =>
    simp only [Bool.and_eq_true, decide_eq_true_eq] at fit
    simp [dockOwner, clearedFloor, Scrubber.enrolled, hz, Cell.fleetReset, fit.2]
  · cases fit

theorem docking_dockedFloor {f : Floor} (law : View.Locked (view f)) : Docking (clearedFloor f) (dockedFloor f) := by
  have cleared := locked_clearedFloor law
  refine Docking.foldl (fun _ _ => dockOwner_clearedFloor) _ ⟨cleared, .refl _ _, fun c n owned => ?_⟩
  rw [ownerOf_view] at owned
  simp only [clearedFloor, Table.look_each] at owned
  cases h : f.cells.look c <;> simp [h, Cell.fleetReset, owner] at owned

theorem keeps_fleetReset (k : Control) (f : Floor) : Keeps f (f.fleetReset k) := fun law => by
  have counted : view (recounted (dockedFloor f)) = view (dockedFloor f) := view_cellsEach _ fun _ _ => rfl
  have same : view (f.fleetReset k) = view (recounted (dockedFloor f)) := by rw [fleetReset_eq]; rfl
  rw [same, counted]
  exact (docking_dockedFloor law).law

/-! #### CELL DEFINE -/

/-- The law reads of the cells no more than place and owner of each. -/
theorem View.Lawful.respot {v : View} {spots : Table Spot} (law : v.Locked) (once : spots.keys.Nodup)
    (places : ∀ c, (spots.look c).bind Spot.place = v.placeOf c) (owners : ∀ c, (spots.look c).bind Spot.owner = v.ownerOf c) :
    View.Locked { v with spots := spots } where
  spotsOnce := once
  slotsOnce := law.slotsOnce
  lanes := law.lanes
  places c l i := by
    rw [show View.placeOf { v with spots := spots } c = v.placeOf c from places c]
    exact law.places c l i
  dirs m ds hm := by
    refine ⟨(law.dirs m ds hm).1, fun l open' => ((law.dirs m ds hm).2 l open').trans ?_⟩
    unfold View.Has
    simp only [show ∀ c, View.placeOf { v with spots := spots } c = v.placeOf c from places,
      show ∀ c, View.ownerOf { v with spots := spots } c = v.ownerOf c from owners]
  locks := law.locks

/-- An undefined cell was in no lane and nobody's; any other entry keeps the cell's lane field and occupancy. -/
theorem spots_applyEntry {f : Floor} {e : CellEntry} (idle : e.kind = 0 → (view f).placeOf e.number = none ∧
    (view f).ownerOf e.number = none) (c : Nat) :
    (view (f.applyEntry e)).placeOf c = (view f).placeOf c ∧ (view (f.applyEntry e)).ownerOf c = (view f).ownerOf c := by
  unfold Floor.applyEntry
  simp only [View.placeOf, View.ownerOf, view, Table.look_remap] at idle ⊢
  split
  · next void =>
    simp only [Table.look_del]
    split
    · next eq => subst eq; simpa [eq_comm] using idle void
    · exact ⟨rfl, rfl⟩
  · simp only [Table.look_put]
    split
    · next eq => rw [eq]; cases h : f.cells.look e.number <;> simp [spotOf, CellEntry.over, Cell.fresh, owner]
    · exact ⟨rfl, rfl⟩

theorem spots_applyEntries (es : List CellEntry) (f : Floor) (idle : ∀ e ∈ es, e.kind = 0 →
    (view f).placeOf e.number = none ∧ (view f).ownerOf e.number = none) (c : Nat) :
    (view (es.foldl Floor.applyEntry f)).placeOf c = (view f).placeOf c ∧
      (view (es.foldl Floor.applyEntry f)).ownerOf c = (view f).ownerOf c := by
  induction es generalizing f with
  | nil => exact ⟨rfl, rfl⟩
  | cons e es ih =>
    have one := spots_applyEntry (idle e List.mem_cons_self)
    have rest := ih (f.applyEntry e) fun d hd void => by
      rw [(one d.number).1, (one d.number).2]; exact idle d (List.mem_cons_of_mem _ hd) void
    exact ⟨rest.1.trans (one c).1, rest.2.trans (one c).2⟩

/-- Table 1-2: what an entry list passes that no check refuses. -/
theorem cellChecks_eq_none {f : Floor} {es : List CellEntry} (passed : f.cellChecks es = none) {e : CellEntry} (he : e ∈ es) :
    e.wellFormed = true ∧ (es.map fun e => e.number).count e.number < 2 ∧
      (e.kind = 0 → (f.cells.look e.number).isSome = true ∧ f.laneOf e.number = none) ∧
      ∀ z, f.cells.look e.number = some z → z.occ = .free ∧ z.waiters = [] := by
  have all := List.findSome?_eq_none_iff.1 passed
  simp only [List.forall_mem_cons, firstPosition, Option.map_map, Option.map_eq_none_iff, List.findIdx?_eq_none_iff] at all
  obtain ⟨wellFormed, once, defined, placed, busy, -⟩ := all
  refine ⟨by simpa using wellFormed e he, by simpa using once e he, fun void => ⟨?_, ?_⟩, fun z hz => ?_⟩
  · simpa [void, Option.isSome_iff_ne_none] using defined e he
  · simpa [void] using placed e he
  · simpa [hz] using busy e he

theorem keeps_applyEntries {f : Floor} {es : List CellEntry} (passed : f.cellChecks es = none)
    (wf : f.cells.wf Config.cellCount = true) : Keeps f (es.foldl Floor.applyEntry f) := fun law => by
  have same := spots_applyEntries es f fun e he void => by
    obtain ⟨-, -, gone, free⟩ := cellChecks_eq_none passed he
    refine ⟨by rw [← laneOf_eq]; exact (gone void).2, ?_⟩
    rw [ownerOf_view]
    cases h : f.cells.look e.number with
    | none => rfl
    | some z => simp [(free z h).1, owner]
  have once := ((Table.wf_iff _ _).1 (applyEntries_cells_wf es f (isCell_of_cellChecks passed) wf)).1
  have spots : view (es.foldl Floor.applyEntry f) =
      { view f with spots := (view (es.foldl Floor.applyEntry f)).spots } := by rw [applyEntries_frame]; rfl
  rw [spots]
  refine law.respot ?_ (fun c => (same c).1) fun c => (same c).2
  rw [show (view (es.foldl Floor.applyEntry f)).spots.keys = (es.foldl Floor.applyEntry f).cells.keys by simp [view]]
  exact once.imp Nat.ne_of_lt

/-! #### LANE DEFINE -/

/-- Table 4-2: what a cell list passes that no check refuses. -/
structure LaneAccepted (f : Floor) (l : Nat) (cs : List Nat) : Prop where
  known : l < Config.laneCount
  once : ∀ c ∈ cs, isCell c = true ∧ cs.count c < 2
  defined : ∀ c ∈ cs, (f.cells.look c).isSome = true
  loose : ∀ c ∈ cs, ∀ l' i, f.laneOf c = some (l', i) → l' = l
  idle : ∀ r, f.lanes.look l = some r → r.holders = 0 ∧ r.waiters = []
  free : ∀ c ∈ cs, ∀ z, f.cells.look c = some z → z.occ = .free ∧ z.waiters = []

theorem laneAccepted_of_laneChecks {f : Floor} {l : Nat} {cs : List Nat} (passed : f.laneChecks l cs = none) :
    LaneAccepted f l cs := by
  have known := lane_lt_of_laneChecks passed
  unfold Floor.laneChecks at passed
  simp only at passed
  split at passed
  · cases passed
  · simp only [Option.or_eq_none_iff, Option.map_eq_none_iff, List.find?_eq_none, Bool.or_eq_true, Bool.not_eq_true',
      decide_eq_true_eq, not_or] at passed
    obtain ⟨once, defined, -, loose, -, idle, busy⟩ := passed
    refine ⟨known, fun c hc => ?_, fun c hc => ?_, fun c hc l' i here => ?_, fun r hr => ?_, fun c hc z hz => ?_⟩
    · obtain ⟨number, count⟩ := once c hc
      exact ⟨by simpa using number, by omega⟩
    · simpa [Option.isSome_iff_ne_none] using defined c hc
    · simpa [here] using loose c hc
    · simpa [hr] using idle
    · simpa [Floor.busyCell, hz] using busy c (List.mem_append_left _ hc)

/-- The position of a cell in a list that names it once. -/
theorem findIdx?_eq_some_iff {cs : List Nat} (once : cs.Nodup) (c i : Nat) :
    cs.findIdx? (fun m => decide (m = c)) = some i ↔ cs[i]? = some c := by
  rw [List.findIdx?_eq_some_iff_getElem]
  constructor
  · rintro ⟨bound, here, -⟩
    rw [List.getElem?_eq_getElem bound, of_decide_eq_true here]
  · intro here
    obtain ⟨bound, here⟩ := List.getElem?_eq_some_iff.1 here
    refine ⟨bound, decide_eq_true here, fun j before => ?_⟩
    have other : cs[j] ≠ cs[i] := fun eq => Nat.ne_of_lt before (once.getElem_inj_iff.1 eq)
    simpa [here] using other

theorem LaneAccepted.nodup {f : Floor} {l : Nat} {cs : List Nat} (ok : LaneAccepted f l cs) : cs.Nodup :=
  List.nodup_iff_count_le_one.2 fun c => by
    by_cases h : c ∈ cs
    · have := (ok.once c h).2; omega
    · rw [List.count_eq_zero.2 h]; omega

/-- R56: the lane's cells take their places in the list, cells that leave it have none, and the others keep theirs. -/
theorem placeOf_defineLane {f : Floor} {l : Nat} {cs : List Nat} (ok : LaneAccepted f l cs) (c k i : Nat) :
    (view (f.defineLane l cs)).placeOf c = some (k, i) ↔
      if k = l then cs[i]? = some c else (view f).placeOf c = some (k, i) := by
  simp only [← laneOf_eq, Floor.laneOf, defineLane_cells, Table.look_each]
  cases known : f.cells.look c with
  | none =>
    have outside : cs[i]? ≠ some c := fun here => by simpa [known] using ok.defined c (List.mem_of_getElem? here)
    simp [outside]
  | some z =>
    simp only [Option.map_some, Option.bind_some, Cell.joinLane]
    cases position : cs.findIdx? fun m => decide (m = c) with
    | some j =>
      have here := (findIdx?_eq_some_iff ok.nodup c j).1 position
      by_cases eq : k = l
      · subst eq
        simp only [if_pos, ← findIdx?_eq_some_iff ok.nodup, position]; simp
      · have other : z.lane ≠ some (k, i) := fun lane =>
          eq (ok.loose c (List.mem_of_getElem? here) k i (by simp [Floor.laneOf, known, lane]))
        simp [eq, Ne.symm eq, other]
    | none =>
      have outside : cs[i]? ≠ some c := fun here => by
        rw [← findIdx?_eq_some_iff ok.nodup, position] at here; cases here
      cases lane : z.lane with
      | none => simp [lane, outside]
      | some p =>
        obtain ⟨l', j⟩ := p
        by_cases same : l' = l
        · subst same
          by_cases eq : k = l'
          · subst eq; simp [outside]
          · simp [eq, Ne.symm eq]
        · by_cases eq : k = l
          · subst eq; simp [same, outside, lane]
          · simp [same, eq, lane]

theorem joinLane_occ (z : Cell) (l : Nat) (position : Option Nat) : (z.joinLane l position).occ = z.occ := by
  unfold Cell.joinLane
  cases position with
  | some i => rfl
  | none => exact (apply_ite Cell.occ _ _ _).trans (ite_self _)

theorem ownerOf_defineLane (f : Floor) (l : Nat) (cs : List Nat) (c : Nat) :
    (view (f.defineLane l cs)).ownerOf c = (view f).ownerOf c := by
  simp only [ownerOf_view, defineLane_cells, Table.look_each]
  cases f.cells.look c with
  | none => rfl
  | some z => simp only [Option.map_some, Option.bind_some, joinLane_occ]

theorem lanes_defineLane (f : Floor) (l : Nat) (cs : List Nat) (k : Nat) : (f.defineLane l cs).lanes.look k =
    if k = l then (if cs = [] then none else some { cells := cs, dir := none, holders := 0, waiters := [] })
    else f.lanes.look k := by
  unfold Floor.defineLane
  by_cases empty : cs = []
  · simp only [if_pos empty, Table.look_del]
  · simp only [if_neg empty, Table.look_put]

theorem locks_defineLane (f : Floor) (l : Nat) (cs : List Nat) (k : Nat) :
    (view (f.defineLane l cs)).locks.look k =
      if k = l then (if cs = [] then none else some ⟨cs, none, 0⟩) else (view f).locks.look k := by
  simp only [view, Table.look_remap, lanes_defineLane]
  split
  · split <;> rfl
  · rfl

/-- A lane with no holder is recorded by no machine. -/
theorem none_recorded {v : View} {l : Nat} (law : v.Locked) (idle : ∀ r, v.locks.look l = some r → r.holders = 0)
    {m : Nat} {ds : Table Dir} (hm : v.fleet.look m = some ds) : ds.look l = none := by
  by_contra recorded
  have recorded : (ds.look l).isSome = true := Option.isSome_iff_ne_none.2 recorded
  obtain ⟨r, known⟩ := law.lane_of_has (((law.dirs m ds hm).2 l id).1 recorded)
  have counted := (law.locks l r known).1
  rw [idle r known] at counted
  exact List.countP_eq_zero.1 counted.symm _ (Table.mem_of_look hm) recorded

theorem keeps_defineLane {f : Floor} {l : Nat} {cs : List Nat} (ok : LaneAccepted f l cs) :
    Keeps f (f.defineLane l cs) := fun law => by
  have unrecorded {m : Nat} {ds : Table Dir} (hm : (view f).fleet.look m = some ds) : ds.look l = none :=
    none_recorded law (fun r hr => by
      simp only [view, Table.look_remap, Option.map_eq_some_iff] at hr
      obtain ⟨r, hr, rfl⟩ := hr
      exact (ok.idle r hr).1) hm
  refine ⟨by simpa [view, defineLane_cells] using law.spotsOnce, law.slotsOnce, ?_, fun c k i => ?_, fun m ds hm => ?_,
    fun k r hr => ?_⟩
  · have lanes : f.lanes.wf Config.laneCount = true := (Table.wf_of_keys (by simp [view])).trans law.lanes
    exact (Table.wf_of_keys (by simp [view])).trans (defineLane_lanes_wf (cs := cs) ok.known lanes)
  · rw [placeOf_defineLane ok, locks_defineLane]
    split
    · split
      · next empty => simp [empty]
      · simp
    · exact law.places c k i
  · refine ⟨(law.dirs m ds hm).1, fun k _ => ?_⟩
    by_cases eq : k = l
    · subst eq
      refine ⟨fun recorded => absurd recorded (by simp [unrecorded hm]), ?_⟩
      rintro ⟨c, i, here, owned⟩
      rw [placeOf_defineLane ok, if_pos rfl] at here
      rw [ownerOf_defineLane, ownerOf_view] at owned
      obtain ⟨z, known, owned⟩ := Option.bind_eq_some_iff.1 owned
      rw [(ok.free c (List.mem_of_getElem? here) z known).1] at owned
      cases owned
    · refine ((law.dirs m ds hm).2 k id).trans (exists_congr fun c => exists_congr fun i => ?_)
      rw [placeOf_defineLane ok, if_neg eq, ownerOf_defineLane]
  · rw [locks_defineLane] at hr
    split at hr
    · next eq =>
      subst eq
      split at hr
      · cases hr
      · cases hr
        refine ⟨(List.countP_eq_zero.2 fun e he => ?_).symm, by simp, fun m ds d hm hd => ?_⟩
        · simp [unrecorded (Table.look_of_mem law.slotsOnce (show (e.1, e.2) ∈ _ from he))]
        · simp [unrecorded hm] at hd
    · exact law.locks k r hr

end Sys2Proof.Laws
end

section
/-! ### Every command keeps the law (O11) -/

namespace Sys2Proof.Laws

open Sys2Proof Sys2Proof.Machine Sys2Proof.Safety

-- One theorem at a time, as in the tests above: side by side their threads' stacks take the memory.
set_option Elab.async false

/-- The law of lane locks is what `View.Locked` says of the view. -/
theorem lanesKept_iff {s : State} (tables : TablesKept s) : LanesKept s ↔ View.Locked (view s.floor) := by
  obtain ⟨cells, lanes, machines, -⟩ := tables
  have cellsOnce : s.floor.cells.keys.Nodup := ((Table.wf_iff _ _).1 cells).1.imp Nat.ne_of_lt
  have slotsOnce : s.floor.machines.keys.Nodup := ((Table.wf_iff _ _).1 machines).1.imp Nat.ne_of_lt
  have counted (l : Nat) : (view s.floor).fleet.countP (fun e => (e.2.look l).isSome) =
      s.floor.machines.countP fun e => (e.2.laneDirs.look l).isSome := List.countP_map
  have listed (l i c : Nat) : (∃ r, (view s.floor).locks.look l = some r ∧ r.cells[i]? = some c) ↔
      ∃ r, s.floor.lanes.look l = some r ∧ r.cells[i]? = some c := by
    simp only [view, Table.look_remap, Option.map_eq_some_iff]
    constructor
    · rintro ⟨_, ⟨r, known, rfl⟩, here⟩; exact ⟨r, known, here⟩
    · rintro ⟨r, known, here⟩; exact ⟨_, ⟨r, known, rfl⟩, here⟩
  constructor
  · rintro ⟨places, dirs, locks⟩
    refine ⟨by simpa [view] using cellsOnce, by simpa [view] using slotsOnce, (Table.wf_of_keys (by simp [view])).trans lanes,
      fun c l i => by rw [← laneOf_eq, listed]; exact places c l i, fun m ds hm => ?_, fun l r hr => ?_⟩
    · simp only [view, Table.look_remap, Option.map_eq_some_iff] at hm
      obtain ⟨x, hx, rfl⟩ := hm
      exact ⟨(dirs m x hx).1, fun l _ => by rw [(dirs m x hx).2 l, hasLaneCell_iff cellsOnce]⟩
    · simp only [view, Table.look_remap, Option.map_eq_some_iff] at hr
      obtain ⟨r, hr, rfl⟩ := hr
      obtain ⟨holders, none_iff, agree⟩ := locks l r hr
      refine ⟨holders.trans (counted l).symm, none_iff, fun m ds d hm hd => ?_⟩
      simp only [view, Table.look_remap, Option.map_eq_some_iff] at hm
      obtain ⟨x, hx, rfl⟩ := hm
      exact agree m x d hx hd
  · intro law
    refine ⟨fun c l i => by rw [laneOf_eq, law.places, listed], fun m x hx => ?_, fun l r hr => ?_⟩
    · obtain ⟨wf, recorded⟩ := law.dirs m x.laneDirs (by simp [view, hx])
      exact ⟨wf, fun l => Bool.eq_iff_iff.2 ((recorded l id).trans (hasLaneCell_iff cellsOnce m l).symm)⟩
    · obtain ⟨holders, none_iff, agree⟩ := law.locks l (lockOf r) (by simp [view, hr])
      exact ⟨holders.trans (counted l), none_iff, fun m x d hx hd => agree m _ d (by simp [view, hx]) hd⟩

/-- R19: a machine that is not LOST holds the cells of its route. -/
theorem ownRoute_of_holdings {s : State} (kept : HoldingsKept s) {m : Nat} {x : Scrubber}
    (known : s.floor.machines.look m = some x) (found : x.state ≠ .lost) : OwnRoute s.floor m x := by
  obtain ⟨-, machines, -⟩ := kept
  obtain ⟨-, -, -, -, holds, -⟩ := machines m x known
  intro c route n owned
  have held := ((holds found).2 c).2 (List.mem_append_left _ route)
  rw [ownerOf_view] at owned
  obtain ⟨z, hz, owned⟩ := Option.bind_eq_some_iff.1 owned
  rw [hz] at held
  have occ : z.occ = .held m := by simpa using held
  rw [occ] at owned
  exact (Option.some.inj owned).symm

/-- R19: a slot that is not enrolled has no cell. -/
theorem nobody_of_absent {s : State} (kept : HoldingsKept s) {m : Nat} (absent : s.floor.machines.look m = none) (c : Nat) :
    (view s.floor).ownerOf c ≠ some m := by
  obtain ⟨-, -, enrolled⟩ := kept
  rw [ownerOf_view]
  intro owned
  obtain ⟨z, hz, owned⟩ := Option.bind_eq_some_iff.1 owned
  obtain ⟨held, blocked⟩ := enrolled c z m hz
  cases occ : z.occ <;> simp [occ, owner] at owned
  · obtain ⟨x, known, -⟩ := held (owned ▸ occ); simp [absent] at known
  · obtain ⟨x, known, -⟩ := blocked (owned ▸ occ); simp [absent] at known

/-! #### Work on the state -/

theorem keeps_onFloor {s : State} {g : Control → Floor → Floor} (h : ∀ k f, Keeps f (g k f)) :
    Keeps s.floor (s.onFloor g).floor := h _ _

theorem keeps_openZone (z : Nat) (s : State) : Keeps s.floor (s.openZone z).floor := by
  unfold State.openZone
  split
  · exact .refl _
  · exact keeps_offerCells _ _ _

theorem keeps_enterRecall (r : RecallReason) (o : Option Nat) (s : State) : Keeps s.floor (s.enterRecall r o).floor := by
  unfold State.enterRecall
  simp only
  split
  · exact .refl _
  · exact .unread (view_raise _ _ _ _ _)

theorem keeps_takeAction (i : Nat) (a : MarkAction) (s : State) : Keeps s.floor (s.takeAction i a).floor := by
  cases a with
  | zoneClose z => exact .refl _
  | zoneOpen z => exact keeps_openZone z s
  | recalling =>
    simp only [State.takeAction]
    split
    · exact keeps_enterRecall _ _ s
    · exact .refl _
  | noticeOnly => exact .refl _

theorem keeps_fireMark (s : State) (i : Nat) : Keeps s.floor (s.fireMark i).floor := by
  unfold State.fireMark
  split
  · exact .after (keeps_takeAction _ _ _) (.unread (view_raise _ _ _ _ _))
  · exact .refl _

theorem keeps_fireMarks (is : List Nat) (s : State) : Keeps s.floor (s.fireMarks is).floor := by
  unfold State.fireMarks
  induction is generalizing s with
  | nil => exact .refl _
  | cons i is ih => exact (keeps_fireMark s i).trans (ih _)

theorem keeps_clockTick (s : State) : Keeps s.floor s.clockTick.floor := by
  unfold State.clockTick
  split
  · simp only
    split
    · exact .after (keeps_fireMarks _ _) (.refl s.floor)
    · exact .refl _
  · exact .refl _

theorem keeps_evacEdge (active : Bool) (s : State) : Keeps s.floor (s.evacEdge active).floor := by
  have raised (r : Option NoticeReason) : Keeps s.floor (s.onFloor fun k f => f.raise k .evacuation none r).floor :=
    .unread (view_raise _ _ _ _ _)
  have entered (saved : SavedMode) (t : State) : Keeps t.floor (t.enterEvacuation saved).floor :=
    .unread (view_foldl (fun f m => view_addHalt _ .evac f m) _ _)
  cases active
  · exact raised _
  · unfold State.evacEdge
    simp only [if_true]
    split
    · exact (raised _).trans (entered _ _)
    · exact (raised _).trans (entered _ _)
    · exact raised _

theorem keeps_sampleEvac (active : Bool) (s : State) : Keeps s.floor (s.sampleEvac active).floor := by
  unfold State.sampleEvac
  simp only
  split
  · exact .refl _
  · exact .after (keeps_evacEdge _ _) (.refl s.floor)

theorem keeps_evacEdgeEvent (active : Bool) (s : State) : Keeps s.floor (s.evacEdgeEvent active).floor := by
  unfold State.evacEdgeEvent
  split
  · exact .refl _
  · exact .after (keeps_evacEdge _ _) (.refl s.floor)

theorem keeps_beginNight (s : State) : Keeps s.floor s.beginNight.floor := by
  have begun (k : Control) (f : Floor) : view (f.beginNight k) = view f := by
    have cells := view_cellsEach { f with machines := f.machines.each fun _ x => x.beginNight k }
      (g := fun _ c => { c with washes := 0, lastWashed := none }) fun _ _ => rfl
    exact cells.trans (view_machines (Table.remap_each_same fun _ _ => rfl))
  unfold State.beginNight
  simp only
  refine .after (keeps_fireMarks _ _) ?_
  exact (keeps_offerCells _ _ _).trans (.unread (begun _ _))

theorem keeps_endNight (s : State) : Keeps s.floor s.endNight.floor :=
  .unread (view_machines (Table.remap_each_same fun _ _ => rfl))

theorem keeps_resumeAll (saved : SavedMode) (s : State) : Keeps s.floor (s.resumeAll saved).floor := by
  have lifted (k : Control) (f : Floor) : Keeps f (f.machines.keys.foldl (Floor.removeHalt k .evac) f) :=
    .unread (view_foldl (fun f m => view_removeHalt k .evac f m) _ _)
  unfold State.resumeAll
  refine .after (keeps_onFloor keeps_offerEverything) (.after (keeps_onFloor lifted) ?_)
  split
  · exact .refl _
  · exact .refl _

/-- An expiry does the work of its timer, on the floor as it stands. -/
theorem keeps_expire {deadline : Option Nat} {g : Control → Floor → Floor} {s : State}
    (h : ∀ t, deadline = some t → ∀ k, Keeps s.floor (g k s.floor)) : Keeps s.floor (s.expire deadline g).floor := by
  unfold State.expire
  split
  · next t => exact h t rfl _
  · exact .refl _

/-! #### Commands and records -/

/-- What is taken at its turn keeps the law, where its work does. -/
theorem keeps_turn {b : Bool} {s t u : State} (h : Keeps s.floor u.floor)
    (e : (Host.Outcome.next (if b then u else s) : Machine.Result) = .next t) : Keeps s.floor t.floor := by
  cases e
  split
  · exact h
  · exact .refl _

theorem keeps_event {g : State → State} {s t : State} (h : Keeps s.floor (g s).floor) (e : event g s = .next t) :
    Keeps s.floor t.floor := keeps_turn h e

theorem keeps_command {kind ref : Byte} {body : List Byte} {act : Action} {s t : State}
    (h : ∀ s, Keeps s.floor (act s).1.floor) (e : command kind ref body act s = .next t) :
    Keeps s.floor t.floor := by
  rcases command_cases e with rfl | ⟨-, _, _, _, _, rfl⟩
  · exact .refl _
  · exact .after (h s.takeFrame) (.refl s.floor)

theorem keeps_withoutBody {body : List Byte} {act : Action} (h : ∀ s, Keeps s.floor (act s).1.floor) (s : State) :
    Keeps s.floor (withoutBody body act s).1.floor := by
  unfold withoutBody
  split
  · exact h s
  · exact .refl _

/-- A record: what its owners do with one of a known machine that is not LOST keeps the law; all else is not read. -/
theorem keeps_record {kind slot : Byte} {body : List Byte} {parsed valid : Option (State → State)} {s t : State}
    (act : ∀ a, parsed = some a → ∀ x, s.floor.machines.look slot.toNat = some x → x.state ≠ .lost →
      Keeps s.floor (a s.takeRecord).floor)
    (failed : ∀ a, valid = some a → Keeps s.floor (a s.takeRecord).floor)
    (e : machineRecord kind slot body parsed valid s = .next t) : Keeps s.floor t.floor := by
  refine keeps_turn ?_ e
  simp only
  split
  · exact .refl _
  · next a =>
    split
    · exact .refl _
    · split
      · exact .refl _
      · next x known =>
        split
        · next g => exact failed g rfl
        · split
          · exact .unread (view_modMachine s.floor _)
          · next found => exact act a rfl x known found

/-- R122 check 5: the cell of an accepted restore is the machine's own or nobody's. -/
theorem free_of_restoreFault {s : State} {m c : Nat} (passed : s.restoreFault m c = none) : (view s.floor).Free m c := by
  unfold State.restoreFault at passed
  split at passed
  · cases passed
  split at passed
  · cases passed
  split at passed
  · cases passed
  split at passed
  · cases passed
  split at passed
  · cases passed
  next z known =>
  split at passed
  · next restorable =>
    intro n owned
    rw [ownerOf_view, known] at owned
    simp only [Cell.restorable, Bool.and_eq_true, Bool.or_eq_true, decide_eq_true_eq, ownedBy_iff] at restorable
    rcases restorable.1 with mine | ⟨free, -⟩
    · exact Option.some.inj (owned.symm.trans mine)
    · simp [free, owner] at owned
  · cases passed

/-- R20: a cell whose interval runs out is nobody's. -/
theorem nobody_of_deadline {f : Floor} {c t : Nat} (h : f.guardDeadline c = some t ∨ f.wetDeadline c = some t) :
    (view f).ownerOf c = none := by
  rw [ownerOf_view]
  cases known : f.cells.look c with
  | none => rfl
  | some z =>
    cases occ : z.occ <;> simp [Floor.guardDeadline, Floor.wetDeadline, known, occ, owner] at h ⊢

/-- What a setting-up command writes keeps the law. -/
theorem written_keeps_lanes {c : Instr} {s u : State} (laws : ConcourseLaws s) (w : Written s c u) :
    Keeps s.floor u.floor := by
  obtain ⟨tables, -, holdings, -, -⟩ := laws
  cases w with
  | cellDefine ref body es passed => exact keeps_applyEntries (f := s.takeFrame.floor) passed tables.1
  | laneDefine ref body l cs passed =>
    refine keeps_defineLane (f := s.takeFrame.floor) (laneAccepted_of_laneChecks ?_)
    exact (laneChecks_heard s.floor (unsent s.floor.supTx) l cs).trans passed
  | lineSetup ref body i cfg => exact keeps_setupLine _ s.takeFrame.floor _ _
  | timingSetup ref body settings =>
    refine .unread (view_machines (f := s.floor) (Table.remap_each_same fun _ x => ?_))
    split <;> rfl
  | machineEnroll ref slot rank d1 d0 z known absent dock free =>
    exact keeps_enroll (f := s.takeFrame.floor) ((Table.wf_iff _ _).1 (machines_of_tablesKept tables).1).1 absent
      (nobody_of_absent holdings absent) dock free
  | fleetReset ref body =>
    have reset : s.takeFrame.fleetReset.floor = s.takeFrame.floor.fleetReset s.control := rfl
    rw [reset]
    exact .after (keeps_fleetReset _ _) (.refl s.floor)
  | dryingSetup ref body d => exact .refl _
  | environmentSet ref body d => exact .refl _
  | noticeControl ref body mask ceiling => exact keeps_onFloor (s := s.takeFrame) fun _ _ => .unread (view_sendAllDue _)
  | noticeClear ref body named => exact keeps_onFloor (s := s.takeFrame) fun _ _ => .unread (view_sendAllDue _)
  | machineWithdraw ref slot x known => exact keeps_withdraw _ s.takeFrame.floor _

/-! #### The night's commands -/

theorem keeps_nightRecall (s : State) : Keeps s.floor (State.nightRecall s).1.floor := by
  unfold State.nightRecall
  split
  · exact .refl _
  · exact keeps_enterRecall _ _ s
  · exact .refl _
  · exact .refl _
  · exact .refl _

theorem keeps_nightContinue (s : State) : Keeps s.floor (State.nightContinue s).1.floor := by
  have attempted (k : Control) (f : Floor) : Keeps f (f.attemptAll k) := .unread (view_attemptAll k f)
  unfold State.nightContinue
  split
  · exact .refl _
  · exact attempted _ _
  · exact attempted _ _
  · exact .refl _
  · exact .refl _

theorem keeps_clockSet (v : Nat) (s : State) : Keeps s.floor (State.clockSet v s).1.floor := by
  unfold State.clockSet
  split
  · exact .refl _
  · split
    · exact .refl _
    · exact .after (keeps_fireMarks _ _) (.refl s.floor)

theorem keeps_zoneCommand {z : Nat} {g : State → State} (h : ∀ s, Keeps s.floor (g s).floor) (s : State) :
    Keeps s.floor (State.zoneCommand z g s).1.floor := by
  unfold State.zoneCommand
  split
  · exact .refl _
  · split
    · exact h s
    · exact .refl _

/-- The commands that write on the floor only by their set-up work. -/
theorem keeps_setUp {c : Instr} {s t : State} (laws : ConcourseLaws s)
    (h : Refused s t ∨ ∃ u, Written s c u ∧ Replied u t) : Keeps s.floor t.floor := by
  rcases h with ⟨-, backlog, floor⟩ | ⟨u, write, _, _, _, _, rfl⟩
  · exact .unread (by rw [floor]; rfl)
  · exact .after (.refl u.floor) (written_keeps_lanes laws write)

/-! #### Reports, and commands for legs and machines -/

theorem keeps_cellRead (c : Nat) (s : State) : Keeps s.floor (State.cellRead c s).1.floor := by
  unfold State.cellRead
  split
  · exact .refl _
  · split <;> exact .refl _

theorem keeps_machineRead (m : Nat) (s : State) : Keeps s.floor (State.machineRead m s).1.floor := by
  unfold State.machineRead
  split
  · exact .refl _
  · split <;> exact .refl _

theorem keeps_laneRead (l : Nat) (s : State) : Keeps s.floor (State.laneRead l s).1.floor := by
  unfold State.laneRead
  split
  · split <;> exact .refl _
  · exact .refl _

theorem keeps_lineRead (i : Nat) (s : State) : Keeps s.floor (State.lineRead i s).1.floor := by
  unfold State.lineRead
  split
  · exact .refl _
  · split <;> exact .refl _

theorem keeps_writeMark (i : Nat) (m : Mark) (s : State) : Keeps s.floor (State.writeMark i m s).1.floor := by
  unfold State.writeMark
  split <;> exact .refl _

theorem keeps_markSet (i time : Nat) (action : Option MarkAction) (s : State) :
    Keeps s.floor (State.markSet i time action s).1.floor := by
  cases action with
  | none => exact .refl _
  | some a =>
    simp only [State.markSet]
    split
    · exact keeps_writeMark _ _ s
    · exact .refl _

theorem keeps_legLoad (a : LegFields) (s : State) : Keeps s.floor (State.legLoad a s).1.floor := by
  unfold State.legLoad
  split
  · exact .refl _
  · exact .unread (view_loadLeg _ _ _ _)

theorem keeps_legCancel (m : Nat) (all : Option Bool) (s : State) : Keeps s.floor (State.legCancel m all s).1.floor := by
  unfold State.legCancel
  split
  · exact .refl _
  split
  · exact .refl _
  split
  · exact .refl _
  split
  · exact .refl _
  split
  · exact .refl _
  · exact .unread (view_cancelLeg _ _ _ _)

theorem keeps_machineHalt (slot : Byte) (s : State) : Keeps s.floor (State.machineHalt slot s).1.floor := by
  unfold State.machineHalt
  split
  · exact .refl _
  · exact .unread (view_foldl (fun f m => view_addHalt _ .host f m) _ _)

theorem keeps_machineResume (slot : Byte) (s : State) : Keeps s.floor (State.machineResume slot s).1.floor := by
  unfold State.machineResume
  split
  · exact .refl _
  · exact .unread (view_foldl (fun f m => view_removeHalt _ .host f m) _ _)

theorem keeps_machineRestore (m c : Nat) (s : State) : Keeps s.floor (State.machineRestore m c s).1.floor := by
  unfold State.machineRestore
  split
  · exact .refl _
  · next passed => exact keeps_restore _ (free_of_restoreFault passed)

/-! #### The ports -/

theorem floor_supByte (s : State) (b : Byte) : (s.supByte b).floor = s.floor := by
  have framed (fr : Frame) (s : State) : (s.supFrame fr).floor = s.floor := by
    unfold State.supFrame
    split
    · simp only
      split <;> split <;> rfl
    · rfl
  unfold State.supByte
  simp only
  split
  · rfl
  · rfl
  · exact framed _ _

theorem floor_supBytes (bytes : List Byte) (s : State) : (s.supBytes bytes).floor = s.floor := by
  unfold State.supBytes
  induction bytes generalizing s with
  | nil => rfl
  | cons b bytes ih => exact (ih _).trans (floor_supByte s b)

theorem view_fleetByte (s : State) (b : Byte) : view (s.fleetByte b).floor = view s.floor := by
  have framed (fr : Frame) (s : State) : view (s.fleetFrame fr).floor = view s.floor := by
    unfold State.fleetFrame
    split
    · simp only
      split <;> rfl
    · rfl
  unfold State.fleetByte
  simp only
  split
  · rfl
  · rfl
  · exact framed _ _

theorem view_fleetBytes (bytes : List Byte) (s : State) : view (s.fleetBytes bytes).floor = view s.floor := by
  unfold State.fleetBytes
  induction bytes generalizing s with
  | nil => rfl
  | cons b bytes ih => exact (ih _).trans (view_fleetByte s b)

/-! #### All commands -/

/-- R1, R54, R103: after a full reset there is no cell, no lane and no machine. -/
theorem lanesKept_reset (rest : List Instr) : LanesKept { State.reset with pending := rest } := by
  refine ⟨fun c l i => ⟨fun h => ?_, fun ⟨_, h, _⟩ => ?_⟩, fun _ _ h => ?_, fun _ _ h => ?_⟩ <;> cases h

/-- An event of the module, or a command of the model with a unit's number, which must exist. -/
theorem keeps_unit {known : Prop} [Decidable known] {g : State → State} {fault : Fault} {s t : State}
    (e : (if known then event g s else .fault fault) = .next t) (h : Keeps s.floor (g s).floor) : Keeps s.floor t.floor := by
  split at e
  · exact keeps_event h e
  · cases e

theorem exec_keeps_lanes (c : Instr) (s t : State) (laws : ConcourseLaws s) (e : exec c s = .next t) :
    Keeps s.floor t.floor := by
  have bad (s : State) : Keeps s.floor (badLength s).1.floor := .refl _
  have own {m : Nat} {x : Scrubber} (known : s.floor.machines.look m = some x) (found : x.state ≠ .lost) :
      ∀ y, s.floor.machines.look m = some y → OwnRoute s.floor m y := fun y hy => by
    cases known.symm.trans hy; exact ownRoute_of_holdings laws.2.2.1 known found
  cases c
  case cellDefine r b => exact keeps_setUp laws (cellDefine_written r b s t e)
  case laneDefine r b => exact keeps_setUp laws (laneDefine_written r b s t e)
  case lineSetup r b => exact keeps_setUp laws (lineSetup_written r b s t e)
  case timingSetup r b => exact keeps_setUp laws (timingSetup_written r b s t e)
  case machineEnroll r b => exact keeps_setUp laws (machineEnroll_written r b s t e)
  case fleetReset r b => exact keeps_setUp laws (fleetReset_written r b s t e)
  case dryingSetup r b => exact keeps_setUp laws (dryingSetup_written r b s t e)
  case environmentSet r b => exact keeps_setUp laws (environmentSet_written r b s t e)
  case noticeControl r b => exact keeps_setUp laws (noticeControl_written r b s t e)
  case noticeClear r b => exact keeps_setUp laws (noticeClear_written r b s t e)
  case machineWithdraw r b => exact keeps_setUp laws (machineWithdraw_written r b s t e)
  case fullReset =>
    cases e
    exact fun _ => (lanesKept_iff (tablesKept_reset s.pending)).1 (lanesKept_reset s.pending)
  case resetInputHeld => cases e; exact .refl s.floor
  case powerLoss => cases e; exact .refl s.floor
  case noticeRead r b => exact keeps_command (keeps_withoutBody fun _ => .refl _) e
  case countersRead r b => exact keeps_command (keeps_withoutBody fun _ => .refl _) e
  case mapCheck r b => exact keeps_command (keeps_withoutBody fun _ => .refl _) e
  case nightRecall r b => exact keeps_command (keeps_withoutBody keeps_nightRecall) e
  case nightContinue r b => exact keeps_command (keeps_withoutBody keeps_nightContinue) e
  case nightBegin r b =>
    refine keeps_command (keeps_withoutBody fun s => ?_) e
    split
    · exact .refl _
    split
    · exact .refl _
    split
    · exact .refl _
    · exact keeps_beginNight s
  case nightEnd r b =>
    refine keeps_command (keeps_withoutBody fun s => ?_) e
    split
    · exact .refl _
    split
    · exact .refl _
    · exact keeps_endNight s
  case resumeAll r b =>
    refine keeps_command (keeps_withoutBody fun s => ?_) e
    unfold State.resumeAllCommand
    split
    · exact .refl _
    split
    · exact .refl _
    · exact keeps_resumeAll _ s
  case cellRead r b =>
    refine keeps_command (fun s => ?_) e
    split
    · exact keeps_cellRead _ s
    · exact bad s
  case machineRead r b =>
    refine keeps_command (fun s => ?_) e
    split
    · exact keeps_machineRead _ s
    · exact bad s
  case laneRead r b =>
    refine keeps_command (fun s => ?_) e
    split
    · exact keeps_laneRead _ s
    · exact bad s
  case lineRead r b =>
    refine keeps_command (fun s => ?_) e
    split
    · exact keeps_lineRead _ s
    · exact bad s
  case markSet r b =>
    refine keeps_command (fun s => ?_) e
    split
    · exact keeps_markSet _ _ _ s
    · exact bad s
  case markClear r b =>
    refine keeps_command (fun s => ?_) e
    split
    · exact keeps_writeMark _ _ s
    · exact bad s
  case clockSet r b =>
    refine keeps_command (fun s => ?_) e
    split
    · exact keeps_clockSet _ s
    · exact bad s
  case legLoad r b =>
    refine keeps_command (fun s => ?_) e
    split
    · split
      · exact keeps_legLoad _ s
      · exact bad s
    · exact bad s
  case legCancel r b =>
    refine keeps_command (fun s => ?_) e
    split
    · exact keeps_legCancel _ _ s
    · exact bad s
  case machineHalt r b =>
    refine keeps_command (fun s => ?_) e
    split
    · exact keeps_machineHalt _ s
    · exact bad s
  case machineResume r b =>
    refine keeps_command (fun s => ?_) e
    split
    · exact keeps_machineResume _ s
    · exact bad s
  case machineRestore r b =>
    refine keeps_command (fun s => ?_) e
    split
    · exact keeps_machineRestore _ _ s
    · exact bad s
  case zoneClose r b =>
    refine keeps_command (fun s => ?_) e
    split
    · exact keeps_zoneCommand (g := State.closeZone _) (fun s => .refl s.floor) s
    · exact bad s
  case zoneOpen r b =>
    refine keeps_command (fun s => ?_) e
    split
    · exact keeps_zoneCommand (keeps_openZone _) s
    · exact bad s
  case supervisoryUnknownKind k r b =>
    simp only [exec, execSupervisoryUnknownKind] at e
    split at e
    · cases e
    · exact keeps_command (act := unknownKind) (fun s => .refl s.floor) e
  case supervisoryFrame fr => exact keeps_event (.unread (congrArg view (floor_supBytes _ _))) e
  case supervisoryGapTimeout =>
    simp only [exec, execSupervisoryGapTimeout] at e
    refine keeps_event ?_ e
    split <;> exact .refl _
  case supervisoryBreak => exact keeps_event (g := fun s => s.supAbandon.supCount _) (.refl s.floor) e
  case fleetFrame fr => exact keeps_event (.unread (view_fleetBytes _ _)) e
  case fleetGapTimeout =>
    simp only [exec, execFleetGapTimeout] at e
    refine keeps_event ?_ e
    split <;> exact .refl _
  case fleetBreak => exact keeps_event (g := fun s => s.fleetAbandon.fleetCount _) (.refl s.floor) e
  case fleetUnknownKind k r b =>
    simp only [exec, execFleetUnknownKind] at e
    split at e
    · cases e
    · exact keeps_turn (u := s.takeRecord.unknownRecord) (.refl s.floor) e
  case beacon sl b =>
    unfold exec execBeacon at e
    refine keeps_record (valid := none) ?_ (fun _ h => nomatch h) e
    split
    · rintro _ ⟨⟩ x known found; exact keeps_beacon _ _ _ _ _
    · exact fun _ h => nomatch h
  case arrive sl b =>
    unfold exec execArrive at e
    refine keeps_record (valid := none) ?_ (fun _ h => nomatch h) e
    split
    · rintro _ ⟨⟩ x known found; exact keeps_arrive _ (own known found) _ _
    · exact fun _ h => nomatch h
  case request sl b =>
    unfold exec execRequest at e
    refine keeps_record ?_ ?_ e
    · split
      · rintro _ ⟨⟩ x known found; exact keeps_request _ _ _ _
      · exact fun _ h => nomatch h
    · split
      · rintro _ ⟨⟩; exact .refl s.floor
      · exact fun _ h => nomatch h
  case ack sl b =>
    unfold exec execAck at e
    refine keeps_record ?_ ?_ e
    · split
      · rintro _ ⟨⟩ x known found; exact keeps_ack _ (own known found) _ _ _
      · exact fun _ h => nomatch h
    · split
      · exact fun _ h => nomatch h
      · rintro _ ⟨⟩; exact .refl s.floor
  case faultStop sl b =>
    unfold exec execFaultStop at e
    refine keeps_record ?_ ?_ e
    · split
      · rintro _ ⟨⟩ x known found; exact .unread (view_faultStop _ _ _ _)
      · exact fun _ h => nomatch h
    · split
      · rintro _ ⟨⟩; exact .refl s.floor
      · exact fun _ h => nomatch h
  case restart sl b =>
    unfold exec execRestart at e
    refine keeps_record (valid := none) ?_ (fun _ h => nomatch h) e
    split
    · rintro _ ⟨⟩ x known found; exact .unread (view_restart _ _ _)
    · exact fun _ h => nomatch h
  case hostSilenceExpiry =>
    refine keeps_event ?_ e
    unfold State.silenceExpiry
    split
    · exact .after (keeps_enterRecall _ _ _) (.refl s.floor)
    · exact .refl _
  case clockAdvance => exact keeps_event (keeps_clockTick s) e
  case evacuationActiveEdge => exact keeps_event (keeps_evacEdgeEvent true s) e
  case evacuationInactiveEdge => exact keeps_event (keeps_evacEdgeEvent false s) e
  case inputSample i flow =>
    simp only [exec, execInputSample] at e
    split at e
    · exact keeps_event (keeps_sampleLine _ _ _ _) e
    · exact keeps_unit e (keeps_sampleEvac _ _)
  case fleetFrameSent m => exact keeps_unit e (.unread (view_frameSent _ _ _))
  case replyWindowExpiry m => exact keeps_unit e (keeps_expire fun _ _ _ => keeps_replyExpiry _ _ _)
  case beaconTimerExpiry m => exact keeps_unit e (keeps_expire fun _ _ _ => keeps_beaconExpiry _ _ _)
  case progressTimerExpiry m => exact keeps_unit e (keeps_expire fun _ _ _ => .unread (view_stall _ _ _))
  case guardExpiry c =>
    exact keeps_unit e (keeps_expire fun _ h _ => keeps_freeCell _ _ _ (nobody_of_deadline (.inl h)))
  case wetExpiry c =>
    exact keeps_unit e (keeps_expire fun _ h _ => keeps_freeCell _ _ _ (nobody_of_deadline (.inr h)))
  case filteredActiveEdge i => exact keeps_unit e (.unread (view_activeEdgeEvent _ _ _))
  case filteredInactiveEdge i => exact keeps_unit e (keeps_inactiveEdgeEvent _ _ _)
  case lineStuck i flow => exact keeps_unit e (.unread (view_stuckEvent _ _ _ _))
  case holdExpiry i => exact keeps_unit e (keeps_expire fun _ _ _ => keeps_holdExpiry _ _ _)
  case clearOutExpiry i => exact keeps_unit e (keeps_expire fun _ _ _ => .unread (view_breach _ _ _))

/-- Settles O11: the law is read off the view; every command leaves the view as it is, or gives up cells that are the
machine's own, or takes a span found grantable, and each of these keeps it. -/
theorem stepsKeepTheLaneLocks : Obligations.StepsKeepTheLaneLocks := by
  intro s t laws e
  have tables : TablesKept t := stepsKeepTheTables s t laws.1 e
  refine (lanesKept_iff tables).2 ?_
  have law : View.Locked (view s.floor) := (lanesKept_iff laws.1).1 laws.2.2.2.2
  cases pending : s.pending with
  | cons c rest => exact exec_keeps_lanes c { s with pending := rest } t laws (step_cons pending ▸ e) law
  | nil =>
    cases next : s.nextTaken with
    | some c => exact exec_keeps_lanes c s t laws (step_takes pending next ▸ e) law
    | none => rw [step_idle pending next] at e; cases e; exact law

end Sys2Proof.Laws
end

section
/-! ## What stops, and what a full reset leaves (O2, O4) -/

namespace Sys2Proof.Laws

open Sys2Proof Sys2Proof.Machine Sys2Proof.Safety

-- One theorem at a time, as in the tests above: side by side their threads' stacks take the memory.
set_option Elab.async false

/-! ### Commands that name a unit (O2) -/

theorem next_of_known {known : Prop} [Decidable known] {g : State → State} {fault : Fault} {s : State} (h : known) :
    ∃ t, (if known then event g s else .fault fault) = .next t := ⟨_, if_pos h⟩

theorem fault_of_unknown {known : Bool} {r : Machine.Result} {fault : Fault} (h : known = false) :
    (if known = true then r else .fault fault) = .fault fault := if_neg (by simp [h])

theorem next_of_unknownKind {known : Bool} {kind ref : Byte} {body : List Byte} {s : State} (h : known = false) :
    ∃ t, (if known = true then .fault .kindIsKnown else command kind ref body unknownKind s) = .next t :=
  ⟨_, if_neg (by simp [h])⟩

/-- R1, R89, R103, R137, R153, R172: a command that the hardware can meet answers a next state. -/
theorem exec_next_of_wellFormed (c : Instr) (s : State) (h : c.wellFormed = true) : ∃ t, exec c s = .next t := by
  cases c
  case supervisoryUnknownKind k r b =>
    simp only [Instr.wellFormed, Bool.and_eq_true, Bool.not_eq_true'] at h
    exact next_of_unknownKind h.2
  case fleetUnknownKind k m b =>
    simp only [Instr.wellFormed, Bool.and_eq_true, Bool.not_eq_true'] at h
    exact ⟨_, if_neg (by simp [h.2])⟩
  case inputSample i flow =>
    simp only [Instr.wellFormed, decide_eq_true_eq] at h
    simp only [exec, execInputSample]
    split
    · exact ⟨_, rfl⟩
    · next notLine =>
      refine next_of_known ?_
      simp only [isLine, decide_eq_true_eq] at notLine
      omega
  case fleetFrameSent n => exact next_of_known h
  case replyWindowExpiry n => exact next_of_known h
  case beaconTimerExpiry n => exact next_of_known h
  case progressTimerExpiry n => exact next_of_known h
  case guardExpiry n => exact next_of_known h
  case wetExpiry n => exact next_of_known h
  case filteredActiveEdge n => exact next_of_known h
  case filteredInactiveEdge n => exact next_of_known h
  case lineStuck n flow => exact next_of_known h
  case holdExpiry n => exact next_of_known h
  case clearOutExpiry n => exact next_of_known h
  all_goals exact ⟨_, rfl⟩

/-- Settles O2: only the commands that name a unit or an unknown kind test what they are given. -/
theorem onlyImpossibleCommandsStop : Obligations.OnlyImpossibleCommandsStop := by
  intro c s
  refine ⟨exec_next_of_wellFormed c s, fun n unknown => ?_, fun n unknown => ?_, fun n flow unknown => ?_,
    fun kind ref body known => if_pos known, fun kind slot body known => if_pos known⟩
  · exact ⟨fault_of_unknown unknown, fault_of_unknown unknown, fault_of_unknown unknown, fault_of_unknown unknown⟩
  · exact ⟨fault_of_unknown unknown, fault_of_unknown unknown⟩
  · refine ⟨fault_of_unknown unknown, fault_of_unknown unknown, fault_of_unknown unknown, fault_of_unknown unknown,
      fault_of_unknown unknown, fun other => ?_⟩
    exact (if_neg (by simp [unknown])).trans (if_neg other)

/-! ### Full reset (O4) -/

/-- A table that lists the numbers below `n`, all with the record `v`. -/
theorem look_range {α : Type} {v : α} {n k : Nat} (h : k < n) :
    Table.look ((List.range n).map fun i => (i, v)) k = some v := by
  have listed : (Table.look ((List.range n).map fun i => (i, v)) k).isSome := by
    rw [Table.look_isSome]
    exact List.mem_map.2 ⟨(k, v), List.mem_map.2 ⟨k, List.mem_range.2 h, rfl⟩, rfl⟩
  obtain ⟨w, known⟩ := Option.isSome_iff_exists.1 listed
  obtain ⟨i, -, eq⟩ := List.mem_map.1 (Table.mem_of_look known)
  rw [known, ← (Prod.mk.inj eq).2]

theorem eq_of_look_range {α : Type} {v w : α} {n k : Nat}
    (h : Table.look ((List.range n).map fun i => (i, v)) k = some w) : w = v := by
  obtain ⟨i, -, eq⟩ := List.mem_map.1 (Table.mem_of_look h)
  exact (Prod.mk.inj eq).2.symm

theorem lines_reset : State.reset.floor.lines = (List.range Config.lineCount).map fun i => (i, ({} : Line)) := rfl

theorem notices_reset : State.reset.floor.notices = (List.range Config.classCount).map fun n => (n, ({} : Notice)) := rfl

theorem line_reset {i : Nat} {l : Line} (h : State.reset.floor.lines.look i = some l) : l = {} := by
  rw [lines_reset] at h; exact eq_of_look_range h

theorem notice_reset {n : Nat} {r : Notice} (h : State.reset.floor.notices.look n = some r) : r = {} := by
  rw [notices_reset] at h; exact eq_of_look_range h

theorem no_cell {c : Nat} {z : Cell} : State.reset.floor.cells.look c ≠ some z :=
  (Option.some_ne_none _).symm

theorem no_machine {m : Nat} {x : Scrubber} : State.reset.floor.machines.look m ≠ some x :=
  (Option.some_ne_none _).symm

theorem no_lane {l : Nat} {r : Lane} : State.reset.floor.lanes.look l ≠ some r :=
  (Option.some_ne_none _).symm

theorem modeKept_reset : ModeKept State.reset := by unfold ModeKept; decide

theorem countersKept_reset : CountersKept State.reset := by
  refine ⟨fun _ _ h => absurd h no_cell, fun _ _ h => absurd h no_machine, fun i l h => ?_, by unfold FleetCountersKept; decide,
    by unfold SupCountersKept; decide⟩
  rw [line_reset h]
  unfold LineCountsKept
  decide

theorem noticesKept_reset : AllNoticesKept State.reset := fun n r h => by
  rw [notice_reset h]
  unfold NoticeKept
  decide

theorem embargoKept_reset : EmbargoKept State.reset := by
  refine ⟨?_, fun _ _ h => absurd h no_cell⟩
  have lines := tablesKept_reset []
  obtain ⟨-, -, -, -, lines, -⟩ := lines
  rw [show State.reset.floor.lines.keys = _ from lines]
  exact List.nodup_range

theorem dryingKept_reset : DryingKept State.reset := by unfold DryingKept; decide

theorem bandsKept_reset : BandsKept State.reset := fun i l h => by
  rw [line_reset h]
  exact ⟨fun quiet => absurd rfl quiet, nofun, fun _ => rfl⟩

theorem holdingsKept_reset : HoldingsKept State.reset :=
  ⟨fun _ _ h => absurd h no_machine, fun _ _ h => absurd h no_machine, fun _ _ _ h => absurd h no_cell⟩

theorem waitsKept_reset : WaitsKept State.reset :=
  ⟨fun _ _ h => absurd h no_machine, fun _ _ h => absurd h no_cell, fun _ _ h => absurd h no_lane,
    fun _ _ _ => ⟨fun ⟨_, h, _⟩ => absurd h no_cell, fun ⟨_, _, h, _⟩ => absurd h no_machine⟩,
    fun _ _ => ⟨fun ⟨_, h, _⟩ => absurd h no_lane, fun ⟨_, _, h, _⟩ => absurd h no_machine⟩⟩

theorem concourseLaws_reset : ConcourseLaws State.reset :=
  ⟨tablesKept_reset [], fun _ _ h => absurd h no_machine, holdingsKept_reset, waitsKept_reset, lanesKept_reset []⟩

/-- R149, R182: held in reset or without supply, the module opens every clear output and changes nothing else. -/
theorem openOutputs_spec (f : Floor) :
    (∀ i, f.openOutputs.lines.look i = (f.lines.look i).map fun l => { l with clearOutput := false }) ∧
      { f.openOutputs with lines := f.lines } = f := ⟨fun i => by simp [Floor.openOutputs], rfl⟩

/-- Settles O4: the reset state is written out in the model; of its laws, those over cells, lanes and machines have
nothing to say of it. -/
theorem resetLeavesTheStatedValues : Obligations.ResetLeavesTheStatedValues := by
  refine ⟨?_, fun s => ⟨rfl, ⟨_, rfl, openOutputs_spec s.floor⟩, ⟨_, rfl, openOutputs_spec s.floor⟩⟩, tablesKept_reset [],
    modeKept_reset, by unfold QueuesKept; decide, fun _ _ h => absurd h no_machine, noticesKept_reset, countersKept_reset,
    embargoKept_reset,
    dryingKept_reset, bandsKept_reset, concourseLaws_reset⟩
  have lines (i : Nat) (h : i < 16) : State.reset.floor.lines.look i = some {} := by
    rw [lines_reset]; exact look_range h
  have notices (n : Nat) (h : n < 12) : State.reset.floor.notices.look n = some {} := by
    rw [notices_reset]; exact look_range h
  exact ⟨⟨rfl, rfl, rfl⟩, fun _ h => look_range h, rfl, rfl, lines, rfl, ⟨rfl, rfl, rfl, rfl⟩, ⟨rfl, rfl⟩,
    fun _ h => look_range h, ⟨rfl, rfl, rfl, rfl, rfl, rfl⟩, ⟨rfl, rfl⟩, notices, rfl⟩

end Sys2Proof.Laws
end

section
/-! ## The seven queries (O18) -/

namespace Sys2Proof.Laws

open Sys2Proof Sys2Proof.Machine Sys2Proof.Safety

-- One theorem at a time, as in the tests above: side by side their threads' stacks take the memory.
set_option Elab.async false

/-- A command at its turn is answered with what its action says, on the state that the action leaves. -/
theorem command_done {kind ref : Byte} {body : List Byte} {act : Action} {s u : State} {status : Status} {data : ReplyData}
    (turn : s.takesCommand ⟨kind, ref, body⟩ = true) (acts : act s.takeFrame = (u, status, data)) :
    command kind ref body act s = .next (u.reply kind ref status data) := by
  rw [command_taken turn, acts]

/-- A command at its turn whose action changes nothing is answered with what the action says. -/
theorem command_answers {kind ref : Byte} {body : List Byte} {act : Action} {s : State} {status : Status} {data : ReplyData}
    (turn : s.takesCommand ⟨kind, ref, body⟩ = true) (same : act s.takeFrame = (s.takeFrame, status, data)) :
    command kind ref body act s = answers kind ref status data id s := command_done turn same

theorem isCell_eq_false (c : Nat) : isCell c = false ↔ 511 < c := by
  rw [isCell, decide_eq_false_iff_not, Config.cellCount]; omega

theorem isSlot_eq_false (m : Nat) : isSlot m = false ↔ m < 1 ∨ 24 < m := by
  rw [isSlot, Bool.and_eq_false_iff, decide_eq_false_iff_not, decide_eq_false_iff_not, Config.slotCount]; omega

theorem isLane_iff (l : Nat) : l < Config.laneCount ↔ ¬ 15 < l := by rw [Config.laneCount]; omega

/-- The test of a lane's steps does not read the transmitter's backlog. -/
theorem laneFaultFrom_heard (f : Floor) (backlog : List SupOut) (l i : Nat) (cs : List Nat) :
    ({ f with supTx := backlog } : Floor).laneFaultFrom l i cs = f.laneFaultFrom l i cs := by
  induction cs generalizing i with
  | nil => rfl
  | cons p rest ih =>
    cases rest with
    | nil => rfl
    | cons c rest => simp only [Floor.laneFaultFrom, ih]

/-- The map check does not read the transmitter's backlog. -/
theorem mapFault_heard (f : Floor) (backlog : List SupOut) :
    ({ f with supTx := backlog } : Floor).mapFault = f.mapFault := by
  simp only [Floor.mapFault, laneFaultFrom_heard]; rfl

/-- Settles O18: each query's action reads the record that stands and hands the state on as it is. -/
theorem queriesReportAndChangeNothing : Obligations.QueriesReportAndChangeNothing := by
  intro ref b1 b0 s c n told turn
  refine ⟨fun h => ?_, fun h => ?_, fun h => ?_, fun h => ?_, fun h => command_answers h rfl, fun h => command_answers h rfl,
    fun h => command_answers h ?_⟩
  · split
    · next out => exact command_answers h (if_pos ((isCell_eq_false c).2 out))
    · next range =>
      have inRange : ¬ isCell c = false := mt (isCell_eq_false c).1 range
      split
      · next known => exact command_answers h ((if_neg inRange).trans (by simp [c, be16] at known ⊢; simp [known]))
      · next known => exact command_answers h ((if_neg inRange).trans (by simp [c, be16] at known ⊢; simp [known]))
  · split
    · next out => exact command_answers h (if_pos ((isSlot_eq_false n).2 out))
    · next range =>
      split
      · next known => exact command_answers h ((if_neg (mt (isSlot_eq_false n).1 range)).trans (by simp [n, known]))
      · next known => exact command_answers h ((if_neg (mt (isSlot_eq_false n).1 range)).trans (by simp [n, known]))
  · split
    · next out => exact command_answers h (if_neg fun range => (isLane_iff n).1 range out)
    · next range =>
      split
      · next known => exact command_answers h ((if_pos ((isLane_iff n).2 range)).trans (by simp [n, known]))
      · next known => exact command_answers h ((if_pos ((isLane_iff n).2 range)).trans (by simp [n, known]; rfl))
  · split
    · next input => exact command_answers h (if_pos input)
    · next line =>
      split
      · next known => exact command_answers h ((if_neg (c := n = Config.lineCount) line).trans (by simp [n, known]))
      · next known =>
        refine command_answers h ((if_neg (c := n = Config.lineCount) line).trans ?_)
        simp [n, known]
        exact ⟨rfl, rfl⟩
  · have same : s.takeFrame.floor.mapFault = s.floor.mapFault := mapFault_heard s.floor _
    simp only [withoutBody, if_true, same]
    rfl

end Sys2Proof.Laws
end

section
/-! ## What only its own command sets (O14) -/

namespace Sys2Proof.Laws

open Sys2Proof Sys2Proof.Machine Sys2Proof.Safety

-- One theorem at a time, as in the tests above: side by side their threads' stacks take the memory.
set_option Elab.async false

/-- What the setting-up commands write on the floor: the map (R5, R8, R55), the lines' configurations (R138), the notice
control (R179), and each enrolled machine's rank and dock (R105). -/
structure Installed where
  cells : Nat → Option (CellKind × Option Nat × Nat × Nat × BitVec 16 × List Nat × Option Nat × Option (Nat × Nat))
  lanes : Nat → Option (List Nat)
  lines : Nat → Option LineConfig
  ceiling : Nat
  enabled : Nat → Option Bool
  crew : Nat → Option (Nat × Nat)

def installed (f : Floor) : Installed where
  cells n := (f.cells.look n).map staticPart
  lanes l := (f.lanes.look l).map Lane.cells
  lines i := (f.lines.look i).map Line.cfg
  ceiling := f.ceiling
  enabled n := (f.notices.look n).map Notice.enabled
  crew m := (f.machines.look m).map fun x => (x.rank, x.dock)

/-- Floor work writes nothing that is set up. -/
theorem Moved.installed_eq {calm : Prop} {f g : Floor} (h : Moved calm f g) : installed g = installed f := by
  obtain ⟨machines, cells, lanes, lines, notices, ceiling, -⟩ := h
  simp only [installed, ceiling, cells.map_look (fun _ _ move => move.static), lanes.map_look (fun _ _ move => move.cells),
    lines.map_look (fun _ _ move => move.cfg), notices.map_look (fun _ _ move => move.enabled),
    machines.map_look (p := fun x => (x.rank, x.dock)) fun _ _ move => by rw [move.rank, move.dock]]

theorem worked_installed {s t : State} (w : Worked s t) : installed t.floor = installed s.floor := w.floor.installed_eq

theorem replied_installed {u t : State} (r : Replied u t) : installed t.floor = installed u.floor := by
  obtain ⟨_, _, _, _, rfl⟩ := r; rfl

/-! ### What each setting-up command sets -/

theorem applyEntries_installed (es : List CellEntry) (f : Floor) : installed (es.foldl Floor.applyEntry f) =
    { installed f with cells := (installed (es.foldl Floor.applyEntry f)).cells } := by
  rw [applyEntries_frame]; rfl

theorem setupLine_installed (k : Control) (f : Floor) (i : Nat) (cfg : LineConfig) : installed (f.setupLine k i cfg) =
    { installed f with lines := (installed (f.setupLine k i cfg)).lines } := by
  have line (f : Floor) (g : Line → Line) : installed (f.modLine i g) =
    { installed f with lines := (installed (f.modLine i g)).lines } := rfl
  have ended := (moved_endIfInForce k (f.modLine i fun l => { l with cfg := cfg }) i).installed_eq
  unfold Floor.setupLine
  simp only
  rw [line, ended, line]

theorem replaceTiming_installed (s : State) (settings : Timing) :
    installed (s.replaceTiming settings).floor = installed s.floor := by
  simp only [installed, State.replaceTiming, State.onFloor, State.onControl, Table.look_each, Option.map_map]
  congr 1
  funext m
  refine congrArg (fun g => Option.map g (s.floor.machines.look m)) (funext fun x => ?_)
  simp only [Function.comp]
  split <;> rfl

theorem notices_installed (f : Floor) (ceiling : Nat) (g : Nat → Notice → Notice) :
    installed (Floor.sendAllDue { f with ceiling := ceiling, notices := f.notices.each g }) =
      { installed f with
        ceiling := ceiling, enabled := fun n => ((f.notices.look n).map (g n)).map Notice.enabled } := by
  rw [(moved_sendAllDue (calm := True) _).installed_eq]
  simp only [installed, Table.look_each]

theorem noticeClear_installed (f : Floor) (named : Nat → Bool) :
    installed (Floor.sendAllDue
      { f with notices := f.notices.each fun n r => if named n then r.cleared else r }) = installed f := by
  rw [(moved_sendAllDue (calm := True) _).installed_eq]
  simp only [installed, Table.look_each, Option.map_map]
  congr 1
  funext n
  refine congrArg (fun g => Option.map g (f.notices.look n)) (funext fun r => ?_)
  exact (apply_ite Notice.enabled _ _ _).trans (ite_self _)

theorem enroll_installed (f : Floor) (m rank dock : Nat) : installed (f.enroll m rank dock) =
    { installed f with crew := fun n => if n = m then some (rank, dock) else (installed f).crew n } := by
  unfold Floor.enroll
  rw [(moved_dockMachine (calm := True) _ m).installed_eq]
  simp only [installed, Table.look_put]
  congr 1
  funext n
  split <;> rfl

theorem withdraw_installed (k : Control) (f : Floor) (m : Nat) : installed (f.withdraw k m) =
    { installed f with crew := fun n => if n = m then none else (installed f).crew n } := by
  have released := (moved_withdrawReleases (calm := True) k f m).installed_eq
  unfold Floor.withdraw
  simp only
  rw [(moved_offerReleased (calm := True) k _ _).installed_eq]
  rw [← released]
  simp only [installed, Table.look_del]
  congr 1
  funext n
  split <;> rfl

theorem fleetReset_installed (k : Control) (f : Floor) : installed (f.fleetReset k) =
    { installed f with crew := (installed { f with machines := fitFleet f }).crew } := by
  have cleared : installed (clearedFloor f) = installed { f with machines := fitFleet f } := by
    simp only [installed, clearedFloor, Table.look_each, Option.map_map]
    rfl
  have docked : installed (dockedFloor f) = installed (clearedFloor f) :=
    (Moved.foldl (calm := True) moved_dockMachine (fitFleet f).keys (clearedFloor f)).installed_eq
  have rest (g : Floor) : installed { recounted g with
      lines := g.lines.each fun i l => l.fleetReset k.now ((recounted g).bandTaken i)
      notices := g.notices.each fun _ n => n.cleared } = installed g := by
    have line (l : Line) (now taken : Nat) : (l.fleetReset now taken).cfg = l.cfg := by
      unfold Line.fleetReset
      simp only
      split
      · rfl
      · split <;> rfl
    simp only [installed, recounted, Table.look_each, Option.map_map, Function.comp_def, line]
    rfl
  rw [fleetReset_eq]
  exact (rest (dockedFloor f)).trans (docked.trans cleared)

/-- R168 step 2: a machine that stands in the fleet after a reset stood in it before, with its rank and dock. -/
theorem crew_fitFleet {f : Floor} (once : f.machines.keys.Nodup) {m : Nat} {y : Scrubber} (h : (fitFleet f).look m = some y) :
    ∃ x, f.machines.look m = some x ∧ f.dockFit m x.dock = true ∧ y = Scrubber.enrolled x.rank x.dock := by
  simp only [fitFleet, Table.look_each, Option.map_eq_some_iff] at h
  obtain ⟨x, listed, rfl⟩ := h
  obtain ⟨listed, fit⟩ := List.mem_filter.1 (Table.mem_of_look listed)
  exact ⟨x, Table.look_of_mem once listed, fit, rfl⟩

/-! ### All commands -/

theorem openOutputs_installed (f : Floor) : installed f.openOutputs = installed f := by
  simp only [installed, Floor.openOutputs, Table.look_each, Option.map_map]
  rfl

/-- R44, R174: the settings are written by their own commands alone. -/
theorem written_settings {c : Instr} {s u : State} (w : Written s c u) :
    ((∀ r b, c ≠ .timingSetup r b) → u.control.timing = s.control.timing) ∧
      ((∀ r b, c ≠ .dryingSetup r b ∧ c ≠ .environmentSet r b) → u.control.drying = s.control.drying) := by
  cases w with
  | timingSetup ref body settings => exact ⟨fun other => absurd rfl (other ref body), fun _ => rfl⟩
  | dryingSetup ref body d => exact ⟨fun _ => rfl, fun other => absurd rfl (other ref body).1⟩
  | environmentSet ref body d => exact ⟨fun _ => rfl, fun other => absurd rfl (other ref body).2⟩
  | _ => exact ⟨fun _ => rfl, fun _ => rfl⟩

/-- R8, R55, R138, R179: so are the map, the lines' configurations and the notice control. -/
theorem written_map {c : Instr} {s u : State} (w : Written s c u) :
    ((∀ r b, c ≠ .cellDefine r b ∧ c ≠ .laneDefine r b) →
      (installed u.floor).cells = (installed s.floor).cells ∧ (installed u.floor).lanes = (installed s.floor).lanes) ∧
    ((∀ r b, c ≠ .lineSetup r b) → (installed u.floor).lines = (installed s.floor).lines) ∧
    ((∀ r b, c ≠ .noticeControl r b) →
      (installed u.floor).ceiling = (installed s.floor).ceiling ∧
        (installed u.floor).enabled = (installed s.floor).enabled) := by
  have all (same : installed u.floor = installed s.floor) {a b d : Prop} :
      (a → (installed u.floor).cells = (installed s.floor).cells ∧
        (installed u.floor).lanes = (installed s.floor).lanes) ∧
      (b → (installed u.floor).lines = (installed s.floor).lines) ∧
      (d → (installed u.floor).ceiling = (installed s.floor).ceiling ∧
        (installed u.floor).enabled = (installed s.floor).enabled) := by
    rw [same]; exact ⟨fun _ => ⟨rfl, rfl⟩, fun _ => rfl, fun _ => ⟨rfl, rfl⟩⟩
  cases w with
  | cellDefine ref body es passed =>
    have floor := applyEntries_installed es s.takeFrame.floor
    rw [State.onFloor, floor]
    exact ⟨fun other => absurd rfl (other ref body).1, fun _ => rfl, fun _ => ⟨rfl, rfl⟩⟩
  | laneDefine ref body l cs passed =>
    exact ⟨fun other => absurd rfl (other ref body).2, fun _ => rfl, fun _ => ⟨rfl, rfl⟩⟩
  | lineSetup ref body i cfg =>
    have floor := setupLine_installed s.takeFrame.control s.takeFrame.floor i cfg
    rw [State.onFloor, floor]
    exact ⟨fun _ => ⟨rfl, rfl⟩, fun other => absurd rfl (other ref body), fun _ => ⟨rfl, rfl⟩⟩
  | timingSetup ref body settings => exact all (replaceTiming_installed s.takeFrame settings)
  | machineEnroll ref slot rank d1 d0 z known absent dock free =>
    rw [State.onFloor, enroll_installed]
    exact ⟨fun _ => ⟨rfl, rfl⟩, fun _ => rfl, fun _ => ⟨rfl, rfl⟩⟩
  | fleetReset ref body =>
    have floor : installed s.takeFrame.fleetReset.floor = _ := fleetReset_installed s.control s.takeFrame.floor
    rw [floor]
    exact ⟨fun _ => ⟨rfl, rfl⟩, fun _ => rfl, fun _ => ⟨rfl, rfl⟩⟩
  | noticeControl ref body mask ceiling =>
    rw [State.onFloor, notices_installed _ ceiling fun n r => { r with enabled := mask.getLsbD n }]
    exact ⟨fun _ => ⟨rfl, rfl⟩, fun _ => rfl, fun other => absurd rfl (other ref body)⟩
  | noticeClear ref body named =>
    have taken : installed s.takeFrame.floor = installed s.floor := rfl
    refine all ?_
    rw [← taken, State.onFloor, noticeClear_installed]
  | machineWithdraw ref slot x known =>
    rw [State.onFloor, withdraw_installed]
    exact ⟨fun _ => ⟨rfl, rfl⟩, fun _ => rfl, fun _ => ⟨rfl, rfl⟩⟩
  | _ => exact all rfl

/-- A slot whose crew entry stands: enrolled after as before, on the same terms. -/
theorem crew_stands {f g : Floor} {m : Nat} (h : (installed g).crew m = (installed f).crew m) :
    (g.machines.look m = none ↔ f.machines.look m = none) ∧
      ∀ x y, f.machines.look m = some x → g.machines.look m = some y → y.rank = x.rank ∧ y.dock = x.dock := by
  simp only [installed] at h
  refine ⟨by rw [← Option.map_eq_none_iff, h, Option.map_eq_none_iff], fun x y hx hy => ?_⟩
  simpa [hx, hy] using h

/-- Such a slot is neither enrolled nor emptied. -/
theorem crew_kept {f g : Floor} {m : Nat} (same : (installed g).crew m = (installed f).crew m) {a b : Prop} :
    (f.machines.look m = none → g.machines.look m ≠ none → a) ∧ (f.machines.look m ≠ none → g.machines.look m = none → b) ∧
      ∀ x y, f.machines.look m = some x → g.machines.look m = some y → y.rank = x.rank ∧ y.dock = x.dock := by
  obtain ⟨none_iff, terms⟩ := crew_stands same
  exact ⟨fun before after => absurd (none_iff.2 before) after, fun before after => absurd (none_iff.1 after) before, terms⟩

/-- R105, R106, R168: a slot is enrolled and emptied by its own commands alone, and keeps rank and dock. -/
theorem written_crew {c : Instr} {s u : State} (w : Written s c u)
    (once : (∃ r b, c = .fleetReset r b) → s.floor.machines.keys.Nodup) (m : Nat) :
    (s.floor.machines.look m = none → u.floor.machines.look m ≠ none →
      ∃ (r slot rank d1 d0 : Byte), c = .machineEnroll r [slot, rank, d1, d0] ∧ slot.toNat = m) ∧
    (s.floor.machines.look m ≠ none → u.floor.machines.look m = none →
      (∃ (r slot : Byte), c = .machineWithdraw r [slot] ∧ slot.toNat = m) ∨ ∃ r b, c = .fleetReset r b) ∧
    ∀ x y, s.floor.machines.look m = some x → u.floor.machines.look m = some y → y.rank = x.rank ∧ y.dock = x.dock := by
  cases w with
  | cellDefine ref body es passed =>
    have floor := applyEntries_installed es s.takeFrame.floor
    exact crew_kept (by rw [State.onFloor, floor]; rfl)
  | laneDefine ref body l cs passed => exact crew_kept rfl
  | lineSetup ref body i cfg =>
    have floor := setupLine_installed s.takeFrame.control s.takeFrame.floor i cfg
    exact crew_kept (by rw [State.onFloor, floor]; rfl)
  | timingSetup ref body settings =>
    exact crew_kept (congrFun (congrArg Installed.crew (replaceTiming_installed s.takeFrame settings)) m)
  | machineEnroll ref slot rank d1 d0 z known absent dock free =>
    by_cases eq : m = slot.toNat
    · subst eq
      exact ⟨fun _ _ => ⟨ref, slot, rank, d1, d0, rfl, rfl⟩, fun before => absurd absent before,
        fun x y hx => by rw [absent] at hx; cases hx⟩
    · exact crew_kept (by rw [State.onFloor, enroll_installed]; exact if_neg eq)
  | fleetReset ref body =>
    have floor : installed s.takeFrame.fleetReset.floor = _ := fleetReset_installed s.control s.takeFrame.floor
    have fleet : (s.takeFrame.fleetReset.floor.machines.look m).map (fun x => (x.rank, x.dock)) =
        ((fitFleet s.takeFrame.floor).look m).map fun x => (x.rank, x.dock) := by
      have := congrFun (congrArg Installed.crew floor) m
      exact this
    cases fit : (fitFleet s.takeFrame.floor).look m with
    | none =>
      rw [fit] at fleet
      have gone : s.takeFrame.fleetReset.floor.machines.look m = none := Option.map_eq_none_iff.1 fleet
      exact ⟨fun _ after => absurd gone after, fun _ _ => .inr ⟨ref, body, rfl⟩, fun _ _ _ hy => by rw [gone] at hy; cases hy⟩
    | some y =>
      obtain ⟨x, known, -, rfl⟩ := crew_fitFleet (once ⟨ref, body, rfl⟩) fit
      refine crew_kept ?_
      rw [floor]
      simp only [installed, fit]
      exact (congrArg (Option.map fun x => (x.rank, x.dock)) known).symm
  | noticeControl ref body mask ceiling =>
    refine crew_kept ?_
    rw [State.onFloor, notices_installed _ ceiling fun n r => { r with enabled := mask.getLsbD n }]
    rfl
  | noticeClear ref body named =>
    refine crew_kept ?_
    rw [State.onFloor, noticeClear_installed]
    rfl
  | machineWithdraw ref slot x known =>
    by_cases eq : m = slot.toNat
    · subst eq
      refine ⟨fun before => absurd before (by simp [known]), fun _ _ => .inl ⟨ref, slot, rfl, rfl⟩, fun _ y _ hy => ?_⟩
      have gone := congrFun (congrArg Installed.crew (withdraw_installed s.control s.takeFrame.floor slot.toNat)) slot.toNat
      simp only [if_pos, installed, Option.map_eq_none_iff] at gone
      exact absurd (gone.symm.trans hy) (Option.some_ne_none y).symm
    · exact crew_kept (by rw [State.onFloor, withdraw_installed]; exact if_neg eq)
  | dryingSetup ref body d => exact crew_kept rfl
  | environmentSet ref body d => exact crew_kept rfl

/-- Settles O14: floor work writes nothing that is set up, and each setting-up command writes its own part alone. -/
theorem onlyTheirCommandsChangeSettingsAndMap : Obligations.OnlyTheirCommandsChangeSettingsAndMap := by
  refine ⟨fun c s t e notReset => ?_, fun c s t e notReset => ?_, fun c s t e notReset once m => ?_⟩
  · rcases exec_cases e with work | ⟨u, write, _, _, _, _, rfl⟩ | ⟨reset, -⟩ | ⟨-, rfl⟩ | ⟨-, rfl⟩
    · exact ⟨fun _ => work.timing, fun _ => work.drying⟩
    · exact (written_settings write : _ ∧ (_ → u.control.drying = _))
    · exact absurd reset notReset
    · exact ⟨fun _ => rfl, fun _ => rfl⟩
    · exact ⟨fun _ => rfl, fun _ => rfl⟩
  · have told {f g : Floor} {a b d : Prop} (map :
        (a → (installed g).cells = (installed f).cells ∧ (installed g).lanes = (installed f).lanes) ∧
        (b → (installed g).lines = (installed f).lines) ∧
        (d → (installed g).ceiling = (installed f).ceiling ∧ (installed g).enabled = (installed f).enabled)) :
        (a → (∀ n, (installed g).cells n = (installed f).cells n) ∧ ∀ l, (installed g).lanes l = (installed f).lanes l) ∧
        (b → ∀ i, (installed g).lines i = (installed f).lines i) ∧
        (d → (installed g).ceiling = (installed f).ceiling ∧ ∀ n, (installed g).enabled n = (installed f).enabled n) :=
      ⟨fun h => ⟨congrFun (map.1 h).1, congrFun (map.1 h).2⟩, fun h => congrFun (map.2.1 h),
        fun h => ⟨(map.2.2 h).1, congrFun (map.2.2 h).2⟩⟩
    have same (floor : installed t.floor = installed s.floor) {a b d : Prop} :
        (a → (installed t.floor).cells = (installed s.floor).cells ∧
          (installed t.floor).lanes = (installed s.floor).lanes) ∧
        (b → (installed t.floor).lines = (installed s.floor).lines) ∧
        (d → (installed t.floor).ceiling = (installed s.floor).ceiling ∧
          (installed t.floor).enabled = (installed s.floor).enabled) := by
      rw [floor]; exact ⟨fun _ => ⟨rfl, rfl⟩, fun _ => rfl, fun _ => ⟨rfl, rfl⟩⟩
    rcases exec_cases e with work | ⟨u, write, replied⟩ | ⟨reset, -⟩ | ⟨-, rfl⟩ | ⟨-, rfl⟩
    · exact told (same (worked_installed work))
    · exact told (replied_installed replied ▸ written_map write)
    · exact absurd reset notReset
    · exact told (same (openOutputs_installed s.floor))
    · exact told (same (openOutputs_installed s.floor))
  · rcases exec_cases e with work | ⟨u, write, _, _, _, _, rfl⟩ | ⟨reset, -⟩ | ⟨-, rfl⟩ | ⟨-, rfl⟩
    · exact crew_kept (by rw [worked_installed work])
    · exact (written_crew write once m :)
    · exact absurd reset notReset
    · exact crew_kept (by rw [openOutputs_installed])
    · exact crew_kept (by rw [openOutputs_installed])

end Sys2Proof.Laws
end

section
/-! ## CELL DEFINE (O20) -/

namespace Sys2Proof.Laws

open Sys2Proof Sys2Proof.Machine Sys2Proof.Safety

-- One theorem at a time, as in the tests above: side by side their threads' stacks take the memory.
set_option Elab.async false

theorem hasRepeat_eq_false (xs : List Nat) : hasRepeat xs = false ↔ xs.Nodup := by
  induction xs with
  | nil => simp [hasRepeat]
  | cons x xs ih => simp [hasRepeat, ih]

theorem isCell_iff (c : Nat) : isCell c = true ↔ c ≤ 511 := by rw [isCell, decide_eq_true_eq, Config.cellCount]; omega

/-! ### Checks made one after the other over a list -/

/-- The test that the model makes is the one that the statement names. -/
def SameCheck {α : Type} (test : Status × (α → Bool)) (check : Status × (α → Prop)) : Prop :=
  test.1 = check.1 ∧ ∀ x, test.2 x = true ↔ check.2 x

/-- The element that is the first to fail the first check that some element fails. -/
theorem firstPosition_eq {α : Type} {xs : List α} {test : α → Bool} {p : Nat} {x : α} (here : xs[p]? = some x)
    (fails : test x = true) (before : ∀ (q : Nat) y, q < p → xs[q]? = some y → ¬ test y = true) :
    firstPosition xs test = some (p + 1) := by
  obtain ⟨bound, rfl⟩ := List.getElem?_eq_some_iff.1 here
  rw [firstPosition, List.findIdx?_eq_some_iff_getElem.2 ⟨bound, fails, fun q hq => ?_⟩]
  · rfl
  · exact before q _ hq (List.getElem?_eq_getElem (Nat.lt_trans hq bound))

theorem firstPosition_eq_none {α : Type} {xs : List α} {test : α → Bool} (passes : ∀ x ∈ xs, ¬ test x = true) :
    firstPosition xs test = none :=
  Option.map_eq_none_iff.2 (List.findIdx?_eq_none_iff.2 fun x hx => by simpa using passes x hx)

/-- The checks are made in order, and the first that some element fails refuses with the position of the first such
element. -/
theorem findSome_firstPosition {α : Type} {xs : List α} {tests : List (Status × (α → Bool))}
    {checks : List (Status × (α → Prop))} (same : List.Forall₂ SameCheck tests checks) {j p : Nat} {status : Status}
    {bad : α → Prop} {x : α} (check : checks[j]? = some (status, bad)) (here : xs[p]? = some x) (fails : bad x)
    (earlier : ∀ (i : Nat) st (b : α → Prop), i < j → checks[i]? = some (st, b) → ∀ y ∈ xs, ¬ b y)
    (before : ∀ (q : Nat) y, q < p → xs[q]? = some y → ¬ bad y) :
    (tests.findSome? fun test => (firstPosition xs test.2).map fun p => (test.1, p)) = some (status, p + 1) := by
  induction same generalizing j with
  | nil => cases check
  | @cons test first tests checks agree _ ih =>
    obtain ⟨statuses, reflects⟩ := agree
    rw [List.findSome?_cons]
    cases j with
    | zero =>
      obtain rfl : first = (status, bad) := by simpa using check
      rw [firstPosition_eq here ((reflects x).2 fails) fun q y hq hy => mt (reflects y).1 (before q y hq hy)]
      simp [statuses]
    | succ j =>
      have passes : firstPosition xs test.2 = none := firstPosition_eq_none fun y hy =>
        mt (reflects y).1 (earlier 0 first.1 first.2 (Nat.succ_pos j) rfl y hy)
      rw [passes]
      exact ih (by simpa using check) fun i st b hi hb => earlier (i + 1) st b (Nat.succ_lt_succ hi) (by simpa using hb)

theorem findSome_firstPosition_eq_none {α : Type} {xs : List α} {tests : List (Status × (α → Bool))}
    {checks : List (Status × (α → Prop))} (same : List.Forall₂ SameCheck tests checks)
    (passes : ∀ check ∈ checks, ∀ x ∈ xs, ¬ check.2 x) :
    (tests.findSome? fun test => (firstPosition xs test.2).map fun p => (test.1, p)) = none := by
  induction same with
  | nil => rfl
  | @cons test first tests checks agree _ ih =>
    have none : firstPosition xs test.2 = none := firstPosition_eq_none fun x hx =>
      mt (agree.2 x).1 (passes first List.mem_cons_self x hx)
    rw [List.findSome?_cons, none]
    exact ih fun check hc => passes check (List.mem_cons_of_mem _ hc)

/-! ### The checks of Table 1-2 -/

/-- R9: what a well-formed entry is. -/
def EntryFits (e : CellEntry) : Prop :=
  e.number ≤ 511 ∧
    (e.kind = 0 ∨
      ((e.kind = 1 ∧ e.owner = none ∨ e.kind = 2 ∧ ∃ m, e.owner = some m ∧ 1 ≤ m ∧ m ≤ 24) ∧
        e.zone ≤ 31 ∧ e.floorClass ≤ 7 ∧ 1 ≤ e.neighbours.length ∧ e.neighbours.length ≤ 6 ∧
        (∀ n ∈ e.neighbours, n ≤ 511) ∧ e.neighbours.Nodup ∧
        (e.band = 0#16 ∧ e.refuge = none ∨ e.band ≠ 0#16 ∧ ∃ n, e.refuge = some n ∧ n ≤ 511)))

theorem wellFormed_iff (e : CellEntry) : e.wellFormed = true ↔ EntryFits e := by
  unfold EntryFits
  have zone : e.zone < Config.zoneCount ↔ e.zone ≤ 31 := by rw [Config.zoneCount]; omega
  have slot (m : Nat) : isSlot m = true ↔ 1 ≤ m ∧ m ≤ 24 := by
    rw [isSlot, Bool.and_eq_true, decide_eq_true_eq, decide_eq_true_eq, Config.slotCount]
  have wood : e.floorClass < 8 ↔ e.floorClass ≤ 7 := by omega
  unfold CellEntry.wellFormed
  by_cases void : e.kind = 0
  · simp [void, isCell_iff]
  · rw [if_neg void]
    simp only [Bool.and_eq_true, decide_eq_true_eq, Bool.not_eq_true', List.all_eq_true, isCell_iff, hasRepeat_eq_false,
      zone, wood, void, false_or]
    cases e.owner <;> cases e.refuge <;>
      simp only [Bool.and_eq_true, decide_eq_true_eq, Bool.not_eq_true', decide_eq_false_iff_not, slot, isCell_iff] <;> grind

/-- Table 1-2, checks 3 to 7, as the rules name them. -/
def cellTests (f : Floor) (es : List CellEntry) : List (Status × (CellEntry → Prop)) :=
  [ (.badValue, fun e => ¬ EntryFits e),
    (.badValue, fun e => 2 ≤ (es.map CellEntry.number).count e.number),
    (.notDefined, fun e => e.kind = 0 ∧ f.cells.look e.number = none),
    (.refusedState, fun e => e.kind = 0 ∧ ∃ c, f.cells.look e.number = some c ∧ c.lane ≠ none),
    (.refusedBusy, fun e => ∃ c, f.cells.look e.number = some c ∧ (c.occ ≠ .free ∨ c.waiters ≠ [])) ]

theorem cellChecks_eq (f : Floor) (es : List CellEntry) :
    ∃ tests, f.cellChecks es = (tests.findSome? fun test => (firstPosition es test.2).map fun p => (test.1, p)) ∧
      List.Forall₂ SameCheck tests (cellTests f es) := by
  refine ⟨_, rfl, .cons ⟨rfl, fun e => ?_⟩ (.cons ⟨rfl, fun e => ?_⟩ (.cons ⟨rfl, fun e => ?_⟩ (.cons ⟨rfl, fun e => ?_⟩
    (.cons ⟨rfl, fun e => ?_⟩ .nil))))⟩
  · rw [Bool.not_eq_true', ← Bool.not_eq_true, wellFormed_iff]
  · exact decide_eq_true_iff
  · simp
  · simp only [Floor.laneOf]
    cases f.cells.look e.number <;> simp [Option.isSome_iff_ne_none]
  · simp only
    cases f.cells.look e.number <;> simp

/-! ### What an accepted list writes -/

theorem applyEntry_look_ne {f : Floor} {e : CellEntry} {n : Nat} (h : n ≠ e.number) :
    (f.applyEntry e).cells.look n = f.cells.look n := by
  unfold Floor.applyEntry
  split
  · rw [Table.look_del, if_neg h]
  · rw [Table.look_put, if_neg h]

theorem applyEntry_look (f : Floor) (e : CellEntry) : (f.applyEntry e).cells.look e.number =
    if e.kind = 0 then none
    else some (e.over ((f.cells.look e.number).getD Cell.fresh) (f.embargoFor e.band)) := by
  unfold Floor.applyEntry
  split
  · rw [Table.look_del, if_pos rfl]
  · rw [Table.look_put, if_pos rfl]

theorem applyEntries_look_ne (es : List CellEntry) (f : Floor) {n : Nat} (h : n ∉ es.map CellEntry.number) :
    (es.foldl Floor.applyEntry f).cells.look n = f.cells.look n := by
  induction es generalizing f with
  | nil => rfl
  | cons e es ih =>
    rw [List.map_cons, List.mem_cons, not_or] at h
    exact (ih _ h.2).trans (applyEntry_look_ne h.1)

/-- R11 to R13: each entry of a list that names no cell twice writes over the record that stood before the command. -/
theorem applyEntries_look (es : List CellEntry) (f : Floor) (once : (es.map CellEntry.number).Nodup) {e : CellEntry}
    (he : e ∈ es) : (es.foldl Floor.applyEntry f).cells.look e.number =
      if e.kind = 0 then none
      else some (e.over ((f.cells.look e.number).getD Cell.fresh) (f.embargoFor e.band)) := by
  induction es generalizing f with
  | nil => cases he
  | cons d es ih =>
    obtain ⟨fresh, once⟩ := List.nodup_cons.1 once
    rcases List.mem_cons.1 he with rfl | he
    · exact (applyEntries_look_ne es _ fresh).trans (applyEntry_look f e)
    · have other : e.number ≠ d.number := fun eq => fresh (eq ▸ List.mem_map_of_mem he)
      have lines : (f.applyEntry d).embargoFor e.band = f.embargoFor e.band := by rw [applyEntry_frame]; rfl
      rw [List.foldl_cons, ih _ once he, applyEntry_look_ne other, lines]

theorem nodup_of_counts {es : List CellEntry} (once : ∀ e ∈ es, ¬ 2 ≤ (es.map CellEntry.number).count e.number) :
    (es.map CellEntry.number).Nodup :=
  List.nodup_iff_count_le_one.2 fun n => by
    by_cases h : n ∈ es.map CellEntry.number
    · obtain ⟨e, he, rfl⟩ := List.mem_map.1 h
      have := once e he
      omega
    · rw [List.count_eq_zero.2 h]; omega

/-- R11, R12: what an OPEN or DOCK entry writes over a cell that nobody has and nobody waits for. -/
theorem over_idle {old : Option Cell} (e : CellEntry) (embargo : Nat)
    (idle : ∀ c, old = some c → c.occ = .free ∧ c.waiters = []) : e.over (old.getD Cell.fresh) embargo =
      { kind := if e.kind = 2 then .dock else .openFloor
        owner := e.owner, zone := e.zone, floorClass := e.floorClass, band := e.band
        neighbours := e.neighbours, refuge := e.refuge, lane := old.bind Cell.lane
        occ := .free, embargo := embargo, waiters := []
        washes := (old.map Cell.washes).getD 0
        lastWashed := old.bind Cell.lastWashed } := by
  cases old with
  | none => rfl
  | some c =>
    obtain ⟨occ, waiters⟩ := idle c rfl
    simp [CellEntry.over, occ, waiters]

/-- Settles O20: the checks are a list of tests, each made over all the entries; an accepted list names no cell twice, so
each entry is read back as it was written. -/
theorem cellDefineChecksThenWrites : Obligations.CellDefineChecksThenWrites := by
  intro ref count bytes es s turn entries r run old fit checks
  obtain ⟨tests, checked, same⟩ := cellChecks_eq s.takeFrame.floor es
  have taken {status : Status} {data : ReplyData} (h : State.cellDefine es s.takeFrame = (s.takeFrame, status, data)) :
      run = turnedAway r status data s := command_answers turn (by simp only [entries]; exact h)
  refine ⟨fun mode => ?_, fun mode range => ?_, fun mode low high => ⟨?_, fun passes => ?_⟩⟩
  · exact taken (if_pos mode)
  · exact taken ((if_neg (not_not.2 mode)).trans (if_pos range))
  · intro j p status bad e check here fails earlier before
    have first := checked.trans (findSome_firstPosition same check here fails earlier before)
    refine taken ((if_neg (not_not.2 mode)).trans ((if_neg (by omega)).trans ?_))
    rw [first]
  · have passed := checked.trans (findSome_firstPosition_eq_none same passes)
    have written : State.cellDefine es s.takeFrame =
        (s.takeFrame.onFloor fun _ f => es.foldl Floor.applyEntry f, .done, .entriesApplied es.length) :=
      (if_neg (not_not.2 mode)).trans ((if_neg (by omega)).trans (by rw [passed]))
    have once := passes _ (List.mem_of_getElem? (i := 1) rfl)
    have free := passes _ (List.mem_of_getElem? (i := 4) rfl)
    refine ⟨(es.foldl Floor.applyEntry s.takeFrame.floor).cells,
      (command_done turn (by simp only [entries]; exact written)).trans ?_,
      fun n other => applyEntries_look_ne es _ other, fun e he => ?_⟩
    · rw [State.onFloor, applyEntries_frame]
      rfl
    · rw [applyEntries_look es _ (nodup_of_counts once) he, over_idle e _ fun c known => ?_]
      · rfl
      · have idle := not_exists.1 (free e he) c
        simp only [not_and, not_or, not_not] at idle
        exact idle known

end Sys2Proof.Laws
end

section
/-! ## LANE DEFINE (O21) -/

namespace Sys2Proof.Laws

open Sys2Proof Sys2Proof.Machine Sys2Proof.Safety

-- One theorem at a time, as in the tests above: side by side their threads' stacks take the memory.
set_option Elab.async false

/-! ### Its checks -/

/-- The first element of a list that a test finds. -/
theorem find?_eq_some_of_first {xs : List Nat} {test : Nat → Bool} {p c : Nat} (here : xs[p]? = some c) (fails : test c = true)
    (before : ∀ q d, q < p → xs[q]? = some d → ¬ test d = true) : xs.find? test = some c := by
  obtain ⟨bound, eq⟩ := List.getElem?_eq_some_iff.1 here
  refine List.find?_eq_some_iff_getElem.2 ⟨fails, p, bound, eq, fun q hq => ?_⟩
  simpa using before q _ hq (List.getElem?_eq_getElem (Nat.lt_trans hq bound))

theorem find?_eq_none_of_none {xs : List Nat} {test : Nat → Bool} (passes : ∀ (q d : Nat), xs[q]? = some d → ¬ test d = true) :
    xs.find? test = none :=
  List.find?_eq_none.2 fun d hd => by
    obtain ⟨q, here⟩ := List.getElem?_of_mem hd
    exact passes q d here

/-- R55 check 6: the cell at position `i` is not a neighbour of the one before it. -/
def Gap (f : Floor) (cs : List Nat) (i : Nat) : Prop :=
  ∃ j p c, i = j + 1 ∧ cs[j]? = some p ∧ cs[j + 1]? = some c ∧ ∀ x, f.cells.look p = some x → c ∉ x.neighbours

theorem gap_cons (f : Floor) (p : Nat) (cs : List Nat) (i : Nat) : Gap f (p :: cs) (i + 2) ↔ Gap f cs (i + 1) := by
  constructor
  · rintro ⟨j, q, c, eq, before, here, apart⟩
    obtain ⟨j, rfl⟩ : ∃ k, j = k + 1 := ⟨i, by omega⟩
    exact ⟨j, q, c, by omega, by simpa using before, by simpa using here, apart⟩
  · rintro ⟨j, q, c, eq, before, here, apart⟩
    exact ⟨j + 1, q, c, by omega, by simpa using before, by simpa using here, apart⟩

theorem gap_first (f : Floor) (p c : Nat) (rest : List Nat) : Gap f (p :: c :: rest) 1 ↔
    ((f.cells.look p).map fun x => x.neighbours.contains c).getD false = false := by
  have step : Gap f (p :: c :: rest) 1 ↔ ∀ x, f.cells.look p = some x → c ∉ x.neighbours := by
    constructor
    · rintro ⟨j, q, d, eq, before, here, apart⟩
      obtain rfl : j = 0 := by omega
      cases before; cases here; exact apart
    · exact fun apart => ⟨0, p, c, rfl, rfl, rfl, apart⟩
  rw [step]
  cases f.cells.look p <;> simp

theorem laneGap_eq_some {f : Floor} {cs : List Nat} {i c : Nat} (here : cs[i]? = some c) (gap : Gap f cs i)
    (before : ∀ q, q < i → ¬ Gap f cs q) : f.laneGap cs = some c := by
  induction cs generalizing i with
  | nil => cases here
  | cons p cs ih =>
    cases cs with
    | nil => obtain ⟨j, q, d, -, -, none, -⟩ := gap; simp at none
    | cons d rest =>
      unfold Floor.laneGap
      match i with
      | 0 => obtain ⟨j, -, -, eq, -⟩ := gap; omega
      | 1 =>
        rw [(gap_first f p d rest).1 gap]
        cases here; rfl
      | i + 2 =>
        have joined := mt (gap_first f p d rest).2 (before 1 (by omega))
        rw [if_pos (by simpa using joined)]
        refine ih (by simpa using here) ((gap_cons f p _ i).1 gap) fun q hq earlier => ?_
        obtain ⟨k, -, -, eq, -⟩ := id earlier
        subst eq
        exact before (k + 2) (by omega) ((gap_cons f p _ k).2 earlier)

theorem laneGap_eq_none {f : Floor} {cs : List Nat} (close : ∀ q, ¬ Gap f cs q) : f.laneGap cs = none := by
  induction cs with
  | nil => rfl
  | cons p cs ih =>
    cases cs with
    | nil => rfl
    | cons d rest =>
      have joined := mt (gap_first f p d rest).2 (close 1)
      unfold Floor.laneGap
      rw [if_pos (by simpa using joined)]
      refine ih fun q gap => ?_
      obtain ⟨k, -, -, eq, -⟩ := id gap
      subst eq
      exact close (k + 2) ((gap_cons f p _ k).2 gap)

/-- R55 check 3: the number is out of range or stands twice. -/
def numberBad (cs : List Nat) (c : Nat) : Bool := !isCell c || decide (2 ≤ cs.count c)

/-- R55 check 5: the cell is in another lane. -/
def elsewhere (f : Floor) (l c : Nat) : Bool := (f.laneOf c).any fun place => !decide (place.1 = l)

/-- R55 check 7: the lane has holders or waiters. -/
def laneBusy (f : Floor) (l : Nat) : Bool :=
  (f.lanes.look l).any fun r => !decide (r.holders = 0) || !decide (r.waiters = [])

/-- R55 check 7: the new members, then the old ones. -/
def laneMembers (f : Floor) (l : Nat) (cs : List Nat) : List Nat :=
  cs ++ (((f.lanes.look l).map Lane.cells).getD []).filter fun c => decide (c ∉ cs)

/-- A refusal that carries the cell found, if any. -/
def refusal (status : Status) (c : Option Nat) : Option (Status × Option Nat) := c.map fun c => (status, some c)

/-- Table 4-2: the checks by name, in their order. -/
theorem laneChecks_eq {f : Floor} {l : Nat} {cs : List Nat} (known : l ≤ 15) (long : cs.length ≠ 1)
    (short : cs.length ≤ 16) : f.laneChecks l cs =
      (refusal .badValue (cs.find? (numberBad cs))).or
      ((refusal .notDefined (cs.find? fun c => (f.cells.look c).isNone)).or
      ((if cs = [] ∧ (f.lanes.look l).isNone = true then some (.notDefined, none) else none).or
      ((refusal .refusedState (cs.find? (elsewhere f l))).or
      ((refusal .badValue (f.laneGap cs)).or
      ((if laneBusy f l then some (.refusedBusy, none) else none).or
      (refusal .refusedBusy ((laneMembers f l cs).find? f.busyCell))))))) := by
  have strange : (elsewhere f l) = fun c => match f.laneOf c with
      | some (l', _) => !decide (l' = l)
      | none => false := by
    funext c
    unfold elsewhere
    cases f.laneOf c <;> rfl
  have busy : (if laneBusy f l then some (Status.refusedBusy, none) else none : Option (Status × Option Nat)) =
      match f.lanes.look l with
      | some r => if r.holders ≠ 0 ∨ r.waiters ≠ [] then some (Status.refusedBusy, none) else none
      | none => none := by
    unfold laneBusy
    cases f.lanes.look l with
    | none => rfl
    | some r => simp
  have members : laneMembers f l cs =
      cs ++ (((f.lanes.look l).map fun r => r.cells).getD []).filter fun c => !cs.contains c := by
    simp [laneMembers]
  rw [strange, busy, members]
  unfold Floor.laneChecks
  refine (if_neg ?_).trans rfl
  simp only [Config.laneCount]
  omega

theorem numberBad_iff (cs : List Nat) (c : Nat) : numberBad cs c = true ↔ 511 < c ∨ 2 ≤ cs.count c := by
  rw [numberBad, Bool.or_eq_true, Bool.not_eq_true', isCell_eq_false, decide_eq_true_eq]

theorem elsewhere_iff (f : Floor) (l c : Nat) : elsewhere f l c = true ↔
    ∃ x e, f.cells.look c = some x ∧ x.lane = some e ∧ e.1 ≠ l := by
  unfold elsewhere Floor.laneOf
  cases f.cells.look c with
  | none => simp
  | some x =>
    cases h : x.lane with
    | none => simp [h]
    | some place =>
      simp only [Option.bind_some, h, Option.any_some, Bool.not_eq_true', decide_eq_false_iff_not]
      constructor
      · exact fun other => ⟨x, place, rfl, h, other⟩
      · rintro ⟨_, e, known, place', other⟩
        cases known
        cases h.symm.trans place'
        exact other

theorem laneBusy_iff (f : Floor) (l : Nat) : laneBusy f l = true ↔
    ∃ r, f.lanes.look l = some r ∧ (r.holders ≠ 0 ∨ r.waiters ≠ []) := by
  unfold laneBusy
  cases f.lanes.look l <;> simp

theorem busyCell_iff (f : Floor) (c : Nat) : f.busyCell c = true ↔
    ∃ x, f.cells.look c = some x ∧ (x.occ ≠ .free ∨ x.waiters ≠ []) := by
  unfold Floor.busyCell
  cases f.cells.look c <;> simp

/-! ### Which check refuses -/

section
variable {f : Floor} {l : Nat} {cs : List Nat}

theorem numbers_pass (h : ∀ (q d : Nat), cs[q]? = some d → ¬ (511 < d ∨ 2 ≤ cs.count d)) : cs.find? (numberBad cs) = none :=
  find?_eq_none_of_none fun q d here => mt (numberBad_iff cs d).1 (h q d here)

theorem defined_pass (h : ∀ (q d : Nat), cs[q]? = some d → ¬ f.cells.look d = none) :
    (cs.find? fun c => (f.cells.look c).isNone) = none :=
  find?_eq_none_of_none fun q d here => mt Option.isNone_iff_eq_none.1 (h q d here)

theorem loose_pass (h : ∀ (q d : Nat), cs[q]? = some d → ¬ ∃ x e, f.cells.look d = some x ∧ x.lane = some e ∧ e.1 ≠ l) :
    cs.find? (elsewhere f l) = none :=
  find?_eq_none_of_none fun q d here => mt (elsewhere_iff f l d).1 (h q d here)

theorem joined_pass (h : ∀ (q d : Nat), cs[q]? = some d → ¬ Gap f cs q) : f.laneGap cs = none :=
  laneGap_eq_none fun q gap => by
    obtain ⟨j, p, c, eq, -, here, -⟩ := id gap
    exact h q c (eq ▸ here) gap

/-- Check 4 has nothing to say of a list with a cell, or of a lane that is defined. -/
theorem lane_pass (h : cs ≠ [] ∨ f.lanes.look l ≠ none) :
    (if cs = [] ∧ (f.lanes.look l).isNone = true then some (Status.notDefined, (none : Option Nat)) else none) = none :=
  if_neg fun ⟨empty, undefined⟩ => h.elim (fun h => h empty) fun h => h (Option.isNone_iff_eq_none.1 undefined)

end

/-- R55: the checks are made in order; one that some cell fails refuses with the first such cell. -/
theorem laneChecks_refuse {f : Floor} {l : Nat} {cs : List Nat} (known : l ≤ 15) (long : cs.length ≠ 1)
    (short : cs.length ≤ 16) {checks : List (Status × List Nat × (Nat → Nat → Prop))}
    (eq : checks =
      [ (.badValue, cs, fun _ c => 511 < c ∨ 2 ≤ cs.count c),
        (.notDefined, cs, fun _ c => f.cells.look c = none),
        (.refusedState, cs, fun _ c => ∃ x e, f.cells.look c = some x ∧ x.lane = some e ∧ e.1 ≠ l),
        (.badValue, cs, fun i _ => Gap f cs i),
        (.refusedBusy, laneMembers f l cs, fun _ c => ∃ x, f.cells.look c = some x ∧ (x.occ ≠ .free ∨ x.waiters ≠ [])) ])
    {j p : Nat} {status : Status} {xs : List Nat} {bad : Nat → Nat → Prop} {c : Nat}
    (check : checks[j]? = some (status, xs, bad)) (here : xs[p]? = some c) (fails : bad p c)
    (earlier : ∀ (i q : Nat) st (ys : List Nat) (b : Nat → Nat → Prop) d, i < j → checks[i]? = some (st, ys, b) →
      ys[q]? = some d → ¬ b q d)
    (before : ∀ (q d : Nat), q < p → xs[q]? = some d → ¬ bad q d)
    (idle : j = 4 → ¬ ∃ r, f.lanes.look l = some r ∧ (r.holders ≠ 0 ∨ r.waiters ≠ [])) :
    f.laneChecks l cs = some (status, some c) := by
  subst eq
  have some_cell {q d : Nat} (at' : cs[q]? = some d) : cs ≠ [] := fun empty => by rw [empty] at at'; cases at'
  rw [laneChecks_eq known long short]
  match j with
  | 0 =>
    cases check
    rw [find?_eq_some_of_first here ((numberBad_iff cs c).2 fails) fun q d hq hd =>
      mt (numberBad_iff cs d).1 (before q d hq hd)]
    rfl
  | 1 =>
    cases check
    rw [numbers_pass fun q d => earlier 0 q _ _ _ d (by omega) rfl,
      find?_eq_some_of_first here (Option.isNone_iff_eq_none.2 fails) fun q d hq hd =>
        mt Option.isNone_iff_eq_none.1 (before q d hq hd)]
    rfl
  | 2 =>
    cases check
    rw [numbers_pass fun q d => earlier 0 q _ _ _ d (by omega) rfl,
      defined_pass fun q d => earlier 1 q _ _ _ d (by omega) rfl, lane_pass (.inl (some_cell here)),
      find?_eq_some_of_first here ((elsewhere_iff f l c).2 fails) fun q d hq hd =>
        mt (elsewhere_iff f l d).1 (before q d hq hd)]
    rfl
  | 3 =>
    cases check
    rw [numbers_pass fun q d => earlier 0 q _ _ _ d (by omega) rfl,
      defined_pass fun q d => earlier 1 q _ _ _ d (by omega) rfl, lane_pass (.inl (some_cell here)),
      loose_pass fun q d => earlier 2 q _ _ _ d (by omega) rfl,
      laneGap_eq_some here fails fun q hq gap => ?_]
    · rfl
    · obtain ⟨_, _, d, eq, -, at', -⟩ := id gap
      exact before q d hq (eq ▸ at') gap
  | 4 =>
    cases check
    have lane : cs ≠ [] ∨ f.lanes.look l ≠ none := by
      by_contra neither
      obtain ⟨empty, undefined⟩ := not_or.1 neither
      rw [not_not] at empty undefined
      rw [laneMembers, empty, undefined] at here
      cases here
    rw [numbers_pass fun q d => earlier 0 q _ _ _ d (by omega) rfl,
      defined_pass fun q d => earlier 1 q _ _ _ d (by omega) rfl, lane_pass lane,
      loose_pass fun q d => earlier 2 q _ _ _ d (by omega) rfl, joined_pass fun q d => earlier 3 q _ _ _ d (by omega) rfl,
      if_neg (mt (laneBusy_iff f l).1 (idle rfl)),
      find?_eq_some_of_first here ((busyCell_iff f c).2 fails) fun q d hq hd =>
        mt (busyCell_iff f d).1 (before q d hq hd)]
    rfl
  | j + 5 => cases check

/-! ### What an accepted lane writes -/

/-- R56: the lane field that an accepted LANE DEFINE leaves in a cell. -/
theorem joinLane_eq {cs : List Nat} (once : cs.Nodup) (x : Cell) (l n : Nat) :
    x.joinLane l (cs.findIdx? fun m => decide (m = n)) =
      { x with lane :=
          if n ∈ cs then some (l, cs.idxOf n) else if x.lane.map Prod.fst = some l then none else x.lane } := by
  by_cases member : n ∈ cs
  · rw [(findIdx?_eq_some_iff once n _).2 (List.getElem?_idxOf member), if_pos member]
    rfl
  · have outside : (cs.findIdx? fun m => decide (m = n)) = none :=
      List.findIdx?_eq_none_iff.2 fun m hm => decide_eq_false fun eq => member (eq ▸ hm)
    rw [outside, if_neg member]
    unfold Cell.joinLane
    cases h : x.lane with
    | none => simp [← h]
    | some place => by_cases eq : place.1 = l <;> simp [eq, ← h]

/-- Settles O21: the seven checks are seven stages, of which the first that speaks refuses; an accepted list passes them
all. -/
theorem laneDefineChecksThenWrites : Obligations.LaneDefineChecksThenWrites := by
  intro ref lane count bytes s turn length l cs members old away run busyLane checks
  have heard : s.takeFrame.floor.laneChecks l cs = s.floor.laneChecks l cs := laneChecks_heard s.floor _ l cs
  have taken {status : Status} {data : ReplyData}
      (h : State.laneDefine l cs s.takeFrame = (s.takeFrame, status, data)) :
      run = turnedAway ⟨0x02#8, ref, lane :: count :: bytes⟩ status data s :=
    command_answers turn (by simp only [if_pos length]; exact h)
  have refused (mode : s.control.mode = .standby) {status : Status} {c : Option Nat}
      (h : s.floor.laneChecks l cs = some (status, c)) : run = away status c := by
    have act : State.laneDefine l cs s.takeFrame = (s.takeFrame, status, c.elim .nothing .laneRefused) := by
      refine (if_neg (not_not.2 mode)).trans ?_
      rw [heard, h]
      cases c <;> rfl
    exact taken act
  refine ⟨fun mode => taken (if_pos mode), fun mode range => refused mode (if_pos ?_), fun mode known long short => ⟨?_, ?_, ?_⟩,
    ?_⟩
  · simp only [Config.laneCount]; omega
  · intro empty undefined
    refine refused mode ?_
    rw [laneChecks_eq known long short, numbers_pass (by simp [empty]), defined_pass (by simp [empty]),
      if_pos ⟨empty, Option.isNone_iff_eq_none.2 undefined⟩]
    rfl
  · intro j p status xs bad c check here fails earlier before idle
    exact refused mode (laneChecks_refuse known long short (checks := checks) rfl check here fails earlier before idle)
  · intro passes busy
    have lane : cs ≠ [] ∨ s.floor.lanes.look l ≠ none := by
      obtain ⟨r, hr, -⟩ := busy
      exact .inr (by simp [hr])
    refine refused mode ?_
    rw [laneChecks_eq known long short, numbers_pass fun q d => passes 0 q _ _ _ d (by omega) rfl,
      defined_pass fun q d => passes 1 q _ _ _ d (by omega) rfl, lane_pass lane,
      loose_pass fun q d => passes 2 q _ _ _ d (by omega) rfl, joined_pass fun q d => passes 3 q _ _ _ d (by omega) rfl,
      if_pos ((laneBusy_iff _ l).2 busy)]
    rfl
  · intro mode known long short once cells steps defined idle free
    have listed {q d : Nat} (here : cs[q]? = some d) := cells d (List.mem_of_getElem? here)
    have lane : cs ≠ [] ∨ s.floor.lanes.look l ≠ none := by
      by_cases empty : cs = []
      · exact .inr (Option.isSome_iff_ne_none.1 (defined empty))
      · exact .inl empty
    have passed : s.floor.laneChecks l cs = none := by
      rw [laneChecks_eq known long short, numbers_pass fun q d here => ?_, defined_pass fun q d here => ?_, lane_pass lane,
        loose_pass fun q d here => ?_, joined_pass fun q d _ => ?_, if_neg (mt (laneBusy_iff _ l).1 ?_),
        find?_eq_none_of_none fun q d here => mt (busyCell_iff _ d).1 ?_]
      · rfl
      · rintro ⟨x, known, busy⟩
        have member : d ∈ members := by
          rcases List.mem_append.1 (List.mem_of_getElem? here) with new | old
          · exact List.mem_append_left _ new
          · exact List.mem_append_right _ (List.mem_filter.1 old).1
        obtain ⟨occ, waiters⟩ := free d member x known
        exact busy.elim (fun h => h occ) fun h => h waiters
      · rintro ⟨r, hr, busy⟩
        obtain ⟨holders, waiters⟩ := idle r hr
        exact busy.elim (fun h => h holders) fun h => h waiters
      · rintro ⟨j, p, c, -, before, here, apart⟩
        obtain ⟨x, hx, joined⟩ := steps j p c before here
        exact apart x hx joined
      · obtain ⟨-, x, hx, own⟩ := listed here
        rintro ⟨y, e, hy, place, other⟩
        cases hx.symm.trans hy
        exact other (own e place)
      · obtain ⟨-, x, hx, -⟩ := listed here
        exact fun gone => by rw [hx] at gone; cases gone
      · have := (listed here).1
        have := List.nodup_iff_count_le_one.1 once d
        omega
    have written : State.laneDefine l cs s.takeFrame =
        (s.takeFrame.onFloor fun _ f => f.defineLane l cs, .done, .laneCells cs.length) := by
      refine (if_neg (not_not.2 mode)).trans ?_
      rw [heard, passed]
    refine ⟨(s.takeFrame.floor.defineLane l cs).cells, (s.takeFrame.floor.defineLane l cs).lanes,
      command_done turn (by simp only [if_pos length]; exact written), fun n => ?_, fun j => lanes_defineLane _ l cs j⟩
    rw [defineLane_cells, Table.look_each]
    exact congrArg (fun g => Option.map g (s.floor.cells.look n)) (funext fun x => joinLane_eq once x l n)

end Sys2Proof.Laws
end

section
/-! ## MAP CHECK (O19) -/

namespace Sys2Proof.Laws

open Sys2Proof Sys2Proof.Machine Sys2Proof.Safety

-- One theorem at a time, as in the tests above: side by side their threads' stacks take the memory.
set_option Elab.async false

/-! ### The first finding in a table, in the order of its numbers -/

theorem findSome?_eq_some_of_look {α β : Type} {t : Table α} (sorted : t.keys.Pairwise (· < ·)) {g : Nat → α → Option β}
    {k : Nat} {x : α} {b : β} (known : t.look k = some x) (found : g k x = some b)
    (before : ∀ q y, q < k → t.look q = some y → g q y = none) : (t.findSome? fun e => g e.1 e.2) = some b := by
  obtain ⟨pre, post, eq⟩ := List.append_of_mem (Table.mem_of_look known)
  have once : t.keys.Nodup := sorted.imp Nat.ne_of_lt
  have earlier : ∀ e ∈ pre, g e.1 e.2 = none := fun e he => by
    have listed : (e.1, e.2) ∈ t := by rw [eq]; exact List.mem_append_left _ he
    refine before e.1 e.2 ?_ (Table.look_of_mem once listed)
    have order : Table.keys (pre ++ (k, x) :: post) = Table.keys pre ++ k :: Table.keys post := by simp [Table.keys]
    rw [eq, order] at sorted
    exact (List.pairwise_append.1 sorted).2.2 e.1 (List.mem_map.2 ⟨e, he, rfl⟩) k List.mem_cons_self
  rw [eq, List.findSome?_append, List.findSome?_eq_none_iff.2 earlier, List.findSome?_cons]
  simp [found]

theorem findSome?_eq_none_of_look {α β : Type} {t : Table α} (once : t.keys.Nodup) {g : Nat → α → Option β}
    (none : ∀ k x, t.look k = some x → g k x = none) : (t.findSome? fun e => g e.1 e.2) = Option.none :=
  List.findSome?_eq_none_iff.2 fun e he => none e.1 e.2 (Table.look_of_mem once he)

/-! ### Tests of one cell -/

/-- Tests made in order, the first with number `code`: the fault of the first that finds something. -/
def firstFault (n : Nat) : Nat → List (Option (Option Nat)) → Option MapFault
  | _, [] => none
  | code, found :: rest => (found.map fun other => ⟨code, .cell n, other⟩).or (firstFault n (code + 1) rest)

/-- A test finds what its condition says. -/
def Finds (found : Option (Option Nat)) (fails : Option Nat → Prop) : Prop := ∀ other, found = some other ↔ fails other

theorem firstFault_eq_some {n code j : Nat} {stages : List (Option (Option Nat))} {tests : List (Option Nat → Prop)}
    (same : List.Forall₂ Finds stages tests) {fails : Option Nat → Prop} {other : Option Nat}
    (test : tests[j]? = some fails) (here : fails other)
    (before : ∀ (i : Nat) (t : Option Nat → Prop) o, i < j → tests[i]? = some t → ¬ t o) :
    firstFault n code stages = some ⟨code + j, .cell n, other⟩ := by
  induction same generalizing code j with
  | nil => cases test
  | @cons found first stages tests finds _ ih =>
    unfold firstFault
    cases j with
    | zero =>
      obtain rfl : first = fails := by simpa using test
      rw [(finds other).2 here]; rfl
    | succ j =>
      have nothing : found = none := Option.eq_none_iff_forall_ne_some.2 fun o eq =>
        before 0 first o (Nat.succ_pos j) rfl ((finds o).1 eq)
      rw [nothing, show code + (j + 1) = code + 1 + j by omega]
      exact ih (by simpa using test) fun i t o hi ht => before (i + 1) t o (Nat.succ_lt_succ hi) (by simpa using ht)

theorem firstFault_eq_none {n code : Nat} {stages : List (Option (Option Nat))} {tests : List (Option Nat → Prop)}
    (same : List.Forall₂ Finds stages tests) (sound : ∀ t ∈ tests, ∀ o, ¬ t o) : firstFault n code stages = none := by
  induction same generalizing code with
  | nil => rfl
  | @cons found first stages tests finds _ ih =>
    have nothing : found = none := Option.eq_none_iff_forall_ne_some.2 fun o eq =>
      sound first List.mem_cons_self o ((finds o).1 eq)
    unfold firstFault
    rw [nothing]
    exact ih fun t ht => sound t (List.mem_cons_of_mem _ ht)

/-- R16: what a test of neighbours names. -/
def FirstNeighbour (test : Nat → Prop) (neighbours : List Nat) (other : Option Nat) : Prop :=
  ∃ before b after, neighbours = before ++ b :: after ∧ test b ∧ (∀ a ∈ before, ¬ test a) ∧ other = some b

/-- R16: a test of the refuge, made only where the band is not empty. -/
def AtRefuge (z : Cell) (test : Nat → Prop) (other : Option Nat) : Prop :=
  z.band ≠ 0#16 ∧ ∃ r, z.refuge = some r ∧ test r ∧ other = some r

/-- Table 1-3, codes 1 to 9. -/
def cellConditions (f : Floor) (n : Nat) (z : Cell) : List (Option Nat → Prop) :=
  [ FirstNeighbour (fun b => b = n) z.neighbours,
    FirstNeighbour (fun b => f.cells.look b = none) z.neighbours,
    FirstNeighbour (fun b => ∃ w, f.cells.look b = some w ∧ n ∉ w.neighbours) z.neighbours,
    AtRefuge z fun r => f.cells.look r = none,
    AtRefuge z fun r => r ∉ z.neighbours,
    AtRefuge z fun r => ∃ w, f.cells.look r = some w ∧ w.band ≠ 0#16,
    AtRefuge z fun r => ∃ w, f.cells.look r = some w ∧ w.lane ≠ none,
    AtRefuge z fun r => ∃ w, f.cells.look r = some w ∧ w.kind = .dock,
    fun other => z.kind = .dock ∧ z.band ≠ 0#16 ∧ other = none ]

theorem finds_neighbour {test : Nat → Bool} {fails : Nat → Prop} (same : ∀ b, test b = true ↔ fails b) (xs : List Nat) :
    Finds ((xs.find? test).map some) (FirstNeighbour fails xs) := fun other => by
  rw [Option.map_eq_some_iff]
  simp only [List.find?_eq_some_iff_append, FirstNeighbour]
  constructor
  · rintro ⟨b, ⟨here, before, after, eq, none⟩, rfl⟩
    exact ⟨before, b, after, eq, (same b).1 here, fun a ha => mt (same a).2 (by simpa using none a ha), rfl⟩
  · rintro ⟨before, b, after, eq, here, none, rfl⟩
    exact ⟨b, ⟨(same b).2 here, before, after, eq, fun a ha => by simpa using mt (same a).1 (none a ha)⟩, rfl⟩

/-- The refuge that the tests read. -/
def testedRefuge (z : Cell) : Option Nat := if z.band = 0#16 then none else z.refuge

theorem finds_refuge {z : Cell} {test : Prop} [Decidable test] {fails : Nat → Prop}
    (same : test ↔ ∃ r, testedRefuge z = some r ∧ fails r) :
    Finds (if test then some (testedRefuge z) else none) (AtRefuge z fails) := fun other => by
  unfold testedRefuge at same ⊢
  by_cases band : z.band = 0#16
  · simp [same, band, AtRefuge]
  · simp only [if_neg band] at same ⊢
    simp only [Option.ite_none_right_eq_some, AtRefuge, ne_eq, band, not_false_eq_true, true_and]
    constructor
    · rintro ⟨holds, eq⟩
      obtain ⟨r, hr, here⟩ := same.1 holds
      exact ⟨r, hr, here, by rw [← Option.some.inj eq, hr]⟩
    · rintro ⟨r, hr, here, rfl⟩
      exact ⟨same.2 ⟨r, hr, here⟩, by rw [hr]⟩

/-- What each of the tests of codes 1 to 9 finds. -/
def cellStages (f : Floor) (n : Nat) (z : Cell) : List (Option (Option Nat)) :=
  let refuge := testedRefuge z
  let refugeIs (test : Cell → Bool) : Bool := ((refuge.bind f.cells.look).map test).getD false
  [ (z.neighbours.find? fun b => decide (b = n)).map some,
    (z.neighbours.find? fun b => (f.cells.look b).isNone).map some,
    (z.neighbours.find? fun b => !((f.cells.look b).map fun x => x.neighbours.contains n).getD true).map some,
    if refuge.isSome ∧ (refuge.bind f.cells.look).isNone then some refuge else none,
    if (refuge.map fun r => !z.neighbours.contains r).getD false then some refuge else none,
    if refugeIs fun r => !decide (r.band = 0#16) then some refuge else none,
    if refugeIs fun r => r.lane.isSome then some refuge else none,
    if refugeIs fun r => decide (r.kind = .dock) then some refuge else none,
    if z.kind = .dock ∧ z.band ≠ 0#16 then some none else none ]

theorem map_ite_some {α β : Type} {test : Prop} [Decidable test] (g : α → β) (x : α) :
    (if test then some x else none).map g = if test then some (g x) else none := by split <;> rfl

theorem cellFault_eq (f : Floor) (n : Nat) (z : Cell) : f.cellFault n z = firstFault n 1 (cellStages f n z) := by
  simp only [Floor.cellFault, cellStages, firstFault, Option.map_map, Option.or_none, map_ite_some]
  rfl

theorem refugeIs_iff (f : Floor) (z : Cell) {test : Cell → Bool} {fails : Cell → Prop} (same : ∀ w, test w = true ↔ fails w) :
    (((testedRefuge z).bind f.cells.look).map test).getD false = true ↔
      ∃ r, testedRefuge z = some r ∧ ∃ w, f.cells.look r = some w ∧ fails w := by
  cases testedRefuge z with
  | none => simp
  | some r => cases h : f.cells.look r <;> simp [h, same]

/-- R16: each test finds what its rule says. -/
theorem cellStages_find (f : Floor) (n : Nat) (z : Cell) :
    List.Forall₂ Finds (cellStages f n z) (cellConditions f n z) := by
  refine .cons (finds_neighbour (fun b => ?_) _) (.cons (finds_neighbour (fun b => ?_) _)
    (.cons (finds_neighbour (fun b => ?_) _) (.cons (finds_refuge ?_) (.cons (finds_refuge ?_) (.cons (finds_refuge ?_)
    (.cons (finds_refuge ?_) (.cons (finds_refuge ?_) (.cons (fun other => ?_) .nil))))))))
  · exact decide_eq_true_iff
  · exact Option.isNone_iff_eq_none
  · cases f.cells.look b <;> simp
  · cases testedRefuge z <;> simp
  · cases testedRefuge z <;> simp
  · exact refugeIs_iff f z fun w => by simp
  · exact refugeIs_iff f z fun w => by simp [Option.isSome_iff_ne_none]
  · exact refugeIs_iff f z fun w => by simp
  · simp only [Option.ite_none_right_eq_some, Option.some.injEq, and_assoc]
    exact and_congr_right fun _ => and_congr_right fun _ => eq_comm

/-! ### Steps of a lane, and docks -/

/-- R17: a lane's cell and the one before it are joined. -/
def Joined (f : Floor) (p c : Nat) : Prop := ∃ w, f.cells.look p = some w ∧ c ∈ w.neighbours

theorem joined_iff (f : Floor) (p c : Nat) :
    ((f.cells.look p).map fun x => x.neighbours.contains c).getD false = true ↔ Joined f p c := by
  unfold Joined
  cases f.cells.look p <;> simp

theorem laneFaultFrom_eq_some {f : Floor} {l k i p c : Nat} {cs : List Nat} (before : cs[i]? = some p)
    (here : cs[i + 1]? = some c) (apart : ¬ Joined f p c)
    (sound : ∀ q, q < i → ∀ p c, cs[q]? = some p → cs[q + 1]? = some c → Joined f p c) :
    f.laneFaultFrom l k cs = some ⟨10, .lane l (k + i), some p⟩ := by
  induction cs generalizing k i with
  | nil => cases before
  | cons a cs ih =>
    cases cs with
    | nil => cases i <;> cases here
    | cons d rest =>
      unfold Floor.laneFaultFrom
      cases i with
      | zero =>
        cases before; cases here
        exact if_neg (mt (joined_iff f p c).1 apart)
      | succ i =>
        rw [if_pos ((joined_iff f a d).2 (sound 0 (Nat.succ_pos i) a d rfl rfl)), show k + (i + 1) = k + 1 + i by omega]
        exact ih (by simpa using before) (by simpa using here) fun q hq p c hp hc =>
          sound (q + 1) (Nat.succ_lt_succ hq) p c (by simpa using hp) (by simpa using hc)

theorem laneFaultFrom_eq_none {f : Floor} {l k : Nat} {cs : List Nat}
    (sound : ∀ (i p c : Nat), cs[i]? = some p → cs[i + 1]? = some c → Joined f p c) : f.laneFaultFrom l k cs = none := by
  induction cs generalizing k with
  | nil => rfl
  | cons a cs ih =>
    cases cs with
    | nil => rfl
    | cons d rest =>
      unfold Floor.laneFaultFrom
      rw [if_pos ((joined_iff f a d).2 (sound 0 a d rfl rfl))]
      exact ih fun i p c hp hc => sound (i + 1) p c (by simpa using hp) (by simpa using hc)

theorem dockFit_iff (f : Floor) (m dock : Nat) :
    f.dockFit m dock = true ↔ ∃ w, f.cells.look dock = some w ∧ w.kind = .dock ∧ w.owner = some m := by
  unfold Floor.dockFit
  cases f.cells.look dock <;> simp

/-! ### The map -/

/-- R17: the fault of a machine whose dock is not its own. -/
def slotFault (f : Floor) (m : Nat) (x : Scrubber) : Option MapFault :=
  if f.dockFit m x.dock then none else some ⟨11, .slot m, some x.dock⟩

/-- The fault of a lane's steps, from its first on. -/
def laneFaultOf (f : Floor) (l : Nat) (r : Lane) : Option MapFault := f.laneFaultFrom l 1 r.cells

/-- R15 to R17: cells, then lanes, then docks. -/
theorem mapFault_eq (f : Floor) : f.mapFault =
    (f.cells.findSome? fun e => f.cellFault e.1 e.2).or
      ((f.lanes.findSome? fun e => laneFaultOf f e.1 e.2).or (f.machines.findSome? fun e => slotFault f e.1 e.2)) := rfl

theorem mapCheck_eq {ref : Byte} {s : State} (turn : s.takesCommand ⟨0x1E#8, ref, []⟩ = true) {found : Option MapFault}
    (fault : s.floor.mapFault = found) : exec (.mapCheck ref []) s = answers 0x1E#8 ref .done
      (found.elim (.mapPass s.floor.cells.length s.floor.lanes.length) .mapFault) id s := by
  have same : s.takeFrame.floor.mapFault = s.floor.mapFault := mapFault_heard s.floor _
  refine command_answers turn ?_
  simp only [withoutBody, if_true, same, fault]
  cases found <;> rfl

/-- Settles O19: each part of the check is the first finding in a table, or in a list of tests or steps. -/
theorem mapCheckNamesTheFirstFault : Obligations.MapCheckNamesTheFirstFault := by
  intro ref s turn tables old finds first tests soundCell joined soundStep soundLane soundSlot
  obtain ⟨cells, lanes, machines, -⟩ := tables
  have sorted {α : Type} {bound : Nat} {t : Table α} (wf : t.wf bound = true) : t.keys.Pairwise (· < ·) :=
    ((Table.wf_iff _ _).1 wf).1
  have once {α : Type} {bound : Nat} {t : Table α} (wf : t.wf bound = true) : t.keys.Nodup :=
    (sorted wf).imp Nat.ne_of_lt
  have soundCell_none {n : Nat} (sound : soundCell n) (z : Cell) (known : old n = some z) : s.floor.cellFault n z = none := by
    rw [cellFault_eq]
    exact firstFault_eq_none (cellStages_find s.floor n z) (sound z known)
  have soundLane_none {l : Nat} (sound : soundLane l) (r : Lane) (known : s.floor.lanes.look l = some r) :
      laneFaultOf s.floor l r = none := laneFaultFrom_eq_none (sound r known)
  have soundSlot_none {m : Nat} (sound : soundSlot m) (x : Scrubber) (known : s.floor.machines.look m = some x) :
      slotFault s.floor m x = none := if_pos ((dockFit_iff _ _ _).2 (sound x known))
  have found {fault : Option MapFault} (h : s.floor.mapFault = fault) : finds fault
      (fault.elim (.mapPass s.floor.cells.length s.floor.lanes.length) .mapFault) := ⟨h, mapCheck_eq turn h⟩
  refine ⟨fun n z j fails other known test here before soundBefore => ?_, fun soundCells => ?_⟩
  · refine found (fault := some _) ?_
    have fault : s.floor.cellFault n z = some ⟨1 + j, .cell n, other⟩ := by
      rw [cellFault_eq]
      exact firstFault_eq_some (cellStages_find s.floor n z) test here before
    rw [mapFault_eq, findSome?_eq_some_of_look (sorted cells) known fault fun q y hq hy =>
      soundCell_none (soundBefore q hq) y hy, Nat.add_comm 1 j]
    rfl
  · have noCell := findSome?_eq_none_of_look (once cells) fun n z known => soundCell_none (soundCells n) z known
    have noLane (sound : ∀ l, soundLane l) :=
        findSome?_eq_none_of_look (once lanes) fun l r known => soundLane_none (sound l) r known
    refine ⟨fun l r i p c known before here apart soundSteps soundBefore => ?_, fun soundLanes => ⟨?_, fun soundSlots => ?_⟩⟩
    · refine found (fault := some _) ?_
      have fault : laneFaultOf s.floor l r = some ⟨10, .lane l (1 + i), some p⟩ :=
        laneFaultFrom_eq_some before here apart soundSteps
      rw [mapFault_eq, noCell, Option.none_or, findSome?_eq_some_of_look (sorted lanes) known fault fun q y hq hy =>
        soundLane_none (soundBefore q hq) y hy, Nat.add_comm 1 i]
      rfl
    · intro m x known unsound soundBefore
      refine found (fault := some _) ?_
      have fault : slotFault s.floor m x = some _ := if_neg fun fit => unsound fun y hy => by
          cases known.symm.trans hy
          exact (dockFit_iff _ _ _).1 fit
      rw [mapFault_eq, noCell, Option.none_or, noLane soundLanes, Option.none_or,
        findSome?_eq_some_of_look (sorted machines) known fault fun q y hq hy => soundSlot_none (soundBefore q hq) y hy]
    · refine found (fault := none) ?_
      rw [mapFault_eq, noCell, Option.none_or, noLane soundLanes, Option.none_or]
      exact findSome?_eq_none_of_look (once machines) fun m x known => soundSlot_none (soundSlots m) x known

end Sys2Proof.Laws
end

section
/-! ## FLEET RESET (O25) -/

namespace Sys2Proof.Laws

open Sys2Proof Sys2Proof.Machine Sys2Proof.Safety

-- One theorem at a time, as in the tests above: side by side their threads' stacks take the memory.
set_option Elab.async false

/-! ### A machine takes a cell and enters a lane -/

/-- The lines stand, but for their clear outputs. -/
def OutputsOnly (t u : Table Line) : Prop := ∃ b : Nat → Line → Bool, u = t.each fun i l => { l with clearOutput := b i l }

theorem OutputsOnly.refl (t : Table Line) : OutputsOnly t t :=
  ⟨fun _ l => l.clearOutput, (List.map_id' t).symm⟩

theorem OutputsOnly.trans {t u v : Table Line} (a : OutputsOnly t u) (b : OutputsOnly u v) : OutputsOnly t v := by
  obtain ⟨b, rfl⟩ := a
  obtain ⟨c, rfl⟩ := b
  refine ⟨fun i l => c i { l with clearOutput := b i l }, ?_⟩
  simp only [Table.each, List.map_map]
  rfl

/-- R21: embargo counts do not read the clear outputs. -/
theorem OutputsOnly.embargoFor {f g : Floor} (h : OutputsOnly f.lines g.lines) (band : BitVec 16) :
    g.embargoFor band = f.embargoFor band := by
  obtain ⟨b, lines⟩ := h
  simp only [Floor.embargoFor, lines, Table.each, List.filter_map, List.length_map]
  rfl

/-- R147: a line with a cell of its band taken has its clear output opened, and no more. -/
theorem review_taken (l : Line) {taken : Nat} (h : taken ≠ 0) : l.review taken = { l with clearOutput := false } := by
  simp [Line.review, h]

theorem setOcc_frame (f : Floor) (c : Nat) (o : Occupancy) : f.setOcc c o =
    { f with cells := f.cells.upd c fun y => { y with occ := o }, lines := (f.setOcc c o).lines } := by
  unfold Floor.setOcc
  split
  · next absent => rw [upd_of_none absent]
  · simp only
    split <;> rfl

/-- R147, R149: a cell that a machine takes opens the clear outputs over it. -/
theorem setOcc_held_lines (f : Floor) (c m : Nat) : OutputsOnly f.lines (f.setOcc c (.held m)).lines := by
  unfold Floor.setOcc
  split
  · exact .refl _
  · next x known =>
    simp only
    split
    · exact .refl _
    · refine ⟨fun i l => if x.band.getLsbD i then false else l.clearOutput, List.map_congr_left fun e _ => ?_⟩
      obtain ⟨i, l⟩ := e
      simp only
      split
      · next inside =>
        rw [review_taken _ fun none => ?_]
        have listed : (c, { x with occ := Occupancy.held m }) ∈ f.cells.upd c fun y => { y with occ := .held m } :=
          Table.mem_of_look (by rw [Table.look_upd_self, known]; rfl)
        have counted : (c, { x with occ := Occupancy.held m }) ∈
            (f.cells.upd c fun y => { y with occ := .held m }).filter fun e => e.2.inBand i && e.2.occ.taken :=
          List.mem_filter.2 ⟨listed, by rw [Cell.inBand, inside]; rfl⟩
        have empty := List.length_eq_zero_iff.1 none
        rw [Table.keysWhere, List.map_eq_nil_iff] at empty
        rw [empty] at counted
        cases counted
      · rfl

/-! ### What has come of the fleet while its machines go home one by one -/

/-- R168 step 5: a cell is HELD by the machine docked there. -/
def homeOcc (es : Table Scrubber) (n : Nat) : Occupancy :=
  ((es.find? fun e => decide (e.2.dock = n)).map fun e => Occupancy.held e.1).getD .free

/-- The machine's dock is in the lane. -/
def dockedIn (f : Floor) (l : Nat) (e : Nat × Scrubber) : Bool := (f.laneOf e.2.dock).any fun place => decide (place.1 = l)

/-- R61: away from the end at which the dock stands, or from the low end. -/
def dirFrom (r : Lane) (place : Nat × Nat) : Dir := if place.2 + 1 = r.cells.length then .down else .up

/-- R61: the direction that the first machine docked in the lane gives it. -/
def dirOf (f : Floor) (es : Table Scrubber) (l : Nat) (r : Lane) : Option Dir :=
  (es.find? (dockedIn f l)).bind fun e => (f.laneOf e.2.dock).map (dirFrom r)

/-- R59, R61: what a docked machine records of its dock's lane. -/
def entry (f : Floor) (es : Table Scrubber) (x : Scrubber) : Option (Nat × Dir) :=
  (f.laneOf x.dock).bind fun place => (f.lanes.look place.1).bind fun r => (dirOf f es place.1 r).map fun d => (place.1, d)

/-- R168 step 2: the machines whose dock is their own. -/
def fitOf (f : Floor) : Table Scrubber := f.machines.filter fun e => f.dockFit e.1 e.2.dock

/-- The floor `g` after the machines `es` of the fit ones of `f` have been put on their docks. -/
structure Home (f : Floor) (es : Table Scrubber) (g : Floor) : Prop where
  cells : ∀ n, g.cells.look n = (f.cells.look n).map fun c => { c.fleetReset with occ := homeOcc es n }
  machines : ∀ m, g.machines.look m = ((fitOf f).look m).map fun x =>
    { Scrubber.enrolled x.rank x.dock with laneDirs := if m ∈ es.keys then (entry f es x).toList else [] }
  lanes : ∀ l, g.lanes.look l = (f.lanes.look l).map fun r =>
    { cells := r.cells, dir := dirOf f es l r, holders := es.countP (dockedIn f l), waiters := [] }
  lines : OutputsOnly f.lines g.lines
  rest : g.fleetTx = [] ∧ g.fleetCounters = {} ∧ g.notices = f.notices ∧ g.ceiling = f.ceiling ∧ g.supTx = f.supTx

theorem home_clearedFloor (f : Floor) : Home f [] (clearedFloor f) where
  cells n := by simp only [clearedFloor, Table.look_each]; rfl
  machines m := by
    simp only [clearedFloor, fitFleet, fitOf, Table.look_each]
    rfl
  lanes l := by simp only [clearedFloor, Table.look_each]; rfl
  lines := .refl _
  rest := ⟨rfl, rfl, rfl, rfl, rfl⟩

theorem dockOwner_of_fit {f : Floor} {e : Nat × Scrubber} (h : e ∈ fitOf f) : dockOwner f e.2.dock = some (some e.1) := by
  obtain ⟨w, known, -, own⟩ := (dockFit_iff f e.1 e.2.dock).1 (List.mem_filter.1 h).2
  rw [dockOwner, known, Option.map_some, own]

/-- R7: two machines with one dock are one machine. -/
theorem same_slot_of_dock {f : Floor} {d e : Nat × Scrubber} (hd : d ∈ fitOf f) (he : e ∈ fitOf f)
    (dock : d.2.dock = e.2.dock) : d.1 = e.1 := by
  have := dockOwner_of_fit hd
  rw [dock, dockOwner_of_fit he] at this
  simpa using this.symm

theorem homeOcc_append {f : Floor} {es : Table Scrubber} {e : Nat × Scrubber} (sub : ∀ d ∈ es, d ∈ fitOf f) (fit : e ∈ fitOf f)
    (fresh : e.1 ∉ es.keys) (n : Nat) : homeOcc (es ++ [e]) n = if n = e.2.dock then .held e.1 else homeOcc es n := by
  unfold homeOcc
  rw [List.find?_append]
  split
  · next eq =>
    have none : (es.find? fun d => decide (d.2.dock = n)) = none := List.find?_eq_none.2 fun d hd here =>
      fresh (same_slot_of_dock (sub d hd) fit ((of_decide_eq_true here).trans eq) ▸ List.mem_map.2 ⟨d, hd, rfl⟩)
    rw [none, List.find?_cons_of_pos (by simp [eq])]
    rfl
  · next ne => simp [Ne.symm ne]

theorem dirOf_append (f : Floor) (es : Table Scrubber) (e : Nat × Scrubber) (l : Nat) (r : Lane) :
    dirOf f (es ++ [e]) l r = (dirOf f es l r).or (if dockedIn f l e then (f.laneOf e.2.dock).map (dirFrom r) else none) := by
  unfold dirOf
  rw [List.find?_append]
  cases first : es.find? (dockedIn f l) with
  | none =>
    simp only [Option.none_or, List.find?_cons, List.find?_nil, Option.bind_none]
    cases dockedIn f l e <;> rfl
  | some d =>
    have here := List.find?_some first
    unfold dockedIn at here
    cases place : f.laneOf d.2.dock <;> simp [place] at here ⊢

theorem dirOf_eq_none (f : Floor) (es : Table Scrubber) (l : Nat) (r : Lane) :
    dirOf f es l r = none ↔ es.countP (dockedIn f l) = 0 := by
  unfold dirOf
  rw [List.countP_eq_zero]
  cases first : es.find? (dockedIn f l) with
  | none => simpa using List.find?_eq_none.1 first
  | some d =>
    have here := List.find?_some first
    have listed := List.mem_of_find?_eq_some first
    refine ⟨fun h => ?_, fun h => absurd here (h d listed)⟩
    unfold dockedIn at here
    cases place : f.laneOf d.2.dock <;> simp [place] at here h

/-- A machine already docked has its lane's direction from itself or one before it. -/
theorem entry_append {f : Floor} {es : Table Scrubber} {d : Nat × Scrubber} (e : Nat × Scrubber) (hd : d ∈ es) :
    entry f (es ++ [e]) d.2 = entry f es d.2 := by
  unfold entry
  cases place : f.laneOf d.2.dock with
  | none => rfl
  | some p =>
    simp only [Option.bind_some]
    congr 1
    funext r
    have taken : dirOf f es p.1 r ≠ none := fun h =>
      List.countP_eq_zero.1 ((dirOf_eq_none f es p.1 r).1 h) d hd (by simp [dockedIn, place])
    obtain ⟨dir, standing⟩ := Option.ne_none_iff_exists'.1 taken
    rw [dirOf_append, standing]; rfl

/-- R61: a machine goes home: its dock becomes HELD, and it enters its dock's lane in the direction that stands there. -/
theorem dockMachine_eq {g : Floor} {m : Nat} {y : Scrubber} (known : g.machines.look m = some y) (fresh : y.laneDirs = []) :
    g.dockMachine m =
      match (g.laneOf y.dock).bind fun place => (g.lanes.look place.1).map fun r => (place.1, r.dir.getD (dirFrom r place)) with
      | none => g.setOcc y.dock (.held m)
      | some (l, d) =>
        { (g.setOcc y.dock (.held m)).modMachine m (fun z => { z with laneDirs := z.laneDirs.put l d }) with
          lanes := g.lanes.upd l fun r =>
            { r with holders := r.holders + 1, dir := if r.holders = 0 then some d else r.dir } } := by
  have lane : (g.setOcc y.dock (.held m)).laneOf y.dock = g.laneOf y.dock := by
    rw [laneOf_eq, laneOf_eq, view_setOcc, View.placeOf_occupy]
  have lanes : (g.setOcc y.dock (.held m)).lanes = g.lanes := by rw [setOcc_frame]
  have machines : (g.setOcc y.dock (.held m)).machines = g.machines := by rw [setOcc_frame]
  simp only [Floor.dockMachine, known, Floor.place, lane, lanes]
  cases g.laneOf y.dock with
  | none => rfl
  | some p =>
    obtain ⟨l, i⟩ := p
    simp only [Option.bind_some]
    cases g.lanes.look l with
    | none => rfl
    | some r => simp only [Option.map_some, Floor.enterLane, machines, known, fresh, lanes]; rfl

section
variable {f g : Floor} {es : Table Scrubber}

theorem Home.laneOf_eq (home : Home f es g) (c : Nat) : g.laneOf c = f.laneOf c := by
  simp only [Floor.laneOf, home.cells]
  cases f.cells.look c <;> rfl

/-- What the machine enters, as its dock is taken, is what it then records. -/
theorem Home.entered (home : Home f es g) (m : Nat) (x : Scrubber) :
    ((g.laneOf x.dock).bind fun place => (g.lanes.look place.1).map fun r => (place.1, r.dir.getD (dirFrom r place))) =
      entry f (es ++ [(m, x)]) x := by
  rw [home.laneOf_eq, entry]
  cases place : f.laneOf x.dock with
  | none => rfl
  | some p =>
    simp only [Option.bind_some, home.lanes]
    cases f.lanes.look p.1 with
    | none => rfl
    | some r =>
      have here : dockedIn f p.1 (m, x) = true := by simp [dockedIn, place]
      simp only [Option.map_some, Option.bind_some, dirOf_append, here, if_true, place]
      cases dirOf f es p.1 r <;> rfl

/-- A lane of which the machine records nothing is not changed by it. -/
theorem lane_undocked {m l : Nat} {x : Scrubber} {r : Lane} (known : f.lanes.look l = some r)
    (out : ∀ d, entry f (es ++ [(m, x)]) x ≠ some (l, d)) : dockedIn f l (m, x) = false := by
  unfold dockedIn
  cases place : f.laneOf x.dock with
  | none => rfl
  | some p =>
    refine decide_eq_false fun eq => ?_
    subst eq
    have here : dockedIn f p.1 (m, x) = true := by simp [dockedIn, place]
    have dir : dirOf f (es ++ [(m, x)]) p.1 r = some ((dirOf f es p.1 r).getD (dirFrom r p)) := by
      rw [dirOf_append, if_pos here, place]
      cases dirOf f es p.1 r <;> rfl
    exact out ((dirOf f es p.1 r).getD (dirFrom r p)) (by simp [entry, place, known, dir])

theorem entered_lane {m l : Nat} {d : Dir} {x : Scrubber} {r : Lane} (enters : entry f (es ++ [(m, x)]) x = some (l, d))
    (lane : f.lanes.look l = some r) : dockedIn f l (m, x) = true ∧ dirOf f (es ++ [(m, x)]) l r = some d := by
  obtain ⟨p, place, entered⟩ := Option.bind_eq_some_iff.1 enters
  obtain ⟨r', known, entered⟩ := Option.bind_eq_some_iff.1 entered
  obtain ⟨d', dir, eq⟩ := Option.map_eq_some_iff.1 entered
  cases eq
  cases lane.symm.trans known
  exact ⟨by simp [dockedIn, place], dir⟩

theorem Home.step {m : Nat} {x : Scrubber} (home : Home f es g) (sub : ∀ d ∈ es, d ∈ fitOf f) (fit : (m, x) ∈ fitOf f)
    (once : (fitOf f).keys.Nodup) (fresh : m ∉ es.keys) : Home f (es ++ [(m, x)]) (g.dockMachine m) := by
  have known : g.machines.look m = some (Scrubber.enrolled x.rank x.dock) := by
    rw [home.machines, Table.look_of_mem once fit, Option.map_some, if_neg fresh]; rfl
  have cells (n : Nat) : (g.setOcc x.dock (.held m)).cells.look n = (f.cells.look n).map fun c =>
      { c.fleetReset with occ := homeOcc (es ++ [(m, x)]) n } := by
    rw [setOcc_frame]
    simp only [Table.look_upd, home.cells, homeOcc_append sub fit fresh]
    split
    · next eq => subst eq; rw [Option.map_map]; rfl
    · rfl
  have others (n : Nat) (ne : n ≠ m) : g.machines.look n = ((fitOf f).look n).map fun y =>
      { Scrubber.enrolled y.rank y.dock with
        laneDirs := if n ∈ (es ++ [(m, x)]).keys then (entry f (es ++ [(m, x)]) y).toList else [] } := by
    rw [home.machines]
    cases listed : (fitOf f).look n with
    | none => rfl
    | some y =>
      have keys : n ∈ (es ++ [(m, x)]).keys ↔ n ∈ es.keys := by simp [Table.keys, ne]
      simp only [Option.map_some, keys]
      split
      · next docked =>
        obtain ⟨d, hd, rfl⟩ := List.mem_map.1 docked
        obtain rfl : d.2 = y := by simpa [Table.look_of_mem once (show (d.1, d.2) ∈ _ from sub d hd)] using listed
        rw [entry_append _ hd]
      · rfl
  have docked : m ∈ (es ++ [(m, x)]).keys := by simp [Table.keys]
  have stands (l : Nat) (out : ∀ d, entry f (es ++ [(m, x)]) x ≠ some (l, d)) : g.lanes.look l =
      (f.lanes.look l).map fun r =>
        { cells := r.cells, dir := dirOf f (es ++ [(m, x)]) l r
          holders := (es ++ [(m, x)]).countP (dockedIn f l), waiters := [] } := by
    rw [home.lanes]
    cases lane : f.lanes.look l with
    | none => rfl
    | some r =>
      have outside := lane_undocked lane out
      simp [dirOf_append, outside, List.countP_append]
  have lines : OutputsOnly f.lines (g.setOcc x.dock (.held m)).lines := home.lines.trans (setOcc_held_lines g x.dock m)
  have rest : (g.setOcc x.dock (.held m)).fleetTx = [] ∧ (g.setOcc x.dock (.held m)).fleetCounters = {} ∧
      (g.setOcc x.dock (.held m)).notices = f.notices ∧ (g.setOcc x.dock (.held m)).ceiling = f.ceiling ∧
      (g.setOcc x.dock (.held m)).supTx = f.supTx := by rw [setOcc_frame]; exact home.rest
  rw [dockMachine_eq known rfl]
  simp only [show (Scrubber.enrolled x.rank x.dock).dock = x.dock from rfl, home.entered m x]
  cases enters : entry f (es ++ [(m, x)]) x with
  | none =>
    refine ⟨cells, fun n => ?_, fun l => ?_, lines, rest⟩
    · rw [setOcc_frame]
      by_cases eq : n = m
      · subst eq
        rw [Table.look_of_mem once fit, Option.map_some, if_pos docked, enters]
        exact known
      · exact others n eq
    · rw [setOcc_frame]
      exact stands l (by simp [enters])
  | some e =>
    obtain ⟨l, d⟩ := e
    refine ⟨cells, fun n => ?_, fun k => ?_, lines, rest⟩
    · simp only [Floor.modMachine_machines]
      rw [setOcc_frame]
      by_cases eq : n = m
      · subst eq
        rw [Table.look_upd_self, known, Table.look_of_mem once fit, Option.map_some, Option.map_some, if_pos docked, enters]
        rfl
      · rw [Table.look_upd_ne _ eq]
        exact others n eq
    · by_cases eq : k = l
      · subst eq
        rw [Table.look_upd_self, home.lanes, Option.map_map]
        cases lane : f.lanes.look k with
        | none => rfl
        | some r =>
          obtain ⟨here, dir⟩ := entered_lane enters lane
          have counted : (es ++ [(m, x)]).countP (dockedIn f k) = es.countP (dockedIn f k) + 1 := by
            simp [List.countP_append, here]
          have given : (if es.countP (dockedIn f k) = 0 then some d else dirOf f es k r) =
              dirOf f (es ++ [(m, x)]) k r := by
            split
            · exact dir.symm
            · next some =>
              obtain ⟨d', standing⟩ := Option.ne_none_iff_exists'.1 (mt (dirOf_eq_none f es k r).1 some)
              rw [dirOf_append, standing]; rfl
          simp only [Option.map_some, Function.comp, counted, given]
      · rw [Table.look_upd_ne _ eq]
        exact stands k fun d' => by simp [enters, Ne.symm eq]

end

theorem Home.foldl {f : Floor} (once : (fitOf f).keys.Nodup) (rest es : Table Scrubber) {g : Floor}
    (split : fitOf f = es ++ rest) (home : Home f es g) :
    Home f (fitOf f) ((Table.keys rest).foldl Floor.dockMachine g) := by
  induction rest generalizing es g with
  | nil => rw [split, List.append_nil]; exact home
  | cons e rest ih =>
    have sub : ∀ d ∈ es, d ∈ fitOf f := fun d hd => split ▸ List.mem_append_left _ hd
    have fit : e ∈ fitOf f := split ▸ List.mem_append_right _ List.mem_cons_self
    have fresh : e.1 ∉ es.keys := fun listed => by
      have keys : (fitOf f).keys = es.keys ++ e.1 :: Table.keys rest := by rw [split]; simp [Table.keys]
      rw [keys] at once
      exact (List.nodup_append.1 once).2.2 e.1 listed e.1 List.mem_cons_self rfl
    exact ih (es ++ [e]) (by rw [split, List.append_assoc]; rfl) (home.step sub fit once fresh)

theorem fitOf_nodup {f : Floor} (once : f.machines.keys.Nodup) : (fitOf f).keys.Nodup :=
  once.sublist (keys_filter_sublist _ _)

/-- R168 step 5: every fit machine on its dock. -/
theorem home_dockedFloor {f : Floor} (once : f.machines.keys.Nodup) : Home f (fitOf f) (dockedFloor f) := by
  have keys : (fitFleet f).keys = (fitOf f).keys := keys_fitFleet f
  rw [dockedFloor, keys]
  exact Home.foldl (fitOf_nodup once) (fitOf f) [] rfl (home_clearedFloor f)

/-! ### What FLEET RESET leaves on the floor -/

section
variable {f : Floor} (k : Control) (once : f.machines.keys.Nodup)
include once

theorem fleetReset_cells (n : Nat) : (f.fleetReset k).cells.look n = (f.cells.look n).map fun c =>
    { c.fleetReset with occ := homeOcc (fitOf f) n, embargo := f.embargoFor c.band } := by
  have home := home_dockedFloor once
  rw [fleetReset_eq]
  simp only [recounted, Table.look_each, home.cells, home.lines.embargoFor, Option.map_map]
  rfl

theorem fleetReset_machines (m : Nat) : (f.fleetReset k).machines.look m = ((fitOf f).look m).map fun x =>
    { Scrubber.enrolled x.rank x.dock with laneDirs := (entry f (fitOf f) x).toList } := by
  refine ((home_dockedFloor once).machines m).trans ?_
  cases listed : (fitOf f).look m with
  | none => rfl
  | some x => rw [Option.map_some, if_pos (Table.mem_keys_of_look listed)]; rfl

theorem fleetReset_lanes (l : Nat) : (f.fleetReset k).lanes.look l = (f.lanes.look l).map fun r =>
    { cells := r.cells, dir := dirOf f (fitOf f) l r, holders := (fitOf f).countP (dockedIn f l), waiters := [] } :=
  (home_dockedFloor once).lanes l

theorem fleetReset_lines (i : Nat) : (f.fleetReset k).lines.look i =
    (f.lines.look i).map fun l => l.fleetReset k.now ((f.fleetReset k).bandTaken i) := by
  obtain ⟨b, lines⟩ := (home_dockedFloor once).lines
  have written : (f.fleetReset k).lines =
      (dockedFloor f).lines.each fun i l => l.fleetReset k.now ((f.fleetReset k).bandTaken i) := rfl
  rw [written, lines]
  simp only [Table.look_each, Option.map_map]
  rfl

theorem fleetReset_rest : (f.fleetReset k).fleetTx = [] ∧ (f.fleetReset k).fleetCounters = {} ∧
    (f.fleetReset k).notices = (f.notices.each fun _ n => n.cleared) ∧ (f.fleetReset k).ceiling = f.ceiling ∧
    (f.fleetReset k).supTx = f.supTx := by
  obtain ⟨fleetTx, counters, notices, ceiling, supTx⟩ := (home_dockedFloor once).rest
  refine ⟨fleetTx, counters, ?_, ceiling, supTx⟩
  rw [← notices]
  rfl

end

/-! ### The statement's words -/

theorem docked_eq (f : Floor) (l : Nat) (e : Nat × Scrubber) :
    ((f.cells.look e.2.dock).any fun c =>
      decide (c.kind = .dock ∧ c.owner = some e.1) && c.lane.any fun place => decide (place.1 = l)) =
      (f.dockFit e.1 e.2.dock && dockedIn f l e) := by
  unfold Floor.dockFit dockedIn Floor.laneOf
  cases f.cells.look e.2.dock <;> simp

/-- A machine stands in the fleet after the reset just where its dock is its own. -/
theorem fitOf_look {f : Floor} (once : f.machines.keys.Nodup) (m : Nat) (x : Scrubber) :
    (fitOf f).look m = some x ↔ f.machines.look m = some x ∧ f.dockFit m x.dock = true := by
  constructor
  · intro listed
    obtain ⟨member, fit⟩ := List.mem_filter.1 (Table.mem_of_look listed)
    exact ⟨Table.look_of_mem once member, fit⟩
  · rintro ⟨known, fit⟩
    exact Table.look_of_mem (fitOf_nodup once) (List.mem_filter.2 ⟨Table.mem_of_look known, fit⟩)

theorem homeOcc_cases {f : Floor} (once : f.machines.keys.Nodup) (n : Nat) :
    (homeOcc (fitOf f) n = .free ∨ ∃ m, homeOcc (fitOf f) n = .held m) ∧ ∀ m, homeOcc (fitOf f) n = .held m ↔
      ∃ x, f.machines.look m = some x ∧ x.dock = n ∧ f.dockFit m x.dock = true := by
  unfold homeOcc
  cases first : (fitOf f).find? fun e => decide (e.2.dock = n) with
  | none =>
    refine ⟨.inl rfl, fun m => ⟨fun h => by simp at h, ?_⟩⟩
    rintro ⟨x, known, dock, fit⟩
    have listed := Table.mem_of_look ((fitOf_look once m x).2 ⟨known, fit⟩)
    exact absurd (decide_eq_true dock) (List.find?_eq_none.1 first _ listed)
  | some e =>
    have here : e.2.dock = n := by simpa using List.find?_some first
    have listed := List.mem_of_find?_eq_some first
    refine ⟨.inr ⟨e.1, rfl⟩, fun m => ⟨fun h => ?_, ?_⟩⟩
    · obtain rfl : e.1 = m := by simpa using h
      obtain ⟨known, fit⟩ := (fitOf_look once e.1 e.2).1 (Table.look_of_mem (fitOf_nodup once) listed)
      exact ⟨e.2, known, here, fit⟩
    · rintro ⟨x, known, dock, fit⟩
      have other := Table.mem_of_look ((fitOf_look once m x).2 ⟨known, fit⟩)
      have same : e.1 = m := same_slot_of_dock listed other (here.trans dock.symm)
      rw [Option.map_some, Option.getD_some, same]

/-- R137, R168 step 7: a line after the reset, written out. -/
theorem line_fleetReset_eq (l : Line) (now taken : Nat) : l.fleetReset now taken =
    { l with
      runts := 0, stucks := 0, breaches := 0, lastStart := none, lastEnd := none
      clearOutput := decide (taken = 0)
      state := if l.state = .quiet then .quiet else if taken = 0 then .clear else .clearing
      clearTimer :=
        if l.state = .quiet then l.clearTimer else if taken = 0 then none else some (now + l.cfg.clearOut * 1000) } := by
  unfold Line.fleetReset
  by_cases quiet : l.state = .quiet
  · simp [quiet]
  · by_cases empty : taken = 0 <;> simp [quiet, empty]

/-- Settles O25: the fleet goes home machine by machine, and what has come of the floor by then is said of the machines
that are home (`Home`); the statement is what that says when all are. -/
theorem fleetResetPutsTheFleetHome : Obligations.FleetResetPutsTheFleetHome := by
  intro ref s turn tables run fits docked direction
  have once : s.takeFrame.floor.machines.keys.Nodup :=
    ((Table.wf_iff _ _).1 (machines_of_tablesKept tables).1).1.imp Nat.ne_of_lt
  have fits_iff (m : Nat) (x : Scrubber) : s.takeFrame.floor.dockFit m x.dock = true ↔ fits m x := dockFit_iff _ m x.dock
  have docked_iff (l : Nat) (e : Nat × Scrubber) : docked l e =
      (s.takeFrame.floor.dockFit e.1 e.2.dock && dockedIn s.takeFrame.floor l e) := docked_eq s.takeFrame.floor l e
  have direction_eq (l : Nat) (r : Lane) : dirOf s.takeFrame.floor (fitOf s.takeFrame.floor) l r = direction l r := by
    have first : (fitOf s.takeFrame.floor).find? (dockedIn s.takeFrame.floor l) = s.floor.machines.find? (docked l) := by
      rw [fitOf, List.find?_filter]
      exact congrArg (fun p => List.find? p s.floor.machines) (funext fun e => by
        rw [docked_iff, Bool.decide_and, Bool.decide_eq_true, Bool.decide_eq_true])
    rw [dirOf, first]; rfl
  have holders_eq (l : Nat) : (fitOf s.takeFrame.floor).countP (dockedIn s.takeFrame.floor l) =
      s.floor.machines.countP (docked l) := by
    rw [fitOf, List.countP_filter]
    exact congrArg (fun p => List.countP p s.floor.machines) (funext fun e => by rw [docked_iff, Bool.and_comm])
  have gone (m : Nat) (h : ∀ x, s.floor.machines.look m = some x → ¬ fits m x) :
      (s.takeFrame.floor.fleetReset s.control).machines.look m = none := by
    rw [fleetReset_machines s.control once, Option.map_eq_none_iff]
    refine Option.eq_none_iff_forall_ne_some.2 fun x listed => ?_
    obtain ⟨known, fit⟩ := (fitOf_look once m x).1 listed
    exact h x known ((fits_iff m x).1 fit)
  obtain ⟨fleetTx, counters, notices, ceiling, supTx⟩ := fleetReset_rest s.control once
  refine ⟨fun mode => command_answers turn (if_pos mode), fun mode => ?_⟩
  refine ⟨_, command_done turn (if_neg (not_not.2 mode)), tablesKept_fleetReset (s := s.takeFrame) tables,
    rfl, rfl, rfl, rfl, rfl, rfl, rfl, fleetTx, counters, ceiling, ?_, fun n => ?_, fun m x known unfit => ?_, fun m x known fit => ?_, fun m absent => ?_,
    fun n c known => ?_, fun n absent => ?_, fun l => ?_, fun i l known => ?_⟩
  · exact congrArg (fun backlog => backlog ++ [_]) supTx
  · exact (congrArg (fun t => Table.look t n) notices).trans (Table.look_each _ _ n)
  · exact gone m fun y hy => by cases known.symm.trans hy; exact unfit
  · have listed := (fitOf_look once m x).2 ⟨known, (fits_iff m x).2 fit⟩
    refine (fleetReset_machines s.control once m).trans ?_
    rw [listed, Option.map_some, entry]
    simp only [direction_eq]
    rfl
  · exact gone m fun x hx => by rw [absent] at hx; cases hx
  · obtain ⟨free_or_held, held_iff⟩ := homeOcc_cases once n
    refine ⟨homeOcc (fitOf s.takeFrame.floor) n, (fleetReset_cells s.control once n).trans ?_, free_or_held, fun m => ?_⟩
    · exact congrArg (Option.map _) known
    · rw [held_iff]
      exact exists_congr fun x => and_congr_right fun _ => and_congr_right fun _ => fits_iff m x
  · exact (fleetReset_cells s.control once n).trans (congrArg (Option.map _) absent)
  · refine (fleetReset_lanes s.control once l).trans ?_
    simp only [direction_eq, holders_eq]
    rfl
  · refine (fleetReset_lines s.control once i).trans ((congrArg (Option.map _) known).trans ?_)
    exact congrArg some (line_fleetReset_eq l _ _)

end Sys2Proof.Laws
end

section
/-! ## NIGHT BEGIN (O26) -/

namespace Sys2Proof.Laws

open Sys2Proof Sys2Proof.Machine Sys2Proof.Safety

-- One theorem at a time, as in the tests above: side by side their threads' stacks take the memory.
set_option Elab.async false

/-! ### Marks that fire -/

/-- Work beside the ports and the marks, of which the host hears notices alone. -/
structure Aside (s t : State) : Prop where
  ports : t.ports = s.ports
  marks : t.marks = s.marks
  sup : NoticesAdded s.floor.supTx t.floor.supTx

theorem Aside.refl (s : State) : Aside s s := ⟨rfl, rfl, .refl _⟩

theorem Aside.onFloor {s : State} {g : Control → Floor → Floor} {calm : Prop} (h : ∀ k f, Moved calm f (g k f)) :
    Aside s (s.onFloor g) := ⟨rfl, rfl, (h _ _).sup⟩

/-- R167 step 3: what a mark's action makes of the part's control. -/
def acted (k : Control) : MarkAction → Control
  | .zoneClose z => { k with zones := k.zones.upd z fun _ => false }
  | .zoneOpen z => if k.zoneOpen z then k else { k with zones := k.zones.upd z fun _ => true }
  | .recalling =>
    if k.mode = .night then { k with mode := .recalling, recallReason := some .mark, silence := none } else k
  | .noticeOnly => k

theorem takeAction_spec (i : Nat) (a : MarkAction) (s : State) :
    (s.takeAction i a).control = acted s.control a ∧ Aside s (s.takeAction i a) := by
  cases a with
  | zoneClose z => exact ⟨rfl, rfl, rfl, .refl _⟩
  | zoneOpen z =>
    simp only [State.takeAction, State.openZone, acted]
    split
    · exact ⟨rfl, .refl s⟩
    · exact ⟨rfl, rfl, rfl, (moved_offerCells (calm := True) _ _ _).sup⟩
  | recalling =>
    simp only [State.takeAction, acted]
    split
    · exact ⟨rfl, rfl, rfl, (moved_raise (calm := True) _ _ _ _ _).sup⟩
    · exact ⟨rfl, .refl s⟩
  | noticeOnly => exact ⟨rfl, .refl s⟩

theorem fireMark_spec {s : State} {i time : Nat} {a : MarkAction} (armed : s.marks.look i = some (.armed time a)) :
    (s.fireMark i).control = acted s.control a ∧ (s.fireMark i).marks = (s.marks.upd i fun _ => .fired time a) ∧
      (s.fireMark i).ports = s.ports ∧ NoticesAdded s.floor.supTx (s.fireMark i).floor.supTx := by
  have fired : s.fireMark i = (({ s with marks := s.marks.upd i fun _ => .fired time a }).onFloor
      fun k f => f.raise k .modeMark (some i) (some .fired)).takeAction i a := by
    simp only [State.fireMark, armed]
  obtain ⟨control, ports, marks, sup⟩ := takeAction_spec i a (({ s with marks := s.marks.upd i fun _ => .fired time a }).onFloor
    fun k f => f.raise k .modeMark (some i) (some .fired))
  rw [fired]
  exact ⟨control, marks, ports, (moved_raise (calm := True) _ _ _ _ _).sup.trans sup⟩

/-- R167: ARMED marks fire one after another, each by its own action. -/
theorem fireMarks_spec (act : Nat → MarkAction) (is : List Nat) (once : is.Nodup) (s : State)
    (armed : ∀ i ∈ is, s.marks.look i = some (.armed 0 (act i))) :
    (s.fireMarks is).control = (is.map act).foldl acted s.control ∧
      (∀ i, (s.fireMarks is).marks.look i = if i ∈ is then some (.fired 0 (act i)) else s.marks.look i) ∧
      (s.fireMarks is).ports = s.ports ∧ NoticesAdded s.floor.supTx (s.fireMarks is).floor.supTx := by
  induction is generalizing s with
  | nil => exact ⟨rfl, fun _ => rfl, rfl, .refl _⟩
  | cons j is ih =>
    obtain ⟨fresh, once⟩ := List.nodup_cons.1 once
    obtain ⟨control, marks, ports, sup⟩ := fireMark_spec (armed j List.mem_cons_self)
    have later : ∀ i ∈ is, (s.fireMark j).marks.look i = some (.armed 0 (act i)) := fun i hi => by
      have other : i ≠ j := fun eq => fresh (eq ▸ hi)
      rw [marks, Table.look_upd_ne _ other]
      exact armed i (List.mem_cons_of_mem _ hi)
    obtain ⟨control', marks', ports', sup'⟩ := ih once (s.fireMark j) later
    refine ⟨control'.trans (by rw [control]; rfl), fun i => (marks' i).trans ?_, ports'.trans ports, sup.trans sup'⟩
    by_cases here : i ∈ is
    · simp [here]
    · rw [if_neg here, marks]
      by_cases eq : i = j
      · subst eq; rw [Table.look_upd_self, armed i List.mem_cons_self]; simp
      · rw [Table.look_upd_ne _ eq]; simp [eq, here]

/-! ### What the actions make of the part's control -/

/-- R167: no action touches the clock. -/
theorem acted_clock (as : List MarkAction) (k : Control) : (as.foldl acted k).clock = k.clock ∧
    (as.foldl acted k).clockRunning = k.clockRunning ∧ (as.foldl acted k).clockDue = k.clockDue := by
  have one (k : Control) (a : MarkAction) :
      (acted k a).clock = k.clock ∧ (acted k a).clockRunning = k.clockRunning ∧ (acted k a).clockDue = k.clockDue := by
    cases a with
    | zoneClose z => exact ⟨rfl, rfl, rfl⟩
    | zoneOpen z => simp only [acted]; split <;> exact ⟨rfl, rfl, rfl⟩
    | recalling => simp only [acted]; split <;> exact ⟨rfl, rfl, rfl⟩
    | noticeOnly => exact ⟨rfl, rfl, rfl⟩
  induction as generalizing k with
  | nil => exact ⟨rfl, rfl, rfl⟩
  | cons a as ih =>
    obtain ⟨clock, running, due⟩ := ih (acted k a)
    obtain ⟨clock', running', due'⟩ := one k a
    exact ⟨clock.trans clock', running.trans running', due.trans due'⟩

/-- R157: an action other than RECALL leaves mode and reason. -/
theorem acted_mode {a : MarkAction} (k : Control) (other : a ≠ .recalling) : (acted k a).mode = k.mode ∧
    (acted k a).recallReason = k.recallReason ∧ (acted k a).silence = k.silence := by
  cases a with
  | zoneClose z => exact ⟨rfl, rfl, rfl⟩
  | zoneOpen z => simp only [acted]; split <;> exact ⟨rfl, rfl, rfl⟩
  | recalling => exact absurd rfl other
  | noticeOnly => exact ⟨rfl, rfl, rfl⟩

theorem acted_mode_kept (as : List MarkAction) (k : Control) (none : .recalling ∉ as) :
    (as.foldl acted k).mode = k.mode ∧ (as.foldl acted k).recallReason = k.recallReason := by
  induction as generalizing k with
  | nil => exact ⟨rfl, rfl⟩
  | cons a as ih =>
    rw [List.mem_cons, not_or] at none
    obtain ⟨mode, reason⟩ := ih (acted k a) none.2
    obtain ⟨mode', reason', -⟩ := acted_mode k (Ne.symm none.1)
    exact ⟨mode.trans mode', reason.trans reason'⟩

/-- The part recalls, by a mark. -/
def RecalledByMark (k : Control) : Prop := k.mode = .recalling ∧ k.recallReason = some .mark ∧ k.silence = none

/-- R157: a part that recalls by a mark goes on so. -/
theorem acted_recalled {k : Control} (a : MarkAction) (h : RecalledByMark k) : RecalledByMark (acted k a) := by
  by_cases recalls : a = .recalling
  · subst recalls
    have notNight : ¬ k.mode = .night := by rw [h.1]; decide
    rw [acted, if_neg notNight]; exact h
  · obtain ⟨mode, reason, silence⟩ := acted_mode k recalls
    exact ⟨mode.trans h.1, reason.trans h.2.1, silence.trans h.2.2⟩

theorem acted_recalled_kept (as : List MarkAction) {k : Control} (h : RecalledByMark k) :
    RecalledByMark (as.foldl acted k) := by
  induction as generalizing k with
  | nil => exact h
  | cons a as ih => exact ih (acted_recalled a h)

/-- R157, R167: in NIGHT, the first action that is RECALL recalls the part. -/
theorem acted_recalls (as : List MarkAction) {k : Control} (night : k.mode = .night) (recalls : .recalling ∈ as) :
    RecalledByMark (as.foldl acted k) := by
  induction as generalizing k with
  | nil => cases recalls
  | cons a as ih =>
    by_cases here : a = .recalling
    · subst here
      refine acted_recalled_kept as ?_
      rw [acted, if_pos night]
      exact ⟨rfl, rfl, rfl⟩
    · exact ih ((acted_mode k here).1.trans night) ((List.mem_cons.1 recalls).resolve_left (Ne.symm here))

/-- R163: an open zone that no action closes stays open. -/
theorem acted_zone_open (as : List MarkAction) {k : Control} {n : Nat} (open' : k.zones.look n = some true)
    (none : .zoneClose n ∉ as) : (as.foldl acted k).zones.look n = some true := by
  induction as generalizing k with
  | nil => exact open'
  | cons a as ih =>
    rw [List.mem_cons, not_or] at none
    refine ih ?_ none.2
    cases a with
    | zoneClose z =>
      have other : n ≠ z := fun eq => none.1 (eq ▸ rfl)
      simpa [acted, Table.look_upd_ne _ other] using open'
    | zoneOpen z =>
      simp only [acted]
      split
      · exact open'
      · rw [Table.look_upd, open']; simp
    | recalling => simp only [acted]; split <;> exact open'
    | noticeOnly => exact open'

/-! ### The night as it opens -/

/-- R156: all that NIGHT BEGIN does before the marks that stand at time 0 fire. -/
def opened (s : State) : State :=
  let s := s.onControl fun k => { k with mode := .night, clock := 0, clockRunning := true, clockDue := k.now + 1000 }
  let s := (s.onControl Control.openZones).onFloor fun k f => f.offerCells k f.cells.keys
  let s := { s with marks := s.marks.each fun _ m => m.rearmed }
  (s.onFloor Floor.beginNight).onControl Control.startSilence

theorem beginNight_eq (s : State) : s.beginNight = (opened s).fireMarks ((opened s).marksAt 0) := rfl

theorem mem_marksAt {s : State} (once : s.marks.keys.Nodup) (time i : Nat) :
    i ∈ s.marksAt time ↔ ∃ a, s.marks.look i = some (.armed time a) := by
  unfold State.marksAt Table.keysWhere
  constructor
  · intro listed
    obtain ⟨⟨i, m⟩, member, rfl⟩ := List.mem_map.1 listed
    obtain ⟨member, due⟩ := List.mem_filter.1 member
    cases m with
    | armed t a => exact ⟨a, by rw [Table.look_of_mem once member, of_decide_eq_true due]⟩
    | empty => cases due
    | fired t a => cases due
  · rintro ⟨a, known⟩
    exact List.mem_map.2 ⟨_, List.mem_filter.2 ⟨Table.mem_of_look known, decide_eq_true rfl⟩, rfl⟩

theorem marksAt_nodup {s : State} (once : s.marks.keys.Nodup) (time : Nat) : (s.marksAt time).Nodup :=
  once.sublist (keys_filter_sublist _ _)

theorem opened_marks (s : State) : (opened s).marks = s.marks.each fun _ m => m.rearmed := rfl

theorem marks_nodup {s : State} (tables : TablesKept s) : (opened s).marks.keys.Nodup := by
  obtain ⟨-, -, -, -, -, -, marks, -⟩ := tables
  rw [opened_marks, Table.keys_each, marks]
  exact List.nodup_range

/-- R166: a mark stands with its time and action, ARMED or FIRED, just where the night opens with it ARMED. -/
theorem opened_armed_iff (s : State) (i time : Nat) (a : MarkAction) : (opened s).marks.look i = some (.armed time a) ↔
    s.marks.look i = some (.armed time a) ∨ s.marks.look i = some (.fired time a) := by
  rw [opened_marks, Table.look_each]
  cases s.marks.look i with
  | none => simp
  | some m => cases m <;> simp [Mark.rearmed]

/-- R37: with nobody waiting there is nothing to offer. -/
theorem offerCells_nobody {k : Control} {f : Floor} (nobody : NobodyWaits f) (cs : List Nat) : f.offerCells k cs = f := by
  have one (c : Nat) : f.offerCell k c = f := by
    unfold Floor.offerCell
    cases known : f.cells.look c with
    | none => rfl
    | some x => exact if_neg fun waits => waits.2.2 (nobody.1 c x known)
  unfold Floor.offerCells
  induction cs with
  | nil => rfl
  | cons c cs ih => rw [List.foldl_cons, one, ih]

/-- R156: what the night opens with where nobody waits. -/
theorem opened_eq {s : State} (nobody : NobodyWaits s.floor) : opened s =
    { s with
      control := { s.control with
        mode := .night, clock := 0, clockRunning := true, clockDue := s.control.now + 1000
        zones := s.control.zones.each fun _ _ => true
        silence := if s.control.timing.hostSilence = 0 then none
                   else some (s.control.now + s.control.timing.hostSilence * 1000) }
      marks := s.marks.each fun _ m => m.rearmed
      floor := { s.floor with
        cells := s.floor.cells.each fun _ c => { c with washes := 0, lastWashed := none }
        machines := s.floor.machines.each fun _ x =>
          { x with
            misses := 0, lastBeacon := none
            beaconTimer := if x.state = .lost then x.beaconTimer
                           else some (s.control.now + s.control.timing.beaconInterval * 1000) } } } := by
  have offers (k : Control) : s.floor.offerCells k s.floor.cells.keys = s.floor := offerCells_nobody nobody _
  simp only [opened, State.onFloor, State.onControl, offers]
  rfl

/-- The answer of NIGHT BEGIN that opens the night. -/
theorem nightBegin_opens {ref : Byte} {s : State} (turn : s.takesCommand ⟨0x07#8, ref, []⟩ = true)
    (mode : s.control.mode = .standby) (level : s.evac.level = false) (sound : s.floor.mapFault = none) :
    exec (.nightBegin ref []) s = .next (s.takeFrame.beginNight.reply 0x07#8 ref .done
      (.modeRecord s.takeFrame.beginNight.control.modeRecord)) := by
  have heard : s.takeFrame.floor.mapFault = none := (mapFault_heard s.floor _).trans sound
  refine command_done turn ?_
  refine (if_neg (not_not.2 mode)).trans ((if_neg (by simp [level])).trans ?_)
  rw [heard]
  rfl

/-- R156: in the opened night every zone is open. -/
theorem opened_zone {s : State} (tables : TablesKept s) {n : Nat} (lt : n < 32) :
    (opened s).control.zones.look n = some true := by
  obtain ⟨-, -, -, -, -, -, -, zones⟩ := tables
  have listed : n ∈ s.control.zones.keys := zones ▸ List.mem_range.2 lt
  obtain ⟨v, known⟩ := Option.isSome_iff_exists.1 ((Table.look_isSome _ n).2 listed)
  have each : (opened s).control.zones = s.control.zones.each fun _ _ => true := rfl
  rw [each, Table.look_each, known]
  rfl

/-- R37, R173: opening the night sends the host notices alone. -/
theorem opened_sup (s : State) : NoticesAdded s.floor.supTx (opened s).floor.supTx :=
  (moved_offerCells (calm := True) _ _ _).sup

/-- The action of a mark in a table of marks; a mark that has none does no more than give its notice. -/
def markAction (marks : Table Mark) (i : Nat) : MarkAction :=
  match marks.look i with
  | some (.armed _ a) => a
  | some (.fired _ a) => a
  | _ => .noticeOnly

/-- R156, R167: the night begun is the night opened, with the marks that stood at time 0 fired, each with its action. -/
theorem beginNight_spec {s : State} (tables : TablesKept s) : ∃ as : List MarkAction,
    (∀ a, a ∈ as ↔ ∃ i, s.marks.look i = some (.armed 0 a) ∨ s.marks.look i = some (.fired 0 a)) ∧
      s.beginNight.control = as.foldl acted (opened s).control ∧
      (∀ i time a, s.marks.look i = some (.armed time a) ∨ s.marks.look i = some (.fired time a) →
        s.beginNight.marks.look i = some (if time = 0 then .fired time a else .armed time a)) ∧
      (∀ i, s.marks.look i = some .empty → s.beginNight.marks.look i = some .empty) ∧
      s.beginNight.ports = s.ports ∧ NoticesAdded s.floor.supTx s.beginNight.floor.supTx := by
  have due (i : Nat) := mem_marksAt (marks_nodup tables) 0 i
  have action {i time : Nat} {a : MarkAction} (armed : (opened s).marks.look i = some (.armed time a)) :
      markAction (opened s).marks i = a := by rw [markAction, armed]
  obtain ⟨control, marks, ports, sup⟩ := fireMarks_spec (markAction (opened s).marks) ((opened s).marksAt 0)
    (marksAt_nodup (marks_nodup tables) 0) (opened s) fun i listed => by
      obtain ⟨a, armed⟩ := (due i).1 listed
      rw [action armed, armed]
  rw [← beginNight_eq] at control marks ports sup
  refine ⟨_, fun a => ?_, control, fun i time a stands => ?_, fun i empty => ?_, ports, (opened_sup s).trans sup⟩
  · simp only [← opened_armed_iff, List.mem_map, due]
    constructor
    · rintro ⟨i, ⟨b, armed⟩, rfl⟩
      exact ⟨i, by rw [action armed, armed]⟩
    · rintro ⟨i, armed⟩
      exact ⟨i, ⟨a, armed⟩, action armed⟩
  · have armed := (opened_armed_iff s i time a).2 stands
    rw [marks i, action armed, armed]
    by_cases zero : time = 0
    · subst zero
      rw [if_pos ((due i).2 ⟨a, armed⟩), if_pos rfl]
    · have later : i ∉ (opened s).marksAt 0 := fun listed => by
        obtain ⟨b, now⟩ := (due i).1 listed
        rw [armed] at now
        injection now with now
        injection now with now
        exact zero now
      rw [if_neg later, if_neg zero]
  · have still : (opened s).marks.look i = some .empty := by rw [opened_marks, Table.look_each, empty]; rfl
    have never : i ∉ (opened s).marksAt 0 := fun listed => by
      obtain ⟨b, now⟩ := (due i).1 listed
      rw [still] at now
      cases now
    rw [marks i, if_neg never, still]

/-- R156: rearming changes FIRED marks alone. -/
theorem rearmed_eq (m : Mark) : m.rearmed = match m with
    | .fired t a => .armed t a
    | other => other := by
  cases m <;> rfl

/-- Settles O26: where nobody waits and no mark stands at time 0, opening the night is all; else the actions of the marks
that fire are done one after another, of which RECALL alone touches the mode and zone closings alone close a zone. -/
theorem nightBeginOpensTheNight : Obligations.NightBeginOpensTheNight := by
  refine ⟨fun ref s turn => ?_, fun ref s turn tables mode level sound => ?_⟩
  · intro run out before k
    have heard : s.takeFrame.floor.mapFault = s.floor.mapFault := mapFault_heard s.floor _
    refine ⟨fun mode => command_answers turn (if_pos mode), fun mode => ⟨fun level => ?_, fun level fault found => ?_,
      fun level sound nobody quiet tables => ?_⟩⟩
    · exact command_answers turn ((if_neg (not_not.2 mode)).trans (if_pos level))
    · refine command_answers turn ((if_neg (not_not.2 mode)).trans ((if_neg (by simp [level])).trans ?_))
      rw [heard, found]
      rfl
    · have still : (opened s.takeFrame).marksAt 0 = [] := List.eq_nil_iff_forall_not_mem.2 fun i listed => by
        obtain ⟨a, armed⟩ := (mem_marksAt (marks_nodup (s := s.takeFrame) tables) 0 i).1 listed
        exact ((opened_armed_iff s.takeFrame i 0 a).1 armed).elim (quiet i a).1 (quiet i a).2
      have begun : s.takeFrame.beginNight = opened s.takeFrame := by rw [beginNight_eq, still]; rfl
      refine (nightBegin_opens turn mode level sound).trans ?_
      rw [begun, opened_eq (s := s.takeFrame) nobody]
      simp only [rearmed_eq]
      rfl
  · intro stands
    obtain ⟨as, fires, control, marks, empties, ports, notices, added, plain⟩ := beginNight_spec (s := s.takeFrame) tables
    obtain ⟨clock, running, due⟩ := acted_clock as (opened s.takeFrame).control
    refine ⟨_, nightBegin_opens turn mode level sound, ⟨ports, notices, plain, congrArg (· ++ _) added⟩,
      (congrArg _ control).trans clock, (congrArg _ control).trans running, (congrArg _ control).trans due, marks, empties,
      fun recalls => ?_, fun never => ?_, fun n open' lt => ?_⟩
    · show RecalledByMark s.takeFrame.beginNight.control
      rw [control]
      exact acted_recalls as rfl ((fires _).2 recalls)
    · show s.takeFrame.beginNight.control.mode = _ ∧ s.takeFrame.beginNight.control.recallReason = _
      rw [control]
      exact acted_mode_kept as _ fun recalls => ((fires _).1 recalls).elim never
    · show s.takeFrame.beginNight.control.zones.look n = _
      rw [control]
      refine acted_zone_open as (opened_zone (s := s.takeFrame) tables lt) fun closes => ?_
      obtain ⟨i, closing⟩ := (fires _).1 closes
      exact open' i _ closing rfl

end Sys2Proof.Laws
end

section
/-! ## Deeds: every command is a run of them

`Deed s t` lists once what a command is made of, with the checks that stand before each piece. A law that every deed
keeps is kept by every step; so a law is proved deed by deed, and no walk through the commands is made again. -/

namespace Sys2Proof.Laws

open Sys2Proof Sys2Proof.Machine Sys2Proof.Safety

-- One theorem at a time, as in the tests above: side by side their threads' stacks take the memory.
set_option Elab.async false

/-- The pieces of floor work, from the floor of `s` to the floor that is the index. -/
inductive Work (s : State) : Floor → Prop
  | raise (cls subject reason) : Work s (s.floor.raise s.control cls subject reason)
  | offerCell (c : Nat) : Work s (s.floor.offerCell s.control c)
  | offerLane (l : Nat) : Work s (s.floor.offerLane s.control l)
  | addHalt (r : HaltReason) (m : Nat) : Work s (s.floor.addHalt s.control r m)
  | removeHalt (r : HaltReason) (m : Nat) (other : r ≠ .position) : Work s (s.floor.removeHalt s.control r m)
  | attempt (m : Nat) : Work s (s.floor.attempt s.control true m)
  | beginNight : Work s (s.floor.beginNight s.control)
  | loadLeg (a : LegFields) (passed : s.legFault a = none) : Work s (s.floor.loadLeg s.control a.slot a.leg)
  | cancelLeg (m : Nat) (withdraw : Bool) : Work s (s.floor.cancelLeg s.control m withdraw)
  | restore (m c : Nat) (passed : s.restoreFault m c = none) : Work s (s.floor.restore s.control m c)
  | heard (m : Nat) : Work s (s.floor.modMachine m fun y => { y with heard := true })
  | beacon (m battery water : Nat) : Work s (s.floor.beacon s.control m battery water)
  | arrive (m c count : Nat) (x : Scrubber) (known : s.floor.machines.look m = some x) (found : x.state ≠ .lost)
      (few : count ≤ 4) : Work s (s.floor.arrive s.control m c count)
  | request (m count : Nat) (some : 1 ≤ count) (few : count ≤ 4) : Work s (s.floor.request s.control m count)
  | ack (m kind stop : Nat) (declined : Bool) (x : Scrubber) (known : s.floor.machines.look m = some x)
      (found : x.state ≠ .lost) : Work s (s.floor.ack s.control m kind stop declined)
  | faultStop (m code : Nat) (x : Scrubber) (known : s.floor.machines.look m = some x) (found : x.state ≠ .lost) :
      Work s (s.floor.faultStop s.control m code)
  | restart (m : Nat) : Work s (s.floor.restart s.control m)
  | frameSent (m : Nat) : Work s (s.floor.frameSent s.control m)
  | replyExpiry (m : Nat) : Work s (s.floor.replyExpiry s.control m)
  | beaconExpiry (m : Nat) : Work s (s.floor.beaconExpiry s.control m)
  | stall (m t : Nat) (runs : s.floor.progressDeadline m = some t) : Work s (s.floor.stall s.control m)
  | freeCell (c t : Nat) (runs : s.floor.guardDeadline c = some t ∨ s.floor.wetDeadline c = some t) :
      Work s (s.floor.freeCell s.control c)
  | activeEdge (i : Nat) : Work s (s.floor.activeEdgeEvent s.control i)
  | inactiveEdge (i : Nat) : Work s (s.floor.inactiveEdgeEvent s.control i)
  | stuck (i : Nat) (flow : Bool) : Work s (s.floor.stuckEvent s.control i flow)
  | holdExpiry (i : Nat) : Work s (s.floor.holdExpiry s.control i)
  | breach (i t : Nat) (runs : s.floor.clearOutDeadline i = some t) : Work s (s.floor.breach s.control i)
  | sample (i : Nat) (flow : Bool) : Work s (s.floor.sampleLine s.control i flow)

/-- The pieces that commands are made of. -/
inductive Deed (s : State) : State → Prop
  | work {g : Floor} (w : Work s g) : Deed s { s with floor := g }
  | control (k : Control) (mode : k.mode = .standby → s.control.mode = .standby)
      (zones : k.zones.keys = s.control.zones.keys) (drying : DryingKept s → DryingKept { s with control := k }) :
      Deed s { s with control := k }
  | ports (p : Ports) (counts : SupCountersKept s.ports.supCounters → SupCountersKept p.supCounters)
      (room : QueuesKept s → QueuesKept { s with ports := p }) : Deed s { s with ports := p }
  | marks (m : Table Mark) (keys : m.keys = s.marks.keys) : Deed s { s with marks := m }
  | evac (e : EvacInput) : Deed s { s with evac := e }
  | frames (frames : List SupOut) : Deed s { s with floor := { s.floor with supTx := frames } }
  | fleetCount (c : FleetCounters) (counts : FleetCountersKept s.floor.fleetCounters → FleetCountersKept c) :
      Deed s { s with floor := { s.floor with fleetCounters := c } }
  | misses (g : Scrubber → Nat) :
      Deed s { s with floor := { s.floor with
        machines := s.floor.machines.each fun _ x => { x with misses := g x } } }
  | notices (ceiling : Nat) (g : Nat → Notice → Notice) (kept : ∀ n r, NoticeKept r → NoticeKept (g n r)) :
      Deed s { s with
        floor := ({ s.floor with ceiling := ceiling, notices := s.floor.notices.each g } : Floor).sendAllDue }
  | endNight (home : s.floor.awayFromHome = none) : Deed s s.endNight
  | cellDefine (es : List CellEntry) (mode : s.control.mode = .standby) (passed : s.floor.cellChecks es = none) :
      Deed s { s with floor := es.foldl Floor.applyEntry s.floor }
  | laneDefine (l : Nat) (cs : List Nat) (passed : s.floor.laneChecks l cs = none) :
      Deed s { s with floor := s.floor.defineLane l cs }
  | lineSetup (i : Nat) (cfg : LineConfig) : Deed s { s with floor := s.floor.setupLine s.control i cfg }
  | enroll (m rank dock : Nat) (z : Cell) (slot : isSlot m = true) (absent : s.floor.machines.look m = none)
      (known : s.floor.cells.look dock = some z) (free : z.occ = .free) (embargo : z.embargo = 0) :
      Deed s { s with floor := s.floor.enroll m rank dock }
  | withdraw (m : Nat) (x : Scrubber) (known : s.floor.machines.look m = some x) :
      Deed s { s with floor := s.floor.withdraw s.control m }
  | fleetReset (mode : s.control.mode = .standby) : Deed s s.fleetReset
  | fullReset : Deed s { State.reset with pending := s.pending }
  | resetHeld : Deed s { s with resetHeld := true, floor := s.floor.openOutputs }
  | powerLoss : Deed s { s with powered := false, floor := s.floor.openOutputs }

/-- A run of deeds. -/
def Deeds : State → State → Prop := Relation.ReflTransGen Deed

namespace Deeds

variable {s t u : State}

theorem refl : Deeds s s := Relation.ReflTransGen.refl

theorem single (d : Deed s t) : Deeds s t := Relation.ReflTransGen.single d

theorem trans (a : Deeds s t) (b : Deeds t u) : Deeds s u := Relation.ReflTransGen.trans a b

/-- `trans`, the last deeds first. -/
theorem after (b : Deeds t u) (a : Deeds s t) : Deeds s u := a.trans b

theorem work {g : Floor} (w : Work s g) : Deeds s { s with floor := g } := .single (.work w)

/-- Control changes that leave mode, zones' numbers and drying settings alone, or enter another mode than STANDBY. -/
theorem control (g : Control → Control) (mode : (g s.control).mode = .standby → s.control.mode = .standby)
    (zones : (g s.control).zones.keys = s.control.zones.keys) (drying : (g s.control).drying = s.control.drying) :
    Deeds s (s.onControl g) :=
  .single (.control _ mode zones fun h => by unfold DryingKept at h ⊢; simpa only [drying] using h)

/-- A change of the ports' bytes, flashes and held records that takes no room and moves no supervisory counter. -/
theorem ports (p : Ports) (counts : SupCountersKept s.ports.supCounters → SupCountersKept p.supCounters)
    (room : QueuesKept s → QueuesKept { s with ports := p }) : Deeds s { s with ports := p } :=
  .single (.ports p counts room)

theorem supCount (g : SupCounters → SupCounters) (counts : ∀ c, SupCountersKept c → SupCountersKept (g c)) :
    Deeds s (s.supCount g) := ports _ (counts _) id

theorem fleetCount (g : FleetCounters → FleetCounters) (counts : ∀ c, FleetCountersKept c → FleetCountersKept (g c)) :
    Deeds s (s.fleetCount g) := .single (.fleetCount _ (counts _))

theorem takeFrame (s : State) : Deeds s s.takeFrame :=
  (ports (s := s) { s.ports with cmdQueue := s.ports.cmdQueue.tail } id (worked_takeFrame s).queues).trans
    (.single (.frames _))

theorem reply (kind ref : Byte) (status : Status) (data : ReplyData) (s : State) :
    Deeds s (s.reply kind ref status data) := .single (.frames _)

theorem takeRecord (s : State) : Deeds s s.takeRecord := ports _ id (worked_takeRecord s).queues

/-- Work done one item after the other is a run of deeds. -/
theorem workEach {op : Control → Floor → Nat → Floor} (h : ∀ (s : State) (b : Nat), Work s (op s.control s.floor b))
    (xs : List Nat) (s : State) : Deeds s { s with floor := xs.foldl (op s.control) s.floor } := by
  induction xs generalizing s with
  | nil => exact .refl
  | cons x xs ih => exact (work (h s x)).trans (ih { s with floor := op s.control s.floor x })

end Deeds

/-! ### Commands and records -/

theorem deeds_turn {b : Bool} {s t u : State} (h : Deeds s u)
    (e : (Host.Outcome.next (if b then u else s) : Machine.Result) = .next t) : Deeds s t := by
  cases e
  split
  · exact h
  · exact .refl

theorem deeds_event {g : State → State} {s t : State} (h : Deeds s (g s)) (e : event g s = .next t) : Deeds s t :=
  deeds_turn h e

theorem deeds_command {kind ref : Byte} {body : List Byte} {act : Action} {s t : State}
    (h : ∀ s, Deeds s (act s).1) (e : command kind ref body act s = .next t) : Deeds s t :=
  deeds_turn (((Deeds.takeFrame s).trans (h s.takeFrame)).trans (Deeds.reply _ _ _ _ _)) e

theorem deeds_badLength (s : State) : Deeds s (badLength s).1 :=
  .supCount (fun c => { c with lengths := bump c.lengths }) fun _ ⟨a, b, c, d, e, f⟩ => ⟨a, b, c, d, e, bump_le _ f⟩

theorem deeds_withoutBody {body : List Byte} {act : Action} (h : ∀ s, Deeds s (act s).1) (s : State) :
    Deeds s (withoutBody body act s).1 := by
  unfold withoutBody
  split
  · exact h s
  · exact deeds_badLength s

theorem deeds_unit {known : Prop} [Decidable known] {g : State → State} {fault : Fault} {s t : State}
    (e : (if known then event g s else .fault fault) = .next t) (h : Deeds s (g s)) : Deeds s t := by
  split at e
  · exact deeds_event h e
  · cases e

/-- An expiry moves the time base and does the work of its timer. -/
theorem deeds_expire {deadline : Option Nat} {g : Control → Floor → Floor} {s : State}
    (h : ∀ t, deadline = some t → Work (s.advanceTo t) (g (s.advanceTo t).control s.floor)) :
    Deeds s (s.expire deadline g) := by
  unfold State.expire
  split
  · next t => exact .after (.work (h t rfl)) (.control _ id rfl rfl)
  · exact .refl

theorem deeds_stray (s : State) : Deeds s s.stray :=
  .fleetCount (fun c => { c with strays := bump c.strays })
    fun _ ⟨a, b, c, d, e, f, g, h⟩ => ⟨a, b, c, d, e, f, bump_le _ g, h⟩

theorem deeds_unknownRecord (s : State) : Deeds s s.unknownRecord :=
  .fleetCount (fun c => { c with unknown := bump c.unknown })
    fun _ ⟨a, b, c, d, e, f⟩ => ⟨a, b, c, d, bump_le _ e, f⟩

/-- A record: the work of its owners for a known machine that is not LOST, a mark that it was heard, or a count. -/
theorem deeds_record {kind slot : Byte} {body : List Byte} {parsed valid : Option (State → State)} {s t : State}
    (act : ∀ a, parsed = some a → valid = none → ∀ x, s.floor.machines.look slot.toNat = some x → x.state ≠ .lost →
      Deeds s.takeRecord (a s.takeRecord))
    (failed : ∀ a, valid = some a → Deeds s.takeRecord (a s.takeRecord))
    (e : machineRecord kind slot body parsed valid s = .next t) : Deeds s t := by
  refine deeds_turn (Deeds.after ?_ (Deeds.takeRecord s)) e
  simp only
  split
  · exact .fleetCount (fun c => { c with lengths := bump c.lengths })
      fun _ ⟨a, b, c, d, e, f, g⟩ => ⟨a, b, c, d, e, bump_le _ f, g⟩
  · next a =>
    split
    · exact deeds_stray _
    · split
      · exact deeds_stray _
      · next x known =>
        split
        · next g => exact failed g rfl
        · split
          · exact .work (.heard _)
          · next found => exact act a rfl rfl x known found

/-! ### The part's own work -/

theorem deeds_offerCells (cs : List Nat) (s : State) : Deeds s (s.onFloor fun k f => f.offerCells k cs) :=
  .workEach (op := Floor.offerCell) (fun _ _ => .offerCell _) cs s

theorem deeds_zone (z : Nat) (b : Bool) (s : State) :
    Deeds s (s.onControl fun k => { k with zones := k.zones.upd z fun _ => b }) := by
  have keys := Table.keys_upd s.control.zones z fun _ => b
  exact .control _ id keys rfl

theorem deeds_openZone (z : Nat) (s : State) : Deeds s (s.openZone z) := by
  unfold State.openZone
  split
  · exact .refl
  · exact .after (deeds_offerCells _ _) (deeds_zone z true s)

theorem deeds_enterRecall (r : RecallReason) (o : Option Nat) (s : State) : Deeds s (s.enterRecall r o) := by
  have entered : Deeds s (s.onControl fun k => { k with mode := .recalling, recallReason := some r, silence := none }) :=
    .control _ nofun rfl rfl
  unfold State.enterRecall
  simp only
  split
  · exact entered
  · exact entered.trans (.work (.raise _ _ _))

theorem deeds_takeAction (i : Nat) (a : MarkAction) (s : State) : Deeds s (s.takeAction i a) := by
  cases a with
  | zoneClose z => exact deeds_zone z false s
  | zoneOpen z => exact deeds_openZone z s
  | recalling =>
    simp only [State.takeAction]
    split
    · exact deeds_enterRecall _ _ s
    · exact .refl
  | noticeOnly => exact .refl

theorem deeds_fireMark (s : State) (i : Nat) : Deeds s (s.fireMark i) := by
  unfold State.fireMark
  split
  · next time action _ =>
    have fired : Deeds s { s with marks := s.marks.upd i fun _ => .fired time action } := .single (.marks _ (by simp))
    exact .after (deeds_takeAction _ _ _) (fired.trans (.work (.raise _ _ _)))
  · exact .refl

theorem deeds_fireMarks (is : List Nat) (s : State) : Deeds s (s.fireMarks is) := by
  unfold State.fireMarks
  induction is generalizing s with
  | nil => exact .refl
  | cons i is ih => exact (deeds_fireMark s i).trans (ih _)

theorem deeds_clockTick (s : State) : Deeds s s.clockTick := by
  have advanced (t : Nat) : Deeds s ((s.advanceTo t).onControl fun k => { k with clockDue := k.clockDue + 1000 }) :=
    .control (s := s) (fun k => { k with now := max k.now t, clockDue := k.clockDue + 1000 }) id rfl rfl
  unfold State.clockTick
  split
  · simp only
    split
    · exact .after (deeds_fireMarks _ _) ((advanced _).trans (.control _ id rfl rfl))
    · exact advanced _
  · exact .refl

theorem deeds_addHalts (r : HaltReason) (ms : List Nat) (s : State) :
    Deeds s { s with floor := ms.foldl (Floor.addHalt s.control r) s.floor } :=
  .workEach (op := fun k f m => f.addHalt k r m) (fun _ _ => .addHalt _ _) ms s

theorem deeds_removeHalts (r : HaltReason) (other : r ≠ .position) (ms : List Nat) (s : State) :
    Deeds s { s with floor := ms.foldl (Floor.removeHalt s.control r) s.floor } :=
  .workEach (op := fun k f m => f.removeHalt k r m) (fun _ _ => .removeHalt _ _ other) ms s

theorem deeds_enterEvacuation (saved : SavedMode) (s : State) : Deeds s (s.enterEvacuation saved) :=
  .after (deeds_addHalts .evac _ _) (.control (fun k => { k with mode := .evacuation, saved := some saved, silence := none })
    nofun rfl rfl)

theorem deeds_evacEdge (active : Bool) (s : State) : Deeds s (s.evacEdge active) := by
  have raised (r : Option NoticeReason) : Deeds s (s.onFloor fun k f => f.raise k .evacuation none r) :=
    .work (.raise _ _ _)
  cases active
  · exact raised _
  · unfold State.evacEdge
    simp only [if_true]
    split
    · exact (raised _).trans (deeds_enterEvacuation _ _)
    · exact (raised _).trans (deeds_enterEvacuation _ _)
    · exact raised _

theorem deeds_sampleEvac (flow : Bool) (s : State) : Deeds s (s.sampleEvac flow) := by
  unfold State.sampleEvac
  simp only
  split
  · exact .single (.evac _)
  · exact .after (deeds_evacEdge _ _) (.single (.evac _))

theorem deeds_evacEdgeEvent (active : Bool) (s : State) : Deeds s (s.evacEdgeEvent active) := by
  unfold State.evacEdgeEvent
  split
  · exact .refl
  · exact .after (deeds_evacEdge _ _) (.single (.evac _))

theorem deeds_beginNight (s : State) : Deeds s s.beginNight := by
  have begun : Deeds s ((s.onControl fun k =>
      { k with mode := .night, clock := 0, clockRunning := true, clockDue := k.now + 1000 }).onControl
        Control.openZones) := by
    have keys := Table.keys_each s.control.zones fun _ _ => true
    exact .control (s := s) (fun k => Control.openZones
      { k with mode := .night, clock := 0, clockRunning := true, clockDue := k.now + 1000 }) nofun keys rfl
  have offered := begun.trans (deeds_offerCells s.floor.cells.keys _)
  have rearmed := offered.trans (.single (.marks (s.marks.each fun _ m => m.rearmed) (Table.keys_each _ _)))
  have opened := rearmed.trans (.work .beginNight)
  exact (opened.trans (.control Control.startSilence id rfl rfl)).trans (deeds_fireMarks _ _)

theorem deeds_resumeAll (saved : SavedMode) (s : State) : Deeds s (s.resumeAll saved) := by
  have left : Deeds s (s.onControl fun k => { k with mode := saved.mode, saved := none }) :=
    .control (fun k => { k with mode := saved.mode, saved := none }) (fun standby => by cases saved <;> cases standby)
      rfl rfl
  unfold State.resumeAll
  have offered (s : State) : Deeds s (s.onFloor Floor.offerEverything) :=
    (deeds_offerCells s.floor.cells.keys s).trans (.workEach (op := Floor.offerLane) (fun _ _ => .offerLane _) _ _)
  have resumed (s : State) :
      Deeds s (s.onFloor fun k f => f.machines.keys.foldl (Floor.removeHalt k .evac) f) :=
    deeds_removeHalts .evac nofun s.floor.machines.keys s
  refine .after (offered _) (.after (resumed _) ?_)
  split
  · exact left.trans (.control Control.startSilence id rfl rfl)
  · exact left

theorem deeds_nightRecall (s : State) : Deeds s (State.nightRecall s).1 := by
  unfold State.nightRecall
  split
  · exact .refl
  · exact deeds_enterRecall .host none s
  · exact .control (fun k => { k with saved := some .recalling, recallReason := some .host }) id rfl rfl
  · exact .refl
  · exact .refl

theorem deeds_nightContinue (s : State) : Deeds s (State.nightContinue s).1 := by
  have attempted (s : State) : Deeds s (s.onFloor Floor.attemptAll) :=
    .workEach (op := fun k f m => f.attempt k true m) (fun _ _ => .attempt _) _ s
  unfold State.nightContinue
  split
  · exact .refl
  · exact .after (attempted _) (.after (.control Control.startSilence id rfl rfl) (.control _ nofun rfl rfl))
  · exact .after (attempted _) (.control _ id rfl rfl)
  · exact .refl
  · exact .refl

theorem deeds_clockSet (v : Nat) (s : State) : Deeds s (State.clockSet v s).1 := by
  unfold State.clockSet
  split
  · exact .refl
  · split
    · exact .refl
    · exact .after (deeds_fireMarks _ _) (.control _ id rfl rfl)

theorem deeds_zoneCommand {z : Nat} {g : State → State} (h : ∀ s, Deeds s (g s)) (s : State) :
    Deeds s (State.zoneCommand z g s).1 := by
  unfold State.zoneCommand
  split
  · exact .refl
  · split
    · exact h s
    · exact .refl

/-! ### Setting up -/

theorem deeds_cellDefine (es : List CellEntry) (s : State) : Deeds s (State.cellDefine es s).1 := by
  unfold State.cellDefine
  split
  · exact .refl
  next mode =>
  split
  · exact .refl
  split
  · exact .refl
  next passed => exact .single (.cellDefine es (not_not.1 mode) passed)

theorem deeds_laneDefine (l : Nat) (cs : List Nat) (s : State) : Deeds s (State.laneDefine l cs s).1 := by
  unfold State.laneDefine
  split
  · exact .refl
  split
  · exact .refl
  · exact .refl
  next passed => exact .single (.laneDefine l cs passed)

theorem deeds_lineSetup (i : Nat) (cfg : Option LineConfig) (s : State) : Deeds s (State.lineSetup i cfg s).1 := by
  unfold State.lineSetup
  split
  · exact .refl
  split
  · exact .refl
  split
  · exact .single (.lineSetup i _)
  · exact .refl

theorem deeds_replaceTiming (settings : Timing) (s : State) : Deeds s (s.replaceTiming settings) := by
  have missed (changed : Bool) (x : Scrubber) :
      (if changed && decide (x.state = .lost) then { x with misses := settings.lostThreshold } else x) =
        { x with misses := if changed && decide (x.state = .lost) then settings.lostThreshold else x.misses } := by
    split <;> rfl
  unfold State.replaceTiming
  simp only [missed]
  exact .after (.single (.evac _)) (.after (.single (.misses _)) (.control (fun k => { k with timing := settings })
    id rfl rfl))

theorem deeds_timingSetup (settings : Timing) (s : State) : Deeds s (State.timingSetup settings s).1 := by
  unfold State.timingSetup
  split
  · exact .refl
  split
  · exact .refl
  · exact deeds_replaceTiming settings s

theorem deeds_enroll (m rank dock : Nat) (s : State) : Deeds s (State.enroll m rank dock s).1 := by
  unfold State.enroll
  split
  · exact .refl
  split
  · exact .refl
  next fields =>
  split
  · exact .refl
  next absent =>
  split
  · exact .refl
  next z known =>
  split
  · exact .refl
  split
  · next free =>
    simp only [not_or, Bool.not_eq_false] at fields
    exact .single (.enroll m rank dock z fields.1 (by simpa using absent) known free.1 free.2)
  · exact .refl

/-- R51 keeps the settings in their ranges: each part is taken whole, within its limits. -/
theorem dryingKept_replace {s : State} {classes : Option (List Nat)} {limits : Option Limits}
    (sound : dryingFault classes limits = none) (eight : ∀ bs, classes = some bs → bs.length = 8) (kept : DryingKept s) :
    DryingKept { s with control := { s.control with drying := s.control.drying.replace classes limits } } := by
  unfold DryingKept at kept ⊢
  obtain ⟨length, ranges, low, lowSet, high, highSet, top, rest⟩ := kept
  unfold dryingFault at sound
  split at sound
  · cases sound
  next inRange =>
  have base : (classes.getD s.control.drying.base).length = 8 ∧
      ∀ b ∈ classes.getD s.control.drying.base, 30 ≤ b ∧ b ≤ 3600 := by
    cases classes with
    | none => exact ⟨length, ranges⟩
    | some bs => exact ⟨eight bs rfl, fun b hb => by simpa using List.findIdx?_eq_none_iff.1 inRange b hb⟩
  cases limits with
  | none => exact ⟨base.1, base.2, low, lowSet, high, highSet, top, rest⟩
  | some p =>
    have fit : p.fit = true := by
      by_contra unfit
      simp [unfit] at sound
    simp only [Limits.fit, Bool.and_eq_true, decide_eq_true_eq] at fit
    obtain ⟨⟨⟨⟨⟨⟨⟨one, -⟩, -⟩, -⟩, a⟩, b⟩, c⟩, d⟩ := fit
    exact ⟨base.1, base.2, one, a, b, c, d, rest⟩

theorem deeds_dryingSetup (classes : Option (List Nat)) (limits : Option Limits)
    (eight : ∀ bs, classes = some bs → bs.length = 8) (s : State) : Deeds s (State.dryingSetup classes limits s).1 := by
  unfold State.dryingSetup
  split
  · exact .refl
  next sound => exact .single (.control _ id rfl (dryingKept_replace sound eight))

theorem length_be16s (bytes : List Byte) (n : Nat) (h : bytes.length = 2 * n) : (be16s bytes).length = n := by
  induction n generalizing bytes with
  | zero => cases bytes with
    | nil => rfl
    | cons => simp at h
  | succ n ih =>
    match bytes with
    | [] => simp at h
    | [_] => simp at h; omega
    | _ :: _ :: rest => simp only [be16s, List.length_cons] at h ⊢; rw [ih rest (by omega)]

theorem deeds_environmentSet (humidity : Option Nat) (temperature : Option Int) (s : State) :
    Deeds s (State.environmentSet humidity temperature s).1 := by
  refine .single (.control _ id rfl fun kept => ?_)
  unfold DryingKept at kept ⊢
  obtain ⟨length, ranges, low, lowSet, high, highSet, top, wet, cold, hot⟩ := kept
  refine ⟨length, ranges, low, lowSet, high, highSet, top, ?_, ?_⟩
  · cases humidity with
    | none => exact wet
    | some h => exact Nat.min_le_right h 100
  · cases temperature with
    | none => exact ⟨cold, hot⟩
    | some t =>
      simp only [Option.map_some, Option.getD_some, clampTemperature]
      split
      · omega
      · split <;> omega

theorem deeds_noticeControl (mask : BitVec 16) (ceiling : Nat) (s : State) :
    Deeds s (State.noticeControl mask ceiling s).1 := by
  unfold State.noticeControl
  split
  · exact .refl
  · refine .single (.notices _ _ fun n r kept => ⟨kept.1, fun clear => ?_⟩)
    rw [kept.2 clear]

theorem deeds_noticeClear (named : Nat → Bool) (s : State) : Deeds s (State.noticeClear named s).1 := by
  refine .single (.notices s.floor.ceiling _ fun n r kept => ?_)
  split
  · exact ⟨nofun, fun _ => rfl⟩
  · exact kept

theorem deeds_machineWithdraw (m : Nat) (s : State) : Deeds s (State.machineWithdraw m s).1 := by
  unfold State.machineWithdraw
  split
  · exact .refl
  split
  · exact .refl
  next x known =>
  split
  · exact .single (.withdraw m x known)
  · exact .refl

/-! ### Legs and machines -/

theorem deeds_legLoad (a : LegFields) (s : State) : Deeds s (State.legLoad a s).1 := by
  unfold State.legLoad
  split
  · exact .refl
  next passed => exact .work (.loadLeg a passed)

theorem deeds_legCancel (m : Nat) (all : Option Bool) (s : State) : Deeds s (State.legCancel m all s).1 := by
  unfold State.legCancel
  split
  · exact .refl
  split
  · exact .refl
  split
  · exact .refl
  split
  · exact .refl
  split
  · exact .refl
  · exact .work (.cancelLeg _ _)

theorem deeds_machineHalt (slot : Byte) (s : State) : Deeds s (State.machineHalt slot s).1 := by
  unfold State.machineHalt
  split
  · exact .refl
  · exact deeds_addHalts .host _ s

theorem deeds_machineResume (slot : Byte) (s : State) : Deeds s (State.machineResume slot s).1 := by
  unfold State.machineResume
  split
  · exact .refl
  · exact deeds_removeHalts .host nofun _ s

theorem deeds_machineRestore (m c : Nat) (s : State) : Deeds s (State.machineRestore m c s).1 := by
  unfold State.machineRestore
  split
  · exact .refl
  next passed => exact .work (.restore m c passed)

theorem deeds_writeMark (i : Nat) (m : Mark) (s : State) : Deeds s (State.writeMark i m s).1 := by
  unfold State.writeMark
  split
  · exact .single (.marks _ (by simp))
  · exact .refl

theorem deeds_markSet (i time : Nat) (action : Option MarkAction) (s : State) :
    Deeds s (State.markSet i time action s).1 := by
  unfold State.markSet
  split
  · split
    · exact deeds_writeMark _ _ s
    · exact .refl
  · exact .refl

/-! ### The ports -/

theorem deeds_supFrame (fr : Frame) (s : State) : Deeds s (s.supFrame fr) := by
  unfold State.supFrame
  split
  · have flashed : Deeds s { s with ports := { s.ports with hostFlashes := s.ports.hostFlashes + 1 } } := .ports _ id id
    have silence (s : State) : Deeds s (if s.control.silence.isSome then s.onControl Control.startSilence else s) := by
      split
      · exact .control _ id rfl rfl
      · exact .refl
    have joined (s : State) : Deeds s (if s.ports.cmdQueue.length < Config.commandQueueRoom then
        { s with ports := { s.ports with cmdQueue := s.ports.cmdQueue ++ [⟨fr.kind, fr.ref, fr.body⟩] } }
      else s.supCount fun c => { c with overruns := bump c.overruns }) := by
      split
      · next room =>
        refine .ports { s.ports with cmdQueue := s.ports.cmdQueue ++ [⟨fr.kind, fr.ref, fr.body⟩] } id
          fun q => ⟨?_, q.2⟩
        simp only [List.length_append, List.length_singleton]
        exact room
      · exact .supCount (fun c => { c with overruns := bump c.overruns })
          fun _ ⟨a, b, c, d, e⟩ => ⟨a, b, c, bump_le _ d, e⟩
    exact (flashed.trans (silence _)).trans (joined _)
  · exact .supCount (fun c => { c with crc := bump c.crc }) fun _ ⟨a, b, c, d⟩ => ⟨a, b, bump_le _ c, d⟩

theorem deeds_fleetFrame (fr : Frame) (s : State) : Deeds s (s.fleetFrame fr) := by
  unfold State.fleetFrame
  split
  · have flashed : Deeds s { s with ports := { s.ports with fleetFlashes := s.ports.fleetFlashes + 1 } } :=
      .ports _ id id
    have joined (s : State) : Deeds s (if s.ports.fleetQueue.length < Config.fleetQueueRoom then
        { s with ports := { s.ports with fleetQueue := s.ports.fleetQueue ++ [⟨fr.kind, fr.ref, fr.body⟩] } }
      else s.fleetCount fun c => { c with overruns := bump c.overruns }) := by
      split
      · next room =>
        refine .ports { s.ports with fleetQueue := s.ports.fleetQueue ++ [⟨fr.kind, fr.ref, fr.body⟩] } id
          fun q => ⟨q.1, ?_⟩
        simp only [List.length_append, List.length_singleton]
        exact room
      · exact .fleetCount (fun c => { c with overruns := bump c.overruns })
          fun _ ⟨a, b, c, d, e⟩ => ⟨a, b, c, bump_le _ d, e⟩
    exact flashed.trans (joined _)
  · exact .fleetCount (fun c => { c with crc := bump c.crc }) fun _ ⟨a, b, c, d⟩ => ⟨a, b, bump_le _ c, d⟩

theorem deeds_supByte (s : State) (b : Byte) : Deeds s (s.supByte b) := by
  have read (held : List Byte) : Deeds s { s with ports := { s.ports with supReading := held } } := .ports _ id id
  unfold State.supByte
  simp only
  split
  · exact read _
  · exact (read _).trans (.supCount (fun c => { c with framing := bump c.framing }) fun _ ⟨a, b⟩ => ⟨bump_le _ a, b⟩)
  · exact (read _).trans (deeds_supFrame _ _)

theorem deeds_fleetByte (s : State) (b : Byte) : Deeds s (s.fleetByte b) := by
  have read (held : List Byte) : Deeds s { s with ports := { s.ports with fleetReading := held } } := .ports _ id id
  unfold State.fleetByte
  simp only
  split
  · exact read _
  · exact (read _).trans
      (.fleetCount (fun c => { c with framing := bump c.framing }) fun _ ⟨a, b⟩ => ⟨bump_le _ a, b⟩)
  · exact (read _).trans (deeds_fleetFrame _ _)

theorem deeds_supBytes (bytes : List Byte) (s : State) : Deeds s (s.supBytes bytes) := by
  unfold State.supBytes
  induction bytes generalizing s with
  | nil => exact .refl
  | cons b bytes ih => exact (deeds_supByte s b).trans (ih _)

theorem deeds_fleetBytes (bytes : List Byte) (s : State) : Deeds s (s.fleetBytes bytes) := by
  unfold State.fleetBytes
  induction bytes generalizing s with
  | nil => exact .refl
  | cons b bytes ih => exact (deeds_fleetByte s b).trans (ih _)

/-! ### All commands -/

theorem requestCount_le (b : Byte) : requestCount b ≤ 4 := Nat.min_le_right _ _

/-- R89 check 5: a request that is not stray asks for a cell. -/
theorem requestCount_pos {b : Byte} (asks : b ≠ 0#8) : 1 ≤ requestCount b := by
  have : b.toNat ≠ 0 := fun h => asks (BitVec.eq_of_toNat_eq h)
  simp only [requestCount]
  omega

theorem exec_deeds (c : Instr) (s t : State) (e : exec c s = .next t) : Deeds s t := by
  cases c
  case cellDefine r b =>
    refine deeds_command (fun s => ?_) e
    split
    · next count bytes =>
      cases readEntries count.toNat bytes with
      | some es => exact deeds_cellDefine es s
      | none => exact deeds_badLength s
    · exact deeds_badLength s
  case laneDefine r b =>
    refine deeds_command (fun s => ?_) e
    split
    · split
      · exact deeds_laneDefine _ _ s
      · exact deeds_badLength s
    · exact deeds_badLength s
  case lineSetup r b =>
    refine deeds_command (fun s => ?_) e
    split
    · exact deeds_lineSetup _ _ s
    · exact deeds_badLength s
  case timingSetup r b =>
    refine deeds_command (fun s => ?_) e
    split
    · exact .refl
    · cases readTiming b with
      | some settings => exact deeds_timingSetup settings s
      | none => exact deeds_badLength s
  case machineEnroll r b =>
    refine deeds_command (fun s => ?_) e
    split
    · exact deeds_enroll _ _ _ s
    · exact deeds_badLength s
  case fleetReset r b =>
    refine deeds_command (deeds_withoutBody fun s => ?_) e
    split
    · exact .refl
    · next mode => exact .single (.fleetReset (not_not.1 mode))
  case dryingSetup r b =>
    refine deeds_command (fun s => ?_) e
    split
    · next parts bytes =>
      refine iteInduction (motive := fun act : Action => Deeds s (act s).1) (fun length => ?_)
        fun _ => deeds_badLength s
      refine deeds_dryingSetup _ _ (fun bs classes => ?_) s
      split at classes
      · next present =>
        cases classes
        simp only [present, if_true] at length
        exact length_be16s _ 8 (by rw [List.length_take]; omega)
      · cases classes
    · exact deeds_badLength s
  case environmentSet r b =>
    refine deeds_command (fun s => ?_) e
    split
    · exact deeds_environmentSet _ _ s
    · exact deeds_badLength s
  case noticeControl r b =>
    refine deeds_command (fun s => ?_) e
    split
    · exact deeds_noticeControl _ _ s
    · exact deeds_badLength s
  case noticeClear r b =>
    refine deeds_command (fun s => ?_) e
    split
    · split
      · exact deeds_noticeClear _ s
      · split
        · exact deeds_noticeClear _ s
        · exact .refl
    · exact deeds_badLength s
  case machineWithdraw r b =>
    refine deeds_command (fun s => ?_) e
    split
    · exact deeds_machineWithdraw _ s
    · exact deeds_badLength s
  case fullReset => cases e; exact .single .fullReset
  case resetInputHeld => cases e; exact .single .resetHeld
  case powerLoss => cases e; exact .single .powerLoss
  case noticeRead r b => exact deeds_command (deeds_withoutBody fun _ => .refl) e
  case countersRead r b => exact deeds_command (deeds_withoutBody fun _ => .refl) e
  case mapCheck r b => exact deeds_command (deeds_withoutBody fun _ => .refl) e
  case nightRecall r b => exact deeds_command (deeds_withoutBody deeds_nightRecall) e
  case nightContinue r b => exact deeds_command (deeds_withoutBody deeds_nightContinue) e
  case nightBegin r b =>
    refine deeds_command (deeds_withoutBody fun s => ?_) e
    split
    · exact .refl
    split
    · exact .refl
    split
    · exact .refl
    · exact deeds_beginNight s
  case nightEnd r b =>
    refine deeds_command (deeds_withoutBody fun s => ?_) e
    split
    · exact .refl
    split
    · exact .refl
    · next home => exact .single (.endNight home)
  case resumeAll r b =>
    refine deeds_command (deeds_withoutBody fun s => ?_) e
    unfold State.resumeAllCommand
    split
    · exact .refl
    split
    · exact .refl
    · exact deeds_resumeAll _ s
  case cellRead r b =>
    refine deeds_command (fun s => ?_) e
    split
    · unfold State.cellRead
      split
      · exact .refl
      · split <;> exact .refl
    · exact deeds_badLength s
  case machineRead r b =>
    refine deeds_command (fun s => ?_) e
    split
    · unfold State.machineRead
      split
      · exact .refl
      · split <;> exact .refl
    · exact deeds_badLength s
  case laneRead r b =>
    refine deeds_command (fun s => ?_) e
    split
    · unfold State.laneRead
      split
      · split <;> exact .refl
      · exact .refl
    · exact deeds_badLength s
  case lineRead r b =>
    refine deeds_command (fun s => ?_) e
    split
    · unfold State.lineRead
      split
      · exact .refl
      · split <;> exact .refl
    · exact deeds_badLength s
  case markSet r b =>
    refine deeds_command (fun s => ?_) e
    split
    · exact deeds_markSet _ _ _ s
    · exact deeds_badLength s
  case markClear r b =>
    refine deeds_command (fun s => ?_) e
    split
    · exact deeds_writeMark _ _ s
    · exact deeds_badLength s
  case clockSet r b =>
    refine deeds_command (fun s => ?_) e
    split
    · exact deeds_clockSet _ s
    · exact deeds_badLength s
  case legLoad r b =>
    refine deeds_command (fun s => ?_) e
    split
    · split
      · exact deeds_legLoad _ s
      · exact deeds_badLength s
    · exact deeds_badLength s
  case legCancel r b =>
    refine deeds_command (fun s => ?_) e
    split
    · exact deeds_legCancel _ _ s
    · exact deeds_badLength s
  case machineHalt r b =>
    refine deeds_command (fun s => ?_) e
    split
    · exact deeds_machineHalt _ s
    · exact deeds_badLength s
  case machineResume r b =>
    refine deeds_command (fun s => ?_) e
    split
    · exact deeds_machineResume _ s
    · exact deeds_badLength s
  case machineRestore r b =>
    refine deeds_command (fun s => ?_) e
    split
    · exact deeds_machineRestore _ _ s
    · exact deeds_badLength s
  case zoneClose r b =>
    refine deeds_command (fun s => ?_) e
    split
    · exact deeds_zoneCommand (g := State.closeZone _) (deeds_zone _ false) s
    · exact deeds_badLength s
  case zoneOpen r b =>
    refine deeds_command (fun s => ?_) e
    split
    · exact deeds_zoneCommand (deeds_openZone _) s
    · exact deeds_badLength s
  case supervisoryUnknownKind k r b =>
    simp only [exec, execSupervisoryUnknownKind] at e
    split at e
    · cases e
    · exact deeds_command (act := unknownKind)
        (fun s => .supCount (fun c => { c with unknown := bump c.unknown })
          fun _ ⟨a, b, c, d, e, f⟩ => ⟨a, b, c, d, bump_le _ e, f⟩) e
  case supervisoryFrame fr => exact deeds_event (deeds_supBytes _ _) e
  case supervisoryGapTimeout =>
    simp only [exec, execSupervisoryGapTimeout] at e
    refine deeds_event ?_ e
    split
    · exact .refl
    · exact .after (.supCount (fun c => { c with framing := bump c.framing }) fun _ ⟨a, b⟩ => ⟨bump_le _ a, b⟩)
        (.ports { s.ports with supReading := [] } id id)
  case supervisoryBreak =>
    refine deeds_event (g := fun s => s.supAbandon.supCount fun c => { c with breaks := bump c.breaks }) ?_ e
    exact .after (.supCount (fun c => { c with breaks := bump c.breaks }) fun _ ⟨a, b, c⟩ => ⟨a, bump_le _ b, c⟩)
      (.ports { s.ports with supReading := [] } id id)
  case fleetFrame fr => exact deeds_event (deeds_fleetBytes _ _) e
  case fleetGapTimeout =>
    simp only [exec, execFleetGapTimeout] at e
    refine deeds_event ?_ e
    split
    · exact .refl
    · exact .after (.fleetCount (fun c => { c with framing := bump c.framing }) fun _ ⟨a, b⟩ => ⟨bump_le _ a, b⟩)
        (.ports { s.ports with fleetReading := [] } id id)
  case fleetBreak =>
    refine deeds_event (g := fun s => s.fleetAbandon.fleetCount fun c => { c with breaks := bump c.breaks }) ?_ e
    exact .after (.fleetCount (fun c => { c with breaks := bump c.breaks }) fun _ ⟨a, b, c⟩ => ⟨a, bump_le _ b, c⟩)
      (.ports { s.ports with fleetReading := [] } id id)
  case fleetUnknownKind k r b =>
    simp only [exec, execFleetUnknownKind] at e
    split at e
    · cases e
    · exact deeds_turn (.after (deeds_unknownRecord _) (.takeRecord s)) e
  case beacon sl b =>
    unfold exec execBeacon at e
    refine deeds_record (valid := none) ?_ (fun _ h => nomatch h) e
    split
    · rintro _ ⟨⟩ - x known found; exact .work (.beacon _ _ _)
    · exact fun _ h => nomatch h
  case arrive sl b =>
    unfold exec execArrive at e
    refine deeds_record (valid := none) ?_ (fun _ h => nomatch h) e
    split
    · rintro _ ⟨⟩ - x known found; exact .work (.arrive _ _ _ x known found (requestCount_le _))
    · exact fun _ h => nomatch h
  case request sl b =>
    unfold exec execRequest at e
    refine deeds_record ?_ ?_ e
    · split
      · next count =>
        rintro _ ⟨⟩ valid x known found
        have asks : count ≠ 0#8 := by rintro rfl; simp at valid
        exact .work (.request _ _ (requestCount_pos asks) (requestCount_le _))
      · exact fun _ h => nomatch h
    · split
      · rintro _ ⟨⟩; exact deeds_stray _
      · exact fun _ h => nomatch h
  case ack sl b =>
    unfold exec execAck at e
    refine deeds_record ?_ ?_ e
    · split
      · rintro _ ⟨⟩ - x known found; exact .work (.ack _ _ _ _ x known found)
      · exact fun _ h => nomatch h
    · split
      · exact fun _ h => nomatch h
      · rintro _ ⟨⟩; exact deeds_unknownRecord _
  case faultStop sl b =>
    unfold exec execFaultStop at e
    refine deeds_record ?_ ?_ e
    · split
      · rintro _ ⟨⟩ - x known found; exact .work (.faultStop _ _ x known found)
      · exact fun _ h => nomatch h
    · split
      · rintro _ ⟨⟩; exact deeds_stray _
      · exact fun _ h => nomatch h
  case restart sl b =>
    unfold exec execRestart at e
    refine deeds_record (valid := none) ?_ (fun _ h => nomatch h) e
    split
    · rintro _ ⟨⟩ - x known found; exact .work (.restart _)
    · exact fun _ h => nomatch h
  case hostSilenceExpiry =>
    refine deeds_event ?_ e
    unfold State.silenceExpiry
    split
    · exact .after (deeds_enterRecall _ _ _) (.control _ id rfl rfl)
    · exact .refl
  case clockAdvance => exact deeds_event (deeds_clockTick s) e
  case evacuationActiveEdge => exact deeds_event (deeds_evacEdgeEvent true s) e
  case evacuationInactiveEdge => exact deeds_event (deeds_evacEdgeEvent false s) e
  case inputSample i flow =>
    simp only [exec, execInputSample] at e
    split at e
    · exact deeds_event (.work (.sample _ _)) e
    · exact deeds_unit e (deeds_sampleEvac _ _)
  case fleetFrameSent m => exact deeds_unit e (.work (.frameSent _))
  case replyWindowExpiry m => exact deeds_unit e (deeds_expire fun t _ => .replyExpiry (s := s.advanceTo t) _)
  case beaconTimerExpiry m => exact deeds_unit e (deeds_expire fun t _ => .beaconExpiry (s := s.advanceTo t) _)
  case progressTimerExpiry m => exact deeds_unit e (deeds_expire fun t runs => .stall (s := s.advanceTo t) _ _ runs)
  case guardExpiry c => exact deeds_unit e (deeds_expire fun t runs => .freeCell (s := s.advanceTo t) _ _ (.inl runs))
  case wetExpiry c => exact deeds_unit e (deeds_expire fun t runs => .freeCell (s := s.advanceTo t) _ _ (.inr runs))
  case filteredActiveEdge i => exact deeds_unit e (.work (.activeEdge _))
  case filteredInactiveEdge i => exact deeds_unit e (.work (.inactiveEdge _))
  case lineStuck i flow => exact deeds_unit e (.work (.stuck _ _))
  case holdExpiry i => exact deeds_unit e (deeds_expire fun t _ => .holdExpiry (s := s.advanceTo t) _)
  case clearOutExpiry i => exact deeds_unit e (deeds_expire fun t runs => .breach (s := s.advanceTo t) _ _ runs)

/-- What every deed keeps, and a new front of the queue leaves alone, every step keeps. -/
theorem step_keeps_of_deeds {P : State → Prop} (queue : ∀ (s : State) rest, P s → P { s with pending := rest })
    (keeps : ∀ s t, P s → Deed s t → P t) {s t : State} (h : P s) (e : step s = .next t) : P t := by
  have run {s t : State} (start : P s) (d : Deeds s t) : P t := d.head_induction_on
    (motive := fun s _ => P s → P t) id (fun first _ ih start => ih (keeps _ _ start first)) start
  exact step_keeps queue (fun s h => run h (.control _ id rfl rfl)) (fun c s t h e => run h (exec_deeds c s t e)) h e

end Sys2Proof.Laws
end

section
/-! ## What each operation over the floor leaves alone

One frame for each operation, and from it one lemma for each field that stands. -/

namespace Sys2Proof.Laws

open Sys2Proof Sys2Proof.Machine Sys2Proof.Safety

theorem sendIfDue_frame (f : Floor) (n : Nat) : f.sendIfDue n =
    { f with notices := (f.sendIfDue n).notices, supTx := (f.sendIfDue n).supTx } := by
  unfold Floor.sendIfDue
  split
  · rfl
  · split <;> rfl

@[simp] theorem sendIfDue_cells (f : Floor) (n : Nat) : (f.sendIfDue n).cells = f.cells := by
  rw [sendIfDue_frame]
@[simp] theorem sendIfDue_lanes (f : Floor) (n : Nat) : (f.sendIfDue n).lanes = f.lanes := by
  rw [sendIfDue_frame]
@[simp] theorem sendIfDue_machines (f : Floor) (n : Nat) : (f.sendIfDue n).machines = f.machines := by
  rw [sendIfDue_frame]
@[simp] theorem sendIfDue_lines (f : Floor) (n : Nat) : (f.sendIfDue n).lines = f.lines := by
  rw [sendIfDue_frame]
@[simp] theorem sendIfDue_fleetTx (f : Floor) (n : Nat) : (f.sendIfDue n).fleetTx = f.fleetTx := by
  rw [sendIfDue_frame]
@[simp] theorem sendIfDue_fleetCounters (f : Floor) (n : Nat) : (f.sendIfDue n).fleetCounters = f.fleetCounters := by
  rw [sendIfDue_frame]
@[simp] theorem sendIfDue_ceiling (f : Floor) (n : Nat) : (f.sendIfDue n).ceiling = f.ceiling := by
  rw [sendIfDue_frame]

theorem raise_frame (k : Control) (f : Floor) (cls : NoticeClass) (s : Option Nat) (r : Option NoticeReason) : f.raise k cls s r =
    { f with notices := (f.raise k cls s r).notices, supTx := (f.raise k cls s r).supTx } := by
  unfold Floor.raise
  rw [sendIfDue_frame]

@[simp] theorem raise_cells (k : Control) (f : Floor) (cls : NoticeClass) (s : Option Nat) (r : Option NoticeReason) : (f.raise k cls s r).cells = f.cells := by
  rw [raise_frame]
@[simp] theorem raise_lanes (k : Control) (f : Floor) (cls : NoticeClass) (s : Option Nat) (r : Option NoticeReason) : (f.raise k cls s r).lanes = f.lanes := by
  rw [raise_frame]
@[simp] theorem raise_machines (k : Control) (f : Floor) (cls : NoticeClass) (s : Option Nat) (r : Option NoticeReason) : (f.raise k cls s r).machines = f.machines := by
  rw [raise_frame]
@[simp] theorem raise_lines (k : Control) (f : Floor) (cls : NoticeClass) (s : Option Nat) (r : Option NoticeReason) : (f.raise k cls s r).lines = f.lines := by
  rw [raise_frame]
@[simp] theorem raise_fleetTx (k : Control) (f : Floor) (cls : NoticeClass) (s : Option Nat) (r : Option NoticeReason) : (f.raise k cls s r).fleetTx = f.fleetTx := by
  rw [raise_frame]
@[simp] theorem raise_fleetCounters (k : Control) (f : Floor) (cls : NoticeClass) (s : Option Nat) (r : Option NoticeReason) : (f.raise k cls s r).fleetCounters = f.fleetCounters := by
  rw [raise_frame]
@[simp] theorem raise_ceiling (k : Control) (f : Floor) (cls : NoticeClass) (s : Option Nat) (r : Option NoticeReason) : (f.raise k cls s r).ceiling = f.ceiling := by
  rw [raise_frame]

theorem deliver_frame (f : Floor) (m : Nat) : f.deliver m =
    { f with machines := (f.deliver m).machines, fleetTx := (f.deliver m).fleetTx } := by
  unfold Floor.deliver
  split
  · rfl
  · split <;> rfl

@[simp] theorem deliver_cells (f : Floor) (m : Nat) : (f.deliver m).cells = f.cells := by
  rw [deliver_frame]
@[simp] theorem deliver_lanes (f : Floor) (m : Nat) : (f.deliver m).lanes = f.lanes := by
  rw [deliver_frame]
@[simp] theorem deliver_lines (f : Floor) (m : Nat) : (f.deliver m).lines = f.lines := by
  rw [deliver_frame]
@[simp] theorem deliver_fleetCounters (f : Floor) (m : Nat) : (f.deliver m).fleetCounters = f.fleetCounters := by
  rw [deliver_frame]
@[simp] theorem deliver_notices (f : Floor) (m : Nat) : (f.deliver m).notices = f.notices := by
  rw [deliver_frame]
@[simp] theorem deliver_ceiling (f : Floor) (m : Nat) : (f.deliver m).ceiling = f.ceiling := by
  rw [deliver_frame]
@[simp] theorem deliver_supTx (f : Floor) (m : Nat) : (f.deliver m).supTx = f.supTx := by
  rw [deliver_frame]

theorem order_frame (f : Floor) (m : Nat) (o : Order) : f.order m o =
    { f with machines := (f.order m o).machines, fleetTx := (f.order m o).fleetTx, fleetCounters := (f.order m o).fleetCounters } := by
  unfold Floor.order
  split
  · rfl
  split
  · rfl
  split
  · split
    · rfl
    · rw [deliver_frame]; rfl
  · rw [deliver_frame]; rfl

@[simp] theorem order_cells (f : Floor) (m : Nat) (o : Order) : (f.order m o).cells = f.cells := by
  rw [order_frame]
@[simp] theorem order_lanes (f : Floor) (m : Nat) (o : Order) : (f.order m o).lanes = f.lanes := by
  rw [order_frame]
@[simp] theorem order_lines (f : Floor) (m : Nat) (o : Order) : (f.order m o).lines = f.lines := by
  rw [order_frame]
@[simp] theorem order_notices (f : Floor) (m : Nat) (o : Order) : (f.order m o).notices = f.notices := by
  rw [order_frame]
@[simp] theorem order_ceiling (f : Floor) (m : Nat) (o : Order) : (f.order m o).ceiling = f.ceiling := by
  rw [order_frame]
@[simp] theorem order_supTx (f : Floor) (m : Nat) (o : Order) : (f.order m o).supTx = f.supTx := by
  rw [order_frame]

theorem joinList_frame (f : Floor) (m : Nat) (refuge : Bool) (t : Target) : f.joinList m refuge t =
    { f with cells := (f.joinList m refuge t).cells, lanes := (f.joinList m refuge t).lanes } := by
  cases t <;> rfl

@[simp] theorem joinList_machines (f : Floor) (m : Nat) (refuge : Bool) (t : Target) : (f.joinList m refuge t).machines = f.machines := by
  rw [joinList_frame]
@[simp] theorem joinList_lines (f : Floor) (m : Nat) (refuge : Bool) (t : Target) : (f.joinList m refuge t).lines = f.lines := by
  rw [joinList_frame]
@[simp] theorem joinList_fleetTx (f : Floor) (m : Nat) (refuge : Bool) (t : Target) : (f.joinList m refuge t).fleetTx = f.fleetTx := by
  rw [joinList_frame]
@[simp] theorem joinList_fleetCounters (f : Floor) (m : Nat) (refuge : Bool) (t : Target) : (f.joinList m refuge t).fleetCounters = f.fleetCounters := by
  rw [joinList_frame]
@[simp] theorem joinList_notices (f : Floor) (m : Nat) (refuge : Bool) (t : Target) : (f.joinList m refuge t).notices = f.notices := by
  rw [joinList_frame]
@[simp] theorem joinList_ceiling (f : Floor) (m : Nat) (refuge : Bool) (t : Target) : (f.joinList m refuge t).ceiling = f.ceiling := by
  rw [joinList_frame]
@[simp] theorem joinList_supTx (f : Floor) (m : Nat) (refuge : Bool) (t : Target) : (f.joinList m refuge t).supTx = f.supTx := by
  rw [joinList_frame]

theorem quitList_frame (f : Floor) (m : Nat) (t : Target) : f.quitList m t =
    { f with cells := (f.quitList m t).cells, lanes := (f.quitList m t).lanes } := by
  cases t <;> rfl

@[simp] theorem quitList_machines (f : Floor) (m : Nat) (t : Target) : (f.quitList m t).machines = f.machines := by
  rw [quitList_frame]
@[simp] theorem quitList_lines (f : Floor) (m : Nat) (t : Target) : (f.quitList m t).lines = f.lines := by
  rw [quitList_frame]
@[simp] theorem quitList_fleetTx (f : Floor) (m : Nat) (t : Target) : (f.quitList m t).fleetTx = f.fleetTx := by
  rw [quitList_frame]
@[simp] theorem quitList_fleetCounters (f : Floor) (m : Nat) (t : Target) : (f.quitList m t).fleetCounters = f.fleetCounters := by
  rw [quitList_frame]
@[simp] theorem quitList_notices (f : Floor) (m : Nat) (t : Target) : (f.quitList m t).notices = f.notices := by
  rw [quitList_frame]
@[simp] theorem quitList_ceiling (f : Floor) (m : Nat) (t : Target) : (f.quitList m t).ceiling = f.ceiling := by
  rw [quitList_frame]
@[simp] theorem quitList_supTx (f : Floor) (m : Nat) (t : Target) : (f.quitList m t).supTx = f.supTx := by
  rw [quitList_frame]

theorem leaveWait_frame (f : Floor) (m : Nat) : f.leaveWait m =
    { f with cells := (f.leaveWait m).cells, lanes := (f.leaveWait m).lanes, machines := (f.leaveWait m).machines } := by
  unfold Floor.leaveWait
  split
  · rfl
  · rw [quitList_frame]; rfl

@[simp] theorem leaveWait_lines (f : Floor) (m : Nat) : (f.leaveWait m).lines = f.lines := by
  rw [leaveWait_frame]
@[simp] theorem leaveWait_fleetTx (f : Floor) (m : Nat) : (f.leaveWait m).fleetTx = f.fleetTx := by
  rw [leaveWait_frame]
@[simp] theorem leaveWait_fleetCounters (f : Floor) (m : Nat) : (f.leaveWait m).fleetCounters = f.fleetCounters := by
  rw [leaveWait_frame]
@[simp] theorem leaveWait_notices (f : Floor) (m : Nat) : (f.leaveWait m).notices = f.notices := by
  rw [leaveWait_frame]
@[simp] theorem leaveWait_ceiling (f : Floor) (m : Nat) : (f.leaveWait m).ceiling = f.ceiling := by
  rw [leaveWait_frame]
@[simp] theorem leaveWait_supTx (f : Floor) (m : Nat) : (f.leaveWait m).supTx = f.supTx := by
  rw [leaveWait_frame]

theorem leaveOrdinary_frame (f : Floor) (m : Nat) : f.leaveOrdinary m =
    { f with cells := (f.leaveOrdinary m).cells, lanes := (f.leaveOrdinary m).lanes, machines := (f.leaveOrdinary m).machines } := by
  unfold Floor.leaveOrdinary
  split
  · exact leaveWait_frame f m
  · rfl

@[simp] theorem leaveOrdinary_lines (f : Floor) (m : Nat) : (f.leaveOrdinary m).lines = f.lines := by
  rw [leaveOrdinary_frame]
@[simp] theorem leaveOrdinary_fleetTx (f : Floor) (m : Nat) : (f.leaveOrdinary m).fleetTx = f.fleetTx := by
  rw [leaveOrdinary_frame]
@[simp] theorem leaveOrdinary_fleetCounters (f : Floor) (m : Nat) : (f.leaveOrdinary m).fleetCounters = f.fleetCounters := by
  rw [leaveOrdinary_frame]
@[simp] theorem leaveOrdinary_notices (f : Floor) (m : Nat) : (f.leaveOrdinary m).notices = f.notices := by
  rw [leaveOrdinary_frame]
@[simp] theorem leaveOrdinary_ceiling (f : Floor) (m : Nat) : (f.leaveOrdinary m).ceiling = f.ceiling := by
  rw [leaveOrdinary_frame]
@[simp] theorem leaveOrdinary_supTx (f : Floor) (m : Nat) : (f.leaveOrdinary m).supTx = f.supTx := by
  rw [leaveOrdinary_frame]

@[simp] theorem setOcc_lanes (f : Floor) (c : Nat) (o : Occupancy) : (f.setOcc c o).lanes = f.lanes := by
  rw [setOcc_frame]
@[simp] theorem setOcc_machines (f : Floor) (c : Nat) (o : Occupancy) : (f.setOcc c o).machines = f.machines := by
  rw [setOcc_frame]
@[simp] theorem setOcc_fleetTx (f : Floor) (c : Nat) (o : Occupancy) : (f.setOcc c o).fleetTx = f.fleetTx := by
  rw [setOcc_frame]
@[simp] theorem setOcc_fleetCounters (f : Floor) (c : Nat) (o : Occupancy) : (f.setOcc c o).fleetCounters = f.fleetCounters := by
  rw [setOcc_frame]
@[simp] theorem setOcc_notices (f : Floor) (c : Nat) (o : Occupancy) : (f.setOcc c o).notices = f.notices := by
  rw [setOcc_frame]
@[simp] theorem setOcc_ceiling (f : Floor) (c : Nat) (o : Occupancy) : (f.setOcc c o).ceiling = f.ceiling := by
  rw [setOcc_frame]
@[simp] theorem setOcc_supTx (f : Floor) (c : Nat) (o : Occupancy) : (f.setOcc c o).supTx = f.supTx := by
  rw [setOcc_frame]

theorem enterLane_frame (f : Floor) (m l : Nat) (d : Dir) : f.enterLane m l d =
    { f with machines := (f.enterLane m l d).machines, lanes := (f.enterLane m l d).lanes } := by
  unfold Floor.enterLane
  split
  · rfl
  · split <;> rfl

@[simp] theorem enterLane_cells (f : Floor) (m l : Nat) (d : Dir) : (f.enterLane m l d).cells = f.cells := by
  rw [enterLane_frame]
@[simp] theorem enterLane_lines (f : Floor) (m l : Nat) (d : Dir) : (f.enterLane m l d).lines = f.lines := by
  rw [enterLane_frame]
@[simp] theorem enterLane_fleetTx (f : Floor) (m l : Nat) (d : Dir) : (f.enterLane m l d).fleetTx = f.fleetTx := by
  rw [enterLane_frame]
@[simp] theorem enterLane_fleetCounters (f : Floor) (m l : Nat) (d : Dir) : (f.enterLane m l d).fleetCounters = f.fleetCounters := by
  rw [enterLane_frame]
@[simp] theorem enterLane_notices (f : Floor) (m l : Nat) (d : Dir) : (f.enterLane m l d).notices = f.notices := by
  rw [enterLane_frame]
@[simp] theorem enterLane_ceiling (f : Floor) (m l : Nat) (d : Dir) : (f.enterLane m l d).ceiling = f.ceiling := by
  rw [enterLane_frame]
@[simp] theorem enterLane_supTx (f : Floor) (m l : Nat) (d : Dir) : (f.enterLane m l d).supTx = f.supTx := by
  rw [enterLane_frame]

theorem quitLane_frame (f : Floor) (m l : Nat) : f.quitLane m l =
    { f with machines := (f.quitLane m l).machines, lanes := (f.quitLane m l).lanes } := by
  unfold Floor.quitLane
  split
  · rfl
  · split <;> rfl

@[simp] theorem quitLane_cells (f : Floor) (m l : Nat) : (f.quitLane m l).cells = f.cells := by
  rw [quitLane_frame]
@[simp] theorem quitLane_lines (f : Floor) (m l : Nat) : (f.quitLane m l).lines = f.lines := by
  rw [quitLane_frame]
@[simp] theorem quitLane_fleetTx (f : Floor) (m l : Nat) : (f.quitLane m l).fleetTx = f.fleetTx := by
  rw [quitLane_frame]
@[simp] theorem quitLane_fleetCounters (f : Floor) (m l : Nat) : (f.quitLane m l).fleetCounters = f.fleetCounters := by
  rw [quitLane_frame]
@[simp] theorem quitLane_notices (f : Floor) (m l : Nat) : (f.quitLane m l).notices = f.notices := by
  rw [quitLane_frame]
@[simp] theorem quitLane_ceiling (f : Floor) (m l : Nat) : (f.quitLane m l).ceiling = f.ceiling := by
  rw [quitLane_frame]
@[simp] theorem quitLane_supTx (f : Floor) (m l : Nat) : (f.quitLane m l).supTx = f.supTx := by
  rw [quitLane_frame]

theorem place_frame (f : Floor) (m c : Nat) : f.place m c =
    { f with machines := (f.place m c).machines, lanes := (f.place m c).lanes } := by
  unfold Floor.place
  split
  · rfl
  · split
    · rfl
    · exact enterLane_frame _ _ _ _

@[simp] theorem place_cells (f : Floor) (m c : Nat) : (f.place m c).cells = f.cells := by
  rw [place_frame]
@[simp] theorem place_lines (f : Floor) (m c : Nat) : (f.place m c).lines = f.lines := by
  rw [place_frame]
@[simp] theorem place_fleetTx (f : Floor) (m c : Nat) : (f.place m c).fleetTx = f.fleetTx := by
  rw [place_frame]
@[simp] theorem place_fleetCounters (f : Floor) (m c : Nat) : (f.place m c).fleetCounters = f.fleetCounters := by
  rw [place_frame]
@[simp] theorem place_notices (f : Floor) (m c : Nat) : (f.place m c).notices = f.notices := by
  rw [place_frame]
@[simp] theorem place_ceiling (f : Floor) (m c : Nat) : (f.place m c).ceiling = f.ceiling := by
  rw [place_frame]
@[simp] theorem place_supTx (f : Floor) (m c : Nat) : (f.place m c).supTx = f.supTx := by
  rw [place_frame]

theorem quitLaneOf_frame (f : Floor) (m c : Nat) : f.quitLaneOf m c =
    { f with machines := (f.quitLaneOf m c).machines, lanes := (f.quitLaneOf m c).lanes } := by
  unfold Floor.quitLaneOf
  split
  · exact quitLane_frame _ _ _
  · rfl

@[simp] theorem quitLaneOf_cells (f : Floor) (m c : Nat) : (f.quitLaneOf m c).cells = f.cells := by
  rw [quitLaneOf_frame]
@[simp] theorem quitLaneOf_lines (f : Floor) (m c : Nat) : (f.quitLaneOf m c).lines = f.lines := by
  rw [quitLaneOf_frame]
@[simp] theorem quitLaneOf_fleetTx (f : Floor) (m c : Nat) : (f.quitLaneOf m c).fleetTx = f.fleetTx := by
  rw [quitLaneOf_frame]
@[simp] theorem quitLaneOf_fleetCounters (f : Floor) (m c : Nat) : (f.quitLaneOf m c).fleetCounters = f.fleetCounters := by
  rw [quitLaneOf_frame]
@[simp] theorem quitLaneOf_notices (f : Floor) (m c : Nat) : (f.quitLaneOf m c).notices = f.notices := by
  rw [quitLaneOf_frame]
@[simp] theorem quitLaneOf_ceiling (f : Floor) (m c : Nat) : (f.quitLaneOf m c).ceiling = f.ceiling := by
  rw [quitLaneOf_frame]
@[simp] theorem quitLaneOf_supTx (f : Floor) (m c : Nat) : (f.quitLaneOf m c).supTx = f.supTx := by
  rw [quitLaneOf_frame]

theorem release_frame (k : Control) (m : Nat) (f : Floor) (c : Nat) : f.release k m c =
    { f with cells := (f.release k m c).cells, lines := (f.release k m c).lines, machines := (f.release k m c).machines, lanes := (f.release k m c).lanes } := by
  unfold Floor.release
  rw [quitLaneOf_frame, setOcc_frame]

@[simp] theorem release_fleetTx (k : Control) (m : Nat) (f : Floor) (c : Nat) : (f.release k m c).fleetTx = f.fleetTx := by
  rw [release_frame]
@[simp] theorem release_fleetCounters (k : Control) (m : Nat) (f : Floor) (c : Nat) : (f.release k m c).fleetCounters = f.fleetCounters := by
  rw [release_frame]
@[simp] theorem release_notices (k : Control) (m : Nat) (f : Floor) (c : Nat) : (f.release k m c).notices = f.notices := by
  rw [release_frame]
@[simp] theorem release_ceiling (k : Control) (m : Nat) (f : Floor) (c : Nat) : (f.release k m c).ceiling = f.ceiling := by
  rw [release_frame]
@[simp] theorem release_supTx (k : Control) (m : Nat) (f : Floor) (c : Nat) : (f.release k m c).supTx = f.supTx := by
  rw [release_frame]

@[simp] theorem setOcc_cells (f : Floor) (c : Nat) (o : Occupancy) :
    (f.setOcc c o).cells = f.cells.upd c fun y => { y with occ := o } := by
  rw [setOcc_frame]

@[simp] theorem release_cells (k : Control) (m : Nat) (f : Floor) (c : Nat) :
    (f.release k m c).cells = f.cells.upd c fun y => { y with occ := f.guardOcc k c } := by
  unfold Floor.release
  rw [quitLaneOf_cells, setOcc_cells]

end Sys2Proof.Laws
end

section
/-! ## The course of an event over bands, counters and withdrawals

`Course skip f g`: what every piece of floor work does for four laws that read little of the floor: the fleet counters'
range (R92), the embargo counts (R21), the lines' clearance and clear outputs (R147, R149), and that a WITHDRAW in hand
belongs to a pending withdrawal (R126). -/

namespace Sys2Proof.Table

variable {α : Type}

/-- A table with one entry changed counts what it counted, but for that entry. -/
theorem countP_upd_key {t : Table α} {k : Nat} {g : α → α} {x : α} (p : Nat → α → Bool) (once : t.keys.Nodup)
    (h : t.look k = some x) :
    (t.upd k g).countP (fun e => p e.1 e.2) + (if p k x then 1 else 0) =
      t.countP (fun e => p e.1 e.2) + if p k (g x) then 1 else 0 := by
  induction t with
  | nil => simp at h
  | cons e t ih =>
    obtain ⟨j, v⟩ := e
    obtain ⟨fresh, once⟩ := List.nodup_cons.1 once
    rw [look_cons] at h
    by_cases here : j = k
    · subst here
      simp only [if_true, Option.some.injEq] at h
      subst h
      have rest : Table.upd t j g = t := Laws.upd_of_none ((look_eq_none t j).2 fresh)
      have : Table.upd ((j, v) :: t) j g = (j, g v) :: Table.upd t j g := by simp [Table.upd]
      rw [this, rest, List.countP_cons, List.countP_cons]
      simp only
      omega
    · rw [if_neg here] at h
      have : Table.upd ((j, v) :: t) k g = (j, v) :: Table.upd t k g := by simp [Table.upd, here]
      rw [this, List.countP_cons, List.countP_cons]
      have := ih once h
      omega

end Sys2Proof.Table

namespace Sys2Proof.Laws

open Sys2Proof Sys2Proof.Machine Sys2Proof.Safety

-- One theorem at a time, as in the tests above: side by side their threads' stacks take the memory.
set_option Elab.async false

/-! ### The laws over the floor -/

/-- R21 over the floor. -/
def EmbargoLaw (f : Floor) : Prop :=
  f.lines.keys.Nodup ∧ ∀ c x, f.cells.look c = some x → x.embargo = f.embargoFor x.band

/-- No cell of line `i`'s band is HELD or BLOCKED. -/
def BandEmpty (f : Floor) (i : Nat) : Prop :=
  ∀ c z, f.cells.look c = some z → z.inBand i = true → z.occ.taken = false

/-- R145 to R149 over the floor of a module that is live or not. -/
def BandLaw (live : Bool) (f : Floor) : Prop :=
  f.cells.keys.Nodup ∧ ∀ i l, f.lines.look i = some l →
    (l.state ≠ .quiet → (l.state = .clear ↔ BandEmpty f i)) ∧ (l.clearTimer.isSome = true → l.state = .clearing) ∧
      (live = true → (l.clearOutput = true ↔ BandEmpty f i))

theorem bandTaken_eq_zero {f : Floor} (once : f.cells.keys.Nodup) (i : Nat) : f.bandTaken i = 0 ↔ BandEmpty f i := by
  simp only [Floor.bandTaken, Table.keysWhere, List.length_map, List.length_eq_zero_iff, List.filter_eq_nil_iff,
    Bool.and_eq_true, not_and, Bool.not_eq_true]
  exact ⟨fun h c z known => h (c, z) (Table.mem_of_look known),
    fun h e listed => h e.1 e.2 (Table.look_of_mem once listed)⟩

theorem embargoLaw_iff (s : State) : EmbargoKept s ↔ EmbargoLaw s.floor := Iff.rfl

theorem bandLaw_iff {s : State} (tables : TablesKept s) : BandsKept s ↔ BandLaw s.live s.floor := by
  have once : s.floor.cells.keys.Nodup := ((Table.wf_iff _ _).1 tables.1).1.imp Nat.ne_of_lt
  simp only [BandsKept, BandLaw, once, true_and, ← bandTaken_eq_zero once]
  refine forall_congr' fun i => forall_congr' fun l => forall_congr' fun _ => ?_
  refine and_congr Iff.rfl (and_congr Iff.rfl (forall_congr' fun _ => ?_))
  cases l.clearOutput <;> simp

/-- What the machine was sent or will be sent; `skip` leaves out what is outstanding. -/
def promised (skip : Bool) (x : Scrubber) : List Order := x.queue ++ if skip then [] else x.outstanding.toList

/-- R126: a WITHDRAW in hand belongs to a pending withdrawal; the outstanding orders of the slots in `skip` do not count,
while the event that acknowledges them runs (R98, log 9). -/
def PledgeLaw (skip : Nat → Bool) (f : Floor) : Prop :=
  ∀ m x, f.machines.look m = some x → (promised (skip m) x).any isWithdraw = true → x.withdrawal.isSome = true

/-- What a piece of floor work keeps. -/
structure Course (skip : Nat → Bool) (f g : Floor) : Prop where
  counters : FleetCountersKept f.fleetCounters → FleetCountersKept g.fleetCounters
  pledge : PledgeLaw skip f → PledgeLaw skip g
  embargo : EmbargoLaw f → EmbargoLaw g
  bands : ∀ live, EmbargoLaw f → BandLaw live f → BandLaw live g

variable {skip : Nat → Bool}

namespace Course

theorem refl (f : Floor) : Course skip f f := ⟨id, id, id, fun _ _ => id⟩

theorem trans {f g h : Floor} (a : Course skip f g) (b : Course skip g h) : Course skip f h :=
  ⟨b.counters ∘ a.counters, b.pledge ∘ a.pledge, b.embargo ∘ a.embargo,
    fun live law bands => b.bands live (a.embargo law) (a.bands live law bands)⟩

/-- `trans`, the last piece of work first. -/
theorem after {f g h : Floor} (b : Course skip g h) (a : Course skip f g) : Course skip f h := a.trans b

theorem foldl {β : Type} {op : Floor → β → Floor} (h : ∀ f b, Course skip f (op f b)) (xs : List β) (f : Floor) :
    Course skip f (xs.foldl op f) := by
  induction xs generalizing f with
  | nil => exact refl f
  | cons x xs ih => exact (h f x).trans (ih _)

end Course

/-! ### Work that moves no cell and no line -/

/-- What the laws of bands read of a cell. -/
structure Ground where
  band : BitVec 16
  occ : Occupancy
  embargo : Nat

def groundOf (c : Cell) : Ground := ⟨c.band, c.occ, c.embargo⟩

/-- The work changes no line, and no cell's band, occupancy or embargo count. -/
structure SameGround (f g : Floor) : Prop where
  lines : g.lines = f.lines
  cells : Table.remap groundOf g.cells = Table.remap groundOf f.cells

namespace SameGround

variable {f g h : Floor}

theorem refl (f : Floor) : SameGround f f := ⟨rfl, rfl⟩

theorem trans (a : SameGround f g) (b : SameGround g h) : SameGround f h :=
  ⟨b.lines.trans a.lines, b.cells.trans a.cells⟩

theorem symm (a : SameGround f g) : SameGround g f := ⟨a.lines.symm, a.cells.symm⟩

theorem of_eq (cells : g.cells = f.cells) (lines : g.lines = f.lines) : SameGround f g := ⟨lines, by rw [cells]⟩

theorem look (a : SameGround f g) {c : Nat} {z : Cell} (known : g.cells.look c = some z) :
    ∃ w, f.cells.look c = some w ∧ z.band = w.band ∧ z.occ = w.occ ∧ z.embargo = w.embargo := by
  have same : (g.cells.look c).map groundOf = (f.cells.look c).map groundOf := by
    rw [← Table.look_remap, ← Table.look_remap, a.cells]
  rw [known] at same
  obtain ⟨w, hw, eq⟩ := Option.map_eq_some_iff.1 same.symm
  obtain ⟨band, occ, embargo⟩ := Ground.mk.inj eq
  exact ⟨w, hw, band.symm, occ.symm, embargo.symm⟩

theorem keys (a : SameGround f g) : g.cells.keys = f.cells.keys := by
  simpa using congrArg Table.keys a.cells

theorem embargoFor (a : SameGround f g) (band : BitVec 16) : g.embargoFor band = f.embargoFor band := by
  unfold Floor.embargoFor; rw [a.lines]

theorem embargo (a : SameGround f g) (law : EmbargoLaw f) : EmbargoLaw g := by
  refine ⟨a.lines ▸ law.1, fun c z known => ?_⟩
  obtain ⟨w, hw, band, -, embargo⟩ := a.look known
  rw [embargo, band, a.embargoFor]
  exact law.2 c w hw

theorem bandEmpty (a : SameGround f g) {i : Nat} (empty : BandEmpty f i) : BandEmpty g i := fun c z known inside => by
  obtain ⟨w, hw, band, occ, -⟩ := a.look known
  rw [occ]
  exact empty c w hw (by rwa [Cell.inBand, ← band])

theorem bands (a : SameGround f g) {live : Bool} (law : BandLaw live f) : BandLaw live g := by
  have same (i : Nat) : BandEmpty g i ↔ BandEmpty f i := ⟨a.symm.bandEmpty, a.bandEmpty⟩
  refine ⟨a.keys ▸ law.1, fun i l known => ?_⟩
  simp only [same]
  exact law.2 i l (a.lines ▸ known)

theorem foldl {β : Type} {op : Floor → β → Floor} (h : ∀ f b, SameGround f (op f b)) (xs : List β) (f : Floor) :
    SameGround f (xs.foldl op f) := by
  induction xs generalizing f with
  | nil => exact refl f
  | cons x xs ih => exact (h f x).trans (ih _)

end SameGround

/-- Work on a standing ground that keeps counters and pledges. -/
theorem Course.same {f g : Floor} (ground : SameGround f g) (counters : g.fleetCounters = f.fleetCounters)
    (pledge : PledgeLaw skip f → PledgeLaw skip g) : Course skip f g :=
  ⟨by rw [counters]; exact id, pledge, ground.embargo, fun _ _ => ground.bands⟩

/-- Work that moves neither cells nor lines nor machines nor counters. -/
theorem Course.beside {f g : Floor} (cells : g.cells = f.cells) (lines : g.lines = f.lines)
    (machines : g.machines = f.machines) (counters : g.fleetCounters = f.fleetCounters) : Course skip f g :=
  .same (.of_eq cells lines) counters (by unfold PledgeLaw; rw [machines]; exact id)

/-- The change takes back no withdrawal, and forms no WITHDRAW without one. -/
def KeepsPledge (skip : Bool) (x y : Scrubber) : Prop :=
  ((promised skip x).any isWithdraw = true → x.withdrawal.isSome = true) →
    (promised skip y).any isWithdraw = true → y.withdrawal.isSome = true

/-- A change that leaves orders alone and takes back no withdrawal. -/
theorem KeepsPledge.of {skip : Bool} {x y : Scrubber} (queue : y.queue = x.queue) (out : y.outstanding = x.outstanding)
    (withdrawal : x.withdrawal.isSome = true → y.withdrawal.isSome = true) : KeepsPledge skip x y := by
  unfold KeepsPledge promised
  rw [queue, out]
  exact fun h any => withdrawal (h any)

theorem pledge_upd {f g : Floor} {m : Nat} {h : Scrubber → Scrubber} (machines : g.machines = f.machines.upd m h)
    (kept : ∀ x, f.machines.look m = some x → KeepsPledge (skip m) x (h x)) (law : PledgeLaw skip f) :
    PledgeLaw skip g := by
  intro n y known
  rw [machines, Table.look_upd] at known
  split at known
  · next here =>
    subst here
    obtain ⟨x, hx, rfl⟩ := Option.map_eq_some_iff.1 known
    exact kept x hx (law n x hx)
  · exact law n y known

theorem course_modMachine (f : Floor) (m : Nat) (h : Scrubber → Scrubber)
    (kept : ∀ x, f.machines.look m = some x → KeepsPledge (skip m) x (h x)) : Course skip f (f.modMachine m h) :=
  .same (.of_eq rfl rfl) rfl (pledge_upd rfl kept)

theorem settle_orders (x : Scrubber) (now limit : Nat) : (x.settle now limit).queue = x.queue ∧
    (x.settle now limit).outstanding = x.outstanding ∧ (x.settle now limit).withdrawal = x.withdrawal := by
  unfold Scrubber.settle
  split <;> exact ⟨rfl, rfl, rfl⟩

theorem KeepsPledge.settle {skip : Bool} {x y : Scrubber} (kept : KeepsPledge skip x y) (now limit : Nat) :
    KeepsPledge skip x (y.settle now limit) := by
  obtain ⟨queue, out, withdrawal⟩ := settle_orders y now limit
  unfold KeepsPledge promised at kept ⊢
  rwa [queue, out, withdrawal]

theorem course_modSettled (k : Control) (f : Floor) (m : Nat) (h : Scrubber → Scrubber)
    (kept : ∀ x, f.machines.look m = some x → KeepsPledge (skip m) x (h x)) : Course skip f (f.modSettled k m h) :=
  course_modMachine f m _ fun x known => (kept x known).settle _ _

/-- A change of a record that leaves orders and withdrawal alone. -/
theorem course_quiet (f : Floor) (m : Nat) (h : Scrubber → Scrubber) (queue : ∀ x, (h x).queue = x.queue)
    (out : ∀ x, (h x).outstanding = x.outstanding)
    (withdrawal : ∀ x, x.withdrawal.isSome = true → (h x).withdrawal.isSome = true) :
    Course skip f (f.modMachine m h) :=
  course_modMachine f m h fun x _ => .of (queue x) (out x) (withdrawal x)

theorem course_settled (k : Control) (f : Floor) (m : Nat) (h : Scrubber → Scrubber) (queue : ∀ x, (h x).queue = x.queue)
    (out : ∀ x, (h x).outstanding = x.outstanding)
    (withdrawal : ∀ x, x.withdrawal.isSome = true → (h x).withdrawal.isSome = true) :
    Course skip f (f.modSettled k m h) :=
  course_modSettled k f m h fun x _ => .of (queue x) (out x) (withdrawal x)

theorem course_raise (k : Control) (f : Floor) (cls : NoticeClass) (s : Option Nat) (r : Option NoticeReason) :
    Course skip f (f.raise k cls s r) := .beside (by simp) (by simp) (by simp) (by simp)

/-! #### Orders -/

theorem isWithdraw_iff (o : Order) : isWithdraw o = true ↔ o.kind = 4 := by
  cases o <;> simp [isWithdraw, Order.kind]

theorem fleetCountersKept_discarded {c : FleetCounters} (h : FleetCountersKept c) :
    FleetCountersKept { c with discarded := bump c.discarded } := by
  obtain ⟨h1, h2, h3, h4, h5, h6, h7, h8, h9, h10⟩ := h
  exact ⟨h1, h2, h3, h4, h5, h6, h7, h8, h9, bump_le _ h10⟩

theorem course_countDiscarded (f : Floor) : Course skip f f.countDiscarded :=
  ⟨fleetCountersKept_discarded, id, (SameGround.of_eq rfl rfl).embargo, fun _ _ => (SameGround.of_eq rfl rfl).bands⟩

theorem course_deliver (f : Floor) (m : Nat) : Course skip f (f.deliver m) := by
  refine .same (.of_eq (by simp) (by simp)) (by simp) ?_
  unfold Floor.deliver
  split
  · exact id
  next x known =>
  split
  · next o rest out queue =>
    refine pledge_upd (h := fun y => { y with outstanding := some o, queue := rest }) rfl fun y hy => ?_
    cases known.symm.trans hy
    unfold KeepsPledge promised
    rw [out, queue]
    cases skip m <;> simp only [Option.toList, Bool.false_eq_true, if_true, if_false, List.append_nil,
      List.any_append, List.any_cons, List.any_nil, Bool.or_false, Bool.or_eq_true]
    · exact fun law any => law (.comm.1 any)
    · exact fun law any => law (.inr any)
  · exact id

/-- What stands in a queue's place of a new order that is no WITHDRAW is no WITHDRAW. -/
theorem isWithdraw_merge {q o : Order} (kind : q.kind = o.kind) (other : isWithdraw o = false) :
    isWithdraw (q.merge o) = false := by
  rw [← Bool.not_eq_true, isWithdraw_iff] at other ⊢
  rwa [order_kind_merge q o kind, kind]

/-- R94: an order that is no WITHDRAW, or that a pending withdrawal stands behind. -/
theorem course_order (f : Floor) (m : Nat) (o : Order)
    (backed : isWithdraw o = true → ∀ x, f.machines.look m = some x → x.withdrawal.isSome = true) :
    Course skip f (f.order m o) := by
  unfold Floor.order
  split
  · exact course_countDiscarded f
  next x known =>
  have queued (h : List Order → List Order)
      (kept : ∀ q, isWithdraw o = false → (h q).any isWithdraw = true → q.any isWithdraw = true) :
      Course skip f (f.modMachine m fun y => { y with queue := h y.queue }) :=
    course_modMachine f m _ fun y hy => by
      unfold KeepsPledge promised
      intro law any
      cases other : isWithdraw o with
      | true => exact backed other y hy
      | false =>
        refine law ?_
        simp only [List.any_append, Bool.or_eq_true] at any ⊢
        exact any.imp_left (kept _ other)
  split
  · exact course_countDiscarded f
  split
  · split
    · exact course_countDiscarded f
    · refine (queued (fun q => q.map fun q' => if q'.kind = o.kind then q'.merge o else q') fun q other any => ?_).trans
        (course_deliver _ _)
      simp only [List.any_map, List.any_eq_true, Function.comp_apply] at any ⊢
      obtain ⟨q', listed, holds⟩ := any
      split at holds
      · next kind => simp [isWithdraw_merge kind other] at holds
      · exact ⟨q', listed, holds⟩
  · refine (queued (fun q => q ++ [o]) fun q other any => ?_).trans (course_deliver _ _)
    simpa [other] using any

theorem course_answer (f : Floor) (m : Nat) (a : Answer) : Course skip f (f.order m (.answer a)) :=
  course_order f m _ nofun

theorem course_motion (f : Floor) (m : Nat) (resume : Bool) : Course skip f (f.order m (.motion resume)) :=
  course_order f m _ nofun

/-- R101: after a flush nothing is in hand. -/
theorem flushOrders_look {f : Floor} {m : Nat} {x : Scrubber} (known : (f.flushOrders m).machines.look m = some x) :
    x.queue = [] ∧ x.outstanding = none := by
  simp only [Floor.flushOrders, Floor.modMachine_machines, Floor.clearOutstanding_machines, Table.look_upd_self,
    Option.map_map, Option.map_eq_some_iff] at known
  obtain ⟨y, -, rfl⟩ := known
  exact ⟨rfl, rfl⟩

theorem course_flushOrders (f : Floor) (m : Nat) : Course skip f (f.flushOrders m) := by
  refine .same (.of_eq rfl rfl) rfl fun law => ?_
  have cleared := pledge_upd (Floor.clearOutstanding_machines f m) (fun x _ => by
    unfold KeepsPledge promised
    intro h any
    refine h ?_
    simp only [List.any_append, Bool.or_eq_true] at any ⊢
    exact any.imp_right (by simp)) law
  refine pledge_upd (Floor.modMachine_machines (f.clearOutstanding m) m _) (fun x hx => ?_) cleared
  simp only [Floor.clearOutstanding_machines, Table.look_upd_self, Option.map_eq_some_iff] at hx
  obtain ⟨y, -, rfl⟩ := hx
  unfold KeepsPledge promised
  simp

/-! #### Wait lists -/

theorem sameGround_cells (f : Floor) (c : Nat) (h : Cell → Cell) (same : ∀ z, groundOf (h z) = groundOf z) :
    SameGround f { f with cells := f.cells.upd c h } := ⟨rfl, Table.remap_upd_same same⟩

theorem sameGround_joinList (f : Floor) (m : Nat) (refuge : Bool) (t : Target) : SameGround f (f.joinList m refuge t) := by
  cases t with
  | cell c => exact sameGround_cells f c _ fun _ => rfl
  | lane l => exact .of_eq rfl rfl

theorem sameGround_quitList (f : Floor) (m : Nat) (t : Target) : SameGround f (f.quitList m t) := by
  cases t with
  | cell c => exact sameGround_cells f c _ fun _ => rfl
  | lane l => exact .of_eq rfl rfl

theorem sameGround_leaveWait (f : Floor) (m : Nat) : SameGround f (f.leaveWait m) := by
  unfold Floor.leaveWait
  split
  · exact .refl f
  · exact (sameGround_quitList f m _).trans (.of_eq rfl rfl)

theorem course_joinList (f : Floor) (m : Nat) (refuge : Bool) (t : Target) : Course skip f (f.joinList m refuge t) :=
  .same (sameGround_joinList f m refuge t) (by simp) (by unfold PledgeLaw; rw [joinList_machines]; exact id)

theorem course_quitList (f : Floor) (m : Nat) (t : Target) : Course skip f (f.quitList m t) :=
  .same (sameGround_quitList f m t) (by simp) (by unfold PledgeLaw; rw [quitList_machines]; exact id)

theorem course_leaveWait (f : Floor) (m : Nat) : Course skip f (f.leaveWait m) := by
  unfold Floor.leaveWait
  split
  · exact .refl f
  · exact .after (course_quiet _ _ _ (fun _ => rfl) (fun _ => rfl) fun _ => id) (course_quitList f m _)

theorem course_leaveOrdinary (f : Floor) (m : Nat) : Course skip f (f.leaveOrdinary m) := by
  unfold Floor.leaveOrdinary
  split
  · exact course_leaveWait f m
  · exact .refl f

/-! #### Lanes -/

theorem course_enterLane (f : Floor) (m l : Nat) (d : Dir) : Course skip f (f.enterLane m l d) := by
  refine .same (.of_eq (by simp) (by simp)) (by simp) ?_
  unfold Floor.enterLane
  split
  · exact id
  split
  · exact id
  · exact pledge_upd (h := fun y => { y with laneDirs := y.laneDirs.put l d }) rfl fun x _ => .of rfl rfl id

theorem course_quitLane (f : Floor) (m l : Nat) : Course skip f (f.quitLane m l) := by
  refine .same (.of_eq (by simp) (by simp)) (by simp) ?_
  unfold Floor.quitLane
  split
  · exact id
  split
  · exact pledge_upd (h := fun y => { y with laneDirs := y.laneDirs.del l }) rfl fun x _ => .of rfl rfl id
  · exact id

theorem course_place (f : Floor) (m c : Nat) : Course skip f (f.place m c) := by
  unfold Floor.place
  split
  · exact .refl f
  split
  · exact .refl f
  · exact course_enterLane f m _ _

theorem course_quitLaneOf (f : Floor) (m c : Nat) : Course skip f (f.quitLaneOf m c) := by
  unfold Floor.quitLaneOf
  split
  · exact course_quitLane f m _
  · exact .refl f

/-! ### A change of occupancy -/

/-- R147, R149: what the review of a line leaves. -/
theorem review_spec (l : Line) (taken : Nat) :
    (l.review taken).clearOutput = decide (taken = 0) ∧
      (taken = 0 ∧ (l.state = .clearing ∨ l.state = .breach) ∧ (l.review taken).state = .clear ∧
          (l.review taken).clearTimer = none ∨
        ¬ (taken = 0 ∧ (l.state = .clearing ∨ l.state = .breach)) ∧ (l.review taken).state = l.state ∧
          (l.review taken).clearTimer = l.clearTimer) := by
  unfold Line.review
  simp only
  split
  · next h => exact ⟨rfl, .inl ⟨h.1, h.2, rfl, rfl⟩⟩
  · next h => exact ⟨rfl, .inr ⟨h, rfl, rfl⟩⟩

/-- R21: a line over a cell without embargo is QUIET. -/
theorem quiet_of_embargo {f : Floor} (law : EmbargoLaw f) {c i : Nat} {z : Cell} {l : Line}
    (known : f.cells.look c = some z) (embargo : z.embargo = 0) (inside : z.inBand i = true)
    (line : f.lines.look i = some l) : l.state = .quiet := by
  have none : f.embargoFor z.band = 0 := (law.2 c z known).symm.trans embargo
  simp only [Floor.embargoFor, List.length_eq_zero_iff, List.filter_eq_nil_iff, Bool.and_eq_true, not_and] at none
  simpa using none (i, l) (Table.mem_of_look line) inside

/-- The new occupancy may be taken only where the cell was taken or no embargo stands over it. -/
def MayTake (f : Floor) (c : Nat) (o : Occupancy) : Prop :=
  ∀ z, f.cells.look c = some z → o.taken = true → z.occ.taken = true ∨ z.embargo = 0

theorem setOcc_look (f : Floor) (c d : Nat) (o : Occupancy) :
    (f.setOcc c o).cells.look d = if d = c then (f.cells.look d).map fun y => { y with occ := o } else f.cells.look d := by
  rw [setOcc_cells, Table.look_upd]

/-- The lines after a change of occupancy: all as they stand, or those of the cell's band reviewed. -/
theorem setOcc_lines_cases (f : Floor) (c : Nat) (o : Occupancy) :
    (f.setOcc c o).lines = f.lines ∧ (∀ z, f.cells.look c = some z → z.occ.taken = o.taken) ∨
      ∃ z, f.cells.look c = some z ∧ z.occ.taken ≠ o.taken ∧ (f.setOcc c o).lines =
        f.lines.each fun i l => if z.inBand i then l.review ((f.setOcc c o).bandTaken i) else l := by
  unfold Floor.setOcc
  split
  · next absent => exact .inl ⟨rfl, fun z known => by rw [absent] at known; cases known⟩
  · next z known =>
    simp only
    split
    · next same =>
      exact .inl ⟨rfl, fun w hw => by cases known.symm.trans hw; exact same⟩
    · next moved => exact .inr ⟨z, known, moved, rfl⟩

theorem embargoFor_setOcc (f : Floor) (c : Nat) (o : Occupancy) (band : BitVec 16) :
    (f.setOcc c o).embargoFor band = f.embargoFor band := by
  unfold Floor.embargoFor
  rcases setOcc_lines_cases f c o with ⟨same, -⟩ | ⟨z, -, -, lines⟩
  · rw [same]
  · have quiet (i : Nat) (l : Line) :
        (if z.inBand i then l.review ((f.setOcc c o).bandTaken i) else l).state = .quiet ↔ l.state = .quiet := by
      split
      · exact (lineMove_review (calm := True) l _).quiet trivial
      · exact Iff.rfl
    rw [lines, Table.each, List.filter_map, List.length_map]
    congr 1
    refine List.filter_congr fun e _ => ?_
    simp only [Function.comp_apply, quiet]

theorem embargoLaw_setOcc (f : Floor) (c : Nat) (o : Occupancy) (law : EmbargoLaw f) : EmbargoLaw (f.setOcc c o) := by
  have keys : (f.setOcc c o).lines.keys = f.lines.keys := (moved_setOcc (calm := True) f c o).lines.keys
  refine ⟨keys ▸ law.1, fun d y known => ?_⟩
  rw [setOcc_look] at known
  rw [embargoFor_setOcc]
  split at known
  · obtain ⟨x, hx, rfl⟩ := Option.map_eq_some_iff.1 known
    exact law.2 d x hx
  · exact law.2 d y known

theorem course_setOcc (f : Floor) (c : Nat) (o : Occupancy) (may : MayTake f c o) : Course skip f (f.setOcc c o) where
  counters := by simp
  pledge := by unfold PledgeLaw; rw [setOcc_machines]; exact id
  embargo := embargoLaw_setOcc f c o
  bands live embargo law := by
    have once : (f.setOcc c o).cells.keys.Nodup := by simpa using law.1
    have elsewhere (i : Nat) (outside : ∀ z, f.cells.look c = some z → z.inBand i = false ∨ z.occ.taken = o.taken) :
        BandEmpty (f.setOcc c o) i ↔ BandEmpty f i := by
      constructor
      · intro empty d z known inside
        have after := empty d (if d = c then { z with occ := o } else z) (by rw [setOcc_look, known]; split <;> rfl)
        split at after
        · next here =>
          subst here
          rcases outside z known with out | same
          · rw [out] at inside; cases inside
          · exact same.trans (after inside)
        · exact after inside
      · intro empty d y known inside
        rw [setOcc_look] at known
        split at known
        · next here =>
          subst here
          obtain ⟨z, hz, rfl⟩ := Option.map_eq_some_iff.1 known
          rcases outside z hz with out | same
          · rw [Cell.inBand] at inside out; rw [out] at inside; cases inside
          · exact same.symm.trans (empty d z hz inside)
        · exact empty d y known inside
    refine ⟨once, fun i l known => ?_⟩
    rcases setOcc_lines_cases f c o with ⟨same, stands⟩ | ⟨z, hz, moved, lines⟩
    · rw [same] at known
      rw [elsewhere i fun z hz => .inr (stands z hz)]
      exact law.2 i l known
    · rw [lines, Table.look_each] at known
      obtain ⟨r, hr, rfl⟩ := Option.map_eq_some_iff.1 known
      obtain ⟨clear, timer, output⟩ := law.2 i r hr
      by_cases inside : z.inBand i = true
      · rw [if_pos inside]
        have counted := bandTaken_eq_zero once i
        obtain ⟨out, changed⟩ := review_spec r ((f.setOcc c o).bandTaken i)
        rcases changed with ⟨empty, -, state, stopped⟩ | ⟨stays, state, stopped⟩
        · rw [out, state, stopped]
          exact ⟨fun _ => ⟨fun _ => counted.1 empty, fun _ => rfl⟩, nofun,
            fun _ => by rw [decide_eq_true_eq]; exact counted⟩
        · rw [out, state, stopped]
          refine ⟨fun loud => ?_, timer, fun _ => by rw [decide_eq_true_eq]; exact counted⟩
          -- a line in force stands over the cell, so the cell was given up, not taken
          have freed : o.taken = false ∧ z.occ.taken = true := by
            cases taken : o.taken with
            | false => exact ⟨rfl, by rw [taken] at moved; simpa using moved⟩
            | true =>
              rcases may z hz taken with was | embargo'
              · exact absurd (was.trans taken.symm) moved
              · exact absurd (quiet_of_embargo embargo hz embargo' inside hr) loud
          have busy : r.state ≠ .clear := fun is => by
            have := (clear loud).1 is c z hz inside
            rw [freed.2] at this; cases this
          refine ⟨fun is => absurd is busy, fun empty => ?_⟩
          have both : r.state = .clearing ∨ r.state = .breach := by
            cases h : r.state <;> simp_all
          exact absurd ⟨counted.2 empty, both⟩ stays
      · rw [if_neg inside, elsewhere i fun w hw => by cases hz.symm.trans hw; exact .inl (by simpa using inside)]
        exact ⟨clear, timer, output⟩

/-- A cell given up. -/
theorem mayTake_given (f : Floor) (c : Nat) {o : Occupancy} (given : o.taken = false) : MayTake f c o := fun _ _ taken => by
  rw [given] at taken; cases taken

theorem guardOcc_taken (k : Control) (f : Floor) (c : Nat) : (f.guardOcc k c).taken = false := by
  unfold Floor.guardOcc
  simp only
  generalize (if (f.laneOf c).isSome then k.timing.laneGuard else k.timing.openGuard) = guard
  split <;> rfl

theorem course_release (k : Control) (m : Nat) (f : Floor) (c : Nat) : Course skip f (f.release k m c) :=
  (course_setOcc f c _ (mayTake_given f c (guardOcc_taken k f c))).trans (course_quitLaneOf _ m c)

theorem course_releases (k : Control) (m : Nat) (f : Floor) (cs : List Nat) :
    Course skip f (cs.foldl (Floor.release k m) f) := .foldl (course_release k m) cs f

theorem course_washed (f : Floor) (c : Nat) (h : Cell → Cell) (same : ∀ z, groundOf (h z) = groundOf z) :
    Course skip f { f with cells := f.cells.upd c h } := .same (sameGround_cells f c h same) rfl id

theorem course_releaseWet (k : Control) (m flow : Nat) (f : Floor) (c : Nat) :
    Course skip f (f.releaseWet k m flow c) := by
  unfold Floor.releaseWet
  split
  · exact .refl f
  next x _ =>
  have given (t : Nat) (slow : Bool) : Course skip f ((f.setOcc c (.wet t slow)).quitLaneOf m c) :=
    (course_setOcc f c _ (mayTake_given f c rfl)).trans (course_quitLaneOf _ m c)
  have washed (t : Nat) (slow : Bool) := (given t slow).trans (course_washed _ c
    (fun y => { y with washes := bumpTo 255 y.washes, lastWashed := some k.clock }) fun _ => rfl)
  simp only
  split
  · exact (washed _ _).trans (course_raise k _ _ _ _)
  · exact washed _ _

theorem course_releaseBehind (k : Control) (m flow : Nat) (f : Floor) (c : Nat) :
    Course skip f (f.releaseBehind k m flow c) := by
  unfold Floor.releaseBehind
  split
  · exact course_release k m f c
  · exact course_releaseWet k m flow f c

/-! ### Grants, waits and offers -/

/-- R25: a grantable cell has no embargo. -/
theorem embargo_of_grantable {k : Control} {f : Floor} {m p c : Nat} {taken : List (Nat × Dir)}
    (h : f.failingRow k m p c taken = none) {z : Cell} (known : f.cells.look c = some z) : z.embargo = 0 := by
  unfold Floor.failingRow at h
  rw [known] at h
  simp only at h
  by_contra embargo
  split at h
  · cases h
  · cases h
  · cases h
  · split at h
    · cases h
    · cases h

theorem embargo_of_firstFail {k : Control} {f : Floor} {m : Nat} {cs : List Nat} {p : Nat} {taken : List (Nat × Dir)}
    (fits : f.firstFail k m p cs taken = none) : ∀ c ∈ cs, ∀ z, f.cells.look c = some z → z.embargo = 0 := by
  induction cs generalizing p taken with
  | nil => simp
  | cons d rest ih =>
    unfold Floor.firstFail at fits
    split at fits
    · cases fits
    · cases fits
    · next fit =>
      intro c listed z known
      rcases List.mem_cons.1 listed with rfl | later
      · exact embargo_of_grantable fit known
      · exact ih fits c later z known

theorem course_takeSpan (m : Nat) (cs : List Nat) (f : Floor) (p : Nat)
    (open' : ∀ c ∈ cs, ∀ z, f.cells.look c = some z → z.embargo = 0) : Course skip f (Floor.takeSpan m f p cs) := by
  induction cs generalizing f p with
  | nil => exact .refl f
  | cons c rest ih =>
    have taken : Course skip f (f.setOcc c (.held m)) :=
      course_setOcc f c _ fun z known _ => .inr (open' c (by simp) z known)
    have later {g : Floor} (cells : g.cells = (f.setOcc c (.held m)).cells) :
        ∀ d ∈ rest, ∀ z, g.cells.look d = some z → z.embargo = 0 := by
      intro d listed z known
      rw [cells, setOcc_look] at known
      split at known
      · obtain ⟨w, hw, rfl⟩ := Option.map_eq_some_iff.1 known
        exact open' d (List.mem_cons_of_mem _ listed) w hw
      · exact open' d (List.mem_cons_of_mem _ listed) z known
    unfold Floor.takeSpan
    simp only
    split
    · exact (taken.trans (course_enterLane _ m _ _)).trans (ih _ _ (later (by simp)))
    · exact taken.trans (ih _ _ (later rfl))

theorem course_grant {k : Control} {f : Floor} {m : Nat} {x : Scrubber} {span : List Nat} {p : Nat}
    (fits : f.firstFail k m p span [] = none) : Course skip f (f.grant k m x span) := by
  unfold Floor.grant
  simp only
  exact .after (course_answer _ _ _) <| .after (course_settled k _ m _ (fun _ => rfl) (fun _ => rfl) fun _ => id) <|
    course_takeSpan m span f _ (embargo_of_firstFail fits)

theorem course_beginWait (k : Control) (f : Floor) (m count : Nat) (t : Target) (r : WaitReason) :
    Course skip f (f.beginWait k m count t r) := by
  unfold Floor.beginWait
  split
  · exact .after (course_raise k _ _ _ _) <| .after (course_answer _ _ _) <|
      course_settled k f m _ (fun _ => rfl) (fun _ => rfl) fun _ => id
  · exact .after (course_answer _ _ _) <| .after (course_settled k _ m _ (fun _ => rfl) (fun _ => rfl) fun _ => id) <|
      course_joinList f m false t

theorem course_grantRefuge (f : Floor) (m c : Nat) (open' : ∀ z, f.cells.look c = some z → z.embargo = 0) :
    Course skip f (f.grantRefuge m c) :=
  .after (course_answer _ _ _) <| .after (course_quiet _ m _ (fun _ => rfl) (fun _ => rfl) fun _ => id) <|
    .after (course_place _ m c) <| course_setOcc f c (.held m) fun z known _ => .inr (open' z known)

theorem course_examine (k : Control) (f : Floor) (m : Nat) : Course skip f (f.examine k m).1 := by
  unfold Floor.examine
  split
  · exact .refl f
  next x _ =>
  split
  · next count _ _ =>
    have left := course_leaveWait (skip := skip) f m
    generalize f.leaveWait m = g at left
    cases fits : g.firstFail k m x.lastHeld (x.span count) [] with
    | none => simpa only [fits] using left.trans (course_grant fits)
    | some fail => simpa only [fits] using left.trans (course_beginWait k g m count fail.1 fail.2)
  · exact .refl f

theorem course_examineAll (k : Control) (f : Floor) (ms : List Nat) : Course skip f (f.examineAll k ms) := by
  induction ms generalizing f with
  | nil => exact .refl f
  | cons m rest ih =>
    have examined := course_examine (skip := skip) k f m
    unfold Floor.examineAll
    split
    · next g h => rw [h] at examined; exact examined
    · next g h => rw [h] at examined; exact examined.trans (ih g)

theorem course_offerCell (k : Control) (f : Floor) (c : Nat) : Course skip f (f.offerCell k c) := by
  unfold Floor.offerCell
  split
  · exact .refl f
  next z known =>
  split
  · next free =>
    unfold Floor.offerTo
    split
    · refine (course_leaveWait f _).trans (course_grantRefuge _ _ c fun w hw => ?_)
      obtain ⟨z', hz', -, -, embargo⟩ := (sameGround_leaveWait f _).look hw
      cases known.symm.trans hz'
      exact embargo.trans free.2.1
    · split
      · exact .refl f
      · exact course_examineAll k f _
  · exact .refl f

theorem course_offerLane (k : Control) (f : Floor) (l : Nat) : Course skip f (f.offerLane k l) := by
  unfold Floor.offerLane
  split
  · exact .refl f
  · split
    · exact course_examineAll k f _
    · exact .refl f

theorem course_offerCells (k : Control) (f : Floor) (cs : List Nat) : Course skip f (f.offerCells k cs) :=
  .foldl (course_offerCell k) cs f

theorem course_offerReleased (k : Control) (f : Floor) (cs : List Nat) : Course skip f (f.offerReleased k cs) :=
  (course_offerCells k f cs).trans (.foldl (course_offerLane k) _ _)

theorem course_request (k : Control) (f : Floor) (m count : Nat) : Course skip f (f.request k m count) := by
  have dropped : Course skip f (f.dropWait k m) := by
    unfold Floor.dropWait
    split
    · split
      · exact .after (course_settled k _ m _ (fun _ => rfl) (fun _ => rfl) fun _ => id) (course_leaveWait f m)
      · exact .refl f
    · exact .refl f
  refine dropped.trans ?_
  unfold Floor.request Floor.decideRequest
  split
  · exact .refl _
  split
  · exact course_answer _ _ _
  split
  · next fits => exact course_grant fits
  · exact course_beginWait k _ m _ _ _

/-! ### Legs and arrivals -/

theorem course_promote (k : Control) (f : Floor) (m : Nat) (leg : Leg) (tell : Bool) :
    Course skip f (f.promote k m leg tell) := by
  have staged : Course skip f ((f.modMachine m fun x => { x with active := some ⟨leg, 0⟩, staged := none }).order m
      (.leg leg.tag leg.flow leg.homing leg.cells)) :=
    .after (course_order _ _ _ nofun) (course_quiet f m _ (fun _ => rfl) (fun _ => rfl) fun _ => id)
  unfold Floor.promote
  simp only
  split
  · exact staged.trans (course_raise k _ _ _ _)
  · exact staged

theorem course_endLeg (k : Control) (f : Floor) (m : Nat) (r : NoticeReason) : Course skip f (f.endLeg k m r) :=
  .after (course_raise k _ _ _ _) (course_settled k f m _ (fun _ => rfl) (fun _ => rfl) fun _ => id)

theorem course_decidePromotion (k : Control) (f : Floor) (m : Nat) : Course skip f (f.decidePromotion k m) := by
  unfold Floor.decidePromotion
  split
  · exact .refl f
  split
  · exact course_endLeg k f m _
  · split
    · exact course_promote k f m _ _
    · exact course_endLeg k f m _

theorem course_attempt (k : Control) (tell : Bool) (f : Floor) (m : Nat) : Course skip f (f.attempt k tell m) := by
  unfold Floor.attempt
  split
  · exact .refl f
  split
  · exact .refl f
  · split
    · exact course_promote k f m _ _
    · exact .refl f

theorem course_completeLeg (k : Control) (f : Floor) (m : Nat) : Course skip f (f.completeLeg k m) := by
  have emptied : Course skip f (f.modMachine m fun x => { x with safeStops := 0, active := none }) :=
    course_quiet f m _ (fun _ => rfl) (fun _ => rfl) fun _ => id
  unfold Floor.completeLeg
  simp only
  split
  · exact .after (course_settled k _ m _ (fun _ => rfl) (fun _ => rfl) fun _ h => by simpa using h) emptied
  · exact emptied.trans (course_decidePromotion k _ m)

theorem course_acceptArrival (k : Control) (f : Floor) (m : Nat) (x : Scrubber) (j : Nat) :
    Course skip f (f.acceptArrival k m x j) := by
  have arrived := (Course.foldl (skip := skip) (course_releaseBehind k m ((x.active.map fun a => a.leg.flow).getD 0))
    (x.leftBehind j) f).trans (course_settled k _ m (fun y => y.arrivedAt j) (fun _ => rfl) (fun _ => rfl) fun _ => id)
  unfold Floor.acceptArrival
  simp only
  split
  · exact arrived.trans (course_completeLeg k _ m)
  · exact arrived

/-! ### Machines -/

theorem course_addHalt (k : Control) (r : HaltReason) (f : Floor) (m : Nat) : Course skip f (f.addHalt k r m) := by
  have written : Course skip f (f.modMachine m fun y => { y with halts := y.halts.write true r }) :=
    course_quiet f m _ (fun _ => rfl) (fun _ => rfl) fun _ => id
  unfold Floor.addHalt
  split
  · exact .refl f
  next x _ =>
  split
  · exact .refl f
  simp only
  split
  · have halted : Course skip f (if x.state = .lost ∨ x.state = .stoodDown then
        f.modMachine m fun y => { y with halts := y.halts.write true r }
      else ((f.modMachine m fun y => { y with halts := y.halts.write true r }).leaveOrdinary m).modSettled k m
        fun y => { y with state := .halted }) := by
      split
      · exact written
      · exact .after (course_settled k _ m _ (fun _ => rfl) (fun _ => rfl) fun _ => id)
          (written.trans (course_leaveOrdinary _ m))
    split
    · exact halted
    · exact halted.trans (course_motion _ _ _)
  · exact written

theorem course_removeHalt (k : Control) (r : HaltReason) (f : Floor) (m : Nat) :
    Course skip f (f.removeHalt k r m) := by
  have written : Course skip f (f.modMachine m fun y => { y with halts := y.halts.write false r }) :=
    course_quiet f m _ (fun _ => rfl) (fun _ => rfl) fun _ => id
  unfold Floor.removeHalt
  split
  · exact .refl f
  split
  · simp only
    split
    · split
      · exact written
      · split
        · exact written.trans (course_motion _ _ _)
        · exact .after (course_attempt k true _ m) <|
            .after (course_settled k _ m _ (fun _ => rfl) (fun _ => rfl) fun _ => id) <|
              written.trans (course_motion _ _ _)
    · exact written
  · exact .refl f

theorem blockCells_stands (f : Floor) (m : Nat) : (f.blockCells m).fleetCounters = f.fleetCounters ∧
    (f.blockCells m).machines = f.machines ∧ (EmbargoLaw f → EmbargoLaw (f.blockCells m)) := by
  unfold Floor.blockCells
  generalize (f.cells.keysWhere fun c => decide (c.occ = .held m)) = cs
  induction cs generalizing f with
  | nil => exact ⟨rfl, rfl, id⟩
  | cons c rest ih =>
    obtain ⟨counters, machines, embargo⟩ := ih (f.setOcc c (.blocked m))
    exact ⟨counters.trans (by simp), machines.trans (by simp), fun law => embargo (embargoLaw_setOcc f c _ law)⟩

/-- R36: HELD and BLOCKED cells are taken alike. -/
theorem course_blockCells (f : Floor) (m : Nat) : Course skip f (f.blockCells m) := by
  have run (cs : List Nat) : ∀ f : Floor,
      (∀ c ∈ cs, ∀ z, f.cells.look c = some z → z.occ.taken = true) →
        Course skip f (cs.foldl (fun g c => g.setOcc c (.blocked m)) f) := by
    induction cs with
    | nil => exact fun f _ => .refl f
    | cons c rest ih =>
      intro f held
      refine (course_setOcc f c (.blocked m) fun z known _ => .inl (held c (by simp) z known)).trans (ih _ ?_)
      intro d listed z known
      rw [setOcc_look] at known
      split at known
      · obtain ⟨w, -, rfl⟩ := Option.map_eq_some_iff.1 known; rfl
      · exact held d (List.mem_cons_of_mem _ listed) z known
  by_cases once : f.cells.keys.Nodup
  · refine run _ f fun c listed z known => ?_
    simp only [Table.keysWhere, List.mem_map, List.mem_filter, decide_eq_true_eq] at listed
    obtain ⟨⟨d, w⟩, ⟨entry, held⟩, rfl⟩ := listed
    cases known.symm.trans (Table.look_of_mem once entry)
    rw [held]; rfl
  · obtain ⟨counters, machines, embargo⟩ := blockCells_stands f m
    exact ⟨by rw [counters]; exact id, by unfold PledgeLaw; rw [machines]; exact id, embargo,
      fun _ _ law => absurd law.1 once⟩

/-! ### Loss -/

theorem course_lose (k : Control) (f : Floor) (m : Nat) (r : NoticeReason) : Course skip f (f.lose k m r) := by
  have flushed := (course_blockCells (skip := skip) f m).trans <|
    (course_leaveWait _ m).trans (course_flushOrders _ m)
  unfold Floor.lose
  refine .after (course_raise k _ _ _ _) (.after (course_modSettled k _ m _ fun x known => ?_) flushed)
  obtain ⟨queue, out⟩ := flushOrders_look known
  unfold KeepsPledge promised
  simp [queue, out]

theorem course_countMiss (k : Control) (f : Floor) (m : Nat) (r : NoticeReason) :
    Course skip f (f.countMiss k m r) := by
  have missed : Course skip f (f.modMachine m fun x => { x with misses := x.misses + 1 }) :=
    course_quiet f m _ (fun _ => rfl) (fun _ => rfl) fun _ => id
  unfold Floor.countMiss
  simp only
  split
  · exact missed
  · split
    · exact missed.trans (course_lose k _ m r)
    · exact missed

theorem course_recordSupplies (k : Control) (f : Floor) (m battery water : Nat) :
    Course skip f (f.recordSupplies k m battery water) := by
  unfold Floor.recordSupplies
  split
  · exact .refl f
  · simp only
    split
    · exact .after (course_attempt k true _ m) (course_quiet f m _ (fun _ => rfl) (fun _ => rfl) fun _ => id)
    · exact course_quiet f m _ (fun _ => rfl) (fun _ => rfl) fun _ => id

theorem course_beacon (k : Control) (f : Floor) (m b w : Nat) : Course skip f (f.beacon k m b w) := by
  unfold Floor.beacon
  split
  · exact .refl f
  split
  · exact course_recordSupplies k f m b w
  split
  · exact .after (course_recordSupplies k _ m b w) (course_quiet f m _ (fun _ => rfl) (fun _ => rfl) fun _ => id)
  · exact .after (course_countMiss k _ m _) (course_quiet f m _ (fun _ => rfl) (fun _ => rfl) fun _ => id)

theorem fleetCountersKept_repeats {c : FleetCounters} (h : FleetCountersKept c) :
    FleetCountersKept { c with repeats := bump c.repeats } := by
  obtain ⟨h1, h2, h3, h4, h5, h6, h7, h8, h9, h10⟩ := h
  exact ⟨h1, h2, h3, h4, h5, h6, h7, h8, bump_le _ h9, h10⟩

theorem fleetCountersKept_strayAcks {c : FleetCounters} (h : FleetCountersKept c) :
    FleetCountersKept { c with strayAcks := bump c.strayAcks } := by
  obtain ⟨h1, h2, h3, h4, h5, h6, h7, h8, h9, h10⟩ := h
  exact ⟨h1, h2, h3, h4, h5, h6, h7, bump_le _ h8, h9, h10⟩

theorem course_counted {f g : Floor} (cells : g.cells = f.cells) (lines : g.lines = f.lines)
    (machines : g.machines = f.machines)
    (counters : FleetCountersKept f.fleetCounters → FleetCountersKept g.fleetCounters) : Course skip f g :=
  ⟨counters, by unfold PledgeLaw; rw [machines]; exact id, (SameGround.of_eq cells lines).embargo,
    fun _ _ => (SameGround.of_eq cells lines).bands⟩

theorem course_replyExpiry (k : Control) (f : Floor) (m : Nat) : Course skip f (f.replyExpiry k m) := by
  have stopped : Course skip f (f.modMachine m fun x => { x with replyWindow := none }) :=
    course_quiet f m _ (fun _ => rfl) (fun _ => rfl) fun _ => id
  have counted (f : Floor) : Course skip f (if k.mode = .standby then f else f.countMiss k m .reply) := by
    split
    · exact .refl f
    · exact course_countMiss k f m _
  have expired := stopped.trans (counted _)
  have repeated (g : Floor) (tx : List FleetOut) : Course skip g { g with
      fleetTx := tx, fleetCounters := { g.fleetCounters with repeats := bump g.fleetCounters.repeats } } :=
    course_counted rfl rfl rfl fleetCountersKept_repeats
  unfold Floor.replyExpiry
  simp only
  split
  · exact expired.trans (repeated _ _)
  · exact expired

theorem course_beaconExpiry (k : Control) (f : Floor) (m : Nat) : Course skip f (f.beaconExpiry k m) :=
  .after (course_countMiss k _ m _) (course_quiet f m _ (fun _ => rfl) (fun _ => rfl) fun _ => id)

theorem course_standDown (k : Control) (f : Floor) (m code : Nat) : Course skip f (f.standDown k m code) :=
  .after (course_raise k _ _ _ _) <| .after (course_settled k _ m _ (fun _ => rfl) (fun _ => rfl) fun _ => id) <|
    course_leaveOrdinary f m

theorem course_faultStop (k : Control) (f : Floor) (m code : Nat) : Course skip f (f.faultStop k m code) := by
  unfold Floor.faultStop
  split
  · exact .refl f
  next x _ =>
  have noted : Course skip f (f.modMachine m fun y => { y with safeStops := bumpTo 15 x.safeStops, lastFault := some code }) :=
    course_quiet f m _ (fun _ => rfl) (fun _ => rfl) fun _ => id
  simp only
  split
  · exact noted
  split
  · exact noted.trans (course_standDown k _ m code)
  · exact .after (course_raise k _ _ _ _) (noted.trans (course_addHalt k _ _ m))

theorem course_restart (k : Control) (f : Floor) (m : Nat) : Course skip f (f.restart k m) := by
  unfold Floor.restart
  split
  · exact .refl f
  split
  · exact .refl f
  · exact course_removeHalt k _ f m

theorem course_stall (k : Control) (f : Floor) (m : Nat) : Course skip f (f.stall k m) :=
  .after (course_raise k _ _ _ _) <| .after (course_settled k _ m _ (fun _ => rfl) (fun _ => rfl) fun _ => id) <|
    course_leaveOrdinary f m

theorem course_frameSent (k : Control) (f : Floor) (m : Nat) : Course skip f (f.frameSent k m) := by
  unfold Floor.frameSent
  split
  · exact .after (course_quiet _ m _ (fun _ => rfl) (fun _ => rfl) fun _ => id) (.beside rfl rfl rfl rfl)
  · exact .refl f

theorem course_freeCell (k : Control) (f : Floor) (c : Nat) : Course skip f (f.freeCell k c) :=
  (course_setOcc f c .free (mayTake_given f c rfl)).trans (course_offerCell k _ c)

/-! ### Arrivals -/

theorem course_unexpected (k : Control) (f : Floor) (m c : Nat) : Course skip f (f.unexpected k m c) :=
  .after (course_raise k _ _ _ _) <| .after (course_addHalt k _ _ m) <|
    course_quiet f m _ (fun _ => rfl) (fun _ => rfl) fun _ => id

theorem course_arrive (k : Control) (f : Floor) (m c count : Nat) : Course skip f (f.arrive k m c count) := by
  have arrived : Course skip f (f.arrival k m c) := by
    unfold Floor.arrival
    split
    · exact .refl f
    next x _ =>
    split
    · exact (course_acceptArrival k f m x _).trans (course_offerReleased k _ _)
    split
    · exact .after (course_offerReleased k _ _) <|
        .after (course_quiet _ m _ (fun _ => rfl) (fun _ => rfl) fun _ => id) (course_release k m f _)
    split
    · exact course_quiet f m _ (fun _ => rfl) (fun _ => rfl) fun _ => id
    · exact course_unexpected k f m c
  unfold Floor.arrive
  simp only
  split
  · exact arrived
  · exact arrived.trans (course_request k _ m count)

/-! ### Withdrawals -/

theorem course_startWithdrawal (k : Control) (cancel : Bool) (refuge : Option Nat) (f : Floor) (m : Nat) :
    Course skip f (f.startWithdrawal k cancel refuge m) := by
  have begun (f : Floor) : Course skip f ((f.modMachine m fun y =>
      { y with withdrawal := some (mergeWithdrawal cancel refuge y.withdrawal) }).order m (.withdraw cancel refuge)) := by
    refine .after (course_order _ m _ fun _ x known => ?_)
      (course_quiet f m _ (fun _ => rfl) (fun _ => rfl) fun _ _ => rfl)
    simp only [Floor.modMachine_machines, Table.look_upd_self, Option.map_eq_some_iff] at known
    obtain ⟨y, -, rfl⟩ := known
    rfl
  unfold Floor.startWithdrawal
  split
  · exact .refl f
  split
  · exact .refl f
  simp only
  split
  · exact .after (begun _) <| .after (course_settled k _ m _ (fun _ => rfl) (fun _ => rfl) fun _ => id)
      (course_leaveWait f m)
  · exact begun f

theorem course_cancelLeg (k : Control) (f : Floor) (m : Nat) (w : Bool) : Course skip f (f.cancelLeg k m w) := by
  have discarded : Course skip f (f.modMachine m fun x => { x with staged := none }) :=
    course_quiet f m _ (fun _ => rfl) (fun _ => rfl) fun _ => id
  unfold Floor.cancelLeg
  simp only
  split
  · exact discarded.trans (course_startWithdrawal k _ _ _ m)
  · exact discarded

theorem course_loadLeg (k : Control) (f : Floor) (m : Nat) (leg : Leg) : Course skip f (f.loadLeg k m leg) :=
  .after (course_attempt k false _ m) (course_quiet f m _ (fun _ => rfl) (fun _ => rfl) fun _ => id)

/-- R132: the withdrawal ends only where no WITHDRAW is queued; what is outstanding is being acknowledged. -/
theorem course_settleWithdrawal (f : Floor) (m : Nat) (acked : skip m = true) :
    Course skip f (f.settleWithdrawal m) := by
  refine course_modMachine f m _ fun x _ => ?_
  unfold KeepsPledge promised
  simp only [acked, if_true, List.append_nil]
  intro law any
  have pending := law any
  obtain ⟨o, listed, holds⟩ := List.any_eq_true.1 any
  cases found : x.queue.find? fun o => decide (o.kind = 4) with
  | none => exact absurd ((isWithdraw_iff o).1 holds) (by simpa using List.find?_eq_none.1 found o listed)
  | some q =>
    have kind := List.find?_some found
    cases q <;> simp [Order.kind] at kind
    simp only [Scrubber.queuedWithdraw, found, Option.isSome_map]
    exact pending

theorem course_waitForRefuge (k : Control) (f : Floor) (m r : Nat) (o : Occupancy) :
    Course skip f (f.waitForRefuge k m r o) := by
  have joined : Course skip f ((f.joinList m true (.cell r)).modMachine m fun x => { x with request := some (.refuge r) }) :=
    .after (course_quiet _ m _ (fun _ => rfl) (fun _ => rfl) fun _ => id) (course_joinList f m true _)
  have warned (g : Floor) : Course skip g
      (if g.closesRing m (.cell r) then g.raise k .cycle (some m) (some .refugeRing) else g) := by
    split
    · exact course_raise k _ _ _ _
    · exact .refl g
  unfold Floor.waitForRefuge
  exact .after (course_answer _ _ _) (joined.trans (warned _))

theorem course_settleRefuge (k : Control) (f : Floor) (m r : Nat) (kept : Bool) :
    Course skip f (f.settleRefuge k m r kept) := by
  unfold Floor.settleRefuge
  split
  · exact .refl f
  next c known =>
  split
  · exact .after (course_answer _ _ _) (course_quiet f m _ (fun _ => rfl) (fun _ => rfl) fun _ => id)
  split
  · next free => exact course_grantRefuge f m r fun z hz => by cases known.symm.trans hz; exact free.2
  · exact course_waitForRefuge k f m r _

theorem course_discardLegs (k : Control) (f : Floor) (m : Nat) (r : NoticeReason) :
    Course skip f (f.discardLegs k m r) := by
  unfold Floor.discardLegs
  split
  · exact .refl f
  · simp only
    split
    · exact .after (course_raise k _ _ _ _)
        (course_settled k f m _ (fun _ => rfl) (fun _ => rfl) fun _ h => by simpa using h)
    · exact course_settled k f m _ (fun _ => rfl) (fun _ => rfl) fun _ h => by simpa using h

theorem course_settleLegs (k : Control) (f : Floor) (m : Nat) (cancel embargoed : Bool) (acked : skip m = true) :
    Course skip f (f.settleLegs k m cancel embargoed) := by
  have kept : Course skip f ((f.modSettled k m fun x => { x with state := x.afterKeep }).settleWithdrawal m) :=
    .after (course_settleWithdrawal _ m acked) (course_settled k f m _ (fun _ => rfl) (fun _ => rfl) fun _ => id)
  unfold Floor.settleLegs
  split
  · exact (course_discardLegs k f m _).trans (course_settleWithdrawal _ m acked)
  · simp only
    split
    · exact kept.trans (course_decidePromotion k _ m)
    · exact kept

theorem course_stopAt (k : Control) (f : Floor) (m : Nat) (x : Scrubber) (cancel : Bool) (s : Nat) (j : Option Nat)
    (acked : skip m = true) : Course skip f (f.stopAt k m x cancel s j) := by
  have arrived : Course skip f (match j with | some j => f.acceptArrival k m x j | none => f) := by
    cases j with
    | some j => exact course_acceptArrival k f m x j
    | none => exact .refl f
  have settled (g : Floor) (given : List Nat) (embargoed : Bool) : Course skip g
      (((given.foldl (Floor.release k m) g).modSettled k m fun y => { y with ahead := [] }).settleLegs k m cancel
        embargoed) :=
    .after (course_settleLegs k _ m _ _ acked) <|
      .after (course_settled k _ m _ (fun _ => rfl) (fun _ => rfl) fun _ => id) (course_releases k m g given)
  unfold Floor.stopAt
  simp only
  refine .after (course_offerReleased k _ _) ?_
  split
  · exact .after (course_settleRefuge k _ m _ _) (arrived.trans (settled _ _ _))
  · exact arrived.trans (settled _ _ _)

theorem course_ackWithdraw (k : Control) (f : Floor) (m : Nat) (cancel : Bool) (s : Nat) (acked : skip m = true) :
    Course skip f (f.ackWithdraw k m cancel s) := by
  unfold Floor.ackWithdraw
  split
  · exact .refl f
  split
  · exact course_stopAt k f m _ _ _ _ acked
  split
  · exact course_stopAt k f m _ _ _ _ acked
  · exact (course_unexpected k f m s).trans (course_settleWithdrawal _ m acked)

theorem course_decline (k : Control) (f : Floor) (m tag : Nat) (cells : List Nat) :
    Course skip f (f.decline k m tag cells) := by
  have discarded : Course skip f (((f.modMachine m fun y => { y with active := none }).raise k .legAborted (some m)
      (some .declined)).modMachine m fun y => { y with staged := none }) :=
    .after (course_quiet _ m _ (fun _ => rfl) (fun _ => rfl) fun _ => id) <| .after (course_raise k _ _ _ _) <|
      course_quiet f m _ (fun _ => rfl) (fun _ => rfl) fun _ => id
  unfold Floor.decline
  split
  · exact .refl f
  split
  · simp only
    split
    · exact .after (course_settled k _ m _ (fun _ => rfl) (fun _ => rfl) fun _ => id)
        (discarded.trans (course_leaveOrdinary _ m))
    · exact discarded.trans (course_startWithdrawal k _ _ _ m)
  · exact .refl f

/-- R98: an event that begins with all orders in hand counted, and ends with the acknowledged one gone. -/
theorem course_ack (k : Control) (f : Floor) (m kind stop : Nat) (declined : Bool) :
    Course (fun _ => false) f (f.ack k m kind stop declined) := by
  have stray : Course (fun _ => false) f
      { f with fleetCounters := { f.fleetCounters with strayAcks := bump f.fleetCounters.strayAcks } } :=
    course_counted rfl rfl rfl fleetCountersKept_strayAcks
  have effects (o : Order) : Course (fun n => decide (n = m)) f (f.ackEffects k m stop declined o) := by
    cases o with
    | leg tag flow homing cells =>
      simp only [Floor.ackEffects]
      split
      · exact course_decline k f m tag cells
      · exact .refl f
    | withdraw cancel refuge => exact course_ackWithdraw k f m cancel stop (by simp)
    | answer a => exact .refl f
    | motion r => exact .refl f
  unfold Floor.ack
  split
  · next o _ =>
    split
    · have ran := effects o
      refine .after (course_deliver _ m) ⟨ran.counters, fun law => ?_, (SameGround.of_eq rfl rfl).embargo ∘ ran.embargo,
        fun live embargo bands => (SameGround.of_eq rfl rfl).bands (ran.bands live embargo bands)⟩
      have during : PledgeLaw (fun n => decide (n = m)) f := fun n x known any => law n x known (by
        unfold promised at any ⊢
        simp only [List.any_append, Bool.or_eq_true, Bool.false_eq_true, if_false] at any ⊢
        refine any.imp_right fun h => ?_
        split at h
        · simp at h
        · exact h)
      intro n y known any
      rw [Floor.clearOutstanding_machines, Table.look_upd] at known
      split at known
      · next here =>
        subst here
        obtain ⟨x, hx, rfl⟩ := Option.map_eq_some_iff.1 known
        exact ran.pledge during n x hx (by simpa [promised] using any)
      · next other => exact ran.pledge during n y known (by simpa [promised, other] using any)
    · exact stray
  · exact stray

end Sys2Proof.Laws
end

section
/-! ## The course of the line events and of the commands that set the floor up -/

namespace Sys2Proof.Laws

open Sys2Proof Sys2Proof.Machine Sys2Proof.Safety

-- One theorem at a time, as in the tests above: side by side their threads' stacks take the memory.
set_option Elab.async false

variable {skip : Nat → Bool}

/-! ### A line that comes into force or becomes QUIET -/

/-- 1 for a line that is not QUIET. -/
def inForce (l : Line) : Nat := if l.state = .quiet then 0 else 1

/-- R21: how the count of one band moves with one line. -/
theorem embargoFor_upd {f g : Floor} {i : Nat} {h : Line → Line} {l : Line} (once : f.lines.keys.Nodup)
    (known : f.lines.look i = some l) (lines : g.lines = f.lines.upd i h) (band : BitVec 16) :
    g.embargoFor band + (if band.getLsbD i then inForce l else 0) =
      f.embargoFor band + if band.getLsbD i then inForce (h l) else 0 := by
  have counted := Table.countP_upd_key (g := h) (fun j r => band.getLsbD j && !decide (r.state = .quiet)) once known
  unfold Floor.embargoFor
  rw [lines, ← List.countP_eq_length_filter, ← List.countP_eq_length_filter]
  unfold inForce
  cases inside : band.getLsbD i
  · simpa [inside] using counted
  · simp only [inside, Bool.true_and, Bool.not_eq_true', decide_eq_false_iff_not, if_true] at counted ⊢
    simpa only [ite_not] using counted

/-- Line `i` changes by `h`, and the cells of its band count embargoes anew by `count`. -/
structure Turned (f g : Floor) (i : Nat) (h : Line → Line) (count : Nat → Nat) : Prop where
  lines : g.lines = f.lines.upd i h
  cells : Table.remap groundOf g.cells = Table.remap (fun z => ⟨z.band, z.occ, if z.inBand i then count z.embargo else z.embargo⟩)
    f.cells

namespace Turned

variable {f g : Floor} {i : Nat} {h : Line → Line} {count : Nat → Nat}

theorem keys (t : Turned f g i h count) : g.cells.keys = f.cells.keys := by
  simpa using congrArg Table.keys t.cells

theorem ground (t : Turned f g i h count) (c : Nat) : (g.cells.look c).map groundOf =
    (f.cells.look c).map fun z => ⟨z.band, z.occ, if z.inBand i then count z.embargo else z.embargo⟩ := by
  rw [← Table.look_remap, ← Table.look_remap, t.cells]

theorem look (t : Turned f g i h count) {c : Nat} {y : Cell} (known : g.cells.look c = some y) :
    ∃ z, f.cells.look c = some z ∧ y.band = z.band ∧ y.occ = z.occ ∧
      y.embargo = if z.inBand i then count z.embargo else z.embargo := by
  have same := t.ground c
  rw [known] at same
  obtain ⟨z, hz, eq⟩ := Option.map_eq_some_iff.1 same.symm
  obtain ⟨band, occ, embargo⟩ := Ground.mk.inj eq
  exact ⟨z, hz, band.symm, occ.symm, embargo.symm⟩

theorem bandEmpty (t : Turned f g i h count) (j : Nat) : BandEmpty g j ↔ BandEmpty f j := by
  constructor
  · intro empty c z known inside
    have same := t.ground c
    rw [known] at same
    obtain ⟨y, hy, eq⟩ := Option.map_eq_some_iff.1 same
    obtain ⟨band, occ, -⟩ := Ground.mk.inj eq
    exact occ ▸ empty c y hy (by rwa [Cell.inBand, band])
  · intro empty c y known inside
    obtain ⟨z, hz, band, occ, -⟩ := t.look known
    exact occ ▸ empty c z hz (by rwa [Cell.inBand, ← band])

/-- What a line that turns has to keep: the counts go with it, and it stands as its band says. -/
theorem course (t : Turned f g i h count) {l : Line} (known : f.lines.look i = some l)
    (counters : FleetCountersKept f.fleetCounters → FleetCountersKept g.fleetCounters)
    (pledge : PledgeLaw skip f → PledgeLaw skip g) (counts : ∀ n, inForce l ≤ n → count n + inForce l = n + inForce (h l))
    (clear : (h l).state ≠ .quiet → f.cells.keys.Nodup → (l.state ≠ .quiet → (l.state = .clear ↔ BandEmpty f i)) →
      ((h l).state = .clear ↔ BandEmpty f i))
    (timer : (h l).clearTimer.isSome = true → (h l).state = .clearing) (output : (h l).clearOutput = l.clearOutput) :
    Course skip f g where
  counters := counters
  pledge := pledge
  embargo law := by
    refine ⟨by rw [t.lines, Table.keys_upd]; exact law.1, fun c y hy => ?_⟩
    obtain ⟨z, hz, band, -, embargo⟩ := t.look hy
    have sum := embargoFor_upd law.1 known t.lines z.band
    have old := law.2 c z hz
    rw [embargo, band]
    by_cases inside : z.inBand i = true
    · have least : inForce l ≤ z.embargo := by
        unfold inForce
        split
        · exact Nat.zero_le _
        · next loud =>
          exact Nat.pos_of_ne_zero fun none => loud (quiet_of_embargo law hz none inside known)
      have := counts z.embargo least
      rw [if_pos inside]
      rw [Cell.inBand] at inside
      simp only [inside, if_true] at sum
      omega
    · rw [if_neg inside]
      rw [Cell.inBand] at inside
      simp only [inside, if_false, Nat.add_zero, Bool.false_eq_true] at sum
      omega
  bands live _ law := by
    refine ⟨t.keys ▸ law.1, fun j r hr => ?_⟩
    rw [t.bandEmpty j]
    rw [t.lines, Table.look_upd] at hr
    split at hr
    · next here =>
      subst here
      rw [known] at hr
      cases hr
      exact ⟨fun loud => clear loud law.1 (law.2 j l known).1, timer, by rw [output]; exact (law.2 j l known).2.2⟩
    · exact law.2 j r hr

end Turned

/-- A line changed in what the bands' laws do not read. -/
theorem course_modLine (f : Floor) (i : Nat) (h : Line → Line) (state : ∀ l, (h l).state = l.state)
    (timer : ∀ l, (h l).clearTimer = l.clearTimer ∨ (h l).clearTimer = none)
    (output : ∀ l, (h l).clearOutput = l.clearOutput) : Course skip f (f.modLine i h) := by
  have quiet (band : BitVec 16) : (f.modLine i h).embargoFor band = f.embargoFor band := by
    unfold Floor.embargoFor
    rw [Floor.modLine_lines, Table.upd, List.filter_map, List.length_map]
    congr 1
    refine List.filter_congr fun e _ => ?_
    simp only [Function.comp_apply]
    split
    · simp [state]
    · rfl
  refine ⟨id, id, fun law => ⟨?_, fun c z known => by rw [quiet]; exact law.2 c z known⟩, fun live _ law => ⟨law.1, ?_⟩⟩
  · rw [Floor.modLine_lines, Table.keys_upd]; exact law.1
  · intro j r hr
    rw [Floor.modLine_lines, Table.look_upd] at hr
    split at hr
    · obtain ⟨l, hl, rfl⟩ := Option.map_eq_some_iff.1 hr
      obtain ⟨clear, running, out⟩ := law.2 j l hl
      rw [state, output]
      refine ⟨clear, fun runs => ?_, out⟩
      rcases timer l with same | stopped
      · exact running (by rwa [same] at runs)
      · rw [stopped] at runs; cases runs
    · exact law.2 j r hr

theorem sameGround_startWithdrawal (k : Control) (cancel : Bool) (refuge : Option Nat) (f : Floor) (m : Nat) :
    SameGround f (f.startWithdrawal k cancel refuge m) := by
  unfold Floor.startWithdrawal
  split
  · exact .refl f
  split
  · exact .refl f
  simp only
  split
  · exact (sameGround_leaveWait f m).trans (.of_eq (by simp) (by simp))
  · exact .of_eq (by simp) (by simp)

theorem sameGround_withdrawRaised (k : Control) (raised : List Nat) (f : Floor) (m : Nat) :
    SameGround f (f.withdrawRaised k raised m) := by
  unfold Floor.withdrawRaised
  split
  · exact .refl f
  · simp only
    split
    · exact .refl f
    · split
      · exact sameGround_startWithdrawal k _ _ f m
      · exact sameGround_startWithdrawal k _ _ f m

theorem course_withdrawRaised (k : Control) (raised : List Nat) (f : Floor) (m : Nat) :
    Course skip f (f.withdrawRaised k raised m) := by
  unfold Floor.withdrawRaised
  split
  · exact .refl f
  · simp only
    split
    · exact .refl f
    · split
      · exact course_startWithdrawal k _ _ f m
      · exact course_startWithdrawal k _ _ f m

/-- Cells counted anew in a band. -/
theorem remap_recounted (t : Table Cell) (i : Nat) (count : Nat → Nat) :
    Table.remap groundOf (t.each fun _ c => if c.inBand i then { c with embargo := count c.embargo } else c) =
      Table.remap (fun z => ⟨z.band, z.occ, if z.inBand i then count z.embargo else z.embargo⟩) t := by
  unfold Table.remap Table.each
  rw [List.map_map]
  refine List.map_congr_left fun e _ => ?_
  simp only [Function.comp_apply]
  by_cases inside : e.2.inBand i = true <;> simp [inside, groundOf]

/-- R127, R145: a QUIET line comes into force. -/
theorem course_startEmbargo (k : Control) (f : Floor) (i : Nat) {l : Line} (known : f.lines.look i = some l)
    (quiet : l.state = .quiet) : Course skip f (f.startEmbargo k i) := by
  unfold Floor.startEmbargo
  simp only
  generalize (f.cells.keysWhere fun c => c.inBand i && decide (c.embargo = 0)) = raised
  let counted : Floor :=
    { f with cells := f.cells.each fun _ c => if c.inBand i then { c with embargo := c.embargo + 1 } else c }
  have fold := Course.foldl (skip := skip) (course_withdrawRaised k raised) counted.machines.keys counted
  have ground := SameGround.foldl (sameGround_withdrawRaised k raised) counted.machines.keys counted
  change Course skip f (Floor.modLine (counted.machines.keys.foldl (Floor.withdrawRaised k raised) counted) i _)
  generalize counted.machines.keys.foldl (Floor.withdrawRaised k raised) counted = g at fold ground
  have turned (h : Line → Line) : Turned f (g.modLine i h) i h (· + 1) :=
    ⟨by rw [Floor.modLine_lines, ground.lines], ground.cells.trans (remap_recounted f.cells i (· + 1))⟩
  refine (turned _).course known fold.counters fold.pledge (fun n _ => ?_) (fun _ once _ => ?_) (fun runs => ?_) rfl
  · unfold inForce
    split <;> split <;> simp_all
  · have empty := bandTaken_eq_zero (f := g) ((turned id).keys ▸ once) i
    rw [← (turned id).bandEmpty i]
    refine Iff.trans ?_ empty
    split <;> simp_all
  · split at runs
    · cases runs
    · next busy => exact if_neg busy

/-- R148: a line in force becomes QUIET. -/
theorem course_endEmbargo (k : Control) (f : Floor) (i : Nat) {l : Line} (known : f.lines.look i = some l)
    (loud : l.state ≠ .quiet) : Course skip f (f.endEmbargo k i) := by
  unfold Floor.endEmbargo
  refine .after (course_offerCells k _ _) ?_
  have turned (h : Line → Line) : Turned f
      (Floor.modLine { f with
        cells := f.cells.each fun _ c => if c.inBand i then { c with embargo := c.embargo - 1 } else c } i h) i h (· - 1) :=
    ⟨Floor.modLine_lines _ _ _, remap_recounted f.cells i (· - 1)⟩
  refine (turned _).course known id id (fun n some => ?_) (fun quiet => absurd rfl quiet) nofun rfl
  simp only [inForce, if_neg loud, if_true] at some ⊢
  omega

theorem course_startIfQuiet (k : Control) (f : Floor) (i : Nat) : Course skip f (f.startIfQuiet k i) := by
  unfold Floor.startIfQuiet
  split
  · exact .refl f
  next l known =>
  split
  · next quiet => exact course_startEmbargo k f i known quiet
  · exact .refl f

theorem course_endIfInForce (k : Control) (f : Floor) (i : Nat) : Course skip f (f.endIfInForce k i) := by
  unfold Floor.endIfInForce
  split
  · exact .refl f
  next l known =>
  split
  · exact .refl f
  · next loud => exact course_endEmbargo k f i known loud

/-! ### The lines' events -/

/-- A line changed in its sampling, its hold or its counts. -/
theorem course_sampling (f : Floor) (i : Nat) (h : Line → Line) (state : ∀ l, (h l).state = l.state)
    (timer : ∀ l, (h l).clearTimer = l.clearTimer) (output : ∀ l, (h l).clearOutput = l.clearOutput) :
    Course skip f (f.modLine i h) := course_modLine f i h state (fun l => .inl (timer l)) output

theorem course_startHold (k : Control) (f : Floor) (i : Nat) : Course skip f (f.startHold k i) :=
  course_sampling f i _ (fun _ => rfl) (fun _ => rfl) fun _ => rfl

theorem course_activeEdge (k : Control) (f : Floor) (i : Nat) : Course skip f (f.activeEdge k i) := by
  unfold Floor.activeEdge
  split
  · exact .refl f
  next l known =>
  split
  · exact course_sampling f i _ (fun _ => rfl) (fun _ => rfl) fun _ => rfl
  · split
    · next quiet => exact course_startEmbargo k f i known quiet
    · exact course_sampling f i _ (fun _ => rfl) (fun _ => rfl) fun _ => rfl

theorem course_inactiveEdge (k : Control) (f : Floor) (i : Nat) : Course skip f (f.inactiveEdge k i) := by
  have ended : Course skip f (f.modLine i fun r => { r with pulse := none, stuck := false }) :=
    course_sampling f i _ (fun _ => rfl) (fun _ => rfl) fun _ => rfl
  unfold Floor.inactiveEdge
  split
  · exact .refl f
  next l _ =>
  split
  · simp only
    split
    · exact ended.trans (course_startHold k _ i)
    · split
      · exact .after (course_raise k _ _ _ _) <|
          .after (course_sampling _ i _ (fun _ => rfl) (fun _ => rfl) fun _ => rfl) ended
      · exact ended.trans ((course_startHold k _ i).trans (course_startIfQuiet k _ i))
  · split
    · exact course_endIfInForce k f i
    · exact course_startHold k f i

theorem course_stuckLine (k : Control) (f : Floor) (i : Nat) : Course skip f (f.stuckLine k i) :=
  .after (course_raise k _ _ _ _) <| .after (course_sampling _ i _ (fun _ => rfl) (fun _ => rfl) fun _ => rfl) <|
    .after (course_startIfQuiet k _ i) (course_sampling f i _ (fun _ => rfl) (fun _ => rfl) fun _ => rfl)

theorem course_countPulse (k : Control) (f : Floor) (i : Nat) : Course skip f (f.countPulse k i) := by
  unfold Floor.countPulse
  split
  · exact .refl f
  split
  · exact .refl f
  · split
    · exact course_stuckLine k f i
    · exact course_sampling f i _ (fun _ => rfl) (fun _ => rfl) fun _ => rfl

theorem course_sampleLine (k : Control) (f : Floor) (i : Nat) (flow : Bool) : Course skip f (f.sampleLine k i flow) := by
  unfold Floor.sampleLine
  split
  · exact .refl f
  next l _ =>
  split
  · simp only
    have sampled : Course skip f (f.modLine i fun r =>
        { r with
          counter := (filterSample l.cfg.threshold l.counter l.level (l.cfg.rawActive flow)).1
          level := (filterSample l.cfg.threshold l.counter l.level (l.cfg.rawActive flow)).2 }) :=
      course_sampling f i _ (fun _ => rfl) (fun _ => rfl) fun _ => rfl
    split
    · split
      · exact sampled.trans (course_countPulse k _ i)
      · exact sampled
    · split
      · exact sampled.trans (course_activeEdge k _ i)
      · exact sampled.trans (course_inactiveEdge k _ i)
  · exact .refl f

theorem course_activeEdgeEvent (k : Control) (f : Floor) (i : Nat) : Course skip f (f.activeEdgeEvent k i) := by
  unfold Floor.activeEdgeEvent
  split
  · exact .refl f
  · split
    · exact .after (course_activeEdge k _ i) (course_sampling f i _ (fun _ => rfl) (fun _ => rfl) fun _ => rfl)
    · exact .refl f

theorem course_inactiveEdgeEvent (k : Control) (f : Floor) (i : Nat) : Course skip f (f.inactiveEdgeEvent k i) := by
  unfold Floor.inactiveEdgeEvent
  split
  · exact .refl f
  · split
    · exact .after (course_inactiveEdge k _ i) (course_sampling f i _ (fun _ => rfl) (fun _ => rfl) fun _ => rfl)
    · exact .refl f

theorem course_stuckEvent (k : Control) (f : Floor) (i : Nat) (flow : Bool) : Course skip f (f.stuckEvent k i flow) := by
  unfold Floor.stuckEvent
  split
  · exact .refl f
  · simp only
    split
    · split
      · exact .after (course_stuckLine k _ i) (course_sampling f i _ (fun _ => rfl) (fun _ => rfl) fun _ => rfl)
      · exact .refl f
    · exact .refl f

theorem course_holdExpiry (k : Control) (f : Floor) (i : Nat) : Course skip f (f.holdExpiry k i) :=
  .after (course_endIfInForce k _ i) (course_sampling f i _ (fun _ => rfl) (fun _ => rfl) fun _ => rfl)

/-- R149: only a line in CLEARING, which is not CLEAR before or after, comes to a BREACH. -/
theorem course_breach (k : Control) (f : Floor) (i : Nat) {t : Nat} (runs : f.clearOutDeadline i = some t) :
    Course skip f (f.breach k i) := by
  refine .after (course_raise k _ _ _ _) ?_
  unfold Floor.clearOutDeadline at runs
  split at runs
  · next l known =>
    split at runs
    · next clearing =>
      have turned (h : Line → Line) : Turned f (f.modLine i h) i h id :=
        ⟨Floor.modLine_lines f i h, by simp only [id, ite_self]; rfl⟩
      refine (turned _).course known id id (fun n _ => ?_) (fun _ _ old => ?_) nofun rfl
      · simp [inForce, clearing]
      · simpa [clearing] using old
    · cases runs
  · cases runs

theorem course_setupLine (k : Control) (f : Floor) (i : Nat) (cfg : LineConfig) :
    Course skip f (f.setupLine k i cfg) :=
  .after (course_modLine _ i _ (fun _ => rfl) (fun _ => .inr rfl) fun _ => rfl) <|
    .after (course_endIfInForce k _ i) (course_sampling f i _ (fun _ => rfl) (fun _ => rfl) fun _ => rfl)

end Sys2Proof.Laws
end

section
/-! ## The steps keep embargo counts, bands, counts, queues and ranges -/

namespace Sys2Proof.Laws

open Sys2Proof Sys2Proof.Machine Sys2Proof.Safety

-- One theorem at a time, as in the tests above: side by side their threads' stacks take the memory.
set_option Elab.async false

variable {skip : Nat → Bool}

/-! ### Machines placed afresh -/

theorem taken_of_ownedBy {o : Occupancy} {m : Nat} (owned : o.ownedBy m = true) : o.taken = true := by
  cases o <;> simp_all [Occupancy.ownedBy, Occupancy.taken]

/-- A release leaves every other cell. -/
theorem release_look_ne (k : Control) (m : Nat) (f : Floor) {c d : Nat} (other : d ≠ c) :
    (f.release k m c).cells.look d = f.cells.look d := by
  rw [release_cells, Table.look_upd, if_neg other]

theorem releases_look_ne (k : Control) (m : Nat) (cs : List Nat) (f : Floor) {d : Nat} (other : d ∉ cs) :
    (cs.foldl (Floor.release k m) f).cells.look d = f.cells.look d := by
  induction cs generalizing f with
  | nil => rfl
  | cons c cs ih =>
    rw [List.mem_cons, not_or] at other
    exact (ih _ other.2).trans (release_look_ne k m f other.1)

/-- R122: the cell of an accepted MACHINE RESTORE is the machine's, or FREE without embargo. -/
theorem restorable_of_restoreFault {s : State} {m c : Nat} (passed : s.restoreFault m c = none) :
    ∃ z, s.floor.cells.look c = some z ∧ (z.occ.ownedBy m = true ∨ z.occ = .free ∧ z.embargo = 0) := by
  unfold State.restoreFault at passed
  repeat (split at passed; · cases passed)
  next z known =>
  split at passed
  · next restorable =>
    refine ⟨z, known, ?_⟩
    simp only [Cell.restorable, Bool.and_eq_true, Bool.or_eq_true, decide_eq_true_eq] at restorable
    exact restorable.1
  · cases passed

theorem course_restore {s : State} {m c : Nat} (passed : s.restoreFault m c = none) :
    Course skip s.floor (s.floor.restore s.control m c) := by
  obtain ⟨z, known, open'⟩ := restorable_of_restoreFault passed
  have released := (course_leaveWait (skip := skip) s.floor m).trans
    (course_releases s.control m _ (s.floor.otherCells m c))
  have placed := (released.trans (course_setOcc _ c (.held m) fun y hy _ => ?_)).trans (course_place _ m c)
  · have written := (placed.trans (course_settled s.control _ m (fun x => x.restored s.control c) (fun _ => rfl)
      (fun _ => rfl) fun _ => id)).trans (course_removeHalt s.control .position _ m)
    unfold Floor.restore
    simp only
    refine .after (course_offerReleased _ _ _) ?_
    split
    · split
      · exact written
      · exact written.trans (course_startWithdrawal _ _ _ _ m)
    · exact written
  · rw [releases_look_ne _ _ _ _ (by simp [Floor.otherCells])] at hy
    obtain ⟨w, hw, -, occ, embargo⟩ := (sameGround_leaveWait s.floor m).look hy
    cases known.symm.trans hw
    rw [occ, embargo]
    exact open'.imp taken_of_ownedBy And.right

theorem course_withdraw (k : Control) (f : Floor) (m : Nat) : Course skip f (f.withdraw k m) := by
  have released := ((course_leaveWait (skip := skip) f m).trans (course_flushOrders _ m)).trans
    (course_releases k m _ (f.cellsOf m))
  unfold Floor.withdraw
  refine .after (course_offerReleased k _ _) (released.trans (.same (.of_eq rfl rfl) rfl fun law n x known => ?_))
  rw [Table.look_del] at known
  split at known
  · cases known
  · exact law n x known

theorem course_enroll (f : Floor) (m rank dock : Nat) {z : Cell} (known : f.cells.look dock = some z)
    (embargo : z.embargo = 0) : Course skip f (f.enroll m rank dock) := by
  have enrolled : Course skip f { f with machines := f.machines.put m (Scrubber.enrolled rank dock) } :=
    .same (.of_eq rfl rfl) rfl fun law n x hx => by
      rw [Table.look_put] at hx
      split at hx
      · cases hx
        simp [promised, Scrubber.enrolled]
      · exact law n x hx
  refine enrolled.trans ?_
  unfold Floor.enroll Floor.dockMachine
  split
  · next x hx =>
    rw [Table.look_put, if_pos rfl] at hx
    cases hx
    refine (course_setOcc _ _ _ fun y hy _ => .inr ?_).trans (course_place _ m _)
    cases known.symm.trans hy
    exact embargo
  · exact .refl _

/-! ### The floor work of an event -/

theorem course_beginNight (k : Control) (f : Floor) : Course skip f (f.beginNight k) := by
  refine .same ⟨rfl, by simp [Floor.beginNight, Table.remap, Table.each, groundOf]⟩ rfl fun law m y known => ?_
  rw [Floor.beginNight, Table.look_each] at known
  obtain ⟨x, hx, rfl⟩ := Option.map_eq_some_iff.1 known
  exact law m x hx

theorem course_of_work {s : State} {g : Floor} (w : Work s g) : Course (fun _ => false) s.floor g := by
  cases w with
  | raise cls subject reason => exact course_raise _ _ _ _ _
  | offerCell c => exact course_offerCell _ _ c
  | offerLane l => exact course_offerLane _ _ l
  | addHalt r m => exact course_addHalt _ r _ m
  | removeHalt r m => exact course_removeHalt _ r _ m
  | attempt m => exact course_attempt _ _ _ m
  | beginNight => exact course_beginNight _ _
  | loadLeg a => exact course_loadLeg _ _ _ _
  | cancelLeg m w => exact course_cancelLeg _ _ m w
  | restore m c passed => exact course_restore passed
  | heard m => exact course_quiet _ m _ (fun _ => rfl) (fun _ => rfl) fun _ => id
  | beacon m b w => exact course_beacon _ _ m b w
  | arrive m c count => exact course_arrive _ _ m c count
  | request m count => exact course_request _ _ m count
  | ack m kind stop declined => exact course_ack _ _ m kind stop declined
  | faultStop m code => exact course_faultStop _ _ m code
  | restart m => exact course_restart _ _ m
  | frameSent m => exact course_frameSent _ _ m
  | replyExpiry m => exact course_replyExpiry _ _ m
  | beaconExpiry m => exact course_beaconExpiry _ _ m
  | stall m => exact course_stall _ _ m
  | freeCell c => exact course_freeCell _ _ c
  | activeEdge i => exact course_activeEdgeEvent _ _ i
  | inactiveEdge i => exact course_inactiveEdgeEvent _ _ i
  | stuck i flow => exact course_stuckEvent _ _ i flow
  | holdExpiry i => exact course_holdExpiry _ _ i
  | breach i t runs => exact course_breach _ _ i runs
  | sample i flow => exact course_sampleLine _ _ i flow

/-! ### The set-up of the map, and FLEET RESET -/

/-- R21: each entry of CELL DEFINE counts the embargoes over its cell anew. -/
theorem embargoLaw_applyEntry (f : Floor) (e : CellEntry) (law : EmbargoLaw f) : EmbargoLaw (f.applyEntry e) := by
  unfold Floor.applyEntry
  split
  · refine ⟨law.1, fun c x known => ?_⟩
    rw [Table.look_del] at known
    split at known
    · cases known
    · exact law.2 c x known
  · refine ⟨law.1, fun c x known => ?_⟩
    rw [Table.look_put] at known
    split at known
    · cases known
      rfl
    · exact law.2 c x known

theorem embargoLaw_applyEntries (es : List CellEntry) (f : Floor) (law : EmbargoLaw f) :
    EmbargoLaw (es.foldl Floor.applyEntry f) := by
  induction es generalizing f with
  | nil => exact law
  | cons e es ih => exact ih _ (embargoLaw_applyEntry f e law)


/-- An entry of a CELL DEFINE that passes its checks meets a FREE cell, and leaves a FREE one. -/
theorem applyEntries_taken {f : Floor} {es : List CellEntry} (passed : f.cellChecks es = none) {c : Nat}
    (listed : c ∈ es.map CellEntry.number) :
    (∀ z, f.cells.look c = some z → z.occ = .free) ∧
      ∀ z, (es.foldl Floor.applyEntry f).cells.look c = some z → z.occ = .free := by
  obtain ⟨e, he, rfl⟩ := List.mem_map.1 listed
  obtain ⟨-, -, -, free⟩ := cellChecks_eq_none passed he
  have once : (es.map CellEntry.number).Nodup := List.nodup_iff_count_le_one.2 fun n => by
    by_cases present : n ∈ es.map CellEntry.number
    · obtain ⟨d, hd, rfl⟩ := List.mem_map.1 present
      obtain ⟨-, count, -⟩ := cellChecks_eq_none passed hd
      exact Nat.le_of_lt_succ count
    · rw [List.count_eq_zero.2 present]; exact Nat.zero_le 1
  refine ⟨fun z hz => (free z hz).1, fun z hz => ?_⟩
  rw [applyEntries_look es f once he] at hz
  split at hz
  · cases hz
  · cases hz
    cases before : f.cells.look e.number with
    | none => rfl
    | some y => exact (free y before).1

theorem bandEmpty_applyEntries {f : Floor} {es : List CellEntry} (passed : f.cellChecks es = none) (i : Nat) :
    BandEmpty (es.foldl Floor.applyEntry f) i ↔ BandEmpty f i := by
  refine forall_congr' fun c => ?_
  by_cases listed : c ∈ es.map CellEntry.number
  · obtain ⟨before, after⟩ := applyEntries_taken passed listed
    refine ⟨fun _ z hz _ => ?_, fun _ z hz _ => ?_⟩
    · rw [before z hz]; rfl
    · rw [after z hz]; rfl
  · rw [applyEntries_look_ne es f listed]

theorem sameGround_defineLane (f : Floor) (l : Nat) (cs : List Nat) : SameGround f (f.defineLane l cs) := by
  refine ⟨rfl, ?_⟩
  have joined (c : Cell) (p : Option Nat) : groundOf (c.joinLane l p) = groundOf c := by
    cases p with
    | some i => rfl
    | none => exact iteInduction (motive := fun y => groundOf y = groundOf c) (fun _ => rfl) fun _ => rfl
  rw [defineLane_cells]
  exact Table.remap_each_same fun _ _ => joined _ _

theorem embargoFor_congr {f g : Floor} {h : Nat → Line → Line} (lines : g.lines = f.lines.each h)
    (quiet : ∀ i l, (h i l).state = .quiet ↔ l.state = .quiet) (band : BitVec 16) :
    g.embargoFor band = f.embargoFor band := by
  unfold Floor.embargoFor
  rw [lines, Table.each, List.filter_map, List.length_map]
  congr 1
  refine List.filter_congr fun e _ => ?_
  simp only [Function.comp_apply, quiet]

theorem fleetReset_quiet (l : Line) (now taken : Nat) : (l.fleetReset now taken).state = .quiet ↔ l.state = .quiet := by
  unfold Line.fleetReset
  simp only
  split
  · next quiet => simp [quiet]
  · next loud => split <;> simp [loud]

/-- R168 step 6: the embargo counts are taken from the lines. -/
theorem embargoLaw_fleetReset (k : Control) (f : Floor) (law : EmbargoLaw f) : EmbargoLaw (f.fleetReset k) := by
  have keys : (f.fleetReset k).lines.keys = f.lines.keys := (sameNumbers_fleetReset k f).lines
  refine ⟨keys ▸ law.1, fun c x known => ?_⟩
  have lines : (f.fleetReset k).lines = (dockedFloor f).lines.each fun i l =>
      l.fleetReset k.now ((recounted (dockedFloor f)).bandTaken i) := rfl
  have cells : (f.fleetReset k).cells = (recounted (dockedFloor f)).cells := rfl
  rw [cells, recounted, Table.look_each] at known
  obtain ⟨z, -, rfl⟩ := Option.map_eq_some_iff.1 known
  exact (embargoFor_congr lines (fun i l => fleetReset_quiet l k.now _) z.band).symm

/-- R168: each line is reviewed over the docked floor. -/
theorem bandLaw_fleetReset {live : Bool} (k : Control) (f : Floor) (once : f.machines.keys.Nodup) (law : BandLaw live f) :
    BandLaw live (f.fleetReset k) := by
  have keys : (f.fleetReset k).cells.keys = f.cells.keys := (sameNumbers_fleetReset k f).cells
  refine ⟨keys ▸ law.1, fun i r known => ?_⟩
  have counted := bandTaken_eq_zero (f := f.fleetReset k) (keys ▸ law.1) i
  rw [fleetReset_lines k once] at known
  obtain ⟨l, hl, rfl⟩ := Option.map_eq_some_iff.1 known
  obtain ⟨-, timer, -⟩ := law.2 i l hl
  rw [← counted]
  unfold Line.fleetReset
  simp only
  split
  · next quiet => exact ⟨fun loud => absurd quiet loud, timer, fun _ => decide_eq_true_iff⟩
  · split
    · next empty => exact ⟨fun _ => by simp [empty], nofun, fun _ => decide_eq_true_iff⟩
    · next busy => exact ⟨fun _ => by simp [busy], fun _ => rfl, fun _ => decide_eq_true_iff⟩

theorem course_notices (f : Floor) (ceiling : Nat) (g : Nat → Notice → Notice) :
    Course skip f (Floor.sendAllDue { f with ceiling := ceiling, notices := f.notices.each g }) :=
  have changed : Course skip f { f with ceiling := ceiling, notices := f.notices.each g } := .beside rfl rfl rfl rfl
  changed.trans (.foldl (fun f n => .beside (by simp) (by simp) (by simp) (by simp)) _ _)

/-! ### O8 -/

theorem moved_of_work {s : State} {g : Floor} (w : Work s g) : Moved False s.floor g := by
  cases w with
  | raise cls subject reason => exact moved_raise _ _ _ _ _
  | offerCell c => exact moved_offerCell _ _ c
  | offerLane l => exact moved_offerLane _ _ l
  | addHalt r m => exact moved_addHalt _ r _ m
  | removeHalt r m => exact moved_removeHalt _ r _ m
  | attempt m => exact moved_attempt _ _ _ m
  | beginNight => exact moved_beginNight _ _
  | loadLeg a => exact moved_loadLeg _ _ _ _
  | cancelLeg m w => exact moved_cancelLeg _ _ m w
  | restore m c => exact moved_restore _ _ m c
  | heard m => exact moved_quiet _ m _ fun _ => .quiet rfl rfl rfl rfl rfl rfl rfl rfl rfl rfl
  | beacon m b w => exact moved_beacon _ _ m b w
  | arrive m c count => exact moved_arrive _ _ m c count
  | request m count => exact moved_request _ _ m count
  | ack m kind stop declined => exact moved_ack _ _ m kind stop declined
  | faultStop m code => exact moved_faultStop _ _ m code
  | restart m => exact moved_restart _ _ m
  | frameSent m => exact moved_frameSent _ _ m
  | replyExpiry m => exact moved_replyExpiry _ _ m
  | beaconExpiry m => exact moved_beaconExpiry _ _ m
  | stall m => exact moved_stall _ _ m
  | freeCell c => exact moved_freeCell _ _ c
  | activeEdge i => exact moved_activeEdgeEvent _ _ i
  | inactiveEdge i => exact moved_inactiveEdgeEvent _ _ i
  | stuck i flow => exact moved_stuckEvent _ _ i flow
  | holdExpiry i => exact moved_holdExpiry _ _ i
  | breach i => exact moved_breach _ _ i
  | sample i flow => exact moved_sampleLine _ _ i flow

theorem embargoLaw_openOutputs (f : Floor) (law : EmbargoLaw f) : EmbargoLaw f.openOutputs := by
  have quiet := embargoFor_congr (f := f) (g := f.openOutputs) (h := fun _ l => { l with clearOutput := false }) rfl
    fun _ _ => Iff.rfl
  exact ⟨by rw [Floor.openOutputs, Table.keys_each]; exact law.1, fun c x known => by rw [quiet]; exact law.2 c x known⟩

/-- R8: a module that is not live has its clear outputs open. -/
theorem bandLaw_openOutputs {live stopped : Bool} {f : Floor} (law : BandLaw live f) (dead : stopped = false) :
    BandLaw stopped f.openOutputs := by
  refine ⟨law.1, fun i r known => ?_⟩
  rw [Floor.openOutputs, Table.look_each] at known
  obtain ⟨l, hl, rfl⟩ := Option.map_eq_some_iff.1 known
  obtain ⟨clear, timer, -⟩ := law.2 i l hl
  exact ⟨clear, timer, fun runs => absurd runs (by simp [dead])⟩

/-- What a deed does to the lines beside floor work is no matter of the embargo counts. -/
theorem deed_keeps_embargo {s t : State} (law : EmbargoKept s) (d : Deed s t) : EmbargoKept t := by
  have law : EmbargoLaw s.floor := law
  show EmbargoLaw t.floor
  cases d with
  | work w => exact (course_of_work w).embargo law
  | control => exact law
  | ports => exact law
  | marks => exact law
  | evac => exact law
  | frames => exact law
  | fleetCount => exact law
  | misses => exact law
  | notices ceiling g =>
    dsimp only
    exact (course_notices (skip := fun _ => false) s.floor ceiling g).embargo law
  | endNight => exact law
  | cellDefine es => exact embargoLaw_applyEntries es _ law
  | laneDefine l cs => exact (sameGround_defineLane _ l cs).embargo law
  | lineSetup i cfg => exact (course_setupLine (skip := fun _ => false) _ _ i cfg).embargo law
  | enroll m rank dock z _ _ known _ embargo =>
    exact (course_enroll (skip := fun _ => false) _ m rank dock known embargo).embargo law
  | withdraw m => exact (course_withdraw (skip := fun _ => false) _ _ m).embargo law
  | fleetReset => exact embargoLaw_fleetReset s.control s.floor law
  | fullReset => exact embargoKept_reset
  | resetHeld => exact embargoLaw_openOutputs _ law
  | powerLoss => exact embargoLaw_openOutputs _ law

/-- The tables stand canonical through every deed, as through every step. -/
theorem deed_keeps_tables {s t : State} (tables : TablesKept s) (d : Deed s t) : TablesKept t := by
  have open' : SameNumbers s.floor s.floor.openOutputs := ⟨rfl, rfl, rfl, by simp [Floor.openOutputs], rfl⟩
  cases d with
  | work w => exact tablesKept_of_sameNumbers tables (moved_of_work w).sameNumbers rfl rfl
  | control k mode zones => exact tablesKept_of_sameNumbers tables (.refl _) rfl zones
  | ports => exact tables
  | marks m keys => exact tablesKept_of_sameNumbers tables (.refl _) keys rfl
  | evac => exact tables
  | frames => exact tables
  | fleetCount => exact tables
  | misses g => exact tablesKept_of_sameNumbers tables ⟨rfl, rfl, by simp, rfl, rfl⟩ rfl rfl
  | notices ceiling g =>
    refine tablesKept_of_sameNumbers tables ?_ rfl rfl
    dsimp only
    exact sameNumbers_sendAllDue s.floor ceiling g
  | endNight =>
    exact tablesKept_of_sameNumbers tables ⟨rfl, rfl, by simp [State.endNight], rfl, rfl⟩ rfl rfl
  | cellDefine es mode passed =>
    rw [applyEntries_frame]
    exact tablesKept_cells tables (applyEntries_cells_wf es _ (isCell_of_cellChecks passed) tables.1)
  | laneDefine l cs passed =>
    have written : Written s (.laneDefine 0 []) _ := .laneDefine 0 [] l cs passed
    exact (tablesKept_written written tables : TablesKept (s.takeFrame.onFloor _))
  | lineSetup i cfg => exact tablesKept_of_sameNumbers tables (sameNumbers_setupLine _ _ i cfg) rfl rfl
  | enroll m rank dock z slot absent known free =>
    obtain ⟨wf, slots⟩ := machines_of_tablesKept tables
    simp only [isSlot, Bool.and_eq_true, decide_eq_true_eq] at slot
    have enrolled := tablesKept_machines tables (Table.wf_put (v := Scrubber.enrolled rank dock) wf (k := m) (by omega))
      fun zero => ((Table.keys_put_mem _ _ _ _).1 zero).elim (by omega) slots
    exact tablesKept_of_sameNumbers enrolled (moved_dockMachine (calm := True) _ _).sameNumbers rfl rfl
  | withdraw m x known =>
    have released := tablesKept_of_sameNumbers (t := { s with floor := _ }) tables
      (moved_withdrawReleases (calm := True) s.control s.floor m).sameNumbers rfl rfl
    obtain ⟨wf, slots⟩ := machines_of_tablesKept released
    have emptied := tablesKept_machines released (Table.wf_del (k := m) wf) fun zero => slots
      (List.mem_filter.1 (Table.keys_del _ m ▸ zero)).1
    exact tablesKept_of_sameNumbers emptied (moved_offerReleased (calm := True) s.control _ _).sameNumbers rfl rfl
  | fleetReset => exact tablesKept_fleetReset tables
  | fullReset => exact tablesKept_reset _
  | resetHeld => exact tablesKept_of_sameNumbers tables open' rfl rfl
  | powerLoss => exact tablesKept_of_sameNumbers tables open' rfl rfl

/-- The bands stand through every deed, over canonical tables and true embargo counts. -/
theorem deed_keeps_bands {s t : State} (tables : TablesKept s) (embargo : EmbargoKept s) (bands : BandsKept s)
    (d : Deed s t) : BandsKept t := by
  have law : BandLaw s.live s.floor := (bandLaw_iff tables).1 bands
  have embargo : EmbargoLaw s.floor := embargo
  have once : s.floor.machines.keys.Nodup :=
    ((Table.wf_iff _ _).1 (machines_of_tablesKept tables).1).1.imp Nat.ne_of_lt
  refine (bandLaw_iff (deed_keeps_tables tables d)).2 ?_
  have after := (deed_keeps_tables tables d).1
  cases d with
  | work w => exact (course_of_work w).bands _ embargo law
  | control => exact law
  | ports => exact law
  | marks => exact law
  | evac => exact law
  | frames => exact law
  | fleetCount => exact law
  | misses => exact law
  | notices ceiling g =>
    unfold State.live at law ⊢
    dsimp only
    exact (course_notices (skip := fun _ => false) s.floor ceiling g).bands _ embargo law
  | endNight => exact law
  | cellDefine es mode passed =>
    rw [applyEntries_frame] at after ⊢
    refine ⟨((Table.wf_iff _ _).1 after).1.imp Nat.ne_of_lt, fun i l known => ?_⟩
    rw [← applyEntries_frame, bandEmpty_applyEntries passed i]
    exact law.2 i l known
  | laneDefine l cs => exact (sameGround_defineLane _ l cs).bands law
  | lineSetup i cfg => exact (course_setupLine (skip := fun _ => false) _ _ i cfg).bands _ embargo law
  | enroll m rank dock z _ _ known _ zero =>
    exact (course_enroll (skip := fun _ => false) _ m rank dock known zero).bands _ embargo law
  | withdraw m => exact (course_withdraw (skip := fun _ => false) _ _ m).bands _ embargo law
  | fleetReset => exact bandLaw_fleetReset s.control s.floor once law
  | fullReset => exact (bandLaw_iff (tablesKept_reset [])).1 bandsKept_reset
  | resetHeld => exact bandLaw_openOutputs law (by simp [State.live])
  | powerLoss => exact bandLaw_openOutputs law (by simp [State.live])

/-- Settles O8: every piece of a command's work keeps the counts of embargoes, and with them the lines' clearance: a
cell that a line in force stands over is never taken anew, so a band only empties under it. -/
theorem stepsKeepEmbargoCountsAndClearOutputs : Obligations.StepsKeepEmbargoCountsAndClearOutputs := by
  refine ⟨fun s t law e => step_keeps_of_deeds (P := EmbargoKept) (fun _ _ => id) (fun _ _ => deed_keeps_embargo) law e,
    fun s t tables embargo bands e => ?_⟩
  obtain ⟨-, -, kept⟩ := step_keeps_of_deeds (P := fun s => TablesKept s ∧ EmbargoKept s ∧ BandsKept s) (fun _ _ => id)
    (fun s t ⟨tables, embargo, bands⟩ d =>
      ⟨deed_keeps_tables tables d, deed_keeps_embargo embargo d, deed_keeps_bands tables embargo bands d⟩)
    ⟨tables, embargo, bands⟩ e
  exact kept

/-! ### O12 -/

/-- R22, R92, R108, R118, R121, R151: the counts of cells, machines and lines in their ranges. -/
def CountsLaw (f : Floor) : Prop :=
  (∀ c x, f.cells.look c = some x → x.washes ≤ 255) ∧ (∀ m x, f.machines.look m = some x → CountsKept x) ∧
    ∀ i l, f.lines.look i = some l → LineCountsKept l

theorem countersKept_iff (s : State) : CountersKept s ↔
    CountsLaw s.floor ∧ FleetCountersKept s.floor.fleetCounters ∧ SupCountersKept s.ports.supCounters := by
  simp only [CountersKept, CountsLaw, and_assoc]

theorem Moved.counts {calm : Prop} {f g : Floor} (moved : Moved calm f g) (law : CountsLaw f) : CountsLaw g := by
  obtain ⟨cells, machines, lines⟩ := law
  refine ⟨fun c y known => ?_, fun m y known => ?_, fun i r known => ?_⟩
  · obtain ⟨x, hx, move⟩ := moved.cells.back known
    exact move.washes (cells c x hx)
  · obtain ⟨x, hx, move⟩ := moved.machines.back known
    exact move.counts (machines m x hx)
  · obtain ⟨l, hl, move⟩ := moved.lines.back known
    exact move.counts (lines i l hl)

/-- A change of every entry of a table, or of some, that keeps what is asked of each. -/
theorem each_keeps {α : Type} {P : α → Prop} {t : Table α} {h : Nat → α → α} (kept : ∀ n x, P x → P (h n x))
    (law : ∀ n x, t.look n = some x → P x) : ∀ n y, (t.each h).look n = some y → P y := by
  intro n y known
  rw [Table.look_each] at known
  obtain ⟨x, hx, rfl⟩ := Option.map_eq_some_iff.1 known
  exact kept n x (law n x hx)

theorem put_keeps {α : Type} {P : α → Prop} {t : Table α} {k : Nat} {v : α} (new : P v)
    (law : ∀ n x, t.look n = some x → P x) : ∀ n y, (t.put k v).look n = some y → P y := by
  intro n y known
  rw [Table.look_put] at known
  split at known
  · cases known; exact new
  · exact law n y known

theorem del_keeps {α : Type} {P : α → Prop} {t : Table α} {k : Nat} (law : ∀ n x, t.look n = some x → P x) :
    ∀ n y, (t.del k).look n = some y → P y := by
  intro n y known
  rw [Table.look_del] at known
  split at known
  · cases known
  · exact law n y known

theorem upd_keeps {α : Type} {P : α → Prop} {t : Table α} {k : Nat} {h : α → α} (kept : ∀ x, P x → P (h x))
    (law : ∀ n x, t.look n = some x → P x) : ∀ n y, (t.upd k h).look n = some y → P y := by
  intro n y known
  rw [Table.look_upd] at known
  split at known
  · obtain ⟨x, hx, rfl⟩ := Option.map_eq_some_iff.1 known
    exact kept x (law n x hx)
  · exact law n y known

theorem countsLaw_setupLine (k : Control) (f : Floor) (i : Nat) (cfg : LineConfig) (law : CountsLaw f) :
    CountsLaw (f.setupLine k i cfg) := by
  have line {f : Floor} {h : Line → Line} (kept : ∀ l, LineCountsKept l → LineCountsKept (h l)) (law : CountsLaw f) :
      CountsLaw (f.modLine i h) := ⟨law.1, law.2.1, upd_keeps kept law.2.2⟩
  exact line (fun _ => id) ((moved_endIfInForce k _ i).counts (line (fun _ => id) law))

theorem washes_applyEntry (f : Floor) (e : CellEntry) (law : ∀ c x, f.cells.look c = some x → x.washes ≤ 255) :
    ∀ c x, (f.applyEntry e).cells.look c = some x → x.washes ≤ 255 := by
  unfold Floor.applyEntry
  split
  · exact del_keeps law
  · refine put_keeps (P := fun x : Cell => x.washes ≤ 255) ?_ law
    show ((f.cells.look e.number).getD Cell.fresh).washes ≤ 255
    cases before : f.cells.look e.number with
    | none => exact Nat.zero_le _
    | some z => exact law _ z before

theorem washes_applyEntries (es : List CellEntry) (f : Floor) (law : ∀ c x, f.cells.look c = some x → x.washes ≤ 255) :
    ∀ c x, (es.foldl Floor.applyEntry f).cells.look c = some x → x.washes ≤ 255 := by
  induction es generalizing f with
  | nil => exact law
  | cons e es ih => exact ih _ (washes_applyEntry f e law)

theorem washes_joinLane (c : Cell) (l : Nat) (p : Option Nat) : (c.joinLane l p).washes = c.washes := by
  cases p with
  | some i => rfl
  | none => exact iteInduction (motive := fun y : Cell => y.washes = c.washes) (fun _ => rfl) fun _ => rfl

theorem countsKept_enrolled (rank dock : Nat) : CountsKept (Scrubber.enrolled rank dock) := by
  simp [CountsKept, Scrubber.enrolled]

theorem lineCounts_fleetReset (l : Line) (now taken : Nat) : LineCountsKept (l.fleetReset now taken) := by
  unfold Line.fleetReset LineCountsKept
  simp only
  split
  · simp
  · split <;> simp

/-- R168: FLEET RESET begins the counts at 0. -/
theorem countsLaw_fleetReset (k : Control) (f : Floor) : CountsLaw (f.fleetReset k) := by
  have cleared : (∀ c x, (clearedFloor f).cells.look c = some x → x.washes ≤ 255) ∧
      ∀ m x, (clearedFloor f).machines.look m = some x → CountsKept x := by
    refine ⟨fun c y known => ?_, fun m y known => ?_⟩
    · rw [clearedFloor, Table.look_each] at known
      obtain ⟨x, -, rfl⟩ := Option.map_eq_some_iff.1 known
      exact Nat.zero_le _
    · rw [clearedFloor, fitFleet, Table.look_each] at known
      obtain ⟨x, -, rfl⟩ := Option.map_eq_some_iff.1 known
      exact countsKept_enrolled _ _
  have docked : Moved True (clearedFloor f) (dockedFloor f) :=
    Moved.foldl moved_dockMachine (fitFleet f).keys (clearedFloor f)
  refine ⟨fun c z known => ?_, fun m y known => ?_, fun i r known => ?_⟩
  · have cells : (f.fleetReset k).cells = (recounted (dockedFloor f)).cells := rfl
    rw [cells, recounted, Table.look_each] at known
    obtain ⟨y, hy, rfl⟩ := Option.map_eq_some_iff.1 known
    obtain ⟨x, hx, move⟩ := docked.cells.back hy
    exact move.washes (cleared.1 c x hx)
  · obtain ⟨x, hx, move⟩ := docked.machines.back known
    exact move.counts (cleared.2 m x hx)
  · have lines : (f.fleetReset k).lines = (dockedFloor f).lines.each fun i l =>
        l.fleetReset k.now ((recounted (dockedFloor f)).bandTaken i) := rfl
    rw [lines, Table.look_each] at known
    obtain ⟨l, -, rfl⟩ := Option.map_eq_some_iff.1 known
    exact lineCounts_fleetReset l _ _

theorem deed_keeps_counts {s t : State} (law : CountsLaw s.floor) (d : Deed s t) : CountsLaw t.floor := by
  obtain ⟨cells, machines, lines⟩ := id law
  cases d with
  | work w => exact (moved_of_work w).counts law
  | control => exact law
  | ports => exact law
  | marks => exact law
  | evac => exact law
  | frames => exact law
  | fleetCount => exact law
  | misses g => exact ⟨cells, each_keeps (h := fun _ x => { x with misses := g x }) (fun _ _ => id) machines, lines⟩
  | notices ceiling g =>
    dsimp only
    exact (moved_sendAllDue (calm := True) { s.floor with ceiling := ceiling, notices := s.floor.notices.each g }).counts law
  | endNight => exact ⟨cells, each_keeps (P := CountsKept) (h := fun _ x => x.endNight) (fun _ _ h => h) machines, lines⟩
  | cellDefine es =>
    have washes := washes_applyEntries es s.floor cells
    rw [applyEntries_frame] at washes ⊢
    exact ⟨washes, machines, lines⟩
  | laneDefine l cs =>
    have kept (n : Nat) (x : Cell) (h : x.washes ≤ 255) :
        (x.joinLane l (cs.findIdx? fun m => decide (m = n))).washes ≤ 255 := by rwa [washes_joinLane]
    exact ⟨each_keeps (P := fun x : Cell => x.washes ≤ 255) kept cells, machines, lines⟩
  | lineSetup i cfg => exact countsLaw_setupLine _ _ i cfg law
  | enroll m rank dock =>
    exact (moved_dockMachine (calm := True) _ m).counts ⟨cells, put_keeps (countsKept_enrolled rank dock) machines, lines⟩
  | withdraw m =>
    obtain ⟨cells, machines, lines⟩ := (moved_withdrawReleases (calm := True) s.control s.floor m).counts law
    exact (moved_offerReleased (calm := True) s.control _ _).counts ⟨cells, del_keeps machines, lines⟩
  | fleetReset => exact countsLaw_fleetReset s.control s.floor
  | fullReset => exact ((countersKept_iff _).1 countersKept_reset).1
  | resetHeld =>
    exact ⟨cells, machines, each_keeps (P := LineCountsKept)
      (h := fun _ l => { l with clearOutput := false }) (fun _ _ h => h) lines⟩
  | powerLoss =>
    exact ⟨cells, machines, each_keeps (P := LineCountsKept)
      (h := fun _ l => { l with clearOutput := false }) (fun _ _ h => h) lines⟩

theorem docks_fleetCounters (ms : List Nat) (f : Floor) :
    (ms.foldl Floor.dockMachine f).fleetCounters = f.fleetCounters := by
  induction ms generalizing f with
  | nil => rfl
  | cons m ms ih =>
    refine (ih _).trans ?_
    unfold Floor.dockMachine
    split
    · simp
    · rfl

theorem deed_keeps_fleetCounters {s t : State} (law : FleetCountersKept s.floor.fleetCounters) (d : Deed s t) :
    FleetCountersKept t.floor.fleetCounters := by
  cases d with
  | work w => exact (course_of_work w).counters law
  | control => exact law
  | ports => exact law
  | marks => exact law
  | evac => exact law
  | frames => exact law
  | fleetCount c counts => exact counts law
  | misses => exact law
  | notices ceiling g =>
    dsimp only
    exact (course_notices (skip := fun _ => false) s.floor ceiling g).counters law
  | endNight => exact law
  | cellDefine es => rw [applyEntries_frame]; exact law
  | laneDefine => exact law
  | lineSetup i cfg => exact (course_setupLine (skip := fun _ => false) _ _ i cfg).counters law
  | enroll m rank dock z _ _ known _ zero =>
    exact (course_enroll (skip := fun _ => false) _ m rank dock known zero).counters law
  | withdraw m => exact (course_withdraw (skip := fun _ => false) _ _ m).counters law
  | fleetReset =>
    have counters : s.fleetReset.floor.fleetCounters = (dockedFloor s.floor).fleetCounters := rfl
    have cleared : (clearedFloor s.floor).fleetCounters = {} := rfl
    rw [counters, dockedFloor, docks_fleetCounters, cleared]
    unfold FleetCountersKept
    decide
  | fullReset => exact ((countersKept_iff _).1 countersKept_reset).2.1
  | resetHeld => exact law
  | powerLoss => exact law

/-- R88, R171, R175: the supervisory counts and the receive queues' room. -/
def PortsLaw (s : State) : Prop := SupCountersKept s.ports.supCounters ∧ QueuesKept s

theorem deed_keeps_ports {s t : State} (law : PortsLaw s) (d : Deed s t) : PortsLaw t := by
  cases d with
  | work => exact law
  | control => exact law
  | ports p counts room => exact ⟨counts law.1, room law.2⟩
  | marks => exact law
  | evac => exact law
  | frames => exact law
  | fleetCount => exact law
  | misses => exact law
  | notices =>
    unfold PortsLaw QueuesKept at law ⊢
    dsimp only
    exact law
  | endNight => exact law
  | cellDefine => exact law
  | laneDefine => exact law
  | lineSetup => exact law
  | enroll => exact law
  | withdraw => exact law
  | fleetReset =>
    obtain ⟨-, commands, -⟩ := law
    exact ⟨((countersKept_iff _).1 countersKept_reset).2.2, commands, Nat.zero_le _⟩
  | fullReset => exact ⟨((countersKept_iff _).1 countersKept_reset).2.2, Nat.zero_le _, Nat.zero_le _⟩
  | resetHeld => exact law
  | powerLoss => exact law

theorem deed_keeps_drying {s t : State} (law : DryingKept s) (d : Deed s t) : DryingKept t := by
  cases d with
  | work => exact law
  | control k mode zones drying => exact drying law
  | ports => exact law
  | marks => exact law
  | evac => exact law
  | frames => exact law
  | fleetCount => exact law
  | misses => exact law
  | notices =>
    unfold DryingKept at law ⊢
    dsimp only at law ⊢
    exact law
  | endNight => exact law
  | cellDefine => exact law
  | laneDefine => exact law
  | lineSetup => exact law
  | enroll => exact law
  | withdraw => exact law
  | fleetReset => exact law
  | fullReset => exact dryingKept_reset
  | resetHeld => exact law
  | powerLoss => exact law

/-- R176 over the floor. -/
def NoticesLaw (f : Floor) : Prop := ∀ n r, f.notices.look n = some r → NoticeKept r

theorem Moved.notices' {calm : Prop} {f g : Floor} (moved : Moved calm f g) (law : NoticesLaw f) : NoticesLaw g :=
  fun n r known => by
    obtain ⟨q, hq, move⟩ := moved.notices.back known
    exact move.kept (law n q hq)

theorem deed_keeps_notices {s t : State} (law : NoticesLaw s.floor) (d : Deed s t) : NoticesLaw t.floor := by
  cases d with
  | work w => exact (moved_of_work w).notices' law
  | control => exact law
  | ports => exact law
  | marks => exact law
  | evac => exact law
  | frames => exact law
  | fleetCount => exact law
  | misses => exact law
  | notices ceiling g kept =>
    dsimp only
    exact (moved_sendAllDue (calm := True) { s.floor with ceiling := ceiling, notices := s.floor.notices.each g }).notices'
      (each_keeps kept law)
  | endNight => exact law
  | cellDefine es => rw [applyEntries_frame]; exact law
  | laneDefine => exact law
  | lineSetup i cfg =>
    have ended : NoticesLaw (Floor.endIfInForce s.control (s.floor.modLine i fun l => { l with cfg := cfg }) i) :=
      (moved_endIfInForce s.control _ i).notices' law
    exact ended
  | enroll m rank dock =>
    have docked := moved_dockMachine (calm := True)
      { s.floor with machines := s.floor.machines.put m (Scrubber.enrolled rank dock) } m
    exact docked.notices' law
  | withdraw m =>
    have released := (moved_withdrawReleases (calm := True) s.control s.floor m).notices' law
    exact (moved_offerReleased (calm := True) s.control _ _).notices' released
  | fleetReset =>
    have docked : Moved True (clearedFloor s.floor) (dockedFloor s.floor) :=
      Moved.foldl moved_dockMachine (fitFleet s.floor).keys (clearedFloor s.floor)
    have notices : s.fleetReset.floor.notices = (dockedFloor s.floor).notices.each fun _ n => n.cleared := rfl
    intro n r known
    rw [notices, Table.look_each] at known
    obtain ⟨q, -, rfl⟩ := Option.map_eq_some_iff.1 known
    exact ⟨nofun, fun _ => rfl⟩
  | fullReset => exact noticesKept_reset
  | resetHeld => exact law
  | powerLoss => exact law

/-- Settles O12: each count of floor and links is bumped to its last value and no further, and each setting is written
only after its ranges are checked. -/
theorem stepsKeepCountsQueuesAndRanges : Obligations.StepsKeepCountsQueuesAndRanges := by
  refine ⟨fun s t counters queues e => ?_, fun s t law e => ?_, fun s t law e => ?_⟩
  · obtain ⟨counts, fleet, sup⟩ := (countersKept_iff s).1 counters
    obtain ⟨counts, fleet, sup, queues⟩ := step_keeps_of_deeds
      (P := fun s => CountsLaw s.floor ∧ FleetCountersKept s.floor.fleetCounters ∧ PortsLaw s) (fun _ _ => id)
      (fun s t ⟨counts, fleet, ports⟩ d =>
        ⟨deed_keeps_counts counts d, deed_keeps_fleetCounters fleet d, deed_keeps_ports ports d⟩)
      ⟨counts, fleet, sup, queues⟩ e
    exact ⟨(countersKept_iff t).2 ⟨counts, fleet, sup⟩, queues⟩
  · exact step_keeps_of_deeds (P := DryingKept) (fun _ _ => id) (fun _ _ => deed_keeps_drying) law e
  · exact step_keeps_of_deeds (P := fun s => NoticesLaw s.floor) (fun _ _ => id) (fun _ _ => deed_keeps_notices) law e

end Sys2Proof.Laws
end

section
/-! ## ZONE CLOSE and ZONE OPEN -/

namespace Sys2Proof.Laws

open Sys2Proof Sys2Proof.Machine Sys2Proof.Safety

-- One theorem at a time, as in the tests above: side by side their threads' stacks take the memory.
set_option Elab.async false

/-- R163: what a zone command does, by the mode and the zone's number. -/
theorem zoneCommand_standby {z : Nat} {g : State → State} {s : State} (mode : s.control.mode = .standby) :
    State.zoneCommand z g s = (s, .refusedMode, .nothing) := by
  rw [State.zoneCommand, if_pos mode]

theorem zoneCommand_outside {z : Nat} {g : State → State} {s : State} (mode : s.control.mode ≠ .standby) (high : 31 < z) :
    State.zoneCommand z g s = (s, .badValue, .nothing) := by
  rw [State.zoneCommand, if_neg mode, if_neg (by simp [Config.zoneCount]; omega)]

theorem zoneCommand_done {z : Nat} {g : State → State} {s t : State} {b : Bool} (mode : s.control.mode ≠ .standby)
    (within : z ≤ 31) (acts : g s = t) (state : t.control.zoneOpen z = b) :
    State.zoneCommand z g s = (t, .done, .zoneState b) := by
  rw [State.zoneCommand, if_neg mode, if_pos (by simp [Config.zoneCount]; omega)]
  simp only [acts, state]

/-- A zone of a canonical state has its record. -/
theorem zone_known {s : State} (tables : TablesKept s) {z : Nat} (within : z ≤ 31) :
    ∃ b, s.control.zones.look z = some b := by
  obtain ⟨-, -, -, -, -, -, -, zones⟩ := tables
  rw [← Option.isSome_iff_exists, Table.look_isSome, zones, List.mem_range]
  exact Nat.lt_succ_of_le within

theorem zoneOpen_of_look {k : Control} {z : Nat} {b : Bool} (known : k.zones.look z = some b) : k.zoneOpen z = b := by
  unfold Control.zoneOpen
  rw [known]
  cases b <;> rfl

theorem zoneOpen_written {k : Control} {z : Nat} {b c : Bool} (known : k.zones.look z = some b) :
    Control.zoneOpen { k with zones := k.zones.upd z fun _ => c } z = c :=
  zoneOpen_of_look (by rw [Table.look_upd_self, known]; rfl)

/-- Settles O33: the checks of R163 and the write, each command by its cases. -/
theorem zonesCloseAndOpen : Obligations.ZonesCloseAndOpen := by
  intro ref zone s tables z close opened away withZone
  refine ⟨fun turn => ⟨fun mode => ?_, fun mode high => ?_, fun mode within => ?_⟩,
    fun turn => ⟨fun mode => ?_, fun mode high => ?_, fun mode within known => ?_, fun mode within known => ?_⟩⟩
  · exact command_answers turn (zoneCommand_standby mode)
  · exact command_answers turn (zoneCommand_outside mode high)
  · obtain ⟨b, known⟩ := zone_known tables within
    exact command_done turn (zoneCommand_done mode within rfl (zoneOpen_written known))
  · exact command_answers turn (zoneCommand_standby mode)
  · exact command_answers turn (zoneCommand_outside mode high)
  · have isOpen : s.takeFrame.control.zoneOpen z = true := zoneOpen_of_look known
    exact command_answers turn (zoneCommand_done mode within (if_pos isOpen) isOpen)
  · have isClosed : ¬ s.takeFrame.control.zoneOpen z = true := by
      rw [show s.takeFrame.control.zoneOpen z = false from zoneOpen_of_look known]
      exact Bool.false_ne_true
    exact command_done turn (zoneCommand_done mode within (if_neg isClosed) (zoneOpen_written known))

end Sys2Proof.Laws
end

section
/-! ## One machine's record through the shared operations

`Acts m h f g`: the work changes machine `m`'s record by `h` and no other machine's. Each operation over one machine is
such work; what it does to orders, lane directions, cells and notices stands here once. -/

namespace Sys2Proof.Laws

open Sys2Proof Sys2Proof.Machine Sys2Proof.Safety

-- One theorem at a time, as in the tests above: side by side their threads' stacks take the memory.
set_option Elab.async false

/-- The work changes `m`'s record by `h`, and leaves the others. -/
def Acts (m : Nat) (h : Scrubber → Scrubber) (f g : Floor) : Prop :=
  ∀ n, g.machines.look n = if n = m then (f.machines.look m).map h else f.machines.look n

namespace Acts

variable {m : Nat} {f g g' : Floor} {h h' : Scrubber → Scrubber}

theorem of_machines (same : g.machines = f.machines) : Acts m id f g := fun n => by
  rw [same]
  split
  · next here => rw [here, Option.map_id, id]
  · rfl

theorem refl (m : Nat) (f : Floor) : Acts m id f f := of_machines rfl

theorem trans (a : Acts m h f g) (b : Acts m h' g g') : Acts m (h' ∘ h) f g' := fun n => by
  rw [b n]
  split
  · rw [a m, if_pos rfl, Option.map_map]
  · next other => rw [a n, if_neg other]

theorem others (a : Acts m h f g) : OthersKept m f g := fun n other => by rw [a n, if_neg other]

theorem own (a : Acts m h f g) {x : Scrubber} (known : f.machines.look m = some x) : g.machines.look m = some (h x) := by
  rw [a m, if_pos rfl, known]; rfl

end Acts

theorem othersKept_refl (m : Nat) (f : Floor) : OthersKept m f f := fun _ _ => rfl

theorem othersKept_trans {m : Nat} {f g h : Floor} (a : OthersKept m f g) (b : OthersKept m g h) : OthersKept m f h :=
  fun n other => (b n other).trans (a n other)

theorem othersKept_of_machines {m : Nat} {f g : Floor} (same : g.machines = f.machines) : OthersKept m f g :=
  fun n _ => by rw [same]

theorem Acts.of_upd {m : Nat} {f g : Floor} {h : Scrubber → Scrubber} (machines : g.machines = f.machines.upd m h) :
    Acts m h f g := fun n => by
  rw [machines, Table.look_upd]
  split
  · next here => rw [here]
  · rfl

theorem acts_modMachine (f : Floor) (m : Nat) (h : Scrubber → Scrubber) : Acts m h f (f.modMachine m h) := .of_upd rfl

theorem acts_modSettled (k : Control) (f : Floor) (m : Nat) (h : Scrubber → Scrubber) :
    Acts m (fun x => (h x).settle k.now k.timing.progressLimit) f (f.modSettled k m h) := acts_modMachine f m _

/-! ### Orders -/

/-- R97: the head of the queue becomes outstanding where nothing is. -/
def delivered (x : Scrubber) : Scrubber :=
  match x.outstanding, x.queue with
  | none, o :: rest => { x with outstanding := some o, queue := rest }
  | _, _ => x

/-- R94: the queue with one more order. -/
def queueWith (q : List Order) (o : Order) : List Order :=
  if q.any fun q' => decide (q'.kind = o.kind) then q.map fun q' => if q'.kind = o.kind then q'.merge o else q' else q ++ [o]

/-- R94: the order is discarded: the machine is LOST, or the queued refuge GRANT stays. -/
def discards (x : Scrubber) (o : Order) : Bool :=
  decide (x.state = .lost) || (x.queue.find? fun q => decide (q.kind = o.kind)).any fun q => q.guardsRefuge x

/-- R94, R97: the record after an order is handed to the Fleet Port. -/
def ordered (o : Order) (x : Scrubber) : Scrubber :=
  if discards x o then x else delivered { x with queue := queueWith x.queue o }

theorem discards_iff (x : Scrubber) (o : Order) : discards x o = true ↔
    x.state = .lost ∨ ∃ q, (x.queue.find? fun q => decide (q.kind = o.kind)) = some q ∧ q.guardsRefuge x = true := by
  unfold discards
  rw [Bool.or_eq_true, decide_eq_true_eq, Option.any_eq_true]

theorem acts_deliver (f : Floor) (m : Nat) : Acts m delivered f (f.deliver m) := by
  unfold Floor.deliver
  split
  · next absent =>
    intro n
    split
    · next here => rw [here, absent]; rfl
    · rfl
  next x known =>
  split
  · next o rest out queue =>
    intro n
    simp only [Floor.modMachine_machines, Table.look_upd]
    split
    · next here => rw [here, known, Option.map_some, Option.map_some, delivered, out, queue]
    · rfl
  · next stays =>
    intro n
    split
    · next here =>
      subst here
      rw [known, Option.map_some, delivered]
      split
      · next o rest out queue => exact absurd queue (stays o rest out)
      · rfl
    · rfl

theorem queueWith_of_find {q : List Order} {o q' : Order} (found : (q.find? fun q' => decide (q'.kind = o.kind)) = some q') :
    queueWith q o = q.map fun q' => if q'.kind = o.kind then q'.merge o else q' := by
  have some := List.find?_some found
  exact if_pos (List.any_eq_true.2 ⟨q', List.mem_of_find?_eq_some found, some⟩)

theorem queueWith_of_none {q : List Order} {o : Order} (absent : (q.find? fun q' => decide (q'.kind = o.kind)) = none) :
    queueWith q o = q ++ [o] := by
  have none := List.find?_eq_none.1 absent
  exact if_neg (by simpa using none)

theorem acts_order (f : Floor) (m : Nat) (o : Order) : Acts m (ordered o) f (f.order m o) := by
  cases known : f.machines.look m with
  | none =>
    intro n
    have same : (f.order m o).machines = f.machines := by simp only [Floor.order, known, Floor.countDiscarded]
    rw [same, known]
    split
    · next here => rw [here, known]; rfl
    · rfl
  | some x =>
    have queued (h : Scrubber → Scrubber) (same : h x = { x with queue := queueWith x.queue o }) (kept : ¬ discards x o = true) :
        Acts m (ordered o) f ((f.modMachine m h).deliver m) := by
      have acts := (acts_modMachine f m h).trans (acts_deliver _ m)
      intro n
      rw [acts n, known]
      simp only [Option.map_some, Function.comp_apply, same, ordered, if_neg kept]
    have discarded (drop : discards x o = true) : Acts m (ordered o) f f.countDiscarded := by
      intro n
      have same : f.countDiscarded.machines = f.machines := rfl
      rw [same, known]
      split
      · next here => rw [here, known, Option.map_some, ordered, if_pos drop]
      · rfl
    unfold Floor.order
    rw [known]
    simp only
    split
    · next lost => exact discarded ((discards_iff x o).2 (.inl lost))
    next found =>
    split
    · next q listed =>
      split
      · next guards => exact discarded ((discards_iff x o).2 (.inr ⟨q, listed, guards⟩))
      · next open' =>
        refine queued _ (by rw [queueWith_of_find listed]) fun drop => ?_
        rcases (discards_iff x o).1 drop with (lost | ⟨q', listed', guards⟩)
        · exact found lost
        · cases listed.symm.trans listed'
          exact open' guards
    · next absent =>
      refine queued _ (by rw [queueWith_of_none absent]) fun drop => ?_
      rcases (discards_iff x o).1 drop with (lost | ⟨q', listed, -⟩)
      · exact found lost
      · rw [absent] at listed; cases listed

/-- What an order leaves of a record: all but queue and outstanding order. -/
theorem ordered_eq (o : Order) (x : Scrubber) : ∃ q out, ordered o x = { x with queue := q, outstanding := out } := by
  unfold ordered
  split
  · exact ⟨x.queue, x.outstanding, rfl⟩
  · unfold delivered
    split
    · exact ⟨_, _, rfl⟩
    · exact ⟨_, x.outstanding, rfl⟩

/-- R94, R97: what an order does to a record turns on its orders, its refuge grant and whether it is LOST. -/
theorem ordered_congr (o : Order) {x y : Scrubber} (lost : y.state = .lost ↔ x.state = .lost) (refuge : y.refuge = x.refuge)
    (queue : y.queue = x.queue) (out : y.outstanding = x.outstanding) :
    ordered o y = { y with queue := (ordered o x).queue, outstanding := (ordered o x).outstanding } := by
  have drops : discards y o = discards x o := by
    rw [Bool.eq_iff_iff, discards_iff, discards_iff, lost, queue]
    unfold Order.guardsRefuge
    rw [refuge]
  unfold ordered
  rw [drops]
  split
  · rw [← queue, ← out]
  · unfold delivered
    simp only [queue, out]
    split <;> simp_all

theorem ordered_self (o : Order) (x : Scrubber) :
    ordered o x = { x with queue := (ordered o x).queue, outstanding := (ordered o x).outstanding } :=
  ordered_congr o Iff.rfl rfl rfl rfl

theorem inHand_delivered {x : Scrubber} {o : Order} : InHand (delivered x) o ↔ InHand x o := by
  unfold InHand delivered
  split
  · next p rest out queue =>
    simp only [out, queue, List.mem_cons, Option.some.injEq, reduceCtorEq, or_false]
    constructor
    · rintro (later | rfl)
      · exact .inr later
      · exact .inl rfl
    · rintro (rfl | later)
      · exact .inr rfl
      · exact .inl later
  · exact Iff.rfl

theorem mem_queueWith_other {q : List Order} {o p : Order} (other : p.kind ≠ o.kind) (listed : p ∈ q) : p ∈ queueWith q o := by
  unfold queueWith
  split
  · exact List.mem_map.2 ⟨p, listed, if_neg other⟩
  · exact List.mem_append_left _ listed

/-- R94: orders of other kinds stay in hand. -/
theorem inHand_ordered_other {x : Scrubber} {o p : Order} (other : p.kind ≠ o.kind) (held : InHand x p) :
    InHand (ordered o x) p := by
  unfold ordered
  split
  · exact held
  · exact inHand_delivered.2 (held.imp_left (mem_queueWith_other other))

/-- R94, R96: the new order, or the queued WITHDRAW merged with it, is in hand. -/
theorem inHand_ordered {x : Scrubber} {o : Order} (kept : ¬ discards x o = true) :
    InHand (ordered o x) o ∨ ∃ q ∈ x.queue, q.kind = o.kind ∧ InHand (ordered o x) (q.merge o) := by
  unfold ordered
  rw [if_neg kept]
  rw [inHand_delivered]
  simp only [inHand_delivered]
  cases found : x.queue.find? fun q => decide (q.kind = o.kind) with
  | none =>
    exact .inl (.inl (by rw [queueWith_of_none found]; simp))
  | some q =>
    have kind : q.kind = o.kind := by simpa using List.find?_some found
    have listed := List.mem_of_find?_eq_some found
    refine .inr ⟨q, listed, kind, .inl ?_⟩
    show q.merge o ∈ queueWith x.queue o
    rw [queueWith_of_find found]
    exact List.mem_map.2 ⟨q, listed, if_pos kind⟩

/-- Nothing but a WITHDRAW is merged. -/
theorem merge_of_kind {q o : Order} (kind : o.kind ≠ 4) : q.merge o = o := by
  cases q <;> cases o <;> simp [Order.merge, Order.kind] at kind ⊢

/-- R94, R95: the machine is not LOST, and the refuge it may hold is guarded against no other order. -/
def Accepts (x : Scrubber) (o : Order) : Prop :=
  x.state ≠ .lost ∧ ∀ r, x.refuge = some r → o.kind = 2 → o = .answer (.grant [r] true)

/-- R94: an order that is no WITHDRAW is in hand after it was handed over. -/
theorem inHand_of_accepts {x : Scrubber} {o : Order} (fits : Accepts x o) (kind : o.kind ≠ 4) : InHand (ordered o x) o := by
  obtain ⟨found, guard⟩ := fits
  by_cases drop : discards x o = true
  · rcases (discards_iff x o).1 drop with lost | ⟨q, listed, guards⟩
    · exact absurd lost found
    · have same : q = o := by
        have kinds : q.kind = o.kind := by simpa using List.find?_some listed
        unfold Order.guardsRefuge at guards
        split at guards
        · next cells r refuge =>
          rw [guard r refuge (kinds ▸ rfl), of_decide_eq_true guards]
        · cases guards
      unfold ordered
      rw [if_pos drop]
      exact .inl (same ▸ List.mem_of_find?_eq_some listed)
  · rcases inHand_ordered drop with held | ⟨q, -, -, held⟩
    · exact held
    · rwa [merge_of_kind kind] at held

/-- R94: what stands queued after an order is an old order, or one of the new order's kind. -/
theorem mem_ordered_queue {x : Scrubber} {o p : Order} (listed : p ∈ (ordered o x).queue) :
    p ∈ x.queue ∨ p.kind = o.kind := by
  have queued {p : Order} (listed : p ∈ queueWith x.queue o) : p ∈ x.queue ∨ p.kind = o.kind := by
    unfold queueWith at listed
    split at listed
    · obtain ⟨q, hq, rfl⟩ := List.mem_map.1 listed
      split
      · next kind => exact .inr ((order_kind_merge q o kind).trans kind)
      · exact .inl hq
    · rcases List.mem_append.1 listed with old | new
      · exact .inl old
      · exact .inr (by rw [List.mem_singleton.1 new])
  unfold ordered at listed
  split at listed
  · exact .inl listed
  · unfold delivered at listed
    split at listed
    · next rest _ queue => exact queued (by rw [show queueWith x.queue o = _ from queue]; exact List.mem_cons_of_mem _ listed)
    · exact queued listed

/-- R132: no WITHDRAW is queued. -/
theorem queuedWithdraw_eq_none (x : Scrubber) : x.queuedWithdraw = none ↔ ∀ o ∈ x.queue, o.kind ≠ 4 := by
  unfold Scrubber.queuedWithdraw
  constructor
  · intro none o listed kind
    cases found : x.queue.find? fun o => decide (o.kind = 4) with
    | none => exact absurd kind (by simpa using List.find?_eq_none.1 found o listed)
    | some q =>
      have kind := List.find?_some found
      cases q <;> simp [Order.kind] at kind
      rw [found] at none
      cases none
  · intro other
    rw [List.find?_eq_none.2 fun o listed => by simpa using other o listed]

/-! ### Waits -/

theorem leaveWait_eq {f : Floor} {m : Nat} {x : Scrubber} (known : f.machines.look m = some x) :
    f.leaveWait m = match x.request with
      | none => f
      | some p => (f.quitList m p.target).modMachine m fun x => { x with request := none } := by
  unfold Floor.leaveWait
  rw [known]
  rfl

theorem acts_leaveWait (f : Floor) (m : Nat) : Acts m (fun x => { x with request := none }) f (f.leaveWait m) := by
  unfold Floor.leaveWait
  split
  · next still =>
    intro n
    split
    · next here =>
      subst here
      cases known : f.machines.look n with
      | none => rfl
      | some x =>
        rw [known] at still
        have still : x.request = none := still
        rw [Option.map_some, ← still]
    · rfl
  · exact (Acts.of_machines (by simp)).trans (acts_modMachine _ m _)

end Sys2Proof.Laws
end

section
/-! ## Cells given up, lanes, waits nobody has, and causes -/

namespace Sys2Proof.Laws

open Sys2Proof Sys2Proof.Machine Sys2Proof.Safety

-- One theorem at a time, as in the tests above: side by side their threads' stacks take the memory.
set_option Elab.async false

/-! ### Lane directions -/

/-- The work changes no more of the machines' records than `m`'s recorded lane directions. -/
def LanesWritten (m : Nat) (f g : Floor) : Prop :=
  ∃ ld : Scrubber → Table Dir, Acts m (fun x => { x with laneDirs := ld x }) f g

namespace LanesWritten

variable {m : Nat} {f g h : Floor}

theorem of_machines (same : g.machines = f.machines) : LanesWritten m f g :=
  ⟨fun x => x.laneDirs, Acts.of_machines same⟩

theorem trans (a : LanesWritten m f g) (b : LanesWritten m g h) : LanesWritten m f h := by
  obtain ⟨ld, acts⟩ := a
  obtain ⟨ld', acts'⟩ := b
  exact ⟨_, acts.trans acts'⟩

theorem foldl {β : Type} {op : Floor → β → Floor} (one : ∀ f b, LanesWritten m f (op f b)) (bs : List β) (f : Floor) :
    LanesWritten m f (bs.foldl op f) := by
  induction bs generalizing f with
  | nil => exact of_machines rfl
  | cons b bs ih => exact (one f b).trans (ih _)

theorem others (a : LanesWritten m f g) : OthersKept m f g := by
  obtain ⟨ld, acts⟩ := a
  exact acts.others

theorem own (a : LanesWritten m f g) {x : Scrubber} (known : f.machines.look m = some x) :
    ∃ ld, g.machines.look m = some { x with laneDirs := ld } := by
  obtain ⟨ld, acts⟩ := a
  exact ⟨ld x, acts.own known⟩

end LanesWritten

theorem lanesWritten_enterLane (f : Floor) (m l : Nat) (d : Dir) : LanesWritten m f (f.enterLane m l d) := by
  unfold Floor.enterLane
  split
  · exact .of_machines rfl
  · split
    · exact .of_machines rfl
    · exact ⟨fun x => x.laneDirs.put l d, .of_upd rfl⟩

theorem lanesWritten_quitLane (f : Floor) (m l : Nat) : LanesWritten m f (f.quitLane m l) := by
  unfold Floor.quitLane
  split
  · exact .of_machines rfl
  · split
    · exact ⟨fun x => x.laneDirs.del l, .of_upd rfl⟩
    · exact .of_machines rfl

theorem lanesWritten_place (f : Floor) (m c : Nat) : LanesWritten m f (f.place m c) := by
  unfold Floor.place
  split
  · exact .of_machines rfl
  · split
    · exact .of_machines rfl
    · exact lanesWritten_enterLane f m _ _

theorem lanesWritten_quitLaneOf (f : Floor) (m c : Nat) : LanesWritten m f (f.quitLaneOf m c) := by
  unfold Floor.quitLaneOf
  split
  · exact lanesWritten_quitLane f m _
  · exact .of_machines rfl

theorem lanesWritten_release (k : Control) (m : Nat) (f : Floor) (c : Nat) : LanesWritten m f (f.release k m c) :=
  (LanesWritten.of_machines (by simp)).trans (lanesWritten_quitLaneOf _ m c)

theorem lanesWritten_releases (k : Control) (m : Nat) (cs : List Nat) (f : Floor) :
    LanesWritten m f (cs.foldl (Floor.release k m) f) := .foldl (lanesWritten_release k m) cs f

theorem lanesWritten_releaseWet (k : Control) (m flow : Nat) (f : Floor) (c : Nat) :
    LanesWritten m f (f.releaseWet k m flow c) := by
  unfold Floor.releaseWet
  split
  · exact .of_machines rfl
  next x _ =>
  have given (t : Nat) (slow : Bool) (g : Floor)
      (machines : g.machines = ((f.setOcc c (.wet t slow)).quitLaneOf m c).machines) : LanesWritten m f g :=
    ((LanesWritten.of_machines (by simp)).trans (lanesWritten_quitLaneOf (f.setOcc c (.wet t slow)) m c)).trans
      (.of_machines machines)
  simp only
  split
  · exact given _ _ _ (by rw [raise_machines])
  · exact given _ _ _ rfl

theorem lanesWritten_releaseBehind (k : Control) (m flow : Nat) (f : Floor) (c : Nat) :
    LanesWritten m f (f.releaseBehind k m flow c) := by
  unfold Floor.releaseBehind
  split
  · exact lanesWritten_release k m f c
  · exact lanesWritten_releaseWet k m flow f c

theorem lanesWritten_takeSpan (m : Nat) (cs : List Nat) (f : Floor) (p : Nat) :
    LanesWritten m f (Floor.takeSpan m f p cs) := by
  induction cs generalizing f p with
  | nil => exact .of_machines rfl
  | cons c rest ih =>
    have taken : LanesWritten m f (f.setOcc c (.held m)) := .of_machines (by simp)
    unfold Floor.takeSpan
    simp only
    split
    · exact (taken.trans (lanesWritten_enterLane _ m _ _)).trans (ih _ _)
    · exact taken.trans (ih _ _)

/-! ### Cells -/

/-- R34, R64: what a cell given up without wetting becomes, by its own lane field. -/
def givenUp (k : Control) (z : Cell) : Occupancy :=
  let guard := if z.lane = none then k.timing.openGuard else k.timing.laneGuard
  if guard = 0 then .free else .guarded (k.now + guard * 1000)

theorem guardOcc_eq {k : Control} {f : Floor} {c : Nat} {z : Cell} (known : f.cells.look c = some z) :
    f.guardOcc k c = givenUp k z := by
  have lane : f.laneOf c = z.lane := by unfold Floor.laneOf; rw [known]; rfl
  unfold Floor.guardOcc givenUp
  rw [lane]
  cases z.lane <;> simp

theorem release_look (k : Control) (m : Nat) (f : Floor) (c d : Nat) : (f.release k m c).cells.look d =
    (f.cells.look d).map fun z => if d = c then { z with occ := givenUp k z } else z := by
  rw [release_cells, Table.look_upd]
  split
  · next here =>
    subst here
    cases known : f.cells.look d with
    | none => rfl
    | some z => rw [Option.map_some, Option.map_some, guardOcc_eq known]
  · rw [Option.map_id']

/-- R35: cells given up together. -/
theorem releases_look (k : Control) (m : Nat) (cs : List Nat) (f : Floor) (d : Nat) :
    (cs.foldl (Floor.release k m) f).cells.look d =
      (f.cells.look d).map fun z => if d ∈ cs then { z with occ := givenUp k z } else z := by
  induction cs generalizing f with
  | nil => simp
  | cons c cs ih =>
    rw [List.foldl_cons, ih, release_look, Option.map_map]
    refine congrArg (fun h => Option.map h (f.cells.look d)) (funext fun z => ?_)
    by_cases here : d = c
    · subst here
      have same : givenUp k { z with occ := givenUp k z } = givenUp k z := rfl
      simp [same]
    · simp [here]

theorem releases_lines_quiet (k : Control) (m : Nat) (cs : List Nat) (f : Floor) :
    (cs.foldl (Floor.release k m) f).fleetTx = f.fleetTx ∧ (cs.foldl (Floor.release k m) f).notices = f.notices ∧
      (cs.foldl (Floor.release k m) f).supTx = f.supTx := by
  induction cs generalizing f with
  | nil => exact ⟨rfl, rfl, rfl⟩
  | cons c cs ih =>
    obtain ⟨tx, notices, sup⟩ := ih (f.release k m c)
    exact ⟨tx.trans (by simp), notices.trans (by simp), sup.trans (by simp)⟩

/-- R34: what a cell left behind a washing leg becomes. -/
def wetted (k : Control) (flow : Nat) (z : Cell) : Cell :=
  { z with
    occ := .wet (k.now + (dryingAnswer k.drying z.floorClass flow).1 * 1000) (dryingAnswer k.drying z.floorClass flow).2
    washes := if z.washes < 255 then z.washes + 1 else z.washes
    lastWashed := some k.clock }

theorem releaseWet_look (k : Control) (m flow : Nat) (f : Floor) (c d : Nat) : (f.releaseWet k m flow c).cells.look d =
    (f.cells.look d).map fun z => if d = c then wetted k flow z else z := by
  unfold Floor.releaseWet
  split
  · next absent =>
    by_cases here : d = c
    · rw [here, absent]; rfl
    · simp [here]
  · next x known =>
    have written (t : Nat) (slow : Bool) (g : Floor) (cells : g.cells = ((f.setOcc c (.wet t slow)).quitLaneOf m c).cells.upd c
        fun y => { y with washes := bumpTo 255 y.washes, lastWashed := some k.clock }) : g.cells.look d =
        (f.cells.look d).map fun z => if d = c then
          { z with occ := .wet t slow, washes := if z.washes < 255 then z.washes + 1 else z.washes, lastWashed := some k.clock }
          else z := by
      rw [cells, quitLaneOf_cells, setOcc_cells]
      simp only [Table.look_upd]
      split
      · rw [Option.map_map]; rfl
      · rw [Option.map_id']
    have all : (f.cells.look d).map (fun z => if d = c then { z with
          occ := .wet (k.now + (dryingAnswer k.drying x.floorClass flow).1 * 1000) (dryingAnswer k.drying x.floorClass flow).2
          washes := if z.washes < 255 then z.washes + 1 else z.washes, lastWashed := some k.clock } else z) =
        (f.cells.look d).map fun z => if d = c then wetted k flow z else z := by
      by_cases here : d = c
      · subst here
        simp [known, wetted]
      · simp [here]
    rw [← all]
    simp only
    split
    · exact written _ _ _ (by simp)
    · exact written _ _ _ rfl

/-! ### Waits that nobody has -/

theorem offerLane_nobody {k : Control} {f : Floor} (nobody : NobodyWaits f) (l : Nat) : f.offerLane k l = f := by
  unfold Floor.offerLane
  cases known : f.lanes.look l with
  | none => rfl
  | some r => exact if_neg fun waits => waits.2.1 (nobody.2 l r known)

theorem offerReleased_nobody {k : Control} {f : Floor} (nobody : NobodyWaits f) (cs : List Nat) :
    f.offerReleased k cs = f := by
  unfold Floor.offerReleased
  rw [offerCells_nobody nobody]
  unfold Floor.offerLanes
  generalize ((List.range Config.laneCount).filter _) = ls
  induction ls with
  | nil => rfl
  | cons l ls ih => rw [List.foldl_cons, offerLane_nobody nobody, ih]

/-- The wait lists, cell by cell and lane by lane. -/
def SameWaiters (f g : Floor) : Prop :=
  (∀ c, (g.cells.look c).map (fun z => z.waiters) = (f.cells.look c).map fun z => z.waiters) ∧
    ∀ l, (g.lanes.look l).map (fun r => r.waiters) = (f.lanes.look l).map fun r => r.waiters

namespace SameWaiters

variable {f g h : Floor}

theorem refl (f : Floor) : SameWaiters f f := ⟨fun _ => rfl, fun _ => rfl⟩

theorem trans (a : SameWaiters f g) (b : SameWaiters g h) : SameWaiters f h :=
  ⟨fun c => (b.1 c).trans (a.1 c), fun l => (b.2 l).trans (a.2 l)⟩

theorem of_eq (cells : g.cells = f.cells) (lanes : g.lanes = f.lanes) : SameWaiters f g :=
  ⟨fun c => by rw [cells], fun l => by rw [lanes]⟩

theorem foldl {β : Type} {op : Floor → β → Floor} (one : ∀ f b, SameWaiters f (op f b)) (bs : List β) (f : Floor) :
    SameWaiters f (bs.foldl op f) := by
  induction bs generalizing f with
  | nil => exact refl f
  | cons b bs ih => exact (one f b).trans (ih _)

theorem nobody (a : SameWaiters f g) (law : NobodyWaits f) : NobodyWaits g := by
  refine ⟨fun c y known => ?_, fun l r known => ?_⟩
  · have same := a.1 c
    rw [known] at same
    obtain ⟨x, hx, eq⟩ := Option.map_eq_some_iff.1 same.symm
    exact eq.symm.trans (law.1 c x hx)
  · have same := a.2 l
    rw [known] at same
    obtain ⟨x, hx, eq⟩ := Option.map_eq_some_iff.1 same.symm
    exact eq.symm.trans (law.2 l x hx)

end SameWaiters

theorem map_look_upd {α β : Type} (t : Table α) (c : Nat) (g : α → α) (h : α → β) (same : ∀ x, h (g x) = h x) (d : Nat) :
    ((t.upd c g).look d).map h = (t.look d).map h := by
  rw [Table.look_upd]
  split
  · rw [Option.map_map]
    exact congrArg (fun h => Option.map h (t.look d)) (funext same)
  · rfl

theorem sameWaiters_setOcc (f : Floor) (c : Nat) (o : Occupancy) : SameWaiters f (f.setOcc c o) :=
  ⟨fun d => by rw [setOcc_cells]; exact map_look_upd _ _ _ _ (by exact fun _ => rfl) d, fun l => by rw [setOcc_lanes]⟩

theorem sameWaiters_enterLane (f : Floor) (m l : Nat) (d : Dir) : SameWaiters f (f.enterLane m l d) := by
  refine ⟨fun c => by rw [enterLane_cells], fun j => ?_⟩
  unfold Floor.enterLane
  split
  · rfl
  · split
    · rfl
    · dsimp only; exact map_look_upd f.lanes l _ (fun r => r.waiters) (by exact fun _ => rfl) j

theorem sameWaiters_quitLane (f : Floor) (m l : Nat) : SameWaiters f (f.quitLane m l) := by
  refine ⟨fun c => by rw [quitLane_cells], fun j => ?_⟩
  unfold Floor.quitLane
  split
  · rfl
  · split
    · dsimp only; exact map_look_upd f.lanes l _ (fun r => r.waiters) (by exact fun _ => rfl) j
    · rfl

theorem sameWaiters_place (f : Floor) (m c : Nat) : SameWaiters f (f.place m c) := by
  unfold Floor.place
  split
  · exact .refl f
  · split
    · exact .refl f
    · exact sameWaiters_enterLane f m _ _

theorem sameWaiters_quitLaneOf (f : Floor) (m c : Nat) : SameWaiters f (f.quitLaneOf m c) := by
  unfold Floor.quitLaneOf
  split
  · exact sameWaiters_quitLane f m _
  · exact .refl f

theorem sameWaiters_release (k : Control) (m : Nat) (f : Floor) (c : Nat) : SameWaiters f (f.release k m c) :=
  (sameWaiters_setOcc f c _).trans (sameWaiters_quitLaneOf _ m c)

theorem sameWaiters_releases (k : Control) (m : Nat) (cs : List Nat) (f : Floor) :
    SameWaiters f (cs.foldl (Floor.release k m) f) := .foldl (sameWaiters_release k m) cs f

theorem sameWaiters_releaseWet (k : Control) (m flow : Nat) (f : Floor) (c : Nat) :
    SameWaiters f (f.releaseWet k m flow c) := by
  refine ⟨fun d => ?_, fun l => ?_⟩
  · rw [releaseWet_look, Option.map_map]
    refine congrArg (fun h => Option.map h (f.cells.look d)) (funext fun z => ?_)
    simp only [Function.comp_apply]
    split <;> rfl
  · unfold Floor.releaseWet
    split
    · rfl
    next x _ =>
    have given (t : Nat) (slow : Bool) := ((sameWaiters_setOcc f c (.wet t slow)).trans (sameWaiters_quitLaneOf _ m c)).2 l
    simp only
    split
    · rw [raise_lanes]; exact given _ _
    · exact given _ _

theorem sameWaiters_releaseBehind (k : Control) (m flow : Nat) (f : Floor) (c : Nat) :
    SameWaiters f (f.releaseBehind k m flow c) := by
  unfold Floor.releaseBehind
  split
  · exact sameWaiters_release k m f c
  · exact sameWaiters_releaseWet k m flow f c

/-- R24: where nobody waits, to leave a wait is to drop the request. -/
theorem leaveWait_nobody {f : Floor} (nobody : NobodyWaits f) (m : Nat) : SameWaiters f (f.leaveWait m) ∧
    (∀ c, (f.leaveWait m).cells.look c = f.cells.look c) ∧ ∀ l, (f.leaveWait m).lanes.look l = f.lanes.look l := by
  have quit (t : Target) : (∀ c, (f.quitList m t).cells.look c = f.cells.look c) ∧
      ∀ l, (f.quitList m t).lanes.look l = f.lanes.look l := by
    cases t with
    | cell c =>
      refine ⟨fun d => ?_, fun l => rfl⟩
      rw [Floor.quitList, Table.look_upd]
      split
      · cases known : f.cells.look d with
        | none => rfl
        | some z =>
          have empty := nobody.1 d z known
          rw [Option.map_some, empty, List.filter_nil, ← empty]
      · rfl
    | lane l =>
      refine ⟨fun d => rfl, fun j => ?_⟩
      rw [Floor.quitList, Table.look_upd]
      split
      · cases known : f.lanes.look j with
        | none => rfl
        | some r =>
          have empty := nobody.2 j r known
          rw [Option.map_some, empty, List.filter_nil, ← empty]
      · rfl
  have looks : (∀ c, (f.leaveWait m).cells.look c = f.cells.look c) ∧ ∀ l, (f.leaveWait m).lanes.look l = f.lanes.look l := by
    unfold Floor.leaveWait
    split
    · exact ⟨fun _ => rfl, fun _ => rfl⟩
    · exact quit _
  exact ⟨⟨fun c => by rw [looks.1], fun l => by rw [looks.2]⟩, looks⟩

/-! ### Causes -/

theorem sendIfDue_look (f : Floor) (n i : Nat) : ∃ sent : Notice → Bool,
    (f.sendIfDue n).notices.look i = if i = n then (f.notices.look i).map fun b => { b with sent := sent b }
      else f.notices.look i := by
  unfold Floor.sendIfDue
  split
  · exact ⟨fun b => b.sent, by split <;> simp⟩
  · split
    · exact ⟨fun _ => true, by rw [Table.look_upd]⟩
    · exact ⟨fun b => b.sent, by split <;> simp⟩

/-- R177: a cause joins its class. -/
theorem raise_look_self (k : Control) (f : Floor) (cls : NoticeClass) (subject : Option Nat) (reason : Option NoticeReason)
    {b : Notice} (known : f.notices.look cls.number = some b) :
    ∃ sent, (f.raise k cls subject reason).notices.look cls.number =
      some { b.withCause subject reason k.stamp with sent := sent } := by
  unfold Floor.raise
  obtain ⟨sent, look⟩ := sendIfDue_look
    { f with notices := f.notices.upd cls.number fun n => n.withCause subject reason k.stamp } cls.number cls.number
  rw [look, if_pos rfl, Table.look_upd_self, known]
  exact ⟨_, rfl⟩

/-- R177: the other classes stand. -/
theorem raise_look_ne (k : Control) (f : Floor) (cls : NoticeClass) (subject : Option Nat) (reason : Option NoticeReason)
    {i : Nat} (other : i ≠ cls.number) : (f.raise k cls subject reason).notices.look i = f.notices.look i := by
  unfold Floor.raise
  obtain ⟨sent, look⟩ := sendIfDue_look
    { f with notices := f.notices.upd cls.number fun n => n.withCause subject reason k.stamp } cls.number i
  rw [look, if_neg other, Table.look_upd, if_neg other]

/-- R176: a class of a canonical state has its record. -/
theorem notice_known {f : Floor} (keys : f.notices.keys = List.range Config.classCount) (cls : NoticeClass) :
    ∃ b, f.notices.look cls.number = some b := by
  rw [← Option.isSome_iff_exists, Table.look_isSome, keys, List.mem_range]
  cases cls <;> decide

/-- R177: a class that took a cause is pending, and its last subject is the cause's. -/
theorem withCause_pending (b : Notice) (subject : Option Nat) (reason : Option NoticeReason) (clock : Option Nat) :
    (b.withCause subject reason clock).pending = true ∧ (b.withCause subject reason clock).last = subject ∧
      (b.withCause subject reason clock).enabled = b.enabled := by
  unfold Notice.withCause
  split
  · next pending => exact ⟨pending, rfl, rfl⟩
  · exact ⟨rfl, rfl, rfl⟩

/-- R177: after a cause its class is pending with that cause's subject. -/
theorem raise_pending {k : Control} {f : Floor} {cls : NoticeClass} {subject : Option Nat} {reason : Option NoticeReason}
    (keys : f.notices.keys = List.range Config.classCount) : ∃ n,
      (f.raise k cls subject reason).notices.look cls.number = some n ∧ n.pending = true ∧ n.last = subject := by
  obtain ⟨b, known⟩ := notice_known keys cls
  obtain ⟨sent, look⟩ := raise_look_self k f cls subject reason known
  obtain ⟨pending, last, -⟩ := withCause_pending b subject reason k.stamp
  exact ⟨_, look, pending, last⟩

end Sys2Proof.Laws
end

section
/-! ## MACHINE WITHDRAW and MACHINE RESTORE -/

namespace Sys2Proof.Laws

open Sys2Proof Sys2Proof.Machine Sys2Proof.Safety

-- One theorem at a time, as in the tests above: side by side their threads' stacks take the memory.
set_option Elab.async false

/-! ### Cells of a machine -/

theorem cells_nodup {s : State} (tables : TablesKept s) : s.floor.cells.keys.Nodup :=
  ((Table.wf_iff _ _).1 tables.1).1.imp Nat.ne_of_lt

theorem machines_nodup {s : State} (tables : TablesKept s) : s.floor.machines.keys.Nodup :=
  ((Table.wf_iff _ _).1 (machines_of_tablesKept tables).1).1.imp Nat.ne_of_lt

/-- The cells of a canonical map that pass a test, by number. -/
theorem mem_keysWhere {α : Type} {t : Table α} (once : t.keys.Nodup) (p : α → Bool) {k : Nat} {v : α}
    (known : t.look k = some v) : k ∈ t.keysWhere p ↔ p v = true := by
  unfold Table.keysWhere
  rw [List.mem_map]
  constructor
  · rintro ⟨e, listed, rfl⟩
    obtain ⟨listed, holds⟩ := List.mem_filter.1 listed
    have : e.2 = v := Option.some.inj ((Table.look_of_mem once (show (e.1, e.2) ∈ t from listed)).symm.trans known)
    rwa [this] at holds
  · intro holds
    exact ⟨(k, v), List.mem_filter.2 ⟨Table.mem_of_look known, holds⟩, rfl⟩

theorem ownedBy_eq (o : Occupancy) (m : Nat) : o.ownedBy m = decide (o = .held m ∨ o = .blocked m) := by
  unfold Occupancy.ownedBy
  rw [Bool.decide_or]

/-- R19, R36: the cells HELD or BLOCKED by a machine. -/
theorem mem_cellsOf_iff {f : Floor} (once : f.cells.keys.Nodup) {m c : Nat} {z : Cell} (known : f.cells.look c = some z) :
    c ∈ f.cellsOf m ↔ z.occ = .held m ∨ z.occ = .blocked m := by
  unfold Floor.cellsOf
  rw [mem_keysWhere once _ known, ownedBy_eq, decide_eq_true_eq]

theorem length_cellsOf (f : Floor) (m : Nat) :
    (f.cellsOf m).length = f.cells.countP fun e => decide (e.2.occ = .held m ∨ e.2.occ = .blocked m) := by
  unfold Floor.cellsOf Table.keysWhere
  rw [List.length_map, ← List.countP_eq_length_filter]
  exact List.countP_congr fun e _ => by rw [← ownedBy_eq]

/-- R173: floor work that hands no frame to the host is answered by the reply alone. -/
theorem answered_onFloor {kind ref : Byte} {body : List Byte} {status : Status} {data : ReplyData} {s : State}
    {g : Control → Floor → Floor} (quiet : (g s.control s.takeFrame.floor).supTx = s.takeFrame.floor.supTx) :
    Answered ⟨kind, ref, body⟩ status data s ((s.takeFrame.onFloor g).reply kind ref status data) := by
  refine ⟨rfl, [], by simp, ?_⟩
  rw [List.append_nil, State.reply_floor, State.onFloor_floor, State.takeFrame_control, quiet]
  rfl

theorem partKept_onFloor (kind ref : Byte) (status : Status) (data : ReplyData) (s : State)
    (g : Control → Floor → Floor) : PartKept s ((s.takeFrame.onFloor g).reply kind ref status data) :=
  ⟨rfl, rfl, rfl, rfl, rfl, rfl⟩

/-! ### MACHINE WITHDRAW -/

theorem acts_flushOrders (f : Floor) (m : Nat) :
    Acts m (fun x => { x with outstanding := none, replyWindow := none, queue := [] }) f (f.flushOrders m) :=
  (Acts.of_upd (g := f.clearOutstanding m) (Floor.clearOutstanding_machines f m)).trans (acts_modMachine _ m _)

/-- R106: what is left where nobody waits. -/
theorem withdraw_spec {k : Control} {f : Floor} (once : f.cells.keys.Nodup) (nobody : NobodyWaits f) (m : Nat) :
    let g := f.withdraw k m
    g.machines.look m = none ∧ OthersKept m f g ∧ g.notices = f.notices ∧ g.supTx = f.supTx ∧
      g.fleetTx = (f.fleetTx.filter fun o => decide (o.slot ≠ m)) ∧
      ∀ n z, f.cells.look n = some z → g.cells.look n = some
        { z with occ := if z.occ = .held m ∨ z.occ = .blocked m then givenUp k z else z.occ } := by
  intro g
  obtain ⟨waiters, cells, -⟩ := leaveWait_nobody nobody m
  let left := f.leaveWait m
  let released := (f.cellsOf m).foldl (Floor.release k m) (left.flushOrders m)
  have flushed : SameWaiters left (left.flushOrders m) := .of_eq rfl rfl
  have stands := ((waiters.trans flushed).trans (sameWaiters_releases k m (f.cellsOf m) _)).nobody nobody
  have whole : g = { released with machines := released.machines.del m } :=
    offerReleased_nobody (f := { released with machines := released.machines.del m }) stands _
  have others : OthersKept m f released :=
    othersKept_trans ((acts_leaveWait f m).trans (acts_flushOrders left m)).others
      (lanesWritten_releases k m (f.cellsOf m) _).others
  obtain ⟨tx, notices, sup⟩ := releases_lines_quiet k m (f.cellsOf m) (left.flushOrders m)
  rw [whole]
  refine ⟨by rw [Table.look_del, if_pos rfl], fun n other => ?_, ?_, ?_, ?_, fun n z known => ?_⟩
  · rw [Table.look_del, if_neg other, others n other]
  · exact notices.trans (leaveWait_notices f m)
  · exact sup.trans (leaveWait_supTx f m)
  · refine tx.trans ?_
    show (left.fleetTx.filter fun o => !decide (o.slot = m)) = _
    rw [leaveWait_fleetTx]
    simp
  · show released.cells.look n = _
    rw [releases_look]
    show Option.map _ (left.cells.look n) = _
    rw [cells, known, Option.map_some, ite_congr (propext (mem_cellsOf_iff once known)) (fun _ => rfl) fun _ => rfl]
    split <;> rfl

/-- Settles O39: R106, by the checks of the command and then `withdraw_spec`. -/
theorem machineWithdrawEmptiesTheSlot : Obligations.MachineWithdrawEmptiesTheSlot := by
  intro ref slot s turn r run m k away given
  refine ⟨fun outside => ?_, fun low high => ⟨fun absent => ?_, fun x known => ?_⟩⟩
  · refine command_answers turn ?_
    show State.machineWithdraw m s.takeFrame = _
    rw [State.machineWithdraw, if_pos ((isSlot_eq_false m).2 outside)]
  all_goals have enrolled : ¬ isSlot m = false := by rw [isSlot_eq_false]; omega
  · refine command_answers turn ?_
    show State.machineWithdraw m s.takeFrame = _
    rw [State.machineWithdraw, if_neg enrolled, State.takeFrame_floor]
    simp only [absent]
  intro leaves
  refine ⟨fun stays => ?_, fun goes tables nobody => ?_⟩
  · refine command_answers turn ?_
    show State.machineWithdraw m s.takeFrame = _
    rw [State.machineWithdraw, if_neg enrolled, State.takeFrame_floor]
    simp only [known]
    exact if_neg stays
  · have acts : State.machineWithdraw m s.takeFrame = (s.takeFrame.onFloor fun k f => f.withdraw k m, .done,
        .cellsReleased (s.floor.cells.countP fun e => decide (e.2.occ = .held m ∨ e.2.occ = .blocked m))) := by
      rw [← length_cellsOf, State.machineWithdraw, if_neg enrolled]
      simp only [State.takeFrame_floor, known]
      exact if_pos goes
    obtain ⟨absent, others, notices, sup, tx, cells⟩ := withdraw_spec (k := k) (f := s.takeFrame.floor)
      (cells_nodup tables) nobody m
    exact ⟨_, command_done turn acts, answered_onFloor (g := fun k f => f.withdraw k m) sup,
      partKept_onFloor _ _ _ _ _ _, notices, absent, others, tx, cells⟩

end Sys2Proof.Laws
end

section
/-! ## MACHINE RESTORE -/

namespace Sys2Proof.Laws

open Sys2Proof Sys2Proof.Machine Sys2Proof.Safety

-- One theorem at a time, as in the tests above: side by side their threads' stacks take the memory.
set_option Elab.async false

/-! ### The checks -/

theorem restoreFault_outside {m c : Nat} {s : State} (outside : m < 1 ∨ 24 < m ∨ 511 < c) :
    s.restoreFault m c = some .badValue := by
  unfold State.restoreFault
  rw [if_pos]
  rw [isSlot_eq_false, isCell_eq_false]
  omega

theorem restoreFault_inside {m c : Nat} {s : State} (low : 1 ≤ m) (high : m ≤ 24) (cell : c ≤ 511) :
    s.restoreFault m c = match s.floor.machines.look m with
      | none => some .refusedState
      | some x =>
        if ¬ (x.state = .lost ∨ x.state = .stoodDown ∨ x.halts.position = true) then some .refusedState
        else if x.withdrawal.isSome then some .refusedBusy
        else
          match s.floor.cells.look c with
          | none => some .notDefined
          | some z => if z.restorable m then none else some .refusedState := by
  have fits : ¬(isSlot m = false ∨ isCell c = false) := by
    rw [isSlot_eq_false, isCell_eq_false]
    omega
  exact if_neg fits

theorem restorable_iff (z : Cell) (m : Nat) : z.restorable m = true ↔
    (z.occ = .held m ∨ z.occ = .blocked m ∨ z.occ = .free ∧ z.embargo = 0) ∧ (z.kind = .dock → z.owner = some m) := by
  unfold Cell.restorable
  rw [ownedBy_eq]
  simp only [Bool.and_eq_true, Bool.or_eq_true, decide_eq_true_eq, Bool.not_eq_true', Bool.and_eq_false_iff,
    decide_eq_false_iff_not, or_assoc, Bool.not_eq_false']
  refine and_congr Iff.rfl ⟨fun h dock => h.elim (fun other => absurd dock other) id, fun h => ?_⟩
  by_cases dock : z.kind = .dock
  · exact .inr (h dock)
  · exact .inl dock

theorem machineRestore_refused {m c : Nat} {s : State} {st : Status} (fault : s.restoreFault m c = some st) :
    State.machineRestore m c s = (s, st, .nothing) := by
  unfold State.machineRestore
  rw [fault]

theorem machineRestore_accepted {m c : Nat} {s : State} (fault : s.restoreFault m c = none) :
    State.machineRestore m c s = (s.onFloor fun k f => f.restore k m c, .done, .nothing) := by
  unfold State.machineRestore
  rw [fault]

/-! ### The effects -/

/-- R113: without ahead cells the progress timer stands still. -/
theorem settle_stopped {x : Scrubber} (ahead : x.ahead = []) (now limit : Nat) :
    x.settle now limit = { x with progress := none } := if_neg fun runs => runs.2 ahead

/-- R80: nothing staged, nothing promoted. -/
theorem attempt_unstaged {k : Control} {tell : Bool} {f : Floor} {m : Nat} {x : Scrubber}
    (known : f.machines.look m = some x) (staged : x.staged = none) : f.attempt k tell m = f := by
  unfold Floor.attempt
  rw [known]
  simp only [staged]

/-- R116: a halt reason removed from a machine that is at rest without legs. -/
theorem removeHalt_resting {k : Control} {f : Floor} {m : Nat} {x : Scrubber} (r : HaltReason)
    (known : f.machines.look m = some x) (rests : x.state = .idle ∨ x.state = .halted) (ahead : x.ahead = [])
    (active : x.active = none) (staged : x.staged = none) (progress : x.progress = none) :
    let ends := x.halts.has r && (x.halts.write false r).isEmpty
    OthersKept m f (f.removeHalt k r m) ∧ (f.removeHalt k r m).cells = f.cells ∧ (f.removeHalt k r m).lanes = f.lanes ∧
      (f.removeHalt k r m).notices = f.notices ∧ (f.removeHalt k r m).supTx = f.supTx ∧
      (f.removeHalt k r m).machines.look m = some
        { (if ends then ordered (.motion true) x else x) with
          halts := if x.halts.has r then x.halts.write false r else x.halts
          state := if ends then .idle else x.state } := by
  intro ends
  have found : x.state ≠ .lost ∧ x.state ≠ .stoodDown := by rcases rests with h | h <;> rw [h] <;> exact ⟨nofun, nofun⟩
  by_cases has : x.halts.has r = true
  · have written := acts_modMachine f m fun y => { y with halts := y.halts.write false r }
    by_cases empty : (x.halts.write false r).isEmpty = true
    · have last : ends = true := by simp [ends, has, empty]
      have resumed := (written.trans (acts_order _ m (.motion true))).trans
        (acts_modSettled k _ m fun y => { y with state := y.resumed })
      have sent := ordered_congr (.motion true) (x := x) (y := { x with halts := x.halts.write false r })
        Iff.rfl rfl rfl rfl
      have own : _ = some { ordered (.motion true) x with halts := x.halts.write false r, state := .idle } :=
        (resumed.own known).trans <| congrArg some <| by
          obtain ⟨q, out, same⟩ := ordered_eq (.motion true) x
          rw [same] at sent ⊢
          simp only [Function.comp_apply, sent]
          simp [Scrubber.resumed, active, ahead, Scrubber.settle, progress]
      have whole : f.removeHalt k r m = ((f.modMachine m fun y => { y with halts := y.halts.write false r }).order m
          (.motion true)).modSettled k m fun y => { y with state := y.resumed } := by
        unfold Floor.removeHalt
        simp only [known, has, empty, found, if_true, if_false]
        exact attempt_unstaged own (by rw [ordered_self]; exact staged)
      rw [whole]
      refine ⟨resumed.others, by simp, by simp, by simp, by simp, own.trans ?_⟩
      rw [if_pos last, if_pos has, if_pos last]
    · have stays : ends = false := by simp [ends, empty]
      have whole : f.removeHalt k r m = f.modMachine m fun y => { y with halts := y.halts.write false r } := by
        unfold Floor.removeHalt
        simp only [known, has, empty, if_true, if_false, Bool.false_eq_true]
      rw [whole]
      refine ⟨written.others, rfl, rfl, rfl, rfl, (written.own known).trans ?_⟩
      rw [stays, if_pos has]
      rfl
  · have stays : ends = false := by simp [ends, has]
    have whole : f.removeHalt k r m = f := by
      unfold Floor.removeHalt
      simp only [known, has, if_false, Bool.false_eq_true]
    rw [whole]
    refine ⟨othersKept_refl m f, rfl, rfl, rfl, rfl, known.trans ?_⟩
    rw [stays, if_neg has]
    rfl

/-- R128: a withdrawal of a machine that neither waits nor is LOST, with none pending. -/
theorem startWithdrawal_own {k : Control} {f : Floor} {m : Nat} {x : Scrubber} (cancel : Bool) (refuge : Option Nat)
    (known : f.machines.look m = some x) (found : x.state ≠ .lost) (rests : x.state ≠ .waiting) :
    let g := f.startWithdrawal k cancel refuge m
    OthersKept m f g ∧ g.cells = f.cells ∧ g.lanes = f.lanes ∧ g.notices = f.notices ∧ g.supTx = f.supTx ∧
      g.machines.look m = some
        { ordered (.withdraw cancel refuge) x with withdrawal := some (mergeWithdrawal cancel refuge x.withdrawal) } := by
  have whole : f.startWithdrawal k cancel refuge m = (f.modMachine m fun y =>
      { y with withdrawal := some (mergeWithdrawal cancel refuge y.withdrawal) }).order m (.withdraw cancel refuge) := by
    unfold Floor.startWithdrawal
    simp only [known, found, rests, if_false]
  have acts := (acts_modMachine f m fun y =>
    { y with withdrawal := some (mergeWithdrawal cancel refuge y.withdrawal) }).trans (acts_order _ m (.withdraw cancel refuge))
  intro g
  rw [show g = _ from whole]
  refine ⟨acts.others, by simp, by simp, by simp, by simp, (acts.own known).trans (congrArg some ?_)⟩
  have sent := ordered_congr (.withdraw cancel refuge) (x := x)
    (y := { x with withdrawal := some (mergeWithdrawal cancel refuge x.withdrawal) }) Iff.rfl rfl rfl rfl
  obtain ⟨q, out, same⟩ := ordered_eq (.withdraw cancel refuge) x
  rw [same] at sent ⊢
  exact sent

/-- R123: the floor of a restore once the machine stands on the cell, with POSITION still in its halt set. -/
def restoredFloor (k : Control) (f : Floor) (m c : Nat) : Floor :=
  ((((f.otherCells m c).foldl (Floor.release k m) (f.leaveWait m)).setOcc c (.held m)).place m c).modSettled k m fun x =>
    x.restored k c

theorem restore_eq (k : Control) (f : Floor) (m c : Nat) : f.restore k m c =
    Floor.offerReleased k (match ((restoredFloor k f m c).removeHalt k .position m).cells.look c with
      | some z => if z.embargo = 0 then (restoredFloor k f m c).removeHalt k .position m
          else ((restoredFloor k f m c).removeHalt k .position m).startWithdrawal k true z.refuge m
      | none => (restoredFloor k f m c).removeHalt k .position m) (f.otherCells m c) := rfl

/-- R123: the record of the restored machine, apart from its lanes' directions. -/
def restoredRecord (k : Control) (c : Nat) (ld : Table Dir) (x : Scrubber) : Scrubber :=
  { ({ x with request := none, laneDirs := ld } : Scrubber).restored k c with progress := none }

theorem restoredFloor_spec {k : Control} {f : Floor} (once : f.cells.keys.Nodup) (nobody : NobodyWaits f) {m c : Nat}
    {x : Scrubber} (known : f.machines.look m = some x) :
    let g := restoredFloor k f m c
    OthersKept m f g ∧ NobodyWaits g ∧ g.notices = f.notices ∧ g.supTx = f.supTx ∧
      (∀ n z, f.cells.look n = some z → g.cells.look n = some
        { z with occ := if n = c then .held m else if z.occ = .held m ∨ z.occ = .blocked m then givenUp k z else z.occ }) ∧
      ∃ ld, g.machines.look m = some (restoredRecord k c ld x) := by
  intro g
  obtain ⟨waiters, cells, -⟩ := leaveWait_nobody nobody m
  obtain ⟨released, def'⟩ : ∃ r, r = (f.otherCells m c).foldl (Floor.release k m) (f.leaveWait m) := ⟨_, rfl⟩
  have whole : g = ((released.setOcc c (.held m)).place m c).modSettled k m fun x => x.restored k c := by rw [def']; rfl
  have freed := lanesWritten_releases k m (f.otherCells m c) (f.leaveWait m)
  obtain ⟨-, notices, sup⟩ := releases_lines_quiet k m (f.otherCells m c) (f.leaveWait m)
  have stands := waiters.trans (sameWaiters_releases k m (f.otherCells m c) (f.leaveWait m))
  have others (n : Nat) (z : Cell) (hz : f.cells.look n = some z) : n ∈ f.otherCells m c ↔
      n ≠ c ∧ (z.occ = .held m ∨ z.occ = .blocked m) := by
    unfold Floor.otherCells
    rw [List.mem_filter, mem_cellsOf_iff once hz, and_comm]
    simp
  have given (n : Nat) (z : Cell) (hz : f.cells.look n = some z) : released.cells.look n = some
      { z with occ := if n ≠ c ∧ (z.occ = .held m ∨ z.occ = .blocked m) then givenUp k z else z.occ } := by
    rw [def', releases_look, cells, hz, Option.map_some, ite_congr (propext (others n z hz)) (fun _ => rfl) fun _ => rfl]
    split <;> rfl
  rw [← def'] at freed notices sup stands
  rw [whole]
  have held := freed.trans (LanesWritten.of_machines (setOcc_machines released c (.held m)))
  have placed := held.trans (lanesWritten_place _ m c)
  obtain ⟨ld, own⟩ := placed.own ((acts_leaveWait f m).own known)
  have written := acts_modSettled k ((released.setOcc c (.held m)).place m c) m fun x => x.restored k c
  refine ⟨othersKept_trans (acts_leaveWait f m).others (othersKept_trans placed.others written.others),
    ((stands.trans (sameWaiters_setOcc released c (.held m))).trans (sameWaiters_place _ m c)).nobody nobody,
    by simp [notices], by simp [sup], fun n z hz => ?_, ld,
    (written.own own).trans (congrArg some (settle_stopped rfl _ _))⟩
  rw [Floor.modSettled_cells, place_cells, setOcc_look, given n z hz]
  by_cases here : n = c <;> simp [here]

/-- R116, R123: the restored machine once POSITION has left its halt set. -/
structure Lifted (x rec y : Scrubber) : Prop where
  record : y = { rec with
    halts := { x.halts with position := false }
    state := if { x.halts with position := false } = (⟨false, false, false, false⟩ : Halts) then .idle else .halted
    queue := y.queue, outstanding := y.outstanding }
  resumes : x.halts = ⟨false, false, false, true⟩ → InHand y (.motion true)
  queued : x.queuedWithdraw = none → y.queuedWithdraw = none

theorem isEmpty_iff (h : Halts) : h.isEmpty = true ↔ h = ⟨false, false, false, false⟩ := by
  obtain ⟨a, b, c, d⟩ := h
  cases a <;> cases b <;> cases c <;> cases d <;> decide

theorem restored_lifted {k : Control} {f : Floor} {m c : Nat} {ld : Table Dir} {x : Scrubber}
    (own : f.machines.look m = some (restoredRecord k c ld x)) :
    let g := f.removeHalt k .position m
    OthersKept m f g ∧ g.cells = f.cells ∧ g.lanes = f.lanes ∧ g.notices = f.notices ∧ g.supTx = f.supTx ∧
      ∃ y, g.machines.look m = some y ∧ Lifted x (restoredRecord k c ld x) y := by
  intro g
  have rests : (restoredRecord k c ld x).state = .idle ∨ (restoredRecord k c ld x).state = .halted := by
    show (if x.halts.isEmpty then MState.idle else .halted) = _ ∨ (if x.halts.isEmpty then MState.idle else .halted) = _
    split
    · exact .inl rfl
    · exact .inr rfl
  obtain ⟨others, cells, lanes, notices, sup, look⟩ := removeHalt_resting (k := k) .position own rests rfl rfl rfl rfl
  refine ⟨others, cells, lanes, notices, sup, _, look, ?_⟩
  have state : (restoredRecord k c ld x).state = if x.halts.isEmpty then .idle else .halted := rfl
  have halts : (restoredRecord k c ld x).halts = x.halts := rfl
  have queue : (restoredRecord k c ld x).queue = x.queue := rfl
  have accepts : Accepts (restoredRecord k c ld x) (.motion true) :=
    ⟨by rcases rests with h | h <;> rw [h] <;> exact nofun, nofun⟩
  generalize restoredRecord k c ld x = rec at state halts queue accepts
  rw [halts, state]
  obtain ⟨q, out, same⟩ := ordered_eq (.motion true) rec
  have before : x.halts.has .position = x.halts.position := rfl
  have after : x.halts.write false .position = { x.halts with position := false } := rfl
  rw [before, after]
  by_cases held : x.halts.position = true
  · by_cases empty : ({ x.halts with position := false } : Halts) = ⟨false, false, false, false⟩
    · have last := (isEmpty_iff _).2 empty
      refine ⟨?_, fun _ => ?_, fun none => ?_⟩
      · simp only [held, last, Bool.and_self, if_true, same]
        rw [if_pos empty]
      · have sent := inHand_of_accepts accepts (by simp [Order.kind])
        simp only [held, last, Bool.and_self, if_true]
        exact sent
      · simp only [held, last, Bool.and_self, if_true]
        rw [queuedWithdraw_eq_none] at none ⊢
        intro o listed
        rcases mem_ordered_queue listed with old | kind
        · exact none o (queue ▸ old)
        · rw [kind]; simp [Order.kind]
    · have stays : ({ x.halts with position := false } : Halts).isEmpty = false := by
        rw [← Bool.not_eq_true, isEmpty_iff]; exact empty
      have full : x.halts.isEmpty = false := by
        rw [← Bool.not_eq_true, isEmpty_iff]; exact fun h => by rw [h] at held; cases held
      refine ⟨?_, fun alone => absurd (by rw [alone]) empty, fun none => ?_⟩
      · simp only [held, stays, full, empty, Bool.and_false, if_true, if_false, Bool.false_eq_true]
      · simp only [held, stays, Bool.and_false, if_false, Bool.false_eq_true]
        rw [queuedWithdraw_eq_none] at none ⊢
        exact queue ▸ none
  · have clear : x.halts.position = false := by simpa using held
    have kept : ({ x.halts with position := false } : Halts) = x.halts := by rw [← clear]
    refine ⟨?_, fun alone => absurd (by rw [alone]) held, fun none => ?_⟩
    · simp only [clear, Bool.false_and, if_false, Bool.false_eq_true, kept, ← isEmpty_iff]
    · simp only [clear, Bool.false_and, if_false, Bool.false_eq_true]
      rw [queuedWithdraw_eq_none] at none ⊢
      exact queue ▸ none

/-- R123, R127: on an embargoed cell the restored machine is withdrawn to that cell's refuge. -/
structure Withdrawn (x y0 : Scrubber) (refuge : Option Nat) (y : Scrubber) : Prop where
  record : y = { y0 with
    withdrawal := some { cancel := true, refuge := refuge, deferred := false }
    queue := y.queue, outstanding := y.outstanding }
  resumes : InHand y0 (.motion true) → InHand y (.motion true)
  order : ∃ r, InHand y (.withdraw true r) ∧ (y0.queuedWithdraw = none → r = refuge)

theorem restored_withdrawn {k : Control} {f : Floor} {m : Nat} {x y0 : Scrubber} (refuge : Option Nat)
    (own : f.machines.look m = some y0) (rests : y0.state = .idle ∨ y0.state = .halted) (none : y0.withdrawal = none)
    (home : y0.refuge = Option.none) :
    let g := f.startWithdrawal k true refuge m
    OthersKept m f g ∧ g.cells = f.cells ∧ g.lanes = f.lanes ∧ g.notices = f.notices ∧ g.supTx = f.supTx ∧
      ∃ y, g.machines.look m = some y ∧ Withdrawn x y0 refuge y := by
  intro g
  have found : y0.state ≠ .lost ∧ y0.state ≠ .waiting := by rcases rests with h | h <;> rw [h] <;> exact ⟨nofun, nofun⟩
  obtain ⟨others, cells, lanes, notices, sup, look⟩ := startWithdrawal_own (k := k) true refuge own found.1 found.2
  refine ⟨others, cells, lanes, notices, sup, _, look, ?_, fun held => ?_, ?_⟩
  · obtain ⟨q, out, same⟩ := ordered_eq (.withdraw true refuge) y0
    rw [same, none]
    rfl
  · have kept := inHand_ordered_other (o := .withdraw true refuge) (by simp [Order.kind]) held
    exact kept
  · have kept : ¬ discards y0 (.withdraw true refuge) = true := fun drop => by
      rcases (discards_iff _ _).1 drop with lost | ⟨q, -, guards⟩
      · exact found.1 lost
      · simp [Order.guardsRefuge, home] at guards
    rcases inHand_ordered kept with held | ⟨q, listed, kind, held⟩
    · exact ⟨refuge, held, fun _ => rfl⟩
    · cases q <;> simp [Order.kind] at kind
      next c r =>
      have merged : (Order.withdraw c r).merge (.withdraw true refuge) =
          .withdraw true (if refuge.isSome then refuge else r) := by simp [Order.merge]
      rw [merged] at held
      exact ⟨_, held, fun free => absurd rfl ((queuedWithdraw_eq_none y0).1 free _ listed)⟩

theorem restore_spec {k : Control} {f : Floor} (once : f.cells.keys.Nodup) (nobody : NobodyWaits f) {m c : Nat}
    {x : Scrubber} {cell : Cell} (known : f.machines.look m = some x) (none : x.withdrawal = none)
    (defined : f.cells.look c = some cell) :
    let g := f.restore k m c
    OthersKept m f g ∧ g.notices = f.notices ∧ g.supTx = f.supTx ∧
      (∀ n z, f.cells.look n = some z → g.cells.look n = some
        { z with occ := if n = c then .held m else if z.occ = .held m ∨ z.occ = .blocked m then givenUp k z else z.occ }) ∧
      ∃ ld y0 y, g.machines.look m = some y ∧ Lifted x (restoredRecord k c ld x) y0 ∧
        (cell.embargo = 0 → y = y0) ∧ (cell.embargo ≠ 0 → Withdrawn x y0 cell.refuge y) := by
  intro g
  obtain ⟨others, stands, notices, sup, cells, ld, own⟩ := restoredFloor_spec (k := k) once nobody (c := c) known
  obtain ⟨others', cells', lanes', notices', sup', y0, own', lifted⟩ := restored_lifted (k := k) own
  have whole := restore_eq k f m c
  generalize restoredFloor k f m c = placed at others stands notices sup cells own others' cells' lanes' notices' sup' own' whole
  have here := cells c cell defined
  rw [← cells'] at here
  rw [here] at whole
  simp only at whole
  generalize placed.removeHalt k .position m = lifted' at others' cells' lanes' notices' sup' own' whole
  have still : NobodyWaits lifted' := (SameWaiters.of_eq cells' lanes').nobody stands
  by_cases free : cell.embargo = 0
  · rw [if_pos free, offerReleased_nobody still] at whole
    rw [show g = lifted' from whole]
    exact ⟨othersKept_trans others others', notices'.trans notices, sup'.trans sup,
      fun n z hz => by rw [cells']; exact cells n z hz, ld, y0, y0, own', lifted, fun _ => rfl, fun held => absurd free held⟩
  · rw [if_neg free] at whole
    have state : y0.state = .idle ∨ y0.state = .halted := by
      rw [lifted.record]
      simp only
      split
      · exact .inl rfl
      · exact .inr rfl
    obtain ⟨others2, cells2, lanes2, notices2, sup2, y, own2, withdrawn⟩ := restored_withdrawn (k := k) (x := x) cell.refuge own'
      state (by rw [lifted.record]; exact none) (by rw [lifted.record]; rfl)
    rw [offerReleased_nobody ((SameWaiters.of_eq cells2 lanes2).nobody still)] at whole
    rw [show g = _ from whole]
    exact ⟨othersKept_trans (othersKept_trans others others') others2, (notices2.trans notices').trans notices,
      (sup2.trans sup').trans sup, fun n z hz => by rw [cells2, cells']; exact cells n z hz, ld, y0, y, own2, lifted,
      fun zero => absurd zero free, fun _ => withdrawn⟩

/-- Settles O38: the checks by `restoreFault`'s cases, the effects by `restore_spec`. -/
theorem machineRestoreChecksThenPlaces : Obligations.MachineRestoreChecksThenPlaces := by
  constructor
  · intro ref slot c1 c0 s turn r run m c away
    have refuse {st : Status} (fault : s.restoreFault m c = some st) : run = away st :=
      command_answers turn (machineRestore_refused (s := s.takeFrame) fault)
    refine ⟨fun outside => refuse (restoreFault_outside outside), fun low high within => ?_⟩
    have inside := restoreFault_inside (s := s) low high within
    refine ⟨fun absent => refuse (by rw [inside, absent]), fun x known => ?_⟩
    rw [known] at inside
    simp only at inside
    refine ⟨fun found up clear => refuse ?_, fun lost => ?_⟩
    · rw [inside, if_pos (by simp [found, up, clear])]
    rw [if_neg (not_not.2 lost)] at inside
    refine ⟨fun pending => refuse ?_, fun none => ?_⟩
    · rw [inside, if_pos (Option.isSome_iff_ne_none.2 pending)]
    rw [none, if_neg (by simp)] at inside
    refine ⟨fun undefined => refuse (by rw [inside, undefined]), fun cell defined => ?_⟩
    intro mine
    rw [defined] at inside
    simp only at inside
    refine ⟨fun other taken => refuse ?_, fun dock foreign => refuse ?_, fun open' owned => ?_⟩
    · rw [inside, if_neg]
      rw [restorable_iff]
      tauto
    · rw [inside, if_neg]
      rw [restorable_iff]
      tauto
    · rw [if_pos ((restorable_iff cell m).2 ⟨by tauto, owned⟩)] at inside
      refine ⟨_, command_done turn (machineRestore_accepted (s := s.takeFrame) inside), ?_⟩
      rw [State.reply_floor]
      exact List.getLast?_concat
  · intro ref slot c1 c0 x cell s turn tables nobody r m c k given low high within known lost none defined open' owned
    have accepted : s.restoreFault m c = Option.none := by
      rw [restoreFault_inside low high within, known]
      simp only
      rw [if_neg (not_not.2 lost), none, if_neg (by simp), defined]
      exact if_pos ((restorable_iff cell m).2 ⟨open', owned⟩)
    obtain ⟨others, notices, sup, cells, ld, y0, y, own, lifted, free, embargoed⟩ := restore_spec (k := k)
      (f := s.takeFrame.floor) (cells_nodup tables) nobody known none defined
    have halts : y0.halts = { x.halts with position := false } := by rw [lifted.record]
    have state : y0.state = if y0.halts = ⟨false, false, false, false⟩ then .idle else .halted := by rw [halts, lifted.record]
    have pending : y0.withdrawal = Option.none := by rw [lifted.record]; exact none
    have same : y.halts = y0.halts ∧ y.state = y0.state ∧ y = { y0 with
        withdrawal := y.withdrawal, queue := y.queue, outstanding := y.outstanding } := by
      by_cases zero : cell.embargo = 0
      · rw [free zero]; exact ⟨rfl, rfl, rfl⟩
      · rw [(embargoed zero).record]; exact ⟨rfl, rfl, rfl⟩
    refine ⟨_, y, command_done turn (machineRestore_accepted (s := s.takeFrame) accepted),
      answered_onFloor (g := fun k f => f.restore k m c) sup, partKept_onFloor _ _ _ _ _ _, others, notices, ?_, ?_,
      same.1.trans halts, ?_, fun alone => ?_, fun zero => ?_, fun zero => ⟨?_, ?_⟩, ?_⟩
    · rw [State.reply_floor]
      exact cells
    · rw [State.reply_floor]
      exact own
    · rw [same.1, same.2.1, state]
    · by_cases zero : cell.embargo = 0
      · rw [free zero]; exact lifted.resumes alone
      · exact (embargoed zero).resumes (lifted.resumes alone)
    · rw [free zero]; exact pending
    · rw [(embargoed zero).record]
    · obtain ⟨r, held, names⟩ := (embargoed zero).order
      exact ⟨r, held, fun unqueued => names (lifted.queued unqueued)⟩
    · rw [same.2.2, lifted.record]
      rfl

end Sys2Proof.Laws
end

section
/-! ## The miss that loses a machine -/

namespace Sys2Proof.Laws

open Sys2Proof Sys2Proof.Machine Sys2Proof.Safety

-- One theorem at a time, as in the tests above: side by side their threads' stacks take the memory.
set_option Elab.async false

/-- A record of an enrolled machine that is not LOST, of a length that suits and with no check of its own that fails. -/
theorem machineRecord_takes {kind slot : Byte} {body : List Byte} {act : State → State} {s : State} {x : Scrubber}
    (turn : s.takesRecord ⟨kind, slot, body⟩ = true) (low : 1 ≤ slot.toNat) (high : slot.toNat ≤ 24)
    (known : s.floor.machines.look slot.toNat = some x) (found : x.state ≠ .lost) :
    machineRecord kind slot body (some act) none s = takes act s := by
  have enrolled : ¬ isSlot slot.toNat = false := by rw [isSlot_eq_false]; omega
  unfold machineRecord takes
  rw [if_pos turn]
  simp only [State.takeRecord_floor, known, found, if_false, if_neg enrolled]

/-- R36: the cells HELD by the machine become BLOCKED by it. -/
theorem blockCells_spec {f : Floor} (once : f.cells.keys.Nodup) (m : Nat) :
    (f.blockCells m).machines = f.machines ∧ (f.blockCells m).fleetTx = f.fleetTx ∧ (f.blockCells m).notices = f.notices ∧
      ∀ n z, f.cells.look n = some z → (f.blockCells m).cells.look n = some
        { z with occ := if z.occ = .held m then .blocked m else z.occ } := by
  have fold (cs : List Nat) (g : Floor) : (cs.foldl (fun g c => g.setOcc c (.blocked m)) g).machines = g.machines ∧
      (cs.foldl (fun g c => g.setOcc c (.blocked m)) g).fleetTx = g.fleetTx ∧
      (cs.foldl (fun g c => g.setOcc c (.blocked m)) g).notices = g.notices ∧
      ∀ n, (cs.foldl (fun g c => g.setOcc c (.blocked m)) g).cells.look n =
        (g.cells.look n).map fun z => if n ∈ cs then { z with occ := .blocked m } else z := by
    induction cs generalizing g with
    | nil => exact ⟨rfl, rfl, rfl, fun n => by simp⟩
    | cons c cs ih =>
      obtain ⟨machines, tx, notices, cells⟩ := ih (g.setOcc c (.blocked m))
      refine ⟨machines.trans (by simp), tx.trans (by simp), notices.trans (by simp), fun n => ?_⟩
      rw [List.foldl_cons, cells, setOcc_look]
      by_cases here : n = c
      · simp only [here, if_true, Option.map_map, List.mem_cons, true_or]
        refine congrArg (fun h => Option.map h (g.cells.look c)) (funext fun z => ?_)
        simp
      · simp [here]
  obtain ⟨machines, tx, notices, cells⟩ := fold (f.cells.keysWhere fun c => decide (c.occ = .held m)) f
  refine ⟨machines, tx, notices, fun n z known => (cells n).trans ?_⟩
  rw [known, Option.map_some, ite_congr (propext (mem_keysWhere once _ known)) (fun _ => rfl) fun _ => rfl]
  simp only [decide_eq_true_eq]
  split <;> rfl

/-- R24: leaving a wait changes no cell but in its wait list. -/
theorem leaveWait_cells (f : Floor) (m n : Nat) {z : Cell} (known : f.cells.look n = some z) :
    ∃ ws, (f.leaveWait m).cells.look n = some { z with waiters := ws } := by
  unfold Floor.leaveWait
  split
  · exact ⟨z.waiters, known⟩
  · next p _ =>
    rw [Floor.modMachine_cells]
    cases p.target with
    | cell c =>
      rw [Floor.quitList, Table.look_upd]
      split
      · rw [known]; exact ⟨_, rfl⟩
      · exact ⟨z.waiters, known⟩
    | lane l => exact ⟨z.waiters, known⟩

/-- R110: the record of a machine that has become LOST. -/
def lostRecord (x : Scrubber) : Scrubber :=
  { x with
    state := .lost, refuge := none, request := none, withdrawal := none, active := none, staged := none, queue := []
    outstanding := none, replyWindow := none, beaconTimer := none, progress := none }

/-- R110: what a loss does. -/
theorem lose_spec {k : Control} {f : Floor} {m : Nat} {x : Scrubber} (source : NoticeReason)
    (once : f.cells.keys.Nodup) (classes : f.notices.keys = List.range Config.classCount)
    (known : f.machines.look m = some x) :
    let g := f.lose k m source
    OthersKept m f g ∧ g.fleetTx = (f.fleetTx.filter fun o => decide (o.slot ≠ m)) ∧
      (∀ n z, f.cells.look n = some z → ∃ ws, g.cells.look n = some
        { z with occ := if z.occ = .held m then .blocked m else z.occ, waiters := ws }) ∧
      g.machines.look m = some (lostRecord x) ∧
      ∃ n, g.notices.look 2 = some n ∧ n.pending = true ∧ n.last = some m := by
  intro g
  obtain ⟨machines, tx, notices, cells⟩ := blockCells_spec once m
  have acts := (((Acts.of_machines (m := m) machines).trans (acts_leaveWait _ m)).trans (acts_flushOrders _ m)).trans
    (acts_modSettled k _ m fun x =>
      { x with refuge := none, withdrawal := none, active := none, staged := none, beaconTimer := none, state := .lost })
  have machines' : g.machines = (Floor.modSettled k (((f.blockCells m).leaveWait m).flushOrders m) m fun x =>
      { x with refuge := none, withdrawal := none, active := none, staged := none, beaconTimer := none, state := .lost }).machines :=
    raise_machines _ _ _ _ _
  refine ⟨fun n other => ?_, ?_, fun n z hz => ?_, ?_, ?_⟩
  · rw [machines']; exact acts.others n other
  · refine (raise_fleetTx _ _ _ _ _).trans ?_
    show (((f.blockCells m).leaveWait m).fleetTx.filter fun o => !decide (o.slot = m)) = _
    rw [leaveWait_fleetTx, tx]
    simp
  · obtain ⟨ws, left⟩ := leaveWait_cells (f.blockCells m) m n (cells n z hz)
    exact ⟨ws, (congrArg (fun t => Table.look t n) (raise_cells _ _ _ _ _)).trans left⟩
  · rw [machines', acts.own known]
    rfl
  · refine raise_pending (f := Floor.modSettled k (((f.blockCells m).leaveWait m).flushOrders m) m _) (cls := .machineLost) ?_
    show ((f.blockCells m).leaveWait m).notices.keys = _
    rw [leaveWait_notices, notices, classes]

/-- R109: the miss that reaches the threshold. -/
theorem countMiss_lost {k : Control} {f : Floor} {m : Nat} {x : Scrubber} (source : NoticeReason)
    (known : f.machines.look m = some x) (last : k.timing.lostThreshold ≤ x.misses + 1) :
    f.countMiss k m source = (f.modMachine m fun x => { x with misses := x.misses + 1 }).lose k m source := by
  unfold Floor.countMiss
  simp only [Floor.modMachine_machines, Table.look_upd_self, known, Option.map_some, last, if_true]

/-- What an event leaves that loses machine `m`, whose record was `x`, to the last miss. -/
def Loses (m : Nat) (x : Scrubber) (f g : Floor) : Prop :=
  OthersKept m f g ∧ g.fleetTx = (f.fleetTx.filter fun o => decide (o.slot ≠ m)) ∧
    (∀ n z, f.cells.look n = some z → ∃ ws, g.cells.look n = some
      { z with occ := if z.occ = .held m then .blocked m else z.occ, waiters := ws }) ∧
    (∃ y, g.machines.look m = some y ∧ y = lostRecord { x with misses := x.misses + 1, earlyBeacons := y.earlyBeacons }) ∧
    ∃ n, g.notices.look 2 = some n ∧ n.pending = true ∧ n.last = some m

/-- R109, R110: a miss counted for a machine at the threshold, after a change of its record in timers and counts. -/
theorem countMiss_loses {k : Control} {f : Floor} {m : Nat} {x : Scrubber} (source : NoticeReason) (h : Scrubber → Scrubber)
    (once : f.cells.keys.Nodup) (classes : f.notices.keys = List.range Config.classCount)
    (known : f.machines.look m = some x) (last : k.timing.lostThreshold ≤ x.misses + 1)
    (timers : h x = { x with
      beaconTimer := (h x).beaconTimer, replyWindow := (h x).replyWindow, earlyBeacons := (h x).earlyBeacons }) :
    Loses m x f ((f.modMachine m h).countMiss k m source) := by
  have changed := acts_modMachine f m h
  have misses : (h x).misses = x.misses := by rw [timers]
  rw [countMiss_lost source (changed.own known) (by rw [misses]; exact last)]
  have counted := changed.trans (acts_modMachine _ m fun x => { x with misses := x.misses + 1 })
  obtain ⟨others, tx, cells, own, notice⟩ := lose_spec (k := k) source
    (f := (f.modMachine m h).modMachine m fun x => { x with misses := x.misses + 1 }) once classes (counted.own known)
  refine ⟨othersKept_trans counted.others others, tx, cells, ⟨_, own, ?_⟩, notice⟩
  rw [Function.comp_apply, timers]
  rfl

/-- The state an expiry leaves: the time base has reached the deadline. -/
theorem expire_some {s : State} {d : Option Nat} {t : Nat} (g : Control → Floor → Floor) (runs : d = some t) :
    s.expire d g = (s.advanceTo t).onFloor g := by rw [runs]; rfl

/-- R99: a reply window that runs out outside STANDBY is a miss; a LOST machine has nothing to repeat. -/
theorem replyExpiry_loses {k : Control} {f : Floor} {m : Nat} {x : Scrubber} (once : f.cells.keys.Nodup)
    (classes : f.notices.keys = List.range Config.classCount) (known : f.machines.look m = some x)
    (last : k.timing.lostThreshold ≤ x.misses + 1) (mode : k.mode ≠ .standby) : Loses m x f (f.replyExpiry k m) := by
  have lost := countMiss_loses (k := k) .reply (fun x => { x with replyWindow := none }) once classes known last rfl
  have whole : f.replyExpiry k m = (f.modMachine m fun x => { x with replyWindow := none }).countMiss k m .reply := by
    obtain ⟨-, -, -, ⟨y, own, record⟩, -⟩ := lost
    unfold Floor.replyExpiry
    simp only [if_neg mode, own, Option.bind_some]
    rw [record]
    rfl
  rw [whole]
  exact lost

/-- R108: a beacon too early outside STANDBY is a miss. -/
theorem beacon_loses {k : Control} {f : Floor} {m b w t : Nat} {x : Scrubber} (once : f.cells.keys.Nodup)
    (classes : f.notices.keys = List.range Config.classCount) (known : f.machines.look m = some x)
    (last : k.timing.lostThreshold ≤ x.misses + 1) (mode : k.mode ≠ .standby) (before : x.lastBeacon = some t)
    (early : k.now - t < k.timing.earlyLimit) : Loses m x f (f.beacon k m b w) := by
  have invalid : x.beaconValid k = false := by
    unfold Scrubber.beaconValid
    rw [before]
    exact decide_eq_false (Nat.not_le.2 early)
  have lost := countMiss_loses (k := k) .earlyBeacon (fun y => { y with earlyBeacons := bump y.earlyBeacons }) once classes
    known last rfl
  unfold Floor.beacon
  simp only [known, if_neg mode, invalid, Bool.false_eq_true, if_false]
  exact lost

/-- Settles O42: each of the three events is a miss counted at the threshold. -/
theorem theLastMissLosesTheMachine : Obligations.TheLastMissLosesTheMachine := by
  intro m x c moment s live tables low high known found last source
  have once := cells_nodup tables
  have classes : s.floor.notices.keys = List.range Config.classCount := by
    obtain ⟨-, -, -, -, -, notices, -⟩ := tables
    exact notices
  have enrolled : isSlot m = true := by
    rw [← Bool.not_eq_false, isSlot_eq_false]; omega
  suffices loses : ∃ t, exec c s = .next t ∧ t.control = { s.control with now := max s.control.now moment } ∧
      t.marks = s.marks ∧ t.pending = s.pending ∧ Loses m x s.floor t.floor by
    obtain ⟨t, run, control, marks, pending, others, tx, cells, ⟨y, own, record⟩, n, notice⟩ := loses
    refine ⟨t, y, n, run, control, marks, pending, others, cells, tx, own, ?_⟩
    rw [record]
    exact ⟨rfl, rfl, rfl, rfl, rfl, rfl, rfl, rfl, rfl, rfl, rfl, rfl, rfl, rfl, rfl, rfl, notice⟩
  rcases source with ⟨rfl, runs⟩ | ⟨rfl, runs, mode⟩ | ⟨rfl, mode, ⟨b, w, rfl, turn⟩, t, before, early⟩
  · have deadline : s.floor.beaconDeadline m = some moment := by rw [Floor.beaconDeadline, known]; exact runs
    refine ⟨(s.advanceTo moment).onFloor fun k f => f.beaconExpiry k m, ?_, rfl, rfl, rfl,
      countMiss_loses _ _ once classes known last rfl⟩
    show (if isSlot m = true then _ else _) = _
    rw [if_pos enrolled, event_live live, expire_some _ deadline]
  · have deadline : s.floor.replyDeadline m = some moment := by rw [Floor.replyDeadline, known]; exact runs
    refine ⟨(s.advanceTo moment).onFloor fun k f => f.replyExpiry k m, ?_, rfl, rfl, rfl,
      replyExpiry_loses once classes known last mode⟩
    show (if isSlot m = true then _ else _) = _
    rw [if_pos enrolled, event_live live, expire_some _ deadline]
  · have slot : (BitVec.ofNat 8 m).toNat = m := by rw [BitVec.toNat_ofNat]; omega
    refine ⟨s.takeRecord.onFloor fun k f => f.beacon k m (percent b) (percent w), ?_, by simp, rfl, rfl,
      beacon_loses once classes known last mode before early⟩
    have run := machineRecord_takes (act := fun s => s.onFloor fun k f =>
      f.beacon k (BitVec.ofNat 8 m).toNat (percent b) (percent w)) turn (by omega) (by omega)
      (by rw [slot]; exact known) found
    rw [slot] at run
    have arm : exec (.beacon (BitVec.ofNat 8 m) [b, w]) s = machineRecord 0x41#8 (BitVec.ofNat 8 m) [b, w]
        (some fun s => s.onFloor fun k f => f.beacon k (BitVec.ofNat 8 m).toNat (percent b) (percent w)) none s := rfl
    rw [slot] at arm
    exact arm.trans run

end Sys2Proof.Laws
end

section
/-! ## Accepted arrivals -/

namespace Sys2Proof.Laws

open Sys2Proof Sys2Proof.Machine Sys2Proof.Safety

-- One theorem at a time, as in the tests above: side by side their threads' stacks take the memory.
set_option Elab.async false

/-! ### The cells left behind -/

/-- R34: what becomes of a cell left behind under a flow level. -/
def leftCell (k : Control) (flow : Nat) (z : Cell) : Cell :=
  if flow = 0 then { z with occ := givenUp k z } else wetted k flow z

theorem releaseBehind_look (k : Control) (m flow : Nat) (f : Floor) (c d : Nat) :
    (f.releaseBehind k m flow c).cells.look d =
      (f.cells.look d).map fun z => if d = c then leftCell k flow z else z := by
  unfold Floor.releaseBehind leftCell
  split
  · exact release_look k m f c d
  · exact releaseWet_look k m flow f c d

theorem releasesBehind_look (k : Control) (m flow : Nat) {cs : List Nat} (once : cs.Nodup) (f : Floor) (d : Nat) :
    (cs.foldl (Floor.releaseBehind k m flow) f).cells.look d =
      (f.cells.look d).map fun z => if d ∈ cs then leftCell k flow z else z := by
  induction cs generalizing f with
  | nil => simp
  | cons c cs ih =>
    obtain ⟨fresh, once⟩ := List.nodup_cons.1 once
    rw [List.foldl_cons, ih once, releaseBehind_look, Option.map_map]
    refine congrArg (fun h => Option.map h (f.cells.look d)) (funext fun z => ?_)
    by_cases here : d = c
    · subst here
      simp [fresh]
    · simp [here]

theorem releasesBehind_fleetTx (k : Control) (m flow : Nat) (cs : List Nat) (f : Floor) :
    (cs.foldl (Floor.releaseBehind k m flow) f).fleetTx = f.fleetTx := by
  induction cs generalizing f with
  | nil => rfl
  | cons c cs ih =>
    refine (ih _).trans ?_
    unfold Floor.releaseBehind
    split
    · simp
    · unfold Floor.releaseWet
      split
      · rfl
      · simp only
        split <;> simp

/-! ### SLOW DRY causes -/

/-- R49: the cell's drying time is the high clamp's. -/
def slowUnder (k : Control) (flow : Nat) (f : Floor) (c : Nat) : Bool :=
  (f.cells.look c).any fun z => (dryingAnswer k.drying z.floorClass flow).2

theorem releaseWet_eq (k : Control) (m flow : Nat) {f : Floor} {c : Nat} {z : Cell} (known : f.cells.look c = some z) :
    ∃ g : Floor, g.notices = f.notices ∧ f.releaseWet k m flow c =
      if (dryingAnswer k.drying z.floorClass flow).2 then g.raise k .slowDry (some c) (some (.highClamp z.floorClass)) else g := by
  unfold Floor.releaseWet
  simp only [known]
  refine ⟨_, ?_, rfl⟩
  simp

/-- R49: a release behind a washing leg raises a cause exactly for a slow cell. -/
theorem releaseWet_notices {k : Control} {m flow : Nat} {f : Floor} {c : Nat} :
    (slowUnder k flow f c = false → (f.releaseWet k m flow c).notices = f.notices) ∧
      (∀ i, i ≠ 10 → (f.releaseWet k m flow c).notices.look i = f.notices.look i) ∧
      ∀ z b, slowUnder k flow f c = true → f.cells.look c = some z → f.notices.look 10 = some b → ∃ sent,
        (f.releaseWet k m flow c).notices.look 10 =
          some { b.withCause (some c) (some (.highClamp z.floorClass)) k.stamp with sent := sent } := by
  unfold slowUnder
  cases known : f.cells.look c with
  | none =>
    have same : f.releaseWet k m flow c = f := by
      unfold Floor.releaseWet
      split
      · rfl
      · next here => exact absurd here (by rw [known]; exact Option.some_ne_none _ ∘ Eq.symm)
    rw [same]
    exact ⟨fun _ => rfl, fun _ _ => rfl, fun _ _ no => absurd no Bool.false_ne_true⟩
  | some z =>
    obtain ⟨g, stands, whole⟩ := releaseWet_eq k m flow known
    rw [Option.any_some, ← stands]
    generalize (dryingAnswer k.drying z.floorClass flow).2 = slow at whole
    cases slow with
    | false =>
      rw [if_neg Bool.false_ne_true] at whole
      rw [whole]
      exact ⟨fun _ => rfl, fun _ _ => rfl, fun _ _ no => absurd no Bool.false_ne_true⟩
    | true =>
      rw [if_pos rfl] at whole
      rw [whole]
      refine ⟨fun no => absurd no.symm Bool.false_ne_true, fun i other => raise_look_ne k g .slowDry _ _ other,
        fun z' b _ here class' => ?_⟩
      obtain rfl := Option.some.inj here
      exact raise_look_self k g .slowDry _ _ class'

theorem slowUnder_congr {k : Control} {flow : Nat} {f g : Floor} {c : Nat}
    (same : (g.cells.look c).map (fun z => z.floorClass) = (f.cells.look c).map fun z => z.floorClass) :
    slowUnder k flow g c = slowUnder k flow f c := by
  have read (o : Option Cell) : (o.any fun z => (dryingAnswer k.drying z.floorClass flow).2) =
      (o.map fun z => z.floorClass).any fun n => (dryingAnswer k.drying n flow).2 := by cases o <;> rfl
  unfold slowUnder
  rw [read, read, same]

/-- R177: one cause more, taken first. -/
theorem causesAdded_first {k : Control} {f f' : Floor} {b : Notice} {cls c : Nat} {reason : NoticeReason} {sent : Bool}
    (before : f.notices.look cls = some b)
    (after : f'.notices.look cls = some { b.withCause (some c) (some reason) k.stamp with sent := sent }) :
    CausesAdded f f' cls 1 c c reason k.stamp := by
  refine ⟨b, _, before, after, ?_⟩
  unfold Notice.withCause
  split
  · next pending =>
    refine ⟨rfl, pending, rfl, fun clear => absurd pending (by simp [clear]), fun _ => ⟨?_, rfl, rfl, rfl⟩⟩
    simp only [bumpTo]
    split <;> omega
  · next clear => exact ⟨rfl, rfl, rfl, fun _ => ⟨rfl, rfl, rfl, rfl⟩, fun pending => absurd pending clear⟩

/-- R177: causes taken one after the other. -/
theorem CausesAdded.after {f g h : Floor} {cls n n' c p q r : Nat} {reason reason' : NoticeReason} {clock clock' : Option Nat}
    (one : CausesAdded f g cls n c p reason clock) (rest : CausesAdded g h cls n' q r reason' clock') (some : 1 ≤ n) :
    CausesAdded f h cls (n + n') c r reason clock := by
  obtain ⟨b, a, before, mid, enabled, pending, -, clear, held⟩ := one
  obtain ⟨b', a', mid', after, enabled', pending', last', -, held'⟩ := rest
  cases mid.symm.trans mid'
  obtain ⟨count', first', reason', clock'⟩ := held' pending
  refine ⟨b, a', before, after, enabled'.trans enabled, pending', last', fun free => ?_, fun was => ?_⟩
  · obtain ⟨count, first, reason, clock⟩ := clear free
    exact ⟨by rw [count', count]; omega, first'.trans first, reason'.trans reason, clock'.trans clock⟩
  · obtain ⟨count, first, reason, clock⟩ := held was
    exact ⟨by rw [count', count]; omega, first'.trans first, reason'.trans reason, clock'.trans clock⟩

/-- R49, R177: the causes of the slow cells among those left behind, in their order. -/
theorem releasesWet_notices {k : Control} {m flow : Nat} (cs : List Nat) (f : Floor) {b : Notice}
    (class' : f.notices.look 10 = some b) :
    let g := cs.foldl (Floor.releaseWet k m flow) f
    let slow := cs.filter (slowUnder k flow f)
    (slow = [] → g.notices = f.notices) ∧ (∀ i, i ≠ 10 → g.notices.look i = f.notices.look i) ∧
      ∀ n z p, slow.head? = some n → f.cells.look n = some z → slow.getLast? = some p →
        CausesAdded f g 10 slow.length n p (.highClamp z.floorClass) k.stamp := by
  induction cs generalizing f b with
  | nil => exact ⟨fun _ => rfl, fun _ _ => rfl, nofun⟩
  | cons c cs ih =>
    obtain ⟨quiet, others, raised⟩ := releaseWet_notices (k := k) (m := m) (flow := flow) (f := f) (c := c)
    have classes (d : Nat) : ((f.releaseWet k m flow c).cells.look d).map (fun z => z.floorClass) =
        (f.cells.look d).map fun z => z.floorClass := by
      rw [releaseWet_look, Option.map_map]
      refine congrArg (fun h => Option.map h (f.cells.look d)) (funext fun z => ?_)
      simp only [Function.comp_apply]
      split <;> rfl
    have same : cs.filter (slowUnder k flow (f.releaseWet k m flow c)) = cs.filter (slowUnder k flow f) :=
      List.filter_congr fun d _ => slowUnder_congr (classes d)
    intro g slow
    cases isSlow : slowUnder k flow f c with
    | false =>
      have rest : slow = cs.filter (slowUnder k flow f) := List.filter_cons_of_neg (by simp [isSlow])
      have stands := quiet isSlow
      obtain ⟨none, others', causes⟩ := ih (f.releaseWet k m flow c) (by rw [stands]; exact class')
      rw [same, ← rest] at none causes
      refine ⟨fun empty => (none empty).trans stands, fun i other => (others' i other).trans (others i other),
        fun n z p head here last => ?_⟩
      have there := classes n
      rw [here] at there
      obtain ⟨z', hz', eq⟩ := Option.map_eq_some_iff.1 there
      obtain ⟨b', a, before, rest⟩ := causes n z' p head hz' last
      rw [stands] at before
      rw [show z.floorClass = z'.floorClass from eq.symm]
      exact ⟨b', a, before, rest⟩
    | true =>
      have rest : slow = c :: cs.filter (slowUnder k flow f) := List.filter_cons_of_pos isSlow
      have defined : ∃ z, f.cells.look c = some z := by
        cases known : f.cells.look c with
        | none => simp [slowUnder, known] at isSlow
        | some z => exact ⟨z, rfl⟩
      obtain ⟨z, known⟩ := defined
      obtain ⟨sent, after⟩ := raised z b isSlow known class'
      have one := causesAdded_first (k := k) class' after
      obtain ⟨none, others', causes⟩ := ih (f.releaseWet k m flow c) after
      rw [same] at none causes
      refine ⟨fun empty => absurd (rest.symm.trans empty) (List.cons_ne_nil _ _), fun i other => (others' i other).trans (others i other),
        fun n z' p head here last => ?_⟩
      rw [rest] at head last ⊢
      obtain rfl : c = n := Option.some.inj head
      cases known.symm.trans here
      cases more : cs.filter (slowUnder k flow f) with
      | nil =>
        rw [more] at last
        obtain rfl : c = p := Option.some.inj last
        obtain ⟨b', a, before, rest⟩ := one
        have stands : g.notices = (f.releaseWet k m flow c).notices := none more
        exact ⟨b', a, before, (congrArg (fun t => t.look 10) stands).trans rest.1, rest.2⟩
      | cons d ds =>
        rw [more] at last causes
        have there : ∃ w, (f.releaseWet k m flow c).cells.look d = some w := by
          have slowd : slowUnder k flow f d = true := by
            have : d ∈ cs.filter (slowUnder k flow f) := by rw [more]; exact List.mem_cons_self
            exact (List.mem_filter.1 this).2
          rw [← slowUnder_congr (classes d)] at slowd
          cases known : (f.releaseWet k m flow c).cells.look d with
          | none => simp [slowUnder, known] at slowd
          | some w => exact ⟨w, rfl⟩
        obtain ⟨w, hw⟩ := there
        have later := causes d w p rfl hw (by rwa [List.getLast?_cons_cons] at last)
        have all := CausesAdded.after one later Nat.le.refl
        rw [List.length_cons, Nat.add_comm]
        exact all

/-- R49, R177: the causes that an arrival raises, under either kind of leg. -/
theorem releasesBehind_notices {k : Control} {m flow : Nat} (cs : List Nat) (f : Floor)
    (classes : f.notices.keys = List.range Config.classCount) :
    let g := cs.foldl (Floor.releaseBehind k m flow) f
    let slow := cs.filter (slowUnder k flow f)
    (∀ i, i ≠ 10 → g.notices.look i = f.notices.look i) ∧ (flow = 0 ∨ slow = [] → g.notices = f.notices) ∧
      ∀ n z p, flow ≠ 0 → slow.head? = some n → f.cells.look n = some z → slow.getLast? = some p →
        CausesAdded f g 10 slow.length n p (.highClamp z.floorClass) k.stamp := by
  obtain ⟨b, known⟩ := notice_known classes .slowDry
  obtain ⟨quiet, others, causes⟩ := releasesWet_notices (k := k) (m := m) (flow := flow) cs f known
  intro g slow
  by_cases dry : flow = 0
  · have release : Floor.releaseBehind k m flow = Floor.release k m :=
      funext fun f => funext fun c => if_pos dry
    have stands : g.notices = f.notices := by
      show (cs.foldl (Floor.releaseBehind k m flow) f).notices = _
      rw [release]
      exact (releases_lines_quiet k m cs f).2.1
    exact ⟨fun i _ => congrArg (fun t => t.look i) stands, fun _ => stands, fun _ _ _ washes => absurd dry washes⟩
  · have release : Floor.releaseBehind k m flow = Floor.releaseWet k m flow :=
      funext fun f => funext fun c => if_neg dry
    have same : g = cs.foldl (Floor.releaseWet k m flow) f := by
      show cs.foldl (Floor.releaseBehind k m flow) f = _
      rw [release]
    rw [same]
    exact ⟨others, fun none => quiet (none.resolve_left dry), fun n z p _ => causes n z p⟩

/-! ### The arrival -/

theorem settle_eq (x : Scrubber) (now limit : Nat) : x.settle now limit = { x with
    progress := if (x.state = .running ∨ x.state = .waiting) ∧ x.ahead ≠ [] then some (x.progress.getD (now + limit * 1000))
      else none } := by
  unfold Scrubber.settle
  split <;> rfl

theorem aheadPos_of_nodup {x : Scrubber} {j c : Nat} (once : x.ahead.Nodup) (here : x.ahead[j]? = some c) :
    x.aheadPos c = some j := by
  obtain ⟨inside, here⟩ := List.getElem?_eq_some_iff.1 here
  unfold Scrubber.aheadPos
  rw [List.findIdx?_eq_some_iff_getElem]
  refine ⟨inside, by simpa using here, fun i before => ?_⟩
  have other : x.ahead[i] ≠ x.ahead[j] := fun same =>
    absurd ((List.Nodup.getElem_inj_iff once).1 same) (Nat.ne_of_lt before)
  rw [here] at other
  simpa using other

theorem legDone_arrivedAt {x : Scrubber} {j : Nat} (short : ∀ a, x.active = some a → a.index + j + 2 ≠ a.leg.cells.length) :
    (x.arrivedAt j).legDone = false := by
  unfold Scrubber.legDone Scrubber.arrivedAt
  cases leg : x.active with
  | none => rfl
  | some a =>
    have open' := short a leg
    refine decide_eq_false ?_
    show ¬ a.index + (j + 1) + 1 = a.leg.cells.length
    omega

/-- R74: an accepted arrival short of the leg's end, where nobody waits. -/
theorem arrival_short {k : Control} {f : Floor} {m c j : Nat} {x : Scrubber} (nobody : NobodyWaits f)
    (known : f.machines.look m = some x) (position : x.aheadPos c = some j) (short : (x.arrivedAt j).legDone = false) :
    f.arrive k m c 0 = Floor.modSettled k ((x.leftBehind j).foldl
      (Floor.releaseBehind k m ((x.active.map fun a => a.leg.flow).getD 0)) f) m fun y => y.arrivedAt j := by
  have wait := (SameWaiters.foldl (sameWaiters_releaseBehind k m ((x.active.map fun a => a.leg.flow).getD 0))
    (x.leftBehind j) f).nobody nobody
  unfold Floor.arrive Floor.arrival Floor.acceptArrival
  simp only [known, position, short, if_true, Bool.false_eq_true, if_false]
  exact offerReleased_nobody (f := Floor.modSettled k _ m fun y => y.arrivedAt j) wait _

/-- Settles O45: the cells behind are released one after the other, and the record is settled at the new cell. -/
theorem acceptedArrivalsLeaveWetFloor : Obligations.AcceptedArrivalsLeaveWetFloor := by
  intro slot c1 c0 j x s turn tables nobody low high known found once here short m k flow left dry slow state
  obtain ⟨-, -, -, -, -, classes, -⟩ := tables
  have behind : left.Nodup := once.sublist ((List.take_sublist j x.ahead).cons_cons x.current)
  have arrival := arrival_short (k := k) (f := s.floor) nobody known
    (aheadPos_of_nodup (List.nodup_cons.1 once).2 here) (legDone_arrivedAt short)
  have cells := releasesBehind_look k m flow behind s.floor
  have tx := releasesBehind_fleetTx k m flow left s.floor
  obtain ⟨others, quiet, causes⟩ := releasesBehind_notices (k := k) (m := m) (flow := flow) left s.floor classes
  have written := LanesWritten.foldl (lanesWritten_releaseBehind k m flow) left s.floor
  obtain ⟨ld, own⟩ := written.own known
  have settled := acts_modSettled k (left.foldl (Floor.releaseBehind k m flow) s.floor) m fun y => y.arrivedAt j
  have run : exec (.arrive slot [c1, c0, 0#8]) s = .next (s.takeRecord.onFloor fun k f =>
      f.arrive k m (c1.toNat * 256 + c0.toNat) 0) :=
    machineRecord_takes (act := fun s => s.onFloor fun k f => f.arrive k m (c1.toNat * 256 + c0.toNat) 0)
      turn low high known found
  have floor : (s.takeRecord.onFloor fun k f => f.arrive k m (c1.toNat * 256 + c0.toNat) 0).floor =
      (left.foldl (Floor.releaseBehind k m flow) s.floor).modSettled k m fun y => y.arrivedAt j := arrival
  refine ⟨_, ({ x with laneDirs := ld }.arrivedAt j).settle k.now k.timing.progressLimit, run,
    ⟨rfl, rfl, rfl, rfl, rfl, rfl⟩, ?_⟩
  rw [floor]
  generalize left.foldl (Floor.releaseBehind k m flow) s.floor = g at cells tx others quiet causes written own settled
  refine ⟨othersKept_trans written.others settled.others, tx, fun n z hz outside => ?_, fun n z hz inside zero => ?_,
    fun n z hz inside washes => ?_, others, quiet, causes, settled.own own, ?_⟩
  · refine (cells n).trans ?_
    rw [hz, Option.map_some, if_neg outside]
  · refine (cells n).trans ?_
    rw [hz, Option.map_some, if_pos inside, leftCell, if_pos zero]
    rfl
  · refine (cells n).trans ?_
    rw [hz, Option.map_some, if_pos inside, leftCell, if_neg washes]
    rfl
  · have position : x.ahead.getD j x.current = c1.toNat * 256 + c0.toNat := by
      rw [List.getD_eq_getElem?_getD, here, Option.getD_some]
    rw [settle_eq]
    unfold Scrubber.arrivedAt
    rw [position]
    rfl

end Sys2Proof.Laws
end

section
/-! ## The ring search -/

namespace Sys2Proof.Laws

open Sys2Proof Sys2Proof.Machine Sys2Proof.Safety Relation

-- One theorem at a time, as in the tests above: side by side their threads' stacks take the memory.
set_option Elab.async false

/-! ### What the search collects -/

theorem mem_addNew {n : Nat} {seen xs : List Nat} : n ∈ addNew seen xs ↔ n ∈ seen ∨ n ∈ xs := by
  induction xs generalizing seen with
  | nil => simp [addNew]
  | cons x xs ih =>
    unfold addNew
    split
    · next old =>
      rw [ih, List.mem_cons]
      constructor
      · rintro (h | h)
        · exact .inl h
        · exact .inr (.inr h)
      · rintro (h | rfl | h)
        · exact .inl h
        · exact .inl old
        · exact .inr h
    · rw [ih, List.mem_append, List.mem_singleton, List.mem_cons, or_assoc]

/-- R31: machine `a` waits for machine `b`. -/
def WaitsFor (f : Floor) (a b : Nat) : Prop :=
  ∃ x p, f.machines.look a = some x ∧ x.request = some p ∧ b ∈ f.holdersOf p.target

theorem mem_edges {f : Floor} {a b : Nat} : b ∈ f.edges a ↔ WaitsFor f a b := by
  unfold Floor.edges WaitsFor
  constructor
  · intro listed
    split at listed
    · next p waits =>
      obtain ⟨x, known, request⟩ := Option.bind_eq_some_iff.1 waits
      exact ⟨x, p, known, request, listed⟩
    · cases listed
  · rintro ⟨x, p, known, request, listed⟩
    rw [known, Option.bind_some, request]
    exact listed

/-- R32: one level of the search. -/
theorem mem_level {f : Floor} {b : Nat} {seen : List Nat} :
    b ∈ addNew seen (seen.flatMap f.edges) ↔ b ∈ seen ∨ ∃ a ∈ seen, WaitsFor f a b := by
  rw [mem_addNew, List.mem_flatMap]
  simp only [mem_edges]

theorem mem_reach_of_mem {f : Floor} {n : Nat} (r : Nat) {seen : List Nat} (listed : n ∈ seen) : n ∈ f.reach r seen := by
  induction r generalizing seen with
  | zero => exact listed
  | succ r ih => exact ih (mem_level.2 (.inl listed))

/-- The search collects only what is reached. -/
theorem reached_of_mem_reach {f : Floor} {m r : Nat} {seen : List Nat} (found : m ∈ f.reach r seen) :
    ∃ n ∈ seen, ReflTransGen (WaitsFor f) n m := by
  induction r generalizing seen with
  | zero => exact ⟨m, found, .refl⟩
  | succ r ih =>
    obtain ⟨n, level, path⟩ := ih found
    rcases mem_level.1 level with old | ⟨a, old, edge⟩
    · exact ⟨n, old, path⟩
    · exact ⟨a, old, .head edge path⟩

/-! ### A path needs no more steps than there are machines that wait -/

/-- A wait of one of the machines `ks`. -/
def WaitsAmong (f : Floor) (ks : Finset Nat) (a b : Nat) : Prop := a ∈ ks ∧ WaitsFor f a b

/-- A path that comes by `v` can be cut to what follows its last visit there. -/
theorem path_after_last {f : Floor} {ks : Finset Nat} {u m : Nat} (v : Nat) (path : ReflTransGen (WaitsAmong f ks) u m) :
    ReflTransGen (WaitsAmong f (ks.erase v)) u m ∨
      ∃ b, WaitsAmong f ks v b ∧ ReflTransGen (WaitsAmong f (ks.erase v)) b m := by
  induction path using ReflTransGen.head_induction_on with
  | refl => exact .inl .refl
  | @head u c step _ ih =>
    rcases ih with avoids | visits
    · by_cases here : u = v
      · exact .inr ⟨c, here ▸ step, avoids⟩
      · exact .inl (.head ⟨Finset.mem_erase.2 ⟨here, step.1⟩, step.2⟩ avoids)
    · exact .inr visits

/-- The search finds every machine that a path reaches, in as many rounds as machines may wait on the path. -/
theorem mem_reach_of_path {f : Floor} {m a : Nat} (r : Nat) {ks : Finset Nat} {seen : List Nat} (few : ks.card ≤ r)
    (listed : a ∈ seen) (path : ReflTransGen (WaitsAmong f ks) a m) : m ∈ f.reach r seen := by
  induction r generalizing ks seen a with
  | zero =>
    rcases path.cases_head with rfl | ⟨b, step, -⟩
    · exact listed
    · rw [Finset.card_eq_zero.1 (Nat.le_zero.1 few)] at step
      exact absurd step.1 (Finset.notMem_empty a)
  | succ r ih =>
    rcases path_after_last a path with avoids | ⟨b, step, rest⟩
    · rcases avoids.cases_head with rfl | ⟨b, step, -⟩
      · exact mem_reach_of_mem _ listed
      · exact absurd step.1 (Finset.notMem_erase a ks)
    · have fewer : (ks.erase a).card ≤ r := by
        rw [Finset.card_erase_of_mem step.1]
        omega
      exact ih fewer (mem_level.2 (.inr ⟨a, listed, step.2⟩)) rest

theorem few_machines {f : Floor} (wf : f.machines.wf 25 = true) (none : 0 ∉ f.machines.keys) :
    f.machines.keys.toFinset.card ≤ 24 := by
  have range : f.machines.keys.toFinset ⊆ Finset.Ico 1 25 := by
    intro n listed
    have listed := List.mem_toFinset.1 listed
    have small := ((Table.wf_iff _ _).1 wf).2 n listed
    have positive : n ≠ 0 := fun zero => none (zero ▸ listed)
    rw [Finset.mem_Ico]
    omega
  exact (Finset.card_le_card range).trans (by simp)

/-- R32: the search from a start set, over the at most 24 machines. -/
theorem mem_reach_iff {f : Floor} {m : Nat} {seen : List Nat} (wf : f.machines.wf 25 = true) (none : 0 ∉ f.machines.keys) :
    m ∈ f.reach Config.slotCount seen ↔ ∃ n ∈ seen, ReflTransGen (WaitsFor f) n m := by
  constructor
  · exact reached_of_mem_reach
  · rintro ⟨n, listed, path⟩
    refine mem_reach_of_path _ (few_machines wf none) listed (path.lift id fun a b edge => ⟨?_, edge⟩)
    obtain ⟨x, p, known, -⟩ := edge
    exact List.mem_toFinset.2 (Table.mem_keys_of_look known)

/-- Settles O49: the search is the reachability of the asking machine from those that hold the target. -/
theorem theRingSearchFindsEveryRing : Obligations.TheRingSearchFindsEveryRing := by
  intro f m target wf none
  unfold Floor.closesRing
  rw [decide_eq_true_eq, mem_reach_iff wf none]
  simp only [mem_addNew, List.not_mem_nil, false_or]
  rfl

end Sys2Proof.Laws
end

section
/-! ## Requests: the rows of Tables 2-4 and 2-5 -/

namespace Sys2Proof.Laws

open Sys2Proof Sys2Proof.Machine Sys2Proof.Safety

-- One theorem at a time, as in the tests above: side by side their threads' stacks take the memory.
set_option Elab.async false

/-! ### A REQUEST record -/

/-- R27, R90: a request of an enrolled machine that is not LOST, with a count other than 0. -/
theorem exec_request {slot n : Byte} {s : State} {x : Scrubber} (turn : s.takesRecord ⟨0x43#8, slot, [n]⟩ = true)
    (low : 1 ≤ slot.toNat) (high : slot.toNat ≤ 24) (counts : n ≠ 0#8)
    (known : s.floor.machines.look slot.toNat = some x) (found : x.state ≠ .lost) :
    exec (.request slot [n]) s = takes (fun u => { u with
      floor := u.floor.request u.control slot.toNat (requestCount n) }) s := by
  have arm : exec (.request slot [n]) s = machineRecord 0x43#8 slot [n]
      (some fun u => u.onFloor fun k f => f.request k slot.toNat (requestCount n))
      (if [n] = [0#8] then some State.stray else none) s := rfl
  rw [arm, if_neg (by simpa using counts)]
  exact machineRecord_takes turn low high known found

/-- R30: a machine that is not WAITING has no wait to drop. -/
theorem dropWait_id {k : Control} {f : Floor} {m : Nat} {x : Scrubber} (known : f.machines.look m = some x)
    (still : x.state ≠ .waiting) : f.dropWait k m = f := by
  unfold Floor.dropWait
  rw [known]
  exact if_neg still

/-- R27: a request decided by rows 1 to 5. -/
theorem request_early {k : Control} {f : Floor} {m count : Nat} {x : Scrubber} {a : Answer}
    (known : f.machines.look m = some x) (still : x.state ≠ .waiting) (row : x.earlyAnswer k = some a) :
    f.request k m count = f.order m (.answer a) := by
  unfold Floor.request
  rw [dropWait_id known still]
  unfold Floor.decideRequest
  simp only [known, row]

/-- R27: a request past rows 1 to 5. -/
theorem request_span {k : Control} {f : Floor} {m count : Nat} {x : Scrubber} (known : f.machines.look m = some x)
    (still : x.state ≠ .waiting) (row : x.earlyAnswer k = none) : f.request k m count =
      match f.firstFail k m x.lastHeld (x.span count) [] with
      | none => f.grant k m x (x.span count)
      | some (t, reason) => f.beginWait k m count t reason := by
  unfold Floor.request
  rw [dropWait_id known still]
  unfold Floor.decideRequest
  simp only [known, row] <;> rfl

/-! ### Table 2-5 -/

/-- Row 1. -/
def Barred (k : Control) (x : Scrubber) : Prop :=
  k.mode = .standby ∨ k.mode = .evacuation ∨ x.state = .halted ∨ x.state = .stalled ∨ x.state = .stoodDown

theorem earlyAnswer_barred {k : Control} {x : Scrubber} (barred : Barred k x) :
    x.earlyAnswer k = some (.refused .notAllowed) := by
  refine if_pos ?_
  rcases barred with h | h | h | h | h <;> simp [h]

theorem earlyAnswer_open {k : Control} {x : Scrubber} (open' : ¬ Barred k x) (found : x.state ≠ .lost) :
    x.earlyAnswer k =
      if x.withdrawal.isSome then some (.refused .withdrawPending)
      else if x.active.isNone then some (.refused .noLeg)
      else if x.remaining = [] then some (if x.ahead = [] then .legEnd else .grant x.ahead false)
      else if 4 ≤ x.ahead.length then some (.refused .aheadFull)
      else none := by
  unfold Barred at open'
  refine if_neg ?_
  tauto

theorem remaining_of_active {x : Scrubber} {a : ActiveLeg} (leg : x.active = some a) :
    x.remaining = a.leg.cells.drop (a.index + x.ahead.length + 1) := by
  unfold Scrubber.remaining
  rw [leg]

/-- Rows 4 and 5, for a machine with a leg and no withdrawal. -/
theorem earlyAnswer_leg {k : Control} {x : Scrubber} {a : ActiveLeg} (open' : ¬ Barred k x) (found : x.state ≠ .lost)
    (stays : x.withdrawal = none) (leg : x.active = some a) : x.earlyAnswer k =
      if a.leg.cells.drop (a.index + x.ahead.length + 1) = [] then some (if x.ahead = [] then .legEnd else .grant x.ahead false)
      else if 4 ≤ x.ahead.length then some (.refused .aheadFull) else none := by
  rw [earlyAnswer_open open' found, remaining_of_active leg, stays, leg]
  exact (if_neg Bool.false_ne_true).trans (if_neg Bool.false_ne_true)

/-! ### Table 2-4 -/

/-- Row 7: the lane's direction against the direction of travel. -/
def laneRow (f : Floor) (p c : Nat) (taken : List (Nat × Dir)) : Option WaitReason :=
  match f.travel p c with
  | none => none
  | some (l, d) =>
    match tentativeDir f taken l with
    | none => none
    | some d' => if d' = d then none else some .lane

/-- Rows 5 to 7, for a cell that nobody else has. -/
theorem failingRow_own {k : Control} {f : Floor} {m p c : Nat} {taken : List (Nat × Dir)} {z : Cell}
    (known : f.cells.look c = some z) (own : z.occ = .free ∨ z.occ = .held m) : f.failingRow k m p c taken =
      if z.embargo ≠ 0 then some .embargo else if k.zoneOpen z.zone = false then some .closed else laneRow f p c taken := by
  have mine : ¬ (z.occ ≠ .free ∧ z.occ ≠ .held m) := fun no => own.elim no.1 no.2
  unfold Floor.failingRow
  rcases own with occ | occ
  · rw [occ] at mine
    simp only [known, occ]
    exact if_neg mine
  · rw [occ] at mine
    simp only [known, occ]
    exact if_neg mine

/-- R57: outside lanes row 7 never fails. -/
theorem laneRow_outside {f : Floor} {p c : Nat} {taken : List (Nat × Dir)} (outside : f.laneOf c = none) :
    laneRow f p c taken = none := by
  unfold laneRow Floor.travel
  rw [outside]
  rfl

/-- R57: a lane cell, with no lane yet taken within the span. -/
theorem laneRow_inside {f : Floor} {p c l i : Nat} (inside : f.laneOf c = some (l, i)) :
    laneRow f p c [] = match (f.lanes.look l).bind Lane.dir with
      | some d => if d = stepDir l i (f.laneOf p) then none else some .lane
      | none => none := by
  unfold laneRow Floor.travel
  rw [inside]
  show (match (f.lanes.look l).bind Lane.dir with | none => _ | some d' => _) = _
  cases (f.lanes.look l).bind Lane.dir <;> rfl

/-- Rows 1 to 4, by what stands on the cell. -/
theorem failingRow_taken {k : Control} {f : Floor} {m p c : Nat} {taken : List (Nat × Dir)} {z : Cell}
    (known : f.cells.look c = some z) :
    (∀ t slow, z.occ = .wet t slow → f.failingRow k m p c taken = some .wet) ∧
      (∀ t, z.occ = .guarded t → f.failingRow k m p c taken = some .guarded) ∧
      (∀ n, z.occ = .blocked n → f.failingRow k m p c taken = some .blocked) ∧
      ∀ n, z.occ = .held n → n ≠ m → f.failingRow k m p c taken = some .occupied := by
  unfold Floor.failingRow
  rw [known]
  refine ⟨fun t slow occ => ?_, fun t occ => ?_, fun n occ => ?_, fun n occ other => ?_⟩
  · simp [occ]
  · simp [occ]
  · simp [occ]
  · simp [occ, other]

theorem laneOf_eq_lane {f : Floor} {c : Nat} {z : Cell} (known : f.cells.look c = some z) : f.laneOf c = z.lane := by
  unfold Floor.laneOf
  rw [known]
  rfl

/-! ### Taking a WAITING machine off its list -/

/-- R30: the record of a machine taken off its wait. -/
def restedRecord (k : Control) (y : Scrubber) : Scrubber :=
  { y with
    request := none
    state := if y.ahead = [] then .idle else .running
    progress := if y.ahead = [] then none else some (y.progress.getD (k.now + k.timing.progressLimit * 1000)) }

theorem settle_resting (k : Control) (y : Scrubber) :
    Scrubber.settle { y with request := none, state := y.resting } k.now k.timing.progressLimit = restedRecord k y := by
  rw [settle_eq]
  unfold Scrubber.resting restedRecord
  by_cases empty : y.ahead = []
  · simp [empty]
  · simp [empty]

theorem each_id {α : Type} (t : Table α) (g : Nat → α → α) (same : ∀ c z, g c z = z) : t.each g = t := by
  unfold Table.each
  rw [show (fun e : Nat × α => (e.1, g e.1 e.2)) = id from funext fun e => by rw [same]; rfl, List.map_id]

theorem upd_upd {α : Type} (t : Table α) (m : Nat) (g h : α → α) : (t.upd m g).upd m h = t.upd m (h ∘ g) := by
  unfold Table.upd
  rw [List.map_map]
  refine List.map_congr_left fun e _ => ?_
  by_cases here : e.1 = m <;> simp [here]

/-- R24: the cells once machine `m` is off the list of the target. -/
def cellsOff (f : Floor) (m : Nat) (target : Option Target) : Table Cell :=
  f.cells.each fun c z =>
    { z with waiters := if target = some (.cell c) then z.waiters.filter fun w => decide (w.slot ≠ m) else z.waiters }

/-- R24: the lanes once machine `m` is off the list of the target. -/
def lanesOff (f : Floor) (m : Nat) (target : Option Target) : Table Lane :=
  f.lanes.each fun l r =>
    { r with waiters := if target = some (.lane l) then r.waiters.filter fun w => decide (w ≠ m) else r.waiters }

theorem cellsOff_other {f : Floor} {m : Nat} {target : Option Target} (other : ∀ c, target ≠ some (.cell c)) :
    cellsOff f m target = f.cells := each_id _ _ fun c z => by rw [if_neg (other c)]

theorem lanesOff_other {f : Floor} {m : Nat} {target : Option Target} (other : ∀ l, target ≠ some (.lane l)) :
    lanesOff f m target = f.lanes := each_id _ _ fun l r => by rw [if_neg (other l)]

theorem quitList_eq (f : Floor) (m : Nat) (t : Target) :
    f.quitList m t = { f with cells := cellsOff f m (some t), lanes := lanesOff f m (some t) } := by
  cases t with
  | cell c =>
    have cells : cellsOff f m (some (.cell c)) = f.cells.upd c fun z =>
        { z with waiters := z.waiters.filter fun w => !decide (w.slot = m) } := by
      rw [Table.upd_eq_each]
      refine congrArg f.cells.each (funext fun d => funext fun z => ?_)
      by_cases here : d = c
      · subst here; simp
      · simp [here, Ne.symm here]
    rw [cells, lanesOff_other (by simp)]
    rfl
  | lane l =>
    have lanes : lanesOff f m (some (.lane l)) = f.lanes.upd l fun r =>
        { r with waiters := r.waiters.filter fun w => !decide (w = m) } := by
      rw [Table.upd_eq_each]
      refine congrArg f.lanes.each (funext fun j => funext fun r => ?_)
      by_cases here : j = l
      · subst here; simp
      · simp [here, Ne.symm here]
    rw [lanes, cellsOff_other (by simp)]
    rfl

/-- R24: the floor once the machine has left its wait. -/
theorem leaveWait_off {f : Floor} {m : Nat} {x : Scrubber} (once : f.machines.keys.Nodup)
    (known : f.machines.look m = some x) : f.leaveWait m = { f with
      cells := cellsOff f m (x.request.map Pending.target), lanes := lanesOff f m (x.request.map Pending.target)
      machines := f.machines.upd m fun y => { y with request := none } } := by
  rw [leaveWait_eq known]
  cases request : x.request with
  | none =>
    have machines : (f.machines.upd m fun y => { y with request := none }) = f.machines :=
      Table.upd_eq_self once fun y here => by
        cases known.symm.trans here
        rw [← request]
    rw [machines, Option.map_none, cellsOff_other (by simp), lanesOff_other (by simp)]
  | some p =>
    show (f.quitList m p.target).modMachine m _ = _
    rw [quitList_eq]
    rfl

/-- R30: a WAITING machine leaves the list of its target and rests. -/
theorem dropWait_waiting {k : Control} {f : Floor} {m : Nat} {x : Scrubber} (once : f.machines.keys.Nodup)
    (known : f.machines.look m = some x) (waits : x.state = .waiting) : f.dropWait k m = { f with
      cells := cellsOff f m (x.request.map Pending.target), lanes := lanesOff f m (x.request.map Pending.target)
      machines := f.machines.upd m (restedRecord k) } := by
  have settled : f.dropWait k m = (f.leaveWait m).modSettled k m fun y => { y with state := y.resting } := by
    unfold Floor.dropWait
    rw [known]
    exact if_pos waits
  rw [settled, leaveWait_off once known]
  unfold Floor.modSettled Floor.modMachine
  dsimp only
  rw [upd_upd]
  refine congrArg (fun g => { f with
    cells := cellsOff f m (x.request.map Pending.target), lanes := lanesOff f m (x.request.map Pending.target)
    machines := f.machines.upd m g }) (funext fun y => ?_)
  exact settle_resting k y

/-- Settles O47: each row by its own rule, and a WAITING machine is off its list before and after. -/
theorem requestAndGrantRowsInOrder : Obligations.RequestAndGrantRowsInOrder := by
  refine ⟨?_, ?_, ?_⟩
  · intro slot n x s turn low high counts known found still k gives barred
    have early {a : Answer} (row : x.earlyAnswer k = some a) : gives a := by
      refine (exec_request turn low high counts known found).trans ?_
      unfold takes
      exact congrArg (fun g => Host.Outcome.next { s.takeRecord with floor := g }) (request_early known still row)
    refine ⟨fun barred => early (earlyAnswer_barred barred), fun free pending => early ?_, fun free stays =>
      ⟨fun none => early ?_, fun a leg => ⟨fun rest ahead => early ?_, fun rest ahead => early ?_, fun rest full => early ?_⟩⟩⟩
    · rw [earlyAnswer_open free found, if_pos (Option.isSome_iff_ne_none.2 pending)]
    · rw [earlyAnswer_open free found, stays, none]
      rfl
    · rw [earlyAnswer_leg free found stays leg, if_pos rest, if_pos ahead]
    · rw [earlyAnswer_leg free found stays leg, if_pos rest, if_neg ahead]
    · rw [earlyAnswer_leg free found stays leg, if_neg rest, if_pos full]
  · intro k f m p c z known zone row
    obtain ⟨wet, guarded, blocked, held⟩ := failingRow_taken (k := k) (m := m) (p := p) (taken := []) known
    refine ⟨wet, guarded, blocked, held, fun own => ?_⟩
    have later := failingRow_own (k := k) (m := m) (p := p) (taken := []) known own
    refine ⟨fun embargo => ?_, fun open' shut => ?_, fun open' member => ?_⟩
    · exact later.trans (if_pos embargo)
    · rw [if_neg (not_not.2 open'), if_pos (zoneOpen_of_look shut)] at later
      exact later
    rw [if_neg (not_not.2 open'), if_neg (by rw [zoneOpen_of_look member]; exact Bool.noConfusion)] at later
    have lane := laneOf_eq_lane known
    refine ⟨fun outside => later.trans (laneRow_outside (lane.trans outside)), ?_⟩
    intro l i inside toward
    rw [laneRow_inside (lane.trans inside)] at later
    exact later
  · intro slot n x s turn tables low high counts known waits m k target rested off
    have found : x.state ≠ .lost := by rw [waits]; exact MState.noConfusion
    have dropped : s.floor.dropWait k m = off := dropWait_waiting (machines_nodup tables) known waits
    have there : off.machines.look m = some (restedRecord k x) := by
      show (s.floor.machines.upd m rested).look m = _
      rw [Table.look_upd_self, known]
      rfl
    have rests : (restedRecord k x).state ≠ .waiting ∧ (restedRecord k x).state ≠ .lost := by
      unfold restedRecord
      dsimp only
      split <;> exact ⟨MState.noConfusion, MState.noConfusion⟩
    have same : off.request k m (requestCount n) = s.floor.request k m (requestCount n) := by
      unfold Floor.request
      rw [dropped, dropWait_id there rests.1]
    rw [exec_request turn low high counts known found,
      exec_request (s := { s with floor := off }) turn low high counts there rests.2]
    unfold takes
    refine congrArg (fun g => Host.Outcome.next { s.takeRecord with floor := g }) same.symm

end Sys2Proof.Laws
end

section
/-! ## Span grants and waits -/

namespace Sys2Proof.Laws

open Sys2Proof Sys2Proof.Machine Sys2Proof.Safety

-- One theorem at a time, as in the tests above: side by side their threads' stacks take the memory.
set_option Elab.async false

/-! ### Taking a span -/

/-- R28: one cell of a span and its lane. -/
def takeCell (m : Nat) (f : Floor) (p c : Nat) : Floor :=
  match f.travel p c with
  | some (l, d) => (f.setOcc c (.held m)).enterLane m l d
  | none => f.setOcc c (.held m)

theorem takeSpan_cons (m : Nat) (f : Floor) (p c : Nat) (cs : List Nat) :
    Floor.takeSpan m f p (c :: cs) = Floor.takeSpan m (takeCell m f p c) c cs := rfl

/-- What every cell taken keeps, the span keeps. -/
theorem takeSpan_keeps {P : Floor → Prop} {m : Nat} (taken : ∀ f p c, P f → P (takeCell m f p c)) (cs : List Nat) (f : Floor)
    (p : Nat) (law : P f) : P (Floor.takeSpan m f p cs) := by
  induction cs generalizing f p with
  | nil => exact law
  | cons c cs ih => exact ih _ _ (taken f p c law)

theorem takeCell_cases (m : Nat) (f : Floor) (p c : Nat) :
    takeCell m f p c = f.setOcc c (.held m) ∨ ∃ l d, takeCell m f p c = (f.setOcc c (.held m)).enterLane m l d := by
  unfold takeCell
  split
  · exact .inr ⟨_, _, rfl⟩
  · exact .inl rfl

theorem takeCell_stands (m : Nat) (f : Floor) (p c : Nat) :
    (takeCell m f p c).cells = (f.setOcc c (.held m)).cells ∧ (takeCell m f p c).lines = (f.setOcc c (.held m)).lines ∧
      (takeCell m f p c).notices = f.notices ∧ (takeCell m f p c).fleetTx = f.fleetTx := by
  rcases takeCell_cases m f p c with same | ⟨l, d, same⟩ <;> rw [same] <;> simp

theorem takeCell_look (m : Nat) (f : Floor) (p c d : Nat) : (takeCell m f p c).cells.look d =
    (f.cells.look d).map fun z => if d = c then { z with occ := .held m } else z := by
  rw [(takeCell_stands m f p c).1, setOcc_look]
  by_cases here : d = c
  · simp [here]
  · simp [here]

theorem takeSpan_look (m : Nat) (cs : List Nat) (f : Floor) (p d : Nat) : (Floor.takeSpan m f p cs).cells.look d =
    (f.cells.look d).map fun z => { z with occ := if d ∈ cs then .held m else z.occ } := by
  induction cs generalizing f p with
  | nil =>
    show f.cells.look d = _
    cases f.cells.look d <;> simp
  | cons c cs ih =>
    rw [takeSpan_cons, ih, takeCell_look, Option.map_map]
    refine congrArg (fun h => Option.map h (f.cells.look d)) (funext fun z => ?_)
    by_cases here : d = c
    · subst here; simp
    · simp [here]

theorem takeSpan_notices (m : Nat) (cs : List Nat) (f : Floor) (p : Nat) :
    (Floor.takeSpan m f p cs).notices = f.notices :=
  takeSpan_keeps (P := fun g => g.notices = f.notices)
    (fun g p c same => ((takeCell_stands m g p c).2.2.1).trans same) cs f p rfl

/-! ### Clear outputs over a taken cell -/

/-- R149: line `i` stands over some taken cell, and its clear output is open. -/
def Opened (i : Nat) (f : Floor) : Prop :=
  (∃ c z, f.cells.look c = some z ∧ z.band.getLsbD i = true ∧ z.occ.taken = true) ∧
    ∃ l, f.lines.look i = some l ∧ l.clearOutput = false

/-- R149: a band with a taken cell is not empty. -/
theorem bandTaken_pos {f : Floor} {i c : Nat} {z : Cell} (known : f.cells.look c = some z)
    (inside : z.band.getLsbD i = true) (taken : z.occ.taken = true) : f.bandTaken i ≠ 0 := by
  have listed : (c, z) ∈ f.cells.filter fun e => e.2.inBand i && e.2.occ.taken :=
    List.mem_filter.2 ⟨Table.mem_of_look known, by rw [Bool.and_eq_true]; exact ⟨inside, taken⟩⟩
  unfold Floor.bandTaken Table.keysWhere
  rw [List.length_map]
  exact Nat.ne_of_gt (List.length_pos_of_mem listed)

/-- R43, R149: a cell held, with the lines it is re-evaluated for. -/
theorem setOcc_held_look {f : Floor} {c m : Nat} {z : Cell} (known : f.cells.look c = some z) (i : Nat) :
    (f.setOcc c (.held m)).lines.look i = (f.lines.look i).map fun l =>
      if z.occ.taken = false ∧ z.band.getLsbD i = true then l.review ((f.setOcc c (.held m)).bandTaken i) else l := by
  have cells := setOcc_cells f c (.held m)
  have taken : (Occupancy.held m).taken = true := rfl
  have count : (f.setOcc c (.held m)).bandTaken i =
      ({ f with cells := f.cells.upd c fun y => { y with occ := .held m } } : Floor).bandTaken i := by
    unfold Floor.bandTaken
    rw [cells]
  rw [count]
  unfold Floor.setOcc
  rw [known]
  simp only [taken]
  split
  · next old =>
    simp [old]
  · next new =>
    have free : z.occ.taken = false := by simpa using new
    simp only [free, true_and]
    rw [Floor.reviewBand_lines, Table.look_each]

/-- R149: a free cell that is held opens the outputs over it. -/
theorem opened_of_held {f : Floor} {c m i : Nat} {z : Cell} {l : Line} (known : f.cells.look c = some z)
    (line : f.lines.look i = some l) (free : z.occ.taken = false) (inside : z.band.getLsbD i = true) :
    Opened i (f.setOcc c (.held m)) := by
  have there : (f.setOcc c (.held m)).cells.look c = some { z with occ := .held m } := by
    rw [setOcc_look, if_pos rfl, known]
    rfl
  refine ⟨⟨c, _, there, inside, rfl⟩, _, (setOcc_held_look known i).trans (by rw [line]; rfl), ?_⟩
  have some := bandTaken_pos there inside rfl
  simp only [free, inside, and_self, if_true, Line.review, some, false_and, if_false, decide_false]

/-- R149: an open output stays open while cells are held. -/
theorem opened_held {f : Floor} {i : Nat} (law : Opened i f) (c m : Nat) : Opened i (f.setOcc c (.held m)) := by
  obtain ⟨⟨d, z, known, inside, taken⟩, l, line, opened⟩ := law
  have there : ∃ z', (f.setOcc c (.held m)).cells.look d = some z' ∧ z'.band.getLsbD i = true ∧ z'.occ.taken = true := by
    rw [setOcc_look]
    split
    · rw [known]; exact ⟨_, rfl, inside, rfl⟩
    · exact ⟨z, known, inside, taken⟩
  refine ⟨⟨d, there⟩, ?_⟩
  obtain ⟨z', known', inside', taken'⟩ := there
  cases named : f.cells.look c with
  | none =>
    refine ⟨l, ?_, opened⟩
    unfold Floor.setOcc
    rw [named]
    exact line
  | some y =>
    refine ⟨_, (setOcc_held_look named i).trans (by rw [line]; rfl), ?_⟩
    split
    · unfold Line.review
      have some := bandTaken_pos known' inside' taken'
      simp only [some, false_and, if_false, decide_false]
    · exact opened

theorem opened_takeCell {f : Floor} {i : Nat} (m p c : Nat) (law : Opened i (f.setOcc c (.held m))) :
    Opened i (takeCell m f p c) := by
  obtain ⟨cells, lines, -, -⟩ := takeCell_stands m f p c
  unfold Opened
  rw [cells, lines]
  exact law

/-- R149: a span opens the outputs over each of its free cells. -/
theorem takeSpan_opens {m i : Nat} (cs : List Nat) {f : Floor} {p c : Nat} {z : Cell} {l : Line} (listed : c ∈ cs)
    (known : f.cells.look c = some z) (line : f.lines.look i = some l) (free : z.occ.taken = false)
    (inside : z.band.getLsbD i = true) : Opened i (Floor.takeSpan m f p cs) := by
  have rest (cs : List Nat) (f : Floor) (p : Nat) (law : Opened i f) : Opened i (Floor.takeSpan m f p cs) :=
    takeSpan_keeps (fun f p c law => opened_takeCell m p c (opened_held law c m)) cs f p law
  induction cs generalizing f p l with
  | nil => cases listed
  | cons d cs ih =>
    rw [takeSpan_cons]
    by_cases here : c = d
    · subst here
      exact rest cs _ _ (opened_takeCell m p c (opened_of_held known line free inside))
    · have listed : c ∈ cs := (List.mem_cons.1 listed).resolve_left here
      have known' : (takeCell m f p d).cells.look c = some z := by
        rw [takeCell_look, known, Option.map_some, if_neg here]
      obtain ⟨-, lines, -, -⟩ := takeCell_stands m f p d
      have line' : ∃ l', (takeCell m f p d).lines.look i = some l' := by
        rw [lines, ← Option.isSome_iff_exists, Table.look_isSome]
        obtain ⟨b, same⟩ := setOcc_held_lines f d m
        have keys : (f.setOcc d (.held m)).lines.keys = f.lines.keys := by rw [same, Table.keys_each]
        rw [keys, ← Table.look_isSome, line]
        rfl
      obtain ⟨l', line'⟩ := line'
      exact ih listed known' line'

/-! ### Grants -/

/-- R94: machine `m`, not LOST and with no refuge, is sent an ANSWER after a change of its record. -/
theorem answered_own {f g : Floor} {m : Nat} {h : Scrubber → Scrubber} {w r : Scrubber} (a : Answer) (acts : Acts m h f g)
    (known : f.machines.look m = some w) (record : h w = r) (found : r.state ≠ .lost) (free : r.refuge = none) :
    ∃ y, (g.order m (.answer a)).machines.look m = some y ∧ InHand y (.answer a) ∧
      y = { r with queue := y.queue, outstanding := y.outstanding } := by
  have answered := acts.trans (acts_order g m (.answer a))
  refine ⟨_, answered.own known, ?_, ?_⟩
  · rw [Function.comp_apply, record]
    exact inHand_of_accepts ⟨found, fun c held => absurd (held.symm.trans free) (Option.some_ne_none c)⟩ (by simp [Order.kind])
  · rw [Function.comp_apply, record]
    exact ordered_self _ r

/-- R28: a span granted to machine `m`, whose record stands as `w`. -/
theorem grant_spec {k : Control} {f : Floor} {m : Nat} {x w : Scrubber} (known : f.machines.look m = some w)
    (free : w.refuge = none) (span : List Nat) :
    OthersKept m f (f.grant k m x span) ∧ (f.grant k m x span).notices = f.notices ∧
      (f.grant k m x span).lines = (Floor.takeSpan m f x.lastHeld span).lines ∧
      (f.grant k m x span).lanes = (Floor.takeSpan m f x.lastHeld span).lanes ∧
      (∀ d, (f.grant k m x span).cells.look d =
        (f.cells.look d).map fun z => { z with occ := if d ∈ span then .held m else z.occ }) ∧
      ∃ ld y, (Floor.takeSpan m f x.lastHeld span).machines.look m = some { w with laneDirs := ld } ∧
        (f.grant k m x span).machines.look m = some y ∧ InHand y (.answer (.grant (x.ahead ++ span) false)) ∧
        { y with queue := w.queue, outstanding := w.outstanding } =
          { w with
            laneDirs := ld, ahead := w.ahead ++ span, state := .running
            progress := if w.ahead ++ span = [] then none
                        else some (w.progress.getD (k.now + k.timing.progressLimit * 1000)) } := by
  have written := lanesWritten_takeSpan m span f x.lastHeld
  obtain ⟨ld, taken⟩ := written.own known
  have settled := acts_modSettled k (Floor.takeSpan m f x.lastHeld span) m
    fun y => { y with ahead := y.ahead ++ span, state := .running }
  obtain ⟨y, own, hand, record⟩ := answered_own (.grant (x.ahead ++ span) false) settled taken (settle_eq _ _ _)
    MState.noConfusion free
  refine ⟨othersKept_trans written.others (othersKept_trans settled.others (acts_order _ m _).others), ?_,
    order_lines _ _ _, order_lanes _ _ _, fun d => ?_, ld, y, taken, own, hand, ?_⟩
  · exact (order_notices _ _ _).trans (takeSpan_notices m span f x.lastHeld)
  · exact (congrArg (fun t => Table.look t d) (order_cells _ _ _)).trans (takeSpan_look m span f x.lastHeld d)
  · rw [record]
    by_cases empty : w.ahead ++ span = [] <;> simp [empty]

/-! ### Waits -/

/-- R29: machine `m`, whose record stands as `w`, begins a wait that closes no ring. -/
theorem beginWait_waits {k : Control} {f : Floor} {m count : Nat} {t : Target} {reason : WaitReason} {w : Scrubber}
    (known : f.machines.look m = some w) (free : w.refuge = none) (chain : f.closesRing m t = false) :
    OthersKept m f (f.beginWait k m count t reason) ∧ (f.beginWait k m count t reason).lines = f.lines ∧
      (f.beginWait k m count t reason).notices = f.notices ∧
      (∀ c, (f.beginWait k m count t reason).cells.look c = (f.cells.look c).map fun z =>
        { z with waiters := if t = .cell c then z.waiters ++ [⟨m, false⟩] else z.waiters }) ∧
      (∀ l, (f.beginWait k m count t reason).lanes.look l = (f.lanes.look l).map fun r =>
        { r with waiters := if t = .lane l then r.waiters ++ [m] else r.waiters }) ∧
      ∃ y, (f.beginWait k m count t reason).machines.look m = some y ∧ InHand y (.answer (.wait reason)) ∧
        { y with queue := w.queue, outstanding := w.outstanding } =
          { w with
            request := some (.ordinary count t), state := .waiting
            progress := if w.ahead = [] then none
                        else some (w.progress.getD (k.now + k.timing.progressLimit * 1000)) } := by
  have whole : f.beginWait k m count t reason =
      ((f.joinList m false t).modSettled k m fun y =>
        { y with request := some (.ordinary count t), state := .waiting }).order m (.answer (.wait reason)) := by
    unfold Floor.beginWait
    rw [chain]
    exact if_neg Bool.false_ne_true
  have waits := (Acts.of_machines (m := m) (joinList_machines f m false t)).trans
    (acts_modSettled k _ m fun y => { y with request := some (.ordinary count t), state := .waiting })
  obtain ⟨y, own, hand, record⟩ := answered_own (.wait reason) waits known (settle_eq _ _ _) MState.noConfusion free
  rw [whole]
  refine ⟨othersKept_trans waits.others (acts_order _ m _).others, ?_, ?_, fun c => ?_, fun l => ?_, y, own, hand, ?_⟩
  · exact (order_lines _ _ _).trans (joinList_lines f m false t)
  · exact (order_notices _ _ _).trans (joinList_notices f m false t)
  · rw [order_cells, Floor.modSettled_cells]
    cases t with
    | cell d =>
      rw [Floor.joinList, Table.look_upd]
      by_cases here : c = d
      · subst here; simp [joinWaiters]
      · simp [here, Ne.symm here]
    | lane j => simp [Floor.joinList]
  · rw [order_lanes, Floor.modSettled_lanes]
    cases t with
    | cell d => simp [Floor.joinList]
    | lane j =>
      rw [Floor.joinList, Table.look_upd]
      by_cases here : l = j
      · subst here; simp
      · simp [here, Ne.symm here]
  · rw [record]
    by_cases empty : w.ahead = [] <;> simp [empty]

/-- R32: a wait that would close a ring is refused. -/
theorem beginWait_refused {k : Control} {f : Floor} {m count : Nat} {t : Target} {reason : WaitReason} {w : Scrubber}
    (known : f.machines.look m = some w) (free : w.refuge = none)
    (classes : f.notices.keys = List.range Config.classCount) (ring : f.closesRing m t = true) :
    OthersKept m f (f.beginWait k m count t reason) ∧ ConcourseKept f (f.beginWait k m count t reason) ∧
      (∃ n, (f.beginWait k m count t reason).notices.look 5 = some n ∧ n.pending = true ∧ n.last = some m) ∧
      ∃ y, (f.beginWait k m count t reason).machines.look m = some y ∧ InHand y (.answer (.refused .cycle)) ∧
        { y with queue := w.queue, outstanding := w.outstanding } =
          { w with
            state := if w.ahead = [] then .idle else .running
            progress := if w.ahead = [] then none
                        else some (w.progress.getD (k.now + k.timing.progressLimit * 1000)) } := by
  have whole : f.beginWait k m count t reason =
      ((f.modSettled k m fun y => { y with state := y.resting }).order m (.answer (.refused .cycle))).raise k .cycle
        (some m) (some .waitRefused) := by
    unfold Floor.beginWait
    rw [ring]
    exact if_pos rfl
  have rests := acts_modSettled k f m fun y => { y with state := y.resting }
  obtain ⟨y, own, hand, record⟩ := answered_own (.refused .cycle) rests known (settle_eq _ _ _) (resting_ne_lost w) free
  have machines := raise_machines k (Floor.order (f.modSettled k m fun y => { y with state := y.resting }) m
    (.answer (.refused .cycle))) .cycle (some m) (some .waitRefused)
  rw [whole]
  refine ⟨?_, ⟨?_, ?_, ?_⟩, raise_pending (cls := .cycle) ?_, y, ?_, hand, ?_⟩
  · exact othersKept_trans rests.others (othersKept_trans (acts_order _ m _).others (othersKept_of_machines machines))
  · exact (raise_cells _ _ _ _ _).trans (order_cells _ _ _)
  · exact (raise_lanes _ _ _ _ _).trans (order_lanes _ _ _)
  · exact (raise_lines _ _ _ _ _).trans (order_lines _ _ _)
  · rw [order_notices]
    exact classes
  · rw [machines]
    exact own
  · rw [record]
    by_cases empty : w.ahead = [] <;> simp [Scrubber.resting, empty]

end Sys2Proof.Laws
end

section
/-! ## Requests for a span -/

namespace Sys2Proof.Laws

open Sys2Proof Sys2Proof.Machine Sys2Proof.Safety

-- One theorem at a time, as in the tests above: side by side their threads' stacks take the memory.
set_option Elab.async false

/-- R73: the span of a machine with an active leg. -/
theorem span_of_active {x : Scrubber} {a : ActiveLeg} (leg : x.active = some a) (count : Nat) :
    x.span count = (a.leg.cells.drop (a.index + x.ahead.length + 1)).take (min count (4 - x.ahead.length)) := by
  unfold Scrubber.span
  rw [remaining_of_active leg, ← Nat.min_assoc, List.take_eq_take_iff]
  omega

theorem span_ne_nil {x : Scrubber} {a : ActiveLeg} {count : Nat} (leg : x.active = some a)
    (rest : a.leg.cells.drop (a.index + x.ahead.length + 1) ≠ []) (counts : 1 ≤ count) (room : x.ahead.length < 4) :
    x.span count ≠ [] := by
  rw [span_of_active leg, ne_eq, List.take_eq_nil_iff]
  rintro (zero | empty)
  · omega
  · exact rest empty

/-- R27: a machine past rows 1 to 5. -/
theorem earlyAnswer_none {k : Control} {x : Scrubber} {a : ActiveLeg} (state : x.state = .idle ∨ x.state = .running)
    (mode : k.mode = .night ∨ k.mode = .recalling) (stays : x.withdrawal = none) (leg : x.active = some a)
    (rest : a.leg.cells.drop (a.index + x.ahead.length + 1) ≠ []) (room : x.ahead.length < 4) : x.earlyAnswer k = none := by
  have open' : ¬ Barred k x := by
    unfold Barred
    rcases state with h | h <;> rcases mode with h' | h' <;> simp [h, h']
  have found : x.state ≠ .lost := by rcases state with h | h <;> simp [h]
  rw [earlyAnswer_leg open' found stays leg, if_neg rest, if_neg (Nat.not_le.2 room)]

/-- Settles O48: the request is past the rows, and its span is granted, waited for or refused by the ring search. -/
theorem spansAreGrantedWholeOrWaitedFor : Obligations.SpansAreGrantedWholeOrWaitedFor := by
  intro slot n x a s turn tables low high counts known state idle free mode stays leg m k rest count span fails run more room
  have still : x.state ≠ .waiting := by rcases state with h | h <;> simp [h]
  have found : x.state ≠ .lost := by rcases state with h | h <;> simp [h]
  have row : x.earlyAnswer k = none := earlyAnswer_none state mode stays leg more room
  have classes : s.floor.notices.keys = List.range Config.classCount := by
    obtain ⟨-, -, -, -, -, notices, -⟩ := tables
    exact notices
  have counted : 1 ≤ count := by
    have : n.toNat ≠ 0 := fun zero => counts (BitVec.eq_of_toNat_eq zero)
    show 1 ≤ min n.toNat 4
    omega
  have cells : x.span count = span := span_of_active leg count
  have nonempty : span ≠ [] := cells ▸ span_ne_nil leg more counted room
  have ran : run = .next { s.takeRecord with floor := s.floor.request k m count } :=
    exec_request turn low high counts known found
  have decided : s.floor.request k m count = match fails with
      | none => s.floor.grant k m x span
      | some (t, reason) => s.floor.beginWait k m count t reason := by
    rw [request_span known still row, cells]
    rfl
  have part (g : Floor) : PartKept s { s.takeRecord with floor := g } := ⟨rfl, rfl, rfl, rfl, rfl, rfl⟩
  refine ⟨fun fits => ?_, fun target reason failing open' => ?_, fun target reason failing ring => ?_⟩
  · have whole : s.floor.request k m count = s.floor.grant k m x span := by rw [decided, fits]
    rw [whole] at ran
    obtain ⟨others, notices, lines, -, looks, ld, y, -, own, hand, record⟩ := grant_spec (k := k) (x := x) known free span
    refine ⟨_, y, ran, part _, others, notices, looks, fun i l c z line listed cell open' inside => ?_, own, hand, ?_⟩
    · obtain ⟨-, l', look, opened⟩ := takeSpan_opens (m := m) (p := x.lastHeld) span listed cell line (by rw [open']; rfl) inside
      exact ⟨l', (congrArg (fun t => Table.look t i) lines).trans look, opened⟩
    · have ahead : x.ahead ++ span ≠ [] := fun empty => nonempty (List.append_eq_nil_iff.1 empty).2
      rw [if_neg ahead] at record
      exact congrArg (fun y : Scrubber => { y with laneDirs := x.laneDirs }) record
  · have whole : s.floor.request k m count = s.floor.beginWait k m count target reason := by rw [decided, failing]
    rw [whole] at ran
    obtain ⟨others, lines, notices, looks, lanes, y, own, hand, record⟩ :=
      beginWait_waits (k := k) (count := count) (reason := reason) known free open'
    generalize s.floor.beginWait k m count target reason = g at ran others lines notices looks lanes own
    refine ⟨_, y, ran, part _, others, lines, notices, looks, lanes, own, hand, ?_⟩
    exact ⟨(congrArg Scrubber.state record :), (congrArg Scrubber.request record :), (congrArg Scrubber.ahead record :),
      (congrArg Scrubber.active record :)⟩
  · have whole : s.floor.request k m count = s.floor.beginWait k m count target reason := by rw [decided, failing]
    rw [whole] at ran
    obtain ⟨others, concourse, ⟨notice, raised, pending, last⟩, y, own, hand, record⟩ :=
      beginWait_refused (k := k) (count := count) (reason := reason) known free classes ring
    generalize s.floor.beginWait k m count target reason = g at ran others concourse own raised
    exact ⟨_, y, notice, ran, part _, others, concourse, own, hand, (congrArg Scrubber.state record :),
      (congrArg Scrubber.request record).trans idle, (congrArg Scrubber.ahead record :), raised, pending, last⟩

end Sys2Proof.Laws
end

section
/-! ## Offers -/

namespace Sys2Proof.Laws

open Sys2Proof Sys2Proof.Machine Sys2Proof.Safety

-- One theorem at a time, as in the tests above: side by side their threads' stacks take the memory.
set_option Elab.async false

/-! ### Which offers examine whom -/

theorem offerCell_available {k : Control} {f : Floor} {c : Nat} {z : Cell} (known : f.cells.look c = some z)
    (free : z.occ = .free) (open' : z.embargo = 0) (some : z.waiters ≠ []) : f.offerCell k c = f.offerTo k c z := by
  unfold Floor.offerCell
  rw [known]
  exact if_pos ⟨free, open', some⟩

theorem offerCell_unavailable {k : Control} {f : Floor} {c : Nat} {z : Cell} (known : f.cells.look c = some z)
    (bars : z.occ ≠ .free ∨ z.embargo ≠ 0 ∨ z.waiters = []) : f.offerCell k c = f := by
  unfold Floor.offerCell
  rw [known]
  refine if_neg fun fits => ?_
  obtain ⟨free, open', some⟩ := fits
  rcases bars with h | h | h
  · exact h free
  · exact h open'
  · exact some h

/-- R38: without refuge waiters the ordinary ones are examined, by rank. -/
theorem offerTo_ordinary {k : Control} {f : Floor} {c : Nat} {z : Cell} (ordinary : ∀ w ∈ z.waiters, w.refuge = false) :
    f.offerTo k c z = if k.mode = .evacuation ∨ k.zoneOpen z.zone = false then f
      else f.examineAll k (f.byRank (z.waiters.map fun w => w.slot)) := by
  have none : (z.waiters.find? fun w => w.refuge) = none :=
    List.find?_eq_none.2 fun w listed => by rw [ordinary w listed]; exact Bool.false_ne_true
  unfold Floor.offerTo
  rw [none]

theorem byRank_single {f : Floor} {m : Nat} {x : Scrubber} (known : f.machines.look m = some x) (rank : x.rank ≤ 3) :
    f.byRank [m] = [m] := by
  have same : f.rankOf m = x.rank := by unfold Floor.rankOf; rw [known]; rfl
  unfold Floor.byRank
  simp only [List.filter_singleton, same]
  generalize x.rank = r at rank
  interval_cases r <;> rfl

theorem examineAll_single (k : Control) (f : Floor) (m : Nat) : f.examineAll k [m] = (f.examine k m).1 := by
  unfold Floor.examineAll
  split
  · next g granted => rw [granted]
  · next g left => rw [left]; rfl

/-- R39: an ordinary waiter leaves its list and its span is decided again. -/
theorem examine_eq {k : Control} {f : Floor} {m count : Nat} {x : Scrubber} {t : Target}
    (known : f.machines.look m = some x) (request : x.request = some (.ordinary count t)) : f.examine k m =
      match (f.leaveWait m).firstFail k m x.lastHeld (x.span count) [] with
      | none => ((f.leaveWait m).grant k m x (x.span count), true)
      | some (t, reason) => ((f.leaveWait m).beginWait k m count t reason, false) := by
  unfold Floor.examine
  simp only [known, request] <;> rfl

/-! ### The lane that a span begins with -/

/-- R59: machine `m` alone holds lane `l`, in direction `d`. -/
def HoldsAlone (m l : Nat) (d : Dir) (f : Floor) : Prop :=
  (∃ x, f.machines.look m = some x ∧ x.laneDirs.look l = some d) ∧
    ∃ r, f.lanes.look l = some r ∧ r.holders = 1 ∧ r.dir = some d

theorem enterLane_held {m l : Nat} {d : Dir} {f : Floor} {x : Scrubber} (known : f.machines.look m = some x)
    (held : x.laneDirs.look l ≠ none) : f.enterLane m l d = f := by
  unfold Floor.enterLane
  simp only [known]
  exact if_pos (Option.isSome_iff_ne_none.2 held)

theorem enterLane_fresh {m l : Nat} {d : Dir} {f : Floor} {x : Scrubber} (known : f.machines.look m = some x)
    (fresh : x.laneDirs.look l = none) :
    (f.enterLane m l d).machines = (f.machines.upd m fun y => { y with laneDirs := y.laneDirs.put l d }) ∧
      (f.enterLane m l d).lanes = f.lanes.upd l fun r =>
        { r with holders := r.holders + 1, dir := if r.holders = 0 then some d else r.dir } := by
  have notHeld : ¬ (x.laneDirs.look l).isSome = true := by rw [fresh]; exact Bool.false_ne_true
  have whole : f.enterLane m l d = { f.modMachine m fun y => { y with laneDirs := y.laneDirs.put l d } with
      lanes := f.lanes.upd l fun r =>
        { r with holders := r.holders + 1, dir := if r.holders = 0 then some d else r.dir } } := by
    unfold Floor.enterLane
    simp only [known]
    exact if_neg notHeld
  rw [whole]
  exact ⟨rfl, rfl⟩

theorem holdsAlone_enterLane {m l : Nat} {d : Dir} {f : Floor} (law : HoldsAlone m l d f) (j : Nat) (e : Dir) :
    HoldsAlone m l d (f.enterLane m j e) := by
  obtain ⟨⟨x, known, held⟩, r, lane, alone⟩ := law
  by_cases fresh : x.laneDirs.look j = none
  · have other : l ≠ j := by
      rintro rfl
      exact Option.some_ne_none d (held.symm.trans fresh)
    obtain ⟨machines, lanes⟩ := enterLane_fresh (d := e) known fresh
    unfold HoldsAlone
    rw [machines, lanes, Table.look_upd_self, known, Table.look_upd_ne _ other]
    refine ⟨⟨_, rfl, ?_⟩, r, lane, alone⟩
    rw [Table.look_put, if_neg other, held]
  · rw [enterLane_held known fresh]
    exact ⟨⟨x, known, held⟩, r, lane, alone⟩

theorem holdsAlone_takeCell {m l : Nat} {d : Dir} {f : Floor} (p c : Nat) (law : HoldsAlone m l d f) :
    HoldsAlone m l d (takeCell m f p c) := by
  have taken : HoldsAlone m l d (f.setOcc c (.held m)) := by
    unfold HoldsAlone
    rw [setOcc_machines, setOcc_lanes]
    exact law
  rcases takeCell_cases m f p c with same | ⟨j, e, same⟩ <;> rw [same]
  · exact taken
  · exact holdsAlone_enterLane taken j e

/-- R59: a lane that nobody held is held by the one that enters it. -/
theorem holdsAlone_of_enterLane {m l : Nat} {d : Dir} {f : Floor} {x : Scrubber} {r : Lane}
    (known : f.machines.look m = some x) (fresh : x.laneDirs.look l = none) (lane : f.lanes.look l = some r)
    (free : r.holders = 0) : HoldsAlone m l d (f.enterLane m l d) := by
  obtain ⟨machines, lanes⟩ := enterLane_fresh (d := d) known fresh
  unfold HoldsAlone
  rw [machines, lanes, Table.look_upd_self, Table.look_upd_self, known, lane]
  refine ⟨⟨_, rfl, ?_⟩, _, rfl, ?_, if_pos free⟩
  · rw [Table.look_put, if_pos rfl]
  · show r.holders + 1 = 1
    rw [free]

/-- R28, R59: a span that begins in a free lane. -/
theorem holdsAlone_takeSpan {m l i p c : Nat} {cs : List Nat} {f : Floor} {x : Scrubber} {r : Lane}
    (known : f.machines.look m = some x) (fresh : x.laneDirs.look l = none) (inside : f.laneOf c = some (l, i))
    (lane : f.lanes.look l = some r) (free : r.holders = 0) :
    HoldsAlone m l (stepDir l i (f.laneOf p)) (Floor.takeSpan m f p (c :: cs)) := by
  have first : takeCell m f p c = (f.setOcc c (.held m)).enterLane m l (stepDir l i (f.laneOf p)) := by
    unfold takeCell Floor.travel
    rw [inside]
    rfl
  rw [takeSpan_cons, first]
  refine takeSpan_keeps (P := HoldsAlone m l (stepDir l i (f.laneOf p))) (fun g q d law => holdsAlone_takeCell q d law) cs _ c
    (holdsAlone_of_enterLane (x := x) (r := r) ?_ fresh ?_ free)
  · rw [setOcc_machines]; exact known
  · rw [setOcc_lanes]; exact lane

/-! ### One ordinary waiter -/

/-- R39: the offer to an only waiter, an ordinary one, examines that waiter. -/
theorem offer_single {k : Control} {f g : Floor} {target : Target} {m : Nat} {x : Scrubber}
    (known : f.machines.look m = some x) (rank : x.rank ≤ 3) (mode : k.mode ≠ .evacuation)
    (offer : (∃ c z, target = .cell c ∧ g = f.offerCell k c ∧ f.cells.look c = some z ∧ z.occ = .free ∧ z.embargo = 0 ∧
        z.waiters = [⟨m, false⟩] ∧ k.zones.look z.zone ≠ some false) ∨
      ∃ l r, target = .lane l ∧ g = f.offerLane k l ∧ f.lanes.look l = some r ∧ r.holders = 0 ∧ r.waiters = [m]) :
    g = (f.examine k m).1 := by
  rcases offer with ⟨c, z, -, rfl, cell, free, open', alone, zone⟩ | ⟨l, r, -, rfl, lane, free, alone⟩
  · have isOpen : ¬ (k.mode = .evacuation ∨ k.zoneOpen z.zone = false) := by
      rintro (evac | shut)
      · exact mode evac
      · unfold Control.zoneOpen at shut
        cases look : k.zones.look z.zone with
        | none => rw [look] at shut; cases shut
        | some b => rw [look] at shut zone; cases b <;> simp at shut zone
    rw [offerCell_available cell free open' (by rw [alone]; exact List.cons_ne_nil _ _),
      offerTo_ordinary (by rw [alone]; simp), if_neg isOpen, alone]
    rw [List.map_singleton, byRank_single known rank, examineAll_single]
  · have offered : f.offerLane k l = f.examineAll k (f.byRank r.waiters) := by
      unfold Floor.offerLane
      rw [lane]
      exact if_pos ⟨free, by rw [alone]; exact List.cons_ne_nil _ _, mode⟩
    rw [offered, alone, byRank_single known rank, examineAll_single]

theorem each_congr_of_look {α : Type} {t : Table α} {g h : Nat → α → α} (once : t.keys.Nodup)
    (same : ∀ c z, t.look c = some z → g c z = h c z) : t.each g = t.each h := by
  unfold Table.each
  refine List.map_congr_left fun e listed => ?_
  rw [same e.1 e.2 (Table.look_of_mem once listed)]

theorem nodup_of_wf {α : Type} {bound : Nat} {t : Table α} (wf : t.wf bound = true) : t.keys.Nodup :=
  (((Table.wf_iff _ _).1 wf).1).imp Nat.ne_of_lt

/-- R24: an only waiter leaves its list empty. -/
theorem leaveWait_only {f : Floor} {target : Target} {m count : Nat} {x : Scrubber}
    (cells : f.cells.keys.Nodup) (lanes : f.lanes.keys.Nodup) (machines : f.machines.keys.Nodup)
    (known : f.machines.look m = some x) (request : x.request = some (.ordinary count target))
    (only : (∃ c z, target = .cell c ∧ f.cells.look c = some z ∧ z.waiters = [⟨m, false⟩]) ∨
      ∃ l r, target = .lane l ∧ f.lanes.look l = some r ∧ r.waiters = [m]) :
    f.leaveWait m = { f with
      cells := f.cells.each fun c z => { z with waiters := if target = .cell c then [] else z.waiters }
      lanes := f.lanes.each fun l r => { r with waiters := if target = .lane l then [] else r.waiters }
      machines := f.machines.upd m fun y => { y with request := none } } := by
  rw [leaveWait_off machines known, request]
  show { f with
    cells := cellsOff f m (some target), lanes := lanesOff f m (some target)
    machines := f.machines.upd m fun y => { y with request := none } } = _
  have cells' : cellsOff f m (some target) =
      f.cells.each fun c z => { z with waiters := if target = .cell c then [] else z.waiters } := by
    refine each_congr_of_look cells fun c z look => ?_
    by_cases here : target = .cell c
    · rcases only with ⟨c', z', cell, look', alone⟩ | ⟨l, r, lane, -⟩
      · cases cell.symm.trans here
        cases look.symm.trans look'
        simp [here, alone]
      · cases lane.symm.trans here
    · simp [here]
  have lanes' : lanesOff f m (some target) =
      f.lanes.each fun l r => { r with waiters := if target = .lane l then [] else r.waiters } := by
    refine each_congr_of_look lanes fun l r look => ?_
    by_cases here : target = .lane l
    · rcases only with ⟨c, z, cell, -⟩ | ⟨l', r', lane, look', alone⟩
      · cases cell.symm.trans here
      · cases lane.symm.trans here
        cases look.symm.trans look'
        simp [here, alone]
    · simp [here]
  rw [cells', lanes']

/-- Settles O55: the only waiter leaves its list, and its span is granted, waited for elsewhere or refused. -/
theorem waitersAreGrantedOrMovedAtOffers : Obligations.WaitersAreGrantedOrMovedAtOffers := by
  refine ⟨?_, ?_⟩
  · intro k f c l
    refine ⟨fun z known bars => ?_, fun r known bars => ?_⟩
    · by_cases fits : z.occ = .free ∧ z.embargo = 0 ∧ z.waiters ≠ []
      · obtain ⟨free, open', listed⟩ := fits
        obtain ⟨ordinary, shut⟩ : (∀ w ∈ z.waiters, w.refuge = false) ∧
            (k.mode = .evacuation ∨ k.zones.look z.zone = some false) := by
          rcases bars with h | h | h | h
          · exact absurd free h
          · exact absurd open' h
          · exact absurd h listed
          · exact h
        rw [offerCell_available known free open' listed, offerTo_ordinary ordinary]
        exact if_pos (shut.imp_right zoneOpen_of_look)
      · exact offerCell_unavailable known (by tauto)
    · unfold Floor.offerLane
      rw [known]
      exact if_neg (by tauto)
  · intro k f g target m count x a cells lanes machines classes known rank waits request free leg room mode offer
      left span fails progress
    have placed (c : Nat) : left.laneOf c = f.laneOf c := by
      unfold Floor.laneOf
      simp only [left, Table.look_each]
      cases f.cells.look c <;> rfl
    have laneLeft {l : Nat} {r : Lane} (lane : f.lanes.look l = some r) (alone : r.holders = 0) :
        ∃ r', left.lanes.look l = some r' ∧ r'.holders = 0 := by
      simp only [left, Table.look_each, lane, Option.map_some]
      exact ⟨_, rfl, alone⟩
    have examined := offer_single known rank mode offer
    have only : (∃ c z, target = .cell c ∧ f.cells.look c = some z ∧ z.waiters = [⟨m, false⟩]) ∨
        ∃ l r, target = .lane l ∧ f.lanes.look l = some r ∧ r.waiters = [m] := by
      rcases offer with ⟨c, z, cell, -, look, -, -, alone, -⟩ | ⟨l, r, lane, -, look, -, alone⟩
      · exact .inl ⟨c, z, cell, look, alone⟩
      · exact .inr ⟨l, r, lane, look, alone⟩
    have off : f.leaveWait m = left :=
      leaveWait_only (nodup_of_wf cells) (nodup_of_wf lanes) (nodup_of_wf machines) known request only
    have leaves := acts_leaveWait f m
    have decided := examine_eq (k := k) known request
    rw [off] at decided leaves
    have spans : x.span count = span := span_of_active leg count
    rw [spans] at decided
    have there : left.machines.look m = some { x with request := none } := leaves.own known
    refine ⟨fun fits => ?_, fun next reason failing => ⟨fun open' => ?_, fun ring => ?_⟩⟩
    · have whole : g = left.grant k m x span := by
        rw [examined, decided, show left.firstFail k m x.lastHeld span [] = none from fits]
      obtain ⟨others, notices, -, lanes', looks, ld, y, taken, own, hand, record⟩ :=
        grant_spec (k := k) (x := x) there free span
      rw [← whole] at others notices lanes' looks own
      refine ⟨y, own, othersKept_trans leaves.others others, notices, looks, hand, ?_, ?_⟩
      · exact congrArg (fun y : Scrubber => { y with laneDirs := x.laneDirs }) record
      · intro d rest l i r begins inside lane alone fresh way
        have look : left.laneOf d = some (l, i) ∧ left.laneOf x.lastHeld = f.laneOf x.lastHeld := by
          exact ⟨(placed d).trans inside, placed _⟩
        obtain ⟨r', lane', alone'⟩ := laneLeft lane alone
        obtain ⟨⟨w, held, dir⟩, r, lane'', one⟩ := holdsAlone_takeSpan (p := x.lastHeld) (cs := rest) there fresh look.1 lane' alone'
        rw [← begins] at held lane''
        rw [look.2] at dir one
        cases taken.symm.trans held
        exact ⟨⟨r, (congrArg (fun t => Table.look t l) lanes').trans lane'', one⟩,
          (congrArg (fun ds => Table.look ds l) (congrArg Scrubber.laneDirs record :)).trans dir⟩
    · have whole : g = left.beginWait k m count next reason := by
        rw [examined, decided, show left.firstFail k m x.lastHeld span [] = some (next, reason) from failing]
      obtain ⟨others, lines, notices, looks, looks', y, own, hand, record⟩ :=
        beginWait_waits (k := k) (count := count) (reason := reason) there free open'
      rw [← whole] at others lines notices looks looks' own
      refine ⟨y, own, othersKept_trans leaves.others others, lines, notices, looks, looks', hand, record.trans ?_⟩
      rw [← waits]
    · have whole : g = left.beginWait k m count next reason := by
        rw [examined, decided, show left.firstFail k m x.lastHeld span [] = some (next, reason) from failing]
      obtain ⟨others, ⟨cells', lanes', lines⟩, ⟨n, raised, pending, last⟩, y, own, hand, record⟩ :=
        beginWait_refused (k := k) (count := count) (reason := reason) there free classes ring
      rw [← whole] at others cells' lanes' lines own raised
      exact ⟨y, n, own, othersKept_trans leaves.others others, lines, fun c => by rw [cells'], fun l => by rw [lanes'],
        hand, record, raised, pending, last⟩

end Sys2Proof.Laws
end

section
/-! ## Intervals that run out -/

namespace Sys2Proof.Laws

open Sys2Proof Sys2Proof.Machine Sys2Proof.Safety

-- One theorem at a time, as in the tests above: side by side their threads' stacks take the memory.
set_option Elab.async false

/-! ### Orders while one is outstanding -/

theorem ordered_outstanding {x : Scrubber} {o p : Order} (out : x.outstanding = some p) :
    (ordered o x).outstanding = some p := by
  unfold ordered
  split
  · exact out
  · unfold delivered
    simp only [out]

/-- R97: while an order is outstanding a new one changes the queue alone. -/
theorem ordered_queue_only {x : Scrubber} {o p : Order} (out : x.outstanding = some p) :
    ordered o x = { x with queue := (ordered o x).queue } := by
  have stays := (ordered_outstanding (o := o) out).trans out.symm
  conv => lhs; rw [ordered_self o x, stays]

theorem mem_queue_of_accepts {x : Scrubber} {o p : Order} (fits : Accepts x o) (kind : o.kind ≠ 4)
    (out : x.outstanding = some p) (other : p ≠ o) : o ∈ (ordered o x).queue := by
  rcases inHand_of_accepts fits kind with queued | now
  · exact queued
  · rw [ordered_outstanding out] at now
    exact absurd (Option.some.inj now) other

/-! ### A refuge granted -/

/-- R26: a cell granted to machine `m`, whose record stands as `w`, as its refuge. -/
theorem grantRefuge_spec {f : Floor} {m c : Nat} {w : Scrubber} (known : f.machines.look m = some w)
    (found : w.state ≠ .lost) :
    OthersKept m f (f.grantRefuge m c) ∧ (f.grantRefuge m c).notices = f.notices ∧
      (∀ d, (f.grantRefuge m c).cells.look d =
        (f.cells.look d).map fun z => if d = c then { z with occ := .held m } else z) ∧
      ∃ ld y, (f.grantRefuge m c).machines.look m = some y ∧ InHand y (.answer (.grant [c] true)) ∧
        y = { w with laneDirs := ld, refuge := some c, queue := y.queue, outstanding := y.outstanding } ∧
        ∀ p, w.outstanding = some p → y.outstanding = some p := by
  have written : LanesWritten m f ((f.setOcc c (.held m)).place m c) :=
    (LanesWritten.of_machines (setOcc_machines _ _ _)).trans (lanesWritten_place _ m c)
  obtain ⟨ld, taken⟩ := written.own known
  have acts := (acts_modMachine ((f.setOcc c (.held m)).place m c) m fun y => { y with refuge := some c }).trans
    (acts_order _ m (.answer (.grant [c] true)))
  refine ⟨othersKept_trans written.others acts.others, ?_, fun d => ?_, ld, _, acts.own taken, ?_, ordered_self _ _,
    fun p out => ordered_outstanding out⟩
  · unfold Floor.grantRefuge
    simp
  · unfold Floor.grantRefuge
    rw [order_cells, Floor.modMachine_cells, place_cells, setOcc_look]
    by_cases here : d = c
    · simp [here]
    · simp [here]
  · refine inHand_of_accepts ⟨found, fun r held _ => ?_⟩ (by simp [Order.kind])
    cases held
    rfl

/-! ### The cell freed -/

/-- R20: a cell whose interval runs out. -/
theorem setOcc_free {f : Floor} {c : Nat} {z : Cell} (known : f.cells.look c = some z) (idle : z.occ.taken = false) :
    f.setOcc c .free = { f with cells := f.cells.upd c fun y => { y with occ := .free } } := by
  unfold Floor.setOcc
  rw [known]
  exact if_pos idle

/-- R20, R37: an interval that runs out frees its cell and offers it, at its moment. -/
theorem expiry_frees {c moment : Nat} {z : Cell} {run : Machine.Result} {s : State} (live : s.live = true) (within : c ≤ 511)
    (known : s.floor.cells.look c = some z)
    (ends : z.occ = .guarded moment ∧ run = exec (.guardExpiry c) s ∨
      (∃ slow, z.occ = .wet moment slow) ∧ run = exec (.wetExpiry c) s) :
    run = .next ((s.advanceTo moment).onFloor fun k f =>
      Floor.offerCell k { f with cells := f.cells.upd c fun y => { y with occ := .free } } c) := by
  have cell : isCell c = true := (isCell_iff c).2 within
  have freed (idle : z.occ.taken = false) : ((s.advanceTo moment).onFloor fun k f => f.freeCell k c) =
      (s.advanceTo moment).onFloor fun k f =>
        Floor.offerCell k { f with cells := f.cells.upd c fun y => { y with occ := .free } } c := by
    exact congrArg (fun g => { s.advanceTo moment with floor := Floor.offerCell (s.advanceTo moment).control g c })
      (setOcc_free known idle)
  rcases ends with ⟨occ, rfl⟩ | ⟨⟨slow, occ⟩, rfl⟩
  · have deadline : s.floor.guardDeadline c = some moment := by
      unfold Floor.guardDeadline
      rw [known, Option.map_some, occ]
    show (if isCell c = true then event _ s else _) = _
    rw [if_pos cell, event_live live, expire_some _ deadline, freed (by rw [occ]; rfl)]
  · have deadline : s.floor.wetDeadline c = some moment := by
      unfold Floor.wetDeadline
      rw [known, Option.map_some, occ]
    show (if isCell c = true then event _ s else _) = _
    rw [if_pos cell, event_live live, expire_some _ deadline, freed (by rw [occ]; rfl)]

/-! ### Whom the offer examines first -/

theorem offerTo_refuge {k : Control} {f : Floor} {c m : Nat} {z : Cell} {a b : List Waiter}
    (listed : z.waiters = a ++ ⟨m, true⟩ :: b) (ordinary : ∀ w ∈ a, w.refuge = false) :
    f.offerTo k c z = (f.leaveWait m).grantRefuge m c := by
  have none : (a.find? fun w => w.refuge) = none :=
    List.find?_eq_none.2 fun w inside => by rw [ordinary w inside]; exact Bool.false_ne_true
  have first : (z.waiters.find? fun w => w.refuge) = some ⟨m, true⟩ := by
    rw [listed, List.find?_append, none]
    rfl
  unfold Floor.offerTo
  rw [first]

theorem byRank_pair {f : Floor} {m n : Nat} {x y : Scrubber} {ms : List Nat} (mine : f.machines.look m = some x)
    (other : f.machines.look n = some y) (less : x.rank < y.rank) (rank : y.rank ≤ 3) (both : ms = [m, n] ∨ ms = [n, m]) :
    f.byRank ms = [m, n] := by
  have hm : f.rankOf m = x.rank := by unfold Floor.rankOf; rw [mine]; rfl
  have hn : f.rankOf n = y.rank := by unfold Floor.rankOf; rw [other]; rfl
  unfold Floor.byRank
  rcases both with rfl | rfl
  · simp only [List.filter_cons, List.filter_nil, hm, hn]
    generalize x.rank = i at less
    generalize y.rank = j at less rank
    interval_cases j <;> interval_cases i <;> rfl
  · simp only [List.filter_cons, List.filter_nil, hm, hn]
    generalize x.rank = i at less
    generalize y.rank = j at less rank
    interval_cases j <;> interval_cases i <;> rfl

theorem examineAll_granted {k : Control} {f g : Floor} {m : Nat} {rest : List Nat} (granted : f.examine k m = (g, true)) :
    f.examineAll k (m :: rest) = g := by
  unfold Floor.examineAll
  rw [granted]

/-- The floor once cell `c`'s interval has run out, before the offer. -/
def freedAt (f : Floor) (c : Nat) : Floor := { f with cells := f.cells.upd c fun y => { y with occ := .free } }

theorem freedAt_look {f : Floor} {c : Nat} {z : Cell} (known : f.cells.look c = some z) :
    (freedAt f c).cells.look c = some { z with occ := .free } := by
  unfold freedAt
  rw [Table.look_upd_self, known]
  rfl

/-- R24: a machine that leaves the list of cell `c`. -/
theorem leaveWait_cell {f : Floor} {m c : Nat} {x : Scrubber} {p : Pending} (known : f.machines.look m = some x)
    (request : x.request = some p) (target : p.target = .cell c) (d : Nat) : (f.leaveWait m).cells.look d =
      (f.cells.look d).map fun z =>
        if d = c then { z with waiters := z.waiters.filter fun w => decide (w.slot ≠ m) } else z := by
  rw [leaveWait_eq known, request]
  show ((f.quitList m p.target).cells).look d = _
  rw [target, Floor.quitList, Table.look_upd]
  by_cases here : d = c
  · simp [here]
  · simp [here]

/-- R26, R38: the offer of a freed cell to its first refuge waiter. -/
theorem freed_refuge {k : Control} {f : Floor} {c m : Nat} {z : Cell} {x : Scrubber} {a b : List Waiter}
    (cell : f.cells.look c = some z) (open' : z.embargo = 0) (listed : z.waiters = a ++ ⟨m, true⟩ :: b)
    (ordinary : ∀ w ∈ a, w.refuge = false) (known : f.machines.look m = some x) (request : x.request = some (.refuge c))
    (found : x.state ≠ .lost) :
    let g := Floor.offerCell k (freedAt f c) c
    OthersKept m f g ∧ g.notices = f.notices ∧ (∀ n, n ≠ c → g.cells.look n = f.cells.look n) ∧
      g.cells.look c = some { z with occ := .held m, waiters := z.waiters.filter fun w => decide (w.slot ≠ m) } ∧
      ∃ ld y, g.machines.look m = some y ∧ InHand y (.answer (.grant [c] true)) ∧
        y = { x with
          request := none, laneDirs := ld, refuge := some c, queue := y.queue, outstanding := y.outstanding } := by
  intro g
  have freed := freedAt_look cell
  have whole : g = ((freedAt f c).leaveWait m).grantRefuge m c :=
    (offerCell_available freed rfl open' (by rw [listed]; exact List.append_ne_nil_of_right_ne_nil _ (List.cons_ne_nil _ _))).trans
      (offerTo_refuge listed ordinary)
  have leaves := acts_leaveWait (freedAt f c) m
  have left := leaveWait_cell (f := freedAt f c) (c := c) known request rfl
  obtain ⟨others, notices, cells, ld, y, own, hand, record, -⟩ := grantRefuge_spec (c := c) (leaves.own known) found
  rw [whole]
  refine ⟨othersKept_trans (f := f) leaves.others others, notices.trans (leaveWait_notices _ m), fun n other => ?_, ?_,
    ld, y, own, hand, record⟩
  · have stands : (freedAt f c).cells.look n = f.cells.look n := by
      unfold freedAt
      rw [Table.look_upd_ne _ other]
    rw [cells, left, stands]
    simp [other]
  · rw [cells, left, freed]
    simp

/-! ### Two ordinary waiters -/

/-- R25: a free cell outside lanes, with no embargo and in an open zone. -/
theorem firstFail_single {k : Control} {f : Floor} {m p c : Nat} {z : Cell} (known : f.cells.look c = some z)
    (free : z.occ = .free) (open' : z.embargo = 0) (zone : k.zones.look z.zone = some true) (outside : z.lane = none) :
    f.firstFail k m p [c] [] = none := by
  have row : f.failingRow k m p c [] = none := by
    rw [failingRow_own known (.inl free), if_neg (not_not.2 open'),
      if_neg (by rw [zoneOpen_of_look zone]; exact Bool.noConfusion),
      laneRow_outside ((laneOf_eq_lane known).trans outside)]
  unfold Floor.firstFail
  rw [row]
  rfl

/-- R37, R38, R28: of two ordinary waiters of a freed cell the one of the lower rank is examined and granted. -/
theorem freed_pair {k : Control} {f : Floor} {c m n count : Nat} {z : Cell} {x y : Scrubber} {a : ActiveLeg}
    (cell : f.cells.look c = some z) (open' : z.embargo = 0) (differ : m ≠ n)
    (both : z.waiters = [⟨m, false⟩, ⟨n, false⟩] ∨ z.waiters = [⟨n, false⟩, ⟨m, false⟩])
    (mine : f.machines.look m = some x) (other : f.machines.look n = some y) (less : x.rank < y.rank) (rank : y.rank ≤ 3)
    (request : x.request = some (.ordinary count (.cell c))) (free : x.refuge = none) (counts : 1 ≤ count)
    (leg : x.active = some a) (rest : a.leg.cells.drop (a.index + x.ahead.length + 1) = [c]) (behind : x.ahead = [])
    (outside : z.lane = none) (zone : k.zones.look z.zone = some true) (mode : k.mode ≠ .evacuation) :
    let g := Floor.offerCell k (freedAt f c) c
    g.cells.look c = some { z with occ := .held m, waiters := [⟨n, false⟩] } ∧ g.machines.look n = some y ∧
      ∃ x', g.machines.look m = some x' ∧ x'.state = .running ∧ x'.ahead = [c] ∧ x'.request = none ∧
        InHand x' (.answer (.grant [c] false)) ∧ x'.progress.isSome = true := by
  intro g
  have freed := freedAt_look cell
  have ordinary : ∀ w ∈ z.waiters, w.refuge = false := by rcases both with h | h <;> rw [h] <;> simp
  have some : z.waiters ≠ [] := by rcases both with h | h <;> rw [h] <;> exact List.cons_ne_nil _ _
  have slots : (z.waiters.map fun w => w.slot) = [m, n] ∨ (z.waiters.map fun w => w.slot) = [n, m] := by
    rcases both with h | h <;> rw [h]
    · exact .inl rfl
    · exact .inr rfl
  have filtered : (z.waiters.filter fun w => decide (w.slot ≠ m)) = [⟨n, false⟩] := by
    rcases both with h | h <;> rw [h] <;> simp [Ne.symm differ]
  have isOpen : ¬ (k.mode = .evacuation ∨ k.zoneOpen z.zone = false) := by
    rintro (evac | shut)
    · exact mode evac
    · rw [zoneOpen_of_look zone] at shut; exact Bool.noConfusion shut
  have leaves := acts_leaveWait (freedAt f c) m
  have left : ((freedAt f c).leaveWait m).cells.look c =
      Option.some { z with occ := .free, waiters := [⟨n, false⟩] } := by
    rw [leaveWait_cell (f := freedAt f c) (c := c) mine request rfl, freed, Option.map_some, if_pos rfl]
    simp only [filtered]
  have span : x.span count = [c] := by
    rw [span_of_active leg, rest, behind, List.take_of_length_le]
    simp only [List.length_singleton, List.length_nil]
    omega
  have examined : (freedAt f c).examine k m = (((freedAt f c).leaveWait m).grant k m x [c], true) := by
    rw [examine_eq (f := freedAt f c) mine request, span, firstFail_single left rfl open' zone outside]
  have whole : g = ((freedAt f c).leaveWait m).grant k m x [c] := by
    show Floor.offerCell k (freedAt f c) c = _
    rw [offerCell_available freed rfl open' some, offerTo_ordinary (z := { z with occ := .free }) ordinary, if_neg isOpen]
    rw [byRank_pair (f := freedAt f c) mine other less rank slots, examineAll_granted examined]
  obtain ⟨others, -, -, -, cells, ld, x', -, own, hand, record⟩ := grant_spec (k := k) (x := x) (leaves.own mine) free [c]
  rw [← whole] at others cells own
  refine ⟨?_, ?_, x', own, (congrArg Scrubber.state record :), ?_, (congrArg Scrubber.request record :), ?_, ?_⟩
  · rw [cells, left]
    simp
  · exact ((others n (Ne.symm differ)).trans (leaves.others n (Ne.symm differ))).trans other
  · exact (congrArg Scrubber.ahead record :).trans (by show x.ahead ++ [c] = [c]; rw [behind]; rfl)
  · rw [behind] at hand
    exact hand
  · have progress := (congrArg Scrubber.progress record :)
    have ahead : x.ahead ++ [c] ≠ [] := List.append_ne_nil_of_right_ne_nil _ (List.cons_ne_nil _ _)
    rw [if_neg ahead] at progress
    exact congrArg Option.isSome progress

/-- Settles O54: the cell is freed, and the offer is that of its waiters. -/
theorem intervalsRunOutAndOffer : Obligations.IntervalsRunOutAndOffer := by
  refine ⟨?_, ?_⟩
  · intro c moment z run s live tables within known ends k frees
    have ran := expiry_frees live within known ends
    have still (same : Floor.offerCell k (freedAt s.floor c) c = freedAt s.floor c) : run = .next frees :=
      ran.trans (congrArg (fun g => Host.Outcome.next { frees with floor := g }) same)
    have freed := freedAt_look known
    refine ⟨ran, fun bars => still ?_, fun open' ordinary shut => still ?_, ?_⟩
    · exact offerCell_unavailable freed (.inr bars)
    · by_cases some : z.waiters = []
      · exact offerCell_unavailable freed (.inr (.inr some))
      · rw [offerCell_available freed rfl open' some, offerTo_ordinary (z := { z with occ := .free }) ordinary]
        exact if_pos (shut.imp_right zoneOpen_of_look)
    · intro a m b x open' listed ordinary mine request free found
      obtain ⟨others, notices, cells, own, ld, y, look, hand, record⟩ :=
        freed_refuge (k := k) known open' listed ordinary mine request found
      refine ⟨{ frees with floor := Floor.offerCell k (freedAt s.floor c) c }, y, ran, rfl, rfl, others, notices, cells, own,
        look, hand, ?_⟩
      rw [record]
  · intro c moment m n z x y a count s live tables within known occ open' both differ mine other less rank waits request
      free counts leg rest behind outside zone mode
    have ran := expiry_frees (run := exec (.guardExpiry c) s) live within known (.inl ⟨occ, rfl⟩)
    obtain ⟨cell, stays, x', own, grants⟩ := freed_pair (k := (s.advanceTo moment).control) known open' differ both mine other
      less rank request free counts leg rest behind outside zone mode
    obtain ⟨state, ahead, idle, hand, timer⟩ := grants
    exact ⟨_, x', ran, cell, stays, own, state, ahead, idle, hand, timer⟩

end Sys2Proof.Laws
end

section
/-! ## The acknowledgement of a WITHDRAW: legs, withdrawal and orders -/

namespace Sys2Proof.Laws

open Sys2Proof Sys2Proof.Machine Sys2Proof.Safety

-- One theorem at a time, as in the tests above: side by side their threads' stacks take the memory.
set_option Elab.async false

/-! ### The floor around it -/

/-- The work changes machines, orders and causes alone. -/
def GroundKept (f g : Floor) : Prop := g.cells = f.cells ∧ g.lanes = f.lanes ∧ g.notices.keys = f.notices.keys

namespace GroundKept

variable {f g h : Floor}

theorem refl (f : Floor) : GroundKept f f := ⟨rfl, rfl, rfl⟩

theorem trans (a : GroundKept f g) (b : GroundKept g h) : GroundKept f h :=
  ⟨b.1.trans a.1, b.2.1.trans a.2.1, b.2.2.trans a.2.2⟩

theorem nobody (a : GroundKept f g) (law : NobodyWaits f) : NobodyWaits g := by
  obtain ⟨cells, lanes, -⟩ := a
  unfold NobodyWaits
  rw [cells, lanes]
  exact law

end GroundKept

theorem groundKept_modMachine (f : Floor) (m : Nat) (h : Scrubber → Scrubber) : GroundKept f (f.modMachine m h) :=
  ⟨rfl, rfl, rfl⟩

theorem groundKept_modSettled (k : Control) (f : Floor) (m : Nat) (h : Scrubber → Scrubber) :
    GroundKept f (f.modSettled k m h) := ⟨rfl, rfl, rfl⟩

theorem groundKept_raise (k : Control) (f : Floor) (cls : NoticeClass) (s : Option Nat) (r : Option NoticeReason) :
    GroundKept f (f.raise k cls s r) := by
  refine ⟨raise_cells _ _ _ _ _, raise_lanes _ _ _ _ _, ?_⟩
  unfold Floor.raise Floor.sendIfDue
  split
  · simp
  · split <;> simp

theorem groundKept_order (f : Floor) (m : Nat) (o : Order) : GroundKept f (f.order m o) :=
  ⟨order_cells _ _ _, order_lanes _ _ _, by rw [order_notices]⟩

theorem groundKept_settleWithdrawal (f : Floor) (m : Nat) : GroundKept f (f.settleWithdrawal m) := groundKept_modMachine _ _ _

theorem groundKept_endLeg (k : Control) (f : Floor) (m : Nat) (reason : NoticeReason) : GroundKept f (f.endLeg k m reason) :=
  (groundKept_modSettled k f m _).trans (groundKept_raise _ _ _ _ _)

theorem groundKept_promote (k : Control) (f : Floor) (m : Nat) (leg : Leg) (tell : Bool) :
    GroundKept f (f.promote k m leg tell) := by
  have begun : GroundKept f ((f.modMachine m fun x => { x with active := some ⟨leg, 0⟩, staged := none }).order m
      (.leg leg.tag leg.flow leg.homing leg.cells)) := (groundKept_modMachine f m _).trans (groundKept_order _ _ _)
  unfold Floor.promote
  simp only
  split
  · exact begun.trans (groundKept_raise _ _ _ _ _)
  · exact begun

theorem groundKept_decidePromotion (k : Control) (f : Floor) (m : Nat) : GroundKept f (f.decidePromotion k m) := by
  unfold Floor.decidePromotion
  split
  · exact .refl f
  · split
    · exact groundKept_endLeg k f m _
    · split
      · exact groundKept_promote k f m _ _
      · exact groundKept_endLeg k f m _

/-! ### The legs -/

/-- R132: what becomes of the pending withdrawal. -/
def continued (x : Scrubber) (w : Option Withdrawal) : Option Withdrawal :=
  match x.queuedWithdraw with
  | none => none
  | some (cancel, refuge) => w.map fun w => { w with cancel := cancel, refuge := refuge }

theorem acts_settleWithdrawal (f : Floor) (m : Nat) :
    Acts m (fun x => { x with withdrawal := continued x x.withdrawal }) f (f.settleWithdrawal m) := acts_modMachine f m _

theorem othersKept_raise (k : Control) (f : Floor) (m : Nat) (cls : NoticeClass) (s : Option Nat) (r : Option NoticeReason) :
    OthersKept m f (f.raise k cls s r) := othersKept_of_machines (raise_machines k f cls s r)

/-- R132: the record once its legs are discarded. -/
def discarded (x : Scrubber) : Scrubber :=
  { x with
    active := none, staged := none, state := x.state.toIdle, progress := none
    withdrawal := x.withdrawal.map fun w => { w with deferred := false } }

/-- R132: both legs discarded, for a machine with no ahead cells. -/
theorem discardLegs_spec {k : Control} {f : Floor} {m : Nat} {x : Scrubber} {reason : NoticeReason}
    (known : f.machines.look m = some x) (behind : x.ahead = []) (classes : f.notices.keys = List.range Config.classCount) :
    OthersKept m f (f.discardLegs k m reason) ∧ GroundKept f (f.discardLegs k m reason) ∧
      (f.discardLegs k m reason).machines.look m = some (discarded x) ∧
      (x.active ≠ none ∨ x.staged ≠ none → ∃ n, (f.discardLegs k m reason).notices.look 7 = some n ∧ n.pending = true ∧
        n.last = some m) := by
  have drops := acts_modSettled k f m fun y =>
    { y with
      active := none, staged := none, state := y.state.toIdle
      withdrawal := y.withdrawal.map fun w => { w with deferred := false } }
  have own := drops.own known
  rw [settle_eq, if_neg fun has => has.2 behind] at own
  unfold Floor.discardLegs
  simp only [known]
  split
  · have machines := fun f => raise_machines k f .legAborted (some m) (some reason)
    refine ⟨othersKept_trans drops.others (othersKept_raise _ _ _ _ _ _), (groundKept_modSettled ..).trans (groundKept_raise ..),
      ?_, fun _ => raise_pending (cls := .legAborted) classes⟩
    rw [machines]
    exact own
  · next nothing =>
    refine ⟨drops.others, groundKept_modSettled .., own, fun some => absurd some ?_⟩
    simpa [Option.isSome_iff_ne_none] using nothing

/-- R132: the acknowledgement under the cancel flag, or on an embargoed stop cell. -/
theorem settleLegs_discards {k : Control} {f : Floor} {m : Nat} {x : Scrubber} {cancel embargoed : Bool}
    (known : f.machines.look m = some x) (behind : x.ahead = []) (classes : f.notices.keys = List.range Config.classCount)
    (drops : cancel = true ∨ embargoed = true) :
    OthersKept m f (f.settleLegs k m cancel embargoed) ∧ GroundKept f (f.settleLegs k m cancel embargoed) ∧
      (f.settleLegs k m cancel embargoed).machines.look m =
        some { discarded x with withdrawal := continued x (discarded x).withdrawal } ∧
      (x.active ≠ none ∨ x.staged ≠ none → ∃ n, (f.settleLegs k m cancel embargoed).notices.look 7 = some n ∧
        n.pending = true ∧ n.last = some m) := by
  have whole : f.settleLegs k m cancel embargoed =
      (f.discardLegs k m (if embargoed then .embargo else .cancelled)).settleWithdrawal m :=
    if_pos (by rw [Bool.or_eq_true]; exact drops)
  obtain ⟨others, ground, own, notice⟩ := discardLegs_spec (k := k)
    (reason := if embargoed then .embargo else .cancelled) known behind classes
  have settles := acts_settleWithdrawal (f.discardLegs k m (if embargoed then .embargo else .cancelled)) m
  rw [whole]
  exact ⟨othersKept_trans others settles.others, ground.trans (groundKept_settleWithdrawal ..), settles.own own, notice⟩

/-- R132: the record once its legs are kept and its withdrawal has ended or goes on. -/
def legsKeptRecord (x : Scrubber) : Scrubber :=
  { x with state := x.afterKeep, progress := none, withdrawal := continued x x.withdrawal }

/-- R132, R81: the acknowledgement without the cancel flag, short of the decision that a completion deferred. -/
theorem settleLegs_keeps {k : Control} {f : Floor} {m : Nat} {x : Scrubber} (known : f.machines.look m = some x)
    (behind : x.ahead = []) : ∃ g, OthersKept m f g ∧ GroundKept f g ∧ g.notices = f.notices ∧
      g.machines.look m = some (legsKeptRecord x) ∧ f.settleLegs k m false false =
        if (x.withdrawal.any fun w => w.deferred) && (continued x x.withdrawal).isNone then g.decidePromotion k m else g := by
  have keeps := acts_modSettled k f m fun x => { x with state := x.afterKeep }
  have mid := keeps.own known
  rw [settle_eq, if_neg fun has => has.2 behind] at mid
  have settles := acts_settleWithdrawal (f.modSettled k m fun x => { x with state := x.afterKeep }) m
  have own := settles.own mid
  refine ⟨_, othersKept_trans keeps.others settles.others, (groundKept_modSettled k f m _).trans
    (groundKept_settleWithdrawal ..), rfl, own, ?_⟩
  unfold Floor.settleLegs
  simp only [Bool.or_self, Bool.false_eq_true, if_false, mid, own, Option.bind_some]
  rfl

/-- R77, R79: the staged leg is held back, or there is none. -/
theorem decidePromotion_ends {k : Control} {f : Floor} {m : Nat} {x : Scrubber} (known : f.machines.look m = some x)
    (behind : x.ahead = []) (classes : f.notices.keys = List.range Config.classCount)
    (held : ∀ leg, x.staged = some leg → leg.promotable k x = false) :
    OthersKept m f (f.decidePromotion k m) ∧ (f.decidePromotion k m).machines.look m =
        some { x with state := x.state.toIdle, progress := none } ∧
      ∃ n, (f.decidePromotion k m).notices.look 8 = some n ∧ n.pending = true ∧ n.last = some m := by
  have ends (reason : NoticeReason) : OthersKept m f (f.endLeg k m reason) ∧ (f.endLeg k m reason).machines.look m =
      some { x with state := x.state.toIdle, progress := none } ∧
      ∃ n, (f.endLeg k m reason).notices.look 8 = some n ∧ n.pending = true ∧ n.last = some m := by
    have idles := acts_modSettled k f m fun x => { x with state := x.state.toIdle }
    have own := idles.own known
    rw [settle_eq, if_neg fun has => has.2 behind] at own
    refine ⟨othersKept_trans idles.others (othersKept_raise _ _ _ _ _ _), ?_, raise_pending (cls := .legEnd) classes⟩
    unfold Floor.endLeg
    rw [raise_machines]
    exact own
  unfold Floor.decidePromotion
  simp only [known]
  split
  · exact ends _
  · next leg staged =>
    rw [held leg staged]
    exact ends _

/-- R77, R78: the staged leg becomes active. -/
theorem decidePromotion_promotes {k : Control} {f : Floor} {m : Nat} {x : Scrubber} {leg : Leg}
    (known : f.machines.look m = some x) (classes : f.notices.keys = List.range Config.classCount)
    (staged : x.staged = some leg) (open' : leg.promotable k x = true) :
    OthersKept m f (f.decidePromotion k m) ∧ (f.decidePromotion k m).machines.look m =
        some (ordered (.leg leg.tag leg.flow leg.homing leg.cells) { x with active := some ⟨leg, 0⟩, staged := none }) ∧
      ∃ n, (f.decidePromotion k m).notices.look 9 = some n ∧ n.pending = true ∧ n.last = some m := by
  have begins := (acts_modMachine f m fun x => { x with active := some ⟨leg, 0⟩, staged := none }).trans
    (acts_order _ m (.leg leg.tag leg.flow leg.homing leg.cells))
  have whole : f.decidePromotion k m = ((f.modMachine m fun x => { x with active := some ⟨leg, 0⟩, staged := none }).order m
      (.leg leg.tag leg.flow leg.homing leg.cells)).raise k .stageFree (some m) none := by
    unfold Floor.decidePromotion
    simp only [known, staged, open', if_true]
    rfl
  rw [whole]
  refine ⟨othersKept_trans begins.others (othersKept_raise _ _ _ _ _ _), ?_, raise_pending (cls := .stageFree) ?_⟩
  · rw [raise_machines]
    exact begins.own known
  · rw [order_notices]
    exact classes

end Sys2Proof.Laws
end

section
/-! ## The acknowledgement of a WITHDRAW: the stop -/

namespace Sys2Proof.Laws

open Sys2Proof Sys2Proof.Machine Sys2Proof.Safety

-- One theorem at a time, as in the tests above: side by side their threads' stacks take the memory.
set_option Elab.async false

/-! ### The ACK itself -/

/-- R98: the outstanding order done, the next queued one goes out. -/
def nextOrder (w : Scrubber) : Scrubber :=
  { w with outstanding := w.queue.head?, queue := w.queue.drop 1, replyWindow := none }

theorem acts_nextOrder (g : Floor) (m : Nat) : Acts m nextOrder g ((g.clearOutstanding m).deliver m) := by
  have acts := (Acts.of_upd (g := g.clearOutstanding m) (Floor.clearOutstanding_machines g m)).trans (acts_deliver _ m)
  have same : delivered ∘ (fun x => { x with outstanding := none, replyWindow := none }) = nextOrder := by
    funext w
    unfold delivered nextOrder
    simp only [Function.comp_apply]
    cases queue : w.queue <;> simp
  rw [← same]
  exact acts

/-- R98: the orders in hand besides the outstanding one stay in hand. -/
theorem inHand_nextOrder {w : Scrubber} {o : Order} (listed : o ∈ w.queue) : InHand (nextOrder w) o := by
  unfold InHand nextOrder
  cases queue : w.queue with
  | nil => rw [queue] at listed; cases listed
  | cons q rest =>
    rw [queue, List.mem_cons] at listed
    rcases listed with rfl | later
    · exact .inr rfl
    · exact .inl later

/-- R130: an ACK of an outstanding WITHDRAW. -/
theorem exec_ack_withdraw {slot s1 s0 decline : Byte} {s : State} {x : Scrubber} {cancel : Bool} {named : Option Nat}
    (turn : s.takesRecord ⟨0x44#8, slot, [4#8, s1, s0, decline]⟩ = true) (low : 1 ≤ slot.toNat) (high : slot.toNat ≤ 24)
    (known : s.floor.machines.look slot.toNat = some x) (found : x.state ≠ .lost)
    (out : x.outstanding = some (.withdraw cancel named)) :
    exec (.ack slot [4#8, s1, s0, decline]) s = .next { s.takeRecord with
      floor := ((s.floor.ackWithdraw s.control slot.toNat cancel (s1.toNat * 256 + s0.toNat)).clearOutstanding
        slot.toNat).deliver slot.toNat } := by
  have run := machineRecord_takes (act := fun s => s.onFloor fun k f =>
    f.ack k slot.toNat 4 (s1.toNat * 256 + s0.toNat) (fleetFlag decline)) turn low high known found
  have acked : s.floor.ack s.control slot.toNat 4 (s1.toNat * 256 + s0.toNat) (fleetFlag decline) =
      ((s.floor.ackWithdraw s.control slot.toNat cancel (s1.toNat * 256 + s0.toNat)).clearOutstanding
        slot.toNat).deliver slot.toNat := by
    unfold Floor.ack
    simp only [known, Option.bind_some, out]
    rfl
  have arm : exec (.ack slot [4#8, s1, s0, decline]) s = machineRecord 0x44#8 slot [4#8, s1, s0, decline]
      (some fun s => s.onFloor fun k f => f.ack k slot.toNat 4 (s1.toNat * 256 + s0.toNat) (fleetFlag decline)) none s := rfl
  refine (arm.trans run).trans ?_
  unfold takes
  exact congrArg (fun g => Host.Outcome.next { s.takeRecord with floor := g }) acked

/-! ### The state at the stop -/

/-- R74, R79: what an arrival, and a completion that waits for the withdrawal, may make of a machine's state. -/
def Rests (a b : MState) : Prop :=
  b = a ∧ (a = .halted ∨ a = .stoodDown) ∨ (a = .running ∨ a = .stalled ∨ a = .idle) ∧ (b = .running ∨ b = .stalled ∨ b = .idle)

theorem rests_refl {a : MState} (found : a ≠ .lost) (still : a ≠ .waiting) : Rests a a := by
  unfold Rests
  cases a <;> simp at found still ⊢

theorem rests_arrived {a : MState} (found : a ≠ .lost) (still : a ≠ .waiting) :
    Rests a (if a = .stalled then .running else a) := by
  unfold Rests
  cases a <;> simp at found still ⊢

theorem rests_toIdle {a b : MState} (rests : Rests a b) : Rests a b.toIdle := by
  unfold Rests at rests ⊢
  rcases rests with ⟨rfl, h | h⟩ | ⟨h, h' | h' | h'⟩
  · subst h; simp [MState.toIdle]
  · subst h; simp [MState.toIdle]
  all_goals subst h'; exact .inr ⟨h, .inr (.inr rfl)⟩

/-- R132: a machine at rest becomes IDLE, unless it is HALTED or STOOD_DOWN. -/
theorem toIdle_of_rests {a b : MState} (rests : Rests a b) :
    b.toIdle = if a = .halted ∨ a = .stoodDown then a else .idle := by
  rcases rests with ⟨rfl, h | h⟩ | ⟨h, h' | h' | h'⟩
  · subst h; rfl
  · subst h; rfl
  all_goals
    subst h'
    rw [if_neg (by rcases h with rfl | rfl | rfl <;> simp)]
    rfl

/-- R132: the state with the legs kept. -/
theorem afterKeep_of_rests {a : MState} {w : Scrubber} (rests : Rests a w.state) :
    w.afterKeep = if a = .halted ∨ a = .stoodDown then a else if w.active = none then .idle else .running := by
  unfold Scrubber.afterKeep
  rcases rests with ⟨same, h⟩ | ⟨h, h'⟩
  · rw [if_pos h, same]
    exact if_neg (by rcases h with rfl | rfl <;> simp)
  · have moves : ¬ (a = .halted ∨ a = .stoodDown) := by rcases h with rfl | rfl | rfl <;> simp
    rw [if_pos h', if_neg moves]
    cases w.active <;> rfl

/-! ### The arrival at the stop cell -/

/-- R131: the record at the stop cell, `i` cells along the machine's cells. -/
def stopped (x : Scrubber) (ld : Table Dir) (st : MState) (c i : Nat) (done : Bool) : Scrubber :=
  { x with
    laneDirs := ld, state := st, current := c, ahead := [], progress := none
    active := if done then none else x.active.map fun a => { a with index := a.index + i }
    safeStops := if done then 0 else x.safeStops
    withdrawal := x.withdrawal.map fun w => { w with deferred := done || w.deferred } }

/-- R76: the arrival `i` cells along completes the active leg. -/
def completesAt (x : Scrubber) (i : Nat) : Bool :=
  x.active.any fun a => decide (i ≠ 0 ∧ a.index + i + 1 = a.leg.cells.length)

theorem legDone_arrived_iff (x : Scrubber) (j : Nat) : (x.arrivedAt j).legDone = completesAt x (j + 1) := by
  unfold Scrubber.legDone Scrubber.arrivedAt completesAt
  cases x.active with
  | none => rfl
  | some a => simp

/-- R81: a completion under a pending withdrawal. -/
theorem completeLeg_deferred {k : Control} {f : Floor} {m : Nat} {w : Scrubber} (known : f.machines.look m = some w)
    (pending : w.withdrawal ≠ none) : OthersKept m f (f.completeLeg k m) ∧ GroundKept f (f.completeLeg k m) ∧
      (f.completeLeg k m).notices = f.notices ∧ ∃ p, (f.completeLeg k m).machines.look m = some
        { w with
          safeStops := 0, active := none, state := w.state.toIdle, progress := p
          withdrawal := w.withdrawal.map fun w => { w with deferred := true } } := by
  obtain ⟨v, pending⟩ := Option.ne_none_iff_exists'.1 pending
  have done := acts_modMachine f m fun x => { x with safeStops := 0, active := none }
  have idles := acts_modSettled k (f.modMachine m fun x => { x with safeStops := 0, active := none }) m fun x =>
    { x with state := x.state.toIdle, withdrawal := x.withdrawal.map fun w => { w with deferred := true } }
  have own := (done.trans idles).own known
  rw [Function.comp_apply, settle_eq] at own
  have whole : f.completeLeg k m = (f.modMachine m fun x => { x with safeStops := 0, active := none }).modSettled k m fun x =>
      { x with state := x.state.toIdle, withdrawal := x.withdrawal.map fun w => { w with deferred := true } } := by
    unfold Floor.completeLeg
    simp only [done.own known, Option.bind_some, pending]
  rw [whole]
  exact ⟨(done.trans idles).others, ⟨rfl, rfl, rfl⟩, rfl, _, own⟩

/-- R74, R76, R81: an accepted arrival under a withdrawal that a completion waits for. -/
theorem acceptArrival_spec {k : Control} {f : Floor} {m j c : Nat} {x : Scrubber} (known : f.machines.look m = some x)
    (here : x.ahead[j]? = some c) (withdraws : completesAt x (j + 1) = true → x.withdrawal ≠ none) :
    let b := (x.leftBehind j).foldl (Floor.releaseBehind k m ((x.active.map fun a => a.leg.flow).getD 0)) f
    let g := f.acceptArrival k m x j
    OthersKept m f g ∧ GroundKept b g ∧ ∃ ld st p, g.machines.look m = some
        { stopped x ld st c (j + 1) (completesAt x (j + 1)) with ahead := x.ahead.drop (j + 1), progress := p } ∧
      (x.state ≠ .lost → st ≠ .lost) ∧ (x.state ≠ .lost → x.state ≠ .waiting → Rests x.state st) := by
  intro b g
  have written := LanesWritten.foldl (lanesWritten_releaseBehind k m ((x.active.map fun a => a.leg.flow).getD 0))
    (x.leftBehind j) f
  obtain ⟨ld, own⟩ := written.own known
  have arrives := acts_modSettled k b m fun y => y.arrivedAt j
  have position : x.ahead.getD j x.current = c := by rw [List.getD_eq_getElem?_getD, here, Option.getD_some]
  obtain ⟨p, there⟩ : ∃ p, (b.modSettled k m fun y => y.arrivedAt j).machines.look m = some { x with
      laneDirs := ld, current := c, ahead := x.ahead.drop (j + 1), progress := p
      active := x.active.map fun a => { a with index := a.index + (j + 1) }
      state := if x.state = .stalled then .running else x.state } := by
    have last := arrives.own own
    rw [settle_eq] at last
    unfold Scrubber.arrivedAt at last
    rw [position] at last
    exact ⟨_, last⟩
  have unstalled : x.state ≠ .lost → (if x.state = .stalled then MState.running else x.state) ≠ .lost := by
    intro found
    split
    · exact MState.noConfusion
    · exact found
  have whole : g = if completesAt x (j + 1) then (b.modSettled k m fun y => y.arrivedAt j).completeLeg k m
      else b.modSettled k m fun y => y.arrivedAt j := by
    rw [← legDone_arrived_iff]
    rfl
  rw [whole]
  cases done : completesAt x (j + 1) with
  | false =>
    refine ⟨othersKept_trans written.others arrives.others, groundKept_modSettled .., ld,
      if x.state = .stalled then .running else x.state, p, there.trans ?_, unstalled, rests_arrived⟩
    have stays : (x.withdrawal.map fun w => { w with deferred := false || w.deferred }) = x.withdrawal := by
      cases x.withdrawal <;> rfl
    unfold stopped
    rw [stays]
    rfl
  | true =>
    obtain ⟨others, ground, -, p, last⟩ := completeLeg_deferred (k := k) there (withdraws done)
    refine ⟨othersKept_trans (othersKept_trans written.others arrives.others) others,
      (groundKept_modSettled k b m _).trans ground, ld, (if x.state = .stalled then .running else x.state : MState).toIdle, p,
      last.trans ?_, fun found => ?_, fun found still => rests_toIdle (rests_arrived found still)⟩
    · rfl
    · exact fun lost => unstalled found (toIdle_lost _ lost)

/-! ### The cells given up beyond the stop -/

/-- R131: the arrival at the stop, where there is one. -/
def stopArrival (k : Control) (f : Floor) (m : Nat) (x : Scrubber) (j : Option Nat) : Floor :=
  match j with
  | some j => f.acceptArrival k m x j
  | none => f

/-- R131: the floor at the stop: the arrival, where there is one, and the cells given up. -/
def stopGround (k : Control) (f : Floor) (m : Nat) (x : Scrubber) (j : Option Nat) (given : List Nat) : Floor :=
  (given.foldl (Floor.release k m) (stopArrival k f m x j)).modSettled k m fun y => { y with ahead := [] }

/-- R131: position `j` of the ahead list, or the current cell, is `i` cells along the machine's cells, at `c`. -/
def StopsAt (x : Scrubber) (j : Option Nat) (i c : Nat) : Prop :=
  j = none ∧ i = 0 ∧ c = x.current ∨ ∃ p, j = some p ∧ i = p + 1 ∧ x.ahead[p]? = some c

theorem sameWaiters_of_groundKept {f g : Floor} (a : GroundKept f g) : SameWaiters f g := .of_eq a.1 a.2.1

/-- R131: what the arrival at the stop leaves, where there is one. -/
theorem stop_arrival {k : Control} {f : Floor} {m i c : Nat} {j : Option Nat} {x : Scrubber}
    (known : f.machines.look m = some x) (once : (x.current :: x.ahead).Nodup) (stops : StopsAt x j i c)
    (withdraws : completesAt x i = true → x.withdrawal ≠ none) (classes : f.notices.keys = List.range Config.classCount) :
    let g := stopArrival k f m x j
    OthersKept m f g ∧ SameWaiters f g ∧ g.notices.keys = List.range Config.classCount ∧ (i = 0 → g = f) ∧
      (∀ n, g.cells.look n = (f.cells.look n).map fun w =>
        if n ∈ (x.current :: x.ahead).take i then leftCell k ((x.active.map fun a => a.leg.flow).getD 0) w else w) ∧
      ∃ ld st as p, g.machines.look m = some
          { stopped x ld st c i (completesAt x i) with ahead := as, progress := p } ∧
        (x.state ≠ .lost → st ≠ .lost) ∧ (x.state ≠ .lost → x.state ≠ .waiting → Rests x.state st) := by
  rcases stops with ⟨rfl, rfl, rfl⟩ | ⟨p, rfl, rfl, here⟩
  · have still : completesAt x 0 = false := by
      unfold completesAt
      cases x.active <;> simp
    have same : { stopped x x.laneDirs x.state x.current 0 (completesAt x 0) with
        ahead := x.ahead, progress := x.progress } = x := by
      have leg : (x.active.map fun a => { a with index := a.index + 0 }) = x.active := by cases x.active <;> rfl
      have stays : (x.withdrawal.map fun w => { w with deferred := false || w.deferred }) = x.withdrawal := by
        cases x.withdrawal <;> rfl
      rw [still]
      unfold stopped
      rw [stays, leg]
      rfl
    refine ⟨othersKept_refl m f, .refl f, classes, fun _ => rfl, fun n => ?_, x.laneDirs, x.state, x.ahead, x.progress,
      ?_, id, rests_refl⟩
    · simp [stopArrival]
    · rw [same]
      exact known
  · obtain ⟨others, ground, ld, st, q, own, found, rests⟩ := acceptArrival_spec (k := k) known here withdraws
    have cells := releasesBehind_look k m ((x.active.map fun a => a.leg.flow).getD 0)
      (once.sublist ((List.take_sublist p x.ahead).cons_cons x.current)) f
    have waiters := SameWaiters.foldl (sameWaiters_releaseBehind k m ((x.active.map fun a => a.leg.flow).getD 0))
      (x.leftBehind p) f
    refine ⟨others, waiters.trans (sameWaiters_of_groundKept ground), ?_, fun zero => absurd zero (Nat.succ_ne_zero p),
      fun n => ?_, ld, st, _, q, own, found, rests⟩
    · exact ((moved_acceptArrival (calm := False) k f m x p).notices.keys).trans classes
    · exact (congrArg (fun t => Table.look t n) ground.1).trans (cells n)

/-- R131: the floor at the stop, with the cells beyond given up. -/
theorem stopGround_spec {k : Control} {f : Floor} {m i c : Nat} {j : Option Nat} {x : Scrubber} {given : List Nat}
    (known : f.machines.look m = some x) (once : (x.current :: x.ahead).Nodup) (stops : StopsAt x j i c)
    (withdraws : completesAt x i = true → x.withdrawal ≠ none) (classes : f.notices.keys = List.range Config.classCount)
    (beyond : ∀ n ∈ given, n ∉ (x.current :: x.ahead).take i) :
    let g := stopGround k f m x j given
    OthersKept m f g ∧ SameWaiters f g ∧ g.notices.keys = List.range Config.classCount ∧
      (i = 0 → g.notices = f.notices) ∧
      (∀ n, g.cells.look n = (f.cells.look n).map fun w =>
        if n ∈ given then { w with occ := givenUp k w }
        else if n ∈ (x.current :: x.ahead).take i then leftCell k ((x.active.map fun a => a.leg.flow).getD 0) w else w) ∧
      ∃ ld st, g.machines.look m = some (stopped x ld st c i (completesAt x i)) ∧
        (x.state ≠ .lost → st ≠ .lost) ∧ (x.state ≠ .lost → x.state ≠ .waiting → Rests x.state st) := by
  obtain ⟨others, waiters, keys, still, cells, ld, st, as, p, own, found, rests⟩ :=
    stop_arrival (k := k) known once stops withdraws classes
  unfold stopGround
  generalize stopArrival k f m x j = b at others waiters keys still cells own ⊢
  obtain ⟨-, notices, -⟩ := releases_lines_quiet k m given b
  have written := lanesWritten_releases k m given b
  obtain ⟨ld', own'⟩ := written.own own
  have clears := acts_modSettled k (given.foldl (Floor.release k m) b) m fun y => { y with ahead := [] }
  have last := clears.own own'
  rw [settle_eq, if_neg fun has => has.2 rfl] at last
  refine ⟨othersKept_trans others (othersKept_trans written.others clears.others),
    waiters.trans ((sameWaiters_releases k m given b).trans (.of_eq rfl rfl)), ?_, fun zero => ?_, fun n => ?_,
    ld', st, last, found, rests⟩
  · exact (congrArg Table.keys notices).trans keys
  · exact notices.trans (by rw [still zero])
  · refine (releases_look k m given b n).trans ?_
    rw [cells n, Option.map_map]
    refine congrArg (fun h => Option.map h (f.cells.look n)) (funext fun w => ?_)
    by_cases here : n ∈ given
    · simp [here, beyond n here]
    · simp [here]

theorem mem_ascending {n : Nat} {xs : List Nat} : n ∈ ascending xs ↔ n < Config.cellCount ∧ n ∈ xs := by
  unfold ascending
  rw [List.mem_filter, List.mem_range, List.contains_iff_mem]

/-- R131, R132: the stop short of embargo. -/
theorem stopAt_open {k : Control} {f : Floor} {m i c : Nat} {j : Option Nat} {x : Scrubber} {cancel : Bool} {z : Cell}
    (stops : StopsAt x j i c) (there : (stopArrival k f m x j).cells.look c = some z) (open' : z.embargo = 0) :
    let given := ascending ((x.current :: x.ahead).drop (i + 1))
    ∃ cs, f.stopAt k m x cancel c j =
      ((stopGround k f m x j given).settleLegs k m cancel false).offerReleased k cs := by
  intro given
  rcases stops with ⟨rfl, rfl, -⟩ | ⟨p, rfl, rfl, -⟩
  · have there : f.cells.look c = some z := there
    refine ⟨[] ++ given, ?_⟩
    unfold Floor.stopAt
    simp only [there, Option.map_some, open', Option.getD_some, ne_eq, not_true_eq_false, decide_false, Bool.false_and,
      Bool.false_eq_true, if_false, Option.map_none, Option.getD_none, Bool.not_false, List.filter_true]
    rfl
  · have there : (f.acceptArrival k m x p).cells.look c = some z := there
    refine ⟨x.leftBehind p ++ given, ?_⟩
    unfold Floor.stopAt
    simp only [there, Option.map_some, open', Option.getD_some, ne_eq, not_true_eq_false, decide_false, Bool.false_and,
      Bool.false_eq_true, if_false, Option.map_none, Option.getD_none, Bool.not_false, List.filter_true]
    rfl

/-- R130: the stop cell of an ACK. -/
theorem ackWithdraw_stops {k : Control} {f : Floor} {m c : Nat} {cancel : Bool} {x : Scrubber}
    (known : f.machines.look m = some x) (once : (x.current :: x.ahead).Nodup) (inside : c ∈ x.current :: x.ahead) :
    ∃ j, StopsAt x j ((x.current :: x.ahead).idxOf c) c ∧ f.ackWithdraw k m cancel c = f.stopAt k m x cancel c j := by
  obtain ⟨fresh, unique⟩ := List.nodup_cons.1 once
  unfold Floor.ackWithdraw
  simp only [known]
  by_cases here : c = x.current
  · subst here
    have off : x.aheadPos x.current = none := by
      unfold Scrubber.aheadPos
      rw [List.findIdx?_eq_none_iff]
      intro a listed
      exact decide_eq_false fun same => fresh (same ▸ listed)
    refine ⟨none, .inl ⟨rfl, List.idxOf_cons_self, rfl⟩, ?_⟩
    rw [off]
    exact if_pos rfl
  · have listed : c ∈ x.ahead := (List.mem_cons.1 inside).resolve_left here
    have entry : x.ahead[x.ahead.idxOf c]? = some c := List.getElem?_idxOf listed
    refine ⟨some (x.ahead.idxOf c), .inr ⟨_, rfl, List.idxOf_cons_ne _ (Ne.symm here), entry⟩, ?_⟩
    rw [aheadPos_of_nodup unique entry]

end Sys2Proof.Laws
end

section
/-! ## The acknowledgement of a WITHDRAW: what it leaves -/

namespace Sys2Proof.Laws

open Sys2Proof Sys2Proof.Machine Sys2Proof.Safety

-- One theorem at a time, as in the tests above: side by side their threads' stacks take the memory.
set_option Elab.async false

/-! ### Legs that may follow -/

theorem legMode_recalling (k : Control) :
    k.legMode = .recalling ↔ k.mode = .recalling ∨ k.mode = .evacuation ∧ k.saved = some .recalling := by
  unfold Control.legMode
  cases mode : k.mode <;> cases saved : k.saved <;> simp
  next v => cases v <;> simp

/-- R77: the staged leg may follow. -/
theorem promotable_iff (leg : Leg) (k : Control) (x : Scrubber) : leg.promotable k x = true ↔
    leg.homing = true ∨ ¬ (k.mode = .recalling ∨ k.mode = .evacuation ∧ k.saved = some .recalling) ∧ x.low = false := by
  unfold Leg.promotable Leg.heldByRecall
  rw [← legMode_recalling]
  cases leg.homing <;> cases x.low <;> simp

/-- R77: the staged leg is held back. -/
theorem promotable_eq_false (leg : Leg) (k : Control) (x : Scrubber) : leg.promotable k x = false ↔
    (k.mode = .recalling ∨ k.mode = .evacuation ∧ k.saved = some .recalling) ∧ leg.homing = false ∨
      x.low = true ∧ leg.homing = false := by
  unfold Leg.promotable Leg.heldByRecall
  rw [← legMode_recalling]
  cases leg.homing <;> cases x.low <;> simp

/-! ### Withdrawals -/

/-- R132: a WITHDRAW is queued. -/
theorem queuedWithdraw_find (x : Scrubber) :
    x.queuedWithdraw = none ↔ (x.queue.find? fun o => decide (o.kind = 4)) = none := by
  rw [queuedWithdraw_eq_none, List.find?_eq_none]
  simp only [decide_eq_true_eq]

theorem continued_isNone {x : Scrubber} {v : Option Withdrawal} (pending : v ≠ none) :
    (continued x v).isNone = true ↔ x.queuedWithdraw = none := by
  obtain ⟨w, rfl⟩ := Option.ne_none_iff_exists'.1 pending
  unfold continued
  cases x.queuedWithdraw <;> simp

/-! ### What settling the legs makes of the record -/

/-- R132, R81, R77: the record `u` and the causes that settling the legs leaves, from the record `w` at the stop. -/
def LegsSettled (k : Control) (m : Nat) (cancel : Bool) (w u : Scrubber) (f g : Floor) : Prop :=
  u = { w with
    withdrawal := continued w (w.withdrawal.map fun v => { v with deferred := !cancel && v.deferred })
    progress := none, queue := u.queue, active := u.active, staged := u.staged, state := u.state } ∧
  (cancel = true → u.queue = w.queue ∧ u.active = none ∧ u.staged = none ∧ u.state = w.state.toIdle ∧
    (w.active ≠ none ∨ w.staged ≠ none → ∃ n, g.notices.look 7 = some n ∧ n.pending = true ∧ n.last = some m)) ∧
  (cancel = false → (w.withdrawal.any fun v => v.deferred) = false ∨ w.queuedWithdraw ≠ none →
    u.queue = w.queue ∧ u.active = w.active ∧ u.staged = w.staged ∧ u.state = w.afterKeep ∧ g.notices = f.notices) ∧
  (cancel = false → (w.withdrawal.any fun v => v.deferred) = true → w.queuedWithdraw = none →
    ((∀ leg, w.staged = some leg → leg.promotable k w = false) →
      u.active = w.active ∧ u.staged = w.staged ∧ u.state = w.afterKeep.toIdle ∧
        ∃ n, g.notices.look 8 = some n ∧ n.pending = true ∧ n.last = some m) ∧
    ∀ leg, w.staged = some leg → leg.promotable k w = true →
      u.active = some ⟨leg, 0⟩ ∧ u.staged = none ∧ Order.leg leg.tag leg.flow leg.homing leg.cells ∈ u.queue ∧
        ∃ n, g.notices.look 9 = some n ∧ n.pending = true ∧ n.last = some m)

theorem afterKeep_ne_lost {w : Scrubber} (found : w.state ≠ .lost) : w.afterKeep ≠ .lost := by
  unfold Scrubber.afterKeep
  split
  · split <;> exact MState.noConfusion
  · exact found

theorem settleLegs_outcome {k : Control} {f : Floor} {m : Nat} {w : Scrubber} {cancel : Bool} {c : Bool} {r : Option Nat}
    (known : f.machines.look m = some w) (behind : w.ahead = [])
    (classes : f.notices.keys = List.range Config.classCount) (found : w.state ≠ .lost)
    (out : w.outstanding = some (.withdraw c r)) :
    ∃ u, OthersKept m f (f.settleLegs k m cancel false) ∧ GroundKept f (f.settleLegs k m cancel false) ∧
      (f.settleLegs k m cancel false).machines.look m = some u ∧
      LegsSettled k m cancel w u f (f.settleLegs k m cancel false) := by
  cases cancel with
  | true =>
    obtain ⟨others, ground, own, notice⟩ := settleLegs_discards (k := k) (cancel := true) (embargoed := false) known behind
      classes (.inl rfl)
    exact ⟨_, others, ground, own, rfl, fun _ => ⟨rfl, rfl, rfl, rfl, notice⟩, fun no => Bool.noConfusion no,
      fun no => Bool.noConfusion no⟩
  | false =>
    have same : (w.withdrawal.map fun v => { v with deferred := !false && v.deferred }) = w.withdrawal := by
      cases w.withdrawal <;> rfl
    obtain ⟨g, others, ground, notices, own, whole⟩ := settleLegs_keeps (k := k) known behind
    by_cases follows : (w.withdrawal.any fun v => v.deferred) = true ∧ w.queuedWithdraw = none
    · obtain ⟨deferred, free⟩ := follows
      have pending : w.withdrawal ≠ none := fun none => by rw [none] at deferred; exact Bool.noConfusion deferred
      rw [deferred, (continued_isNone pending).2 free] at whole
      have decided : f.settleLegs k m false false = g.decidePromotion k m := whole
      have keys : g.notices.keys = List.range Config.classCount := (congrArg Table.keys notices).trans classes
      rw [decided]
      have ground' := ground.trans (groundKept_decidePromotion k g m)
      by_cases may : ∃ leg, w.staged = some leg ∧ leg.promotable k w = true
      · obtain ⟨leg, staged, may⟩ := may
        obtain ⟨others', own', notice⟩ := decidePromotion_promotes (k := k) own keys staged may
        have listed : Order.leg leg.tag leg.flow leg.homing leg.cells ∈
            (ordered (.leg leg.tag leg.flow leg.homing leg.cells)
              { legsKeptRecord w with active := some ⟨leg, 0⟩, staged := none }).queue :=
          mem_queue_of_accepts (p := .withdraw c r)
            ⟨afterKeep_ne_lost found, fun q _ two => absurd two (by simp [Order.kind])⟩ (by simp [Order.kind]) out (by simp)
        have stays := ordered_outstanding (o := .leg leg.tag leg.flow leg.homing leg.cells)
          (x := { legsKeptRecord w with active := some ⟨leg, 0⟩, staged := none }) out
        obtain ⟨q, out', record⟩ := ordered_eq (.leg leg.tag leg.flow leg.homing leg.cells)
          { legsKeptRecord w with active := some ⟨leg, 0⟩, staged := none }
        rw [record] at own' listed stays
        obtain rfl : out' = _ := stays
        refine ⟨_, othersKept_trans others others', ground', own', ?_, fun no => Bool.noConfusion no, fun _ keeps => ?_,
          fun _ _ _ => ⟨fun held => ?_, fun leg' staged' _ => ?_⟩⟩
        · rw [same, ← out]
          rfl
        · exact absurd keeps (by simp [deferred, free])
        · rw [held leg staged] at may
          exact Bool.noConfusion may
        · cases staged.symm.trans staged'
          exact ⟨rfl, rfl, listed, notice⟩
      · have held : ∀ leg, w.staged = some leg → leg.promotable k w = false := fun leg staged =>
          Bool.eq_false_iff.2 fun open' => may ⟨leg, staged, open'⟩
        obtain ⟨others', own', notice⟩ := decidePromotion_ends (k := k) own behind keys held
        refine ⟨_, othersKept_trans others others', ground', own', ?_, fun no => Bool.noConfusion no, fun _ keeps => ?_,
          fun _ _ _ => ⟨fun _ => ⟨rfl, rfl, rfl, notice⟩, fun leg staged open' => absurd ⟨leg, staged, open'⟩ may⟩⟩
        · rw [same]
          rfl
        · exact absurd keeps (by simp [deferred, free])
    · have decided : f.settleLegs k m false false = g := by
        rw [whole]
        refine if_neg fun both => follows ?_
        obtain ⟨deferred, ended⟩ := Bool.and_eq_true_iff.1 both
        have pending : w.withdrawal ≠ none := fun none => by rw [none] at deferred; exact Bool.noConfusion deferred
        exact ⟨deferred, (continued_isNone pending).1 ended⟩
      rw [decided]
      refine ⟨_, others, ground, own, ?_, fun no => Bool.noConfusion no, fun _ _ => ⟨rfl, rfl, rfl, rfl, notices⟩,
        fun _ deferred free => absurd ⟨deferred, free⟩ follows⟩
      rw [same]
      rfl

/-! ### A stop short of embargo -/

theorem nextOrder_floor (g : Floor) (m : Nat) : ((g.clearOutstanding m).deliver m).cells = g.cells ∧
    ((g.clearOutstanding m).deliver m).lanes = g.lanes ∧ ((g.clearOutstanding m).deliver m).notices = g.notices := by
  simp

/-- R131, R132: the record at the stop with its legs settled, as `LegsSettled` has it, and the cells behind and beyond. -/
theorem ack_stops {k : Control} {f : Floor} {m c : Nat} {x : Scrubber} {cancel e : Bool} {r : Option Nat} {z : Cell}
    (nobody : NobodyWaits f) (classes : f.notices.keys = List.range Config.classCount)
    (within : f.cells.wf Config.cellCount = true) (known : f.machines.look m = some x)
    (found : x.state ≠ .lost) (out : x.outstanding = some (.withdraw e r)) (once : (x.current :: x.ahead).Nodup)
    (inside : c ∈ x.current :: x.ahead) (cell : f.cells.look c = some z) (open' : z.embargo = 0)
    (withdraws : completesAt x ((x.current :: x.ahead).idxOf c) = true → x.withdrawal ≠ none) :
    let i := (x.current :: x.ahead).idxOf c
    let g := ((f.ackWithdraw k m cancel c).clearOutstanding m).deliver m
    OthersKept m f g ∧
      (∀ n w, f.cells.look n = some w → g.cells.look n = some
        (if n ∈ (x.current :: x.ahead).drop (i + 1) then { w with occ := givenUp k w }
         else if n ∈ (x.current :: x.ahead).take i then leftCell k ((x.active.map fun a => a.leg.flow).getD 0) w else w)) ∧
      ∃ ld st u f₀, g.machines.look m = some (nextOrder u) ∧ (i = 0 → f₀.notices = f.notices) ∧
        (x.state ≠ .waiting → Rests x.state st) ∧
        LegsSettled k m cancel (stopped x ld st c i (completesAt x i)) u f₀ g := by
  intro i g
  obtain ⟨j, stops, acked⟩ := ackWithdraw_stops (k := k) (cancel := cancel) known once inside
  have apart : List.Disjoint ((x.current :: x.ahead).take i) ((x.current :: x.ahead).drop (i + 1)) :=
    List.disjoint_take_drop once (Nat.le_succ i)
  have ahead : c ∈ (x.current :: x.ahead).drop i := by
    rw [List.mem_iff_getElem?]
    exact ⟨0, by rw [List.getElem?_drop]; exact List.getElem?_idxOf inside⟩
  have there : (stopArrival k f m x j).cells.look c = some z := by
    obtain ⟨-, -, -, -, cells, -⟩ := stop_arrival (k := k) known once stops withdraws classes
    rw [cells, cell, Option.map_some, if_neg fun behind => List.disjoint_take_drop once Nat.le.refl behind ahead]
  obtain ⟨cs, stop⟩ := stopAt_open (cancel := cancel) stops there open'
  have beyond : ∀ n ∈ ascending ((x.current :: x.ahead).drop (i + 1)), n ∉ (x.current :: x.ahead).take i :=
    fun n given behind => apart behind (mem_ascending.1 given).2
  obtain ⟨others, waiters, keys, still, cells, ld, st, own, found', rests⟩ :=
    stopGround_spec (k := k) known once stops withdraws classes beyond
  have whole : f.ackWithdraw k m cancel c = ((stopGround k f m x j (ascending ((x.current :: x.ahead).drop (i + 1)))).settleLegs
      k m cancel false).offerReleased k cs := acked.trans stop
  generalize stopGround k f m x j (ascending ((x.current :: x.ahead).drop (i + 1))) = b at others waiters keys still cells own whole
  obtain ⟨u, others', ground, own', settled⟩ := settleLegs_outcome (k := k) (cancel := cancel) own rfl keys (found' found) out
  rw [offerReleased_nobody (ground.nobody (waiters.nobody nobody))] at whole
  have next := acts_nextOrder (b.settleLegs k m cancel false) m
  obtain ⟨cells', -, notices'⟩ := nextOrder_floor (b.settleLegs k m cancel false) m
  have same : g = ((b.settleLegs k m cancel false).clearOutstanding m).deliver m := by
    show ((f.ackWithdraw k m cancel c).clearOutstanding m).deliver m = _
    rw [whole]
  rw [same]
  refine ⟨othersKept_trans (othersKept_trans others others') next.others, fun n w look => ?_, ld, st, u, b, next.own own',
    still, rests found, ?_⟩
  · have small : n < Config.cellCount := ((Table.wf_iff _ _).1 within).2 n (Table.mem_keys_of_look look)
    have both : n ∈ ascending ((x.current :: x.ahead).drop (i + 1)) ↔ n ∈ (x.current :: x.ahead).drop (i + 1) :=
      mem_ascending.trans (and_iff_right small)
    rw [cells', ground.1, cells, look, Option.map_some]
    simp only [both]
    rfl
  · unfold LegsSettled
    rw [notices']
    exact settled

end Sys2Proof.Laws
end

section
/-! ## The acknowledgement of a WITHDRAW: off the route, and under embargo -/

namespace Sys2Proof.Laws

open Sys2Proof Sys2Proof.Machine Sys2Proof.Safety

-- One theorem at a time, as in the tests above: side by side their threads' stacks take the memory.
set_option Elab.async false

/-! ### Off the route -/

theorem find_queueWith_other {q : List Order} {o : Order} {kind : Nat} (other : o.kind ≠ kind) :
    ((queueWith q o).find? fun p => decide (p.kind = kind)) = q.find? fun p => decide (p.kind = kind) := by
  unfold queueWith
  split
  · rw [List.find?_map]
    have test : (fun p : Order => decide (p.kind = kind)) ∘ (fun p => if p.kind = o.kind then p.merge o else p) =
        fun p => decide (p.kind = kind) := by
      funext p
      simp only [Function.comp_apply]
      split
      · next same => rw [order_kind_merge p o same]
      · rfl
    rw [test]
    cases found : q.find? fun p => decide (p.kind = kind) with
    | none => rfl
    | some p =>
      have here : p.kind = kind := by simpa using List.find?_some found
      rw [Option.map_some, if_neg fun same => other (same.symm.trans here)]
  · rw [List.find?_append]
    simp [other]

/-- R132: orders of other kinds leave the queued WITHDRAW. -/
theorem queuedWithdraw_ordered {x : Scrubber} {o p : Order} (out : x.outstanding = some p) (other : o.kind ≠ 4) :
    (ordered o x).queuedWithdraw = x.queuedWithdraw := by
  have queue : ((ordered o x).queue.find? fun p => decide (p.kind = 4)) = x.queue.find? fun p => decide (p.kind = 4) := by
    unfold ordered
    split
    · rfl
    · unfold delivered
      simp only [out]
      exact find_queueWith_other other
  unfold Scrubber.queuedWithdraw
  rw [queue]

/-- R115: what an added halt leaves of the record. -/
def Halted (reason : HaltReason) (x y : Scrubber) : Prop :=
  y = { x with
    halts := x.halts.write true reason, state := y.state, request := y.request, progress := y.progress
    queue := y.queue, outstanding := y.outstanding } ∧ y.queuedWithdraw = x.queuedWithdraw

theorem leaveOrdinary_spec {f : Floor} {m : Nat} {x : Scrubber} (known : f.machines.look m = some x) :
    OthersKept m f (f.leaveOrdinary m) ∧ ∃ p, (f.leaveOrdinary m).machines.look m = some { x with request := p } := by
  have leaves := acts_leaveWait f m
  unfold Floor.leaveOrdinary
  split
  · exact ⟨leaves.others, none, leaves.own known⟩
  · exact ⟨othersKept_refl m f, x.request, known⟩

theorem addHalt_spec {k : Control} {reason : HaltReason} {f : Floor} {m : Nat} {x : Scrubber} {p : Order}
    (known : f.machines.look m = some x) (out : x.outstanding = some p) :
    OthersKept m f (f.addHalt k reason m) ∧ ∃ y, (f.addHalt k reason m).machines.look m = some y ∧ Halted reason x y := by
  have writes := acts_modMachine f m fun y => { y with halts := y.halts.write true reason }
  unfold Floor.addHalt
  simp only [known]
  split
  · next has =>
    have same : x.halts.write true reason = x.halts := by
      cases reason <;> simp only [Halts.has] at has <;> simp only [Halts.write, ← has]
    exact ⟨othersKept_refl m f, x, known, by rw [same], rfl⟩
  · split
    · let g := f.modMachine m fun y => { y with halts := y.halts.write true reason }
      have rests : ∃ h y, h = (if x.state = .lost ∨ x.state = .stoodDown then g
            else (g.leaveOrdinary m).modSettled k m fun y => { y with state := .halted }) ∧ OthersKept m f h ∧
          h.machines.look m = some y ∧ y = { x with
            halts := x.halts.write true reason, state := y.state, request := y.request, progress := y.progress } := by
        by_cases away : x.state = .lost ∨ x.state = .stoodDown
        · exact ⟨g, _, (if_pos away).symm, writes.others, writes.own known, rfl⟩
        · obtain ⟨others, p, own⟩ := leaveOrdinary_spec (writes.own known)
          have settles := acts_modSettled k (g.leaveOrdinary m) m fun y => { y with state := .halted }
          have last := settles.own own
          rw [settle_eq] at last
          exact ⟨_, _, (if_neg away).symm, othersKept_trans (othersKept_trans writes.others others) settles.others, last, rfl⟩
      obtain ⟨h, y, floor, others, own, record⟩ := rests
      rw [← floor]
      have queue : y.queuedWithdraw = x.queuedWithdraw := by rw [record]; rfl
      split
      · exact ⟨others, y, own, by rw [record], queue⟩
      · have orders := acts_order h m (.motion false)
        have out' : y.outstanding = some p := by rw [record]; exact out
        refine ⟨othersKept_trans others orders.others, _, orders.own own, ?_,
          (queuedWithdraw_ordered out' (by simp [Order.kind])).trans queue⟩
        rw [ordered_self, record]
    · exact ⟨writes.others, _, writes.own known, rfl, rfl⟩

/-- R121: an arrival off the route, under an outstanding order. -/
theorem unexpected_spec {k : Control} {f : Floor} {m c : Nat} {x : Scrubber} {p : Order}
    (known : f.machines.look m = some x) (out : x.outstanding = some p) :
    OthersKept m f (f.unexpected k m c) ∧ ∃ y, (f.unexpected k m c).machines.look m = some y ∧
      Halted .position { x with reported := some (reportedCell c) } y := by
  have reports := acts_modMachine f m fun x => { x with reported := some (reportedCell c) }
  obtain ⟨others, y, own, halted⟩ := addHalt_spec (k := k) (reason := .position) (reports.own known) out
  unfold Floor.unexpected
  refine ⟨othersKept_trans (othersKept_trans reports.others others) (othersKept_raise _ _ _ _ _ _), y, ?_, halted⟩
  rw [raise_machines]
  exact own

/-! ### Under embargo -/

/-- R133, R33: machine `m`, whose record stands as `v`, waits for its refuge. -/
theorem waitForRefuge_spec {k : Control} {f : Floor} {m r : Nat} {occ : Occupancy} {v : Scrubber}
    (known : f.machines.look m = some v) :
    OthersKept m f (f.waitForRefuge k m r occ) ∧
      (f.waitForRefuge k m r occ).cells = (f.joinList m true (.cell r)).cells ∧
      (f.waitForRefuge k m r occ).lanes = f.lanes ∧ (f.waitForRefuge k m r occ).machines.look m =
        some (ordered (.answer (.wait (refugeReason k.now m r occ))) { v with request := some (.refuge r) }) := by
  have joins := (Acts.of_machines (m := m) (joinList_machines f m true (.cell r))).trans
    (acts_modMachine _ m fun x => { x with request := some (.refuge r) })
  let b := (f.joinList m true (.cell r)).modMachine m fun x => { x with request := some (.refuge r) }
  have warned : ∃ g, g = (if b.closesRing m (.cell r) then b.raise k .cycle (some m) (some .refugeRing) else b) ∧
      g.machines = b.machines ∧ g.cells = b.cells ∧ g.lanes = b.lanes := by
    by_cases ring : b.closesRing m (.cell r) = true
    · exact ⟨_, (if_pos ring).symm, by simp⟩
    · exact ⟨b, (if_neg ring).symm, rfl, rfl, rfl⟩
  obtain ⟨g, floor, machines, cells, lanes⟩ := warned
  have whole : f.waitForRefuge k m r occ = g.order m (.answer (.wait (refugeReason k.now m r occ))) := by
    rw [floor]
    rfl
  have acts := (joins.trans (Acts.of_machines (m := m) machines)).trans
    (acts_order g m (.answer (.wait (refugeReason k.now m r occ))))
  rw [whole]
  exact ⟨acts.others, (order_cells _ _ _).trans cells, (order_lanes _ _ _).trans lanes, acts.own known⟩

/-- R133: the refuge kept, granted or waited for, by a machine whose WITHDRAW is outstanding. -/
theorem settleRefuge_spec {k : Control} {f : Floor} {m r : Nat} {kept e : Bool} {named : Option Nat} {v : Scrubber} {q : Cell}
    (known : f.machines.look m = some v) (cell : f.cells.look r = some q) (alone : q.waiters = []) (found : v.state ≠ .lost)
    (free : v.refuge = none) (idle : v.request = none) (out : v.outstanding = some (.withdraw e named)) :
    let g := f.settleRefuge k m r kept
    OthersKept m f g ∧ (∀ n, n ≠ r → g.cells.look n = f.cells.look n) ∧
      (∀ l, (g.lanes.look l).map (fun d => d.waiters) = (f.lanes.look l).map fun d => d.waiters) ∧
      ∃ ld u, g.machines.look m = some u ∧
        u = { v with laneDirs := ld, refuge := u.refuge, request := u.request, queue := u.queue } ∧
        (kept = true → g.cells.look r = some q ∧ u.refuge = some r ∧ u.request = none ∧
          Order.answer (.grant [r] true) ∈ u.queue) ∧
        (kept = false → q.occ = .free → q.embargo = 0 → g.cells.look r = some { q with occ := .held m } ∧
          u.refuge = some r ∧ u.request = none ∧ Order.answer (.grant [r] true) ∈ u.queue) ∧
        (kept = false → q.occ ≠ .free ∨ q.embargo ≠ 0 → g.cells.look r = some { q with waiters := [⟨m, true⟩] } ∧
          u.refuge = none ∧ u.request = some (.refuge r) ∧
          Order.answer (.wait (refugeReason k.now m r q.occ)) ∈ u.queue) := by
  intro g
  cases kept with
  | true =>
    have whole : g = (f.modMachine m fun x => { x with refuge := some r }).order m (.answer (.grant [r] true)) := by
      show f.settleRefuge k m r true = _
      unfold Floor.settleRefuge
      simp only [cell, if_true]
    have grants := (acts_modMachine f m fun x => { x with refuge := some r }).trans (acts_order _ m (.answer (.grant [r] true)))
    have listed : Order.answer (.grant [r] true) ∈ (ordered (.answer (.grant [r] true)) { v with refuge := some r }).queue :=
      mem_queue_of_accepts (p := .withdraw e named) ⟨found, fun c held _ => by cases held; rfl⟩ (by simp [Order.kind]) out (by simp)
    rw [whole]
    have record := ordered_queue_only (o := .answer (.grant [r] true)) (x := { v with refuge := some r }) out
    refine ⟨grants.others, fun n _ => by rw [order_cells]; rfl, fun l => by rw [order_lanes]; rfl, v.laneDirs, _,
      grants.own known, ?_, fun _ => ⟨by rw [order_cells]; exact cell, ?_, ?_, listed⟩, fun no => Bool.noConfusion no,
      fun no => Bool.noConfusion no⟩
    all_goals rw [Function.comp_apply, record]
    exact idle
  | false =>
    by_cases available : q.occ = .free ∧ q.embargo = 0
    · have whole : g = f.grantRefuge m r := by
        show f.settleRefuge k m r false = _
        unfold Floor.settleRefuge
        simp only [cell, Bool.false_eq_true, if_false]
        exact if_pos available
      obtain ⟨others, -, cells, ld, u, own, hand, record, stays⟩ := grantRefuge_spec (c := r) known found
      have out' := stays _ out
      have listed : Order.answer (.grant [r] true) ∈ u.queue := by
        rcases hand with queued | now
        · exact queued
        · rw [out'] at now; cases now
      have lanes (l : Nat) : ((f.grantRefuge m r).lanes.look l).map (fun d => d.waiters) =
          (f.lanes.look l).map fun d => d.waiters := by
        unfold Floor.grantRefuge
        rw [order_lanes, Floor.modMachine_lanes]
        exact ((sameWaiters_setOcc f r (.held m)).trans (sameWaiters_place _ m r)).2 l
      rw [whole]
      refine ⟨others, fun n other => ?_, lanes, ld, u, own, ?_, fun no => Bool.noConfusion no, fun _ _ _ =>
        ⟨?_, by rw [record], by rw [record]; exact idle, listed⟩, fun _ bars => ?_⟩
      · rw [cells]
        cases f.cells.look n <;> simp [other]
      · rw [out', ← out] at record
        rw [record]
      · rw [cells, cell, Option.map_some, if_pos rfl]
      · exact absurd available (by tauto)
    · have whole : g = f.waitForRefuge k m r q.occ := by
        show f.settleRefuge k m r false = _
        unfold Floor.settleRefuge
        simp only [cell, Bool.false_eq_true, if_false]
        exact if_neg available
      obtain ⟨others, cells, lanes, own⟩ := waitForRefuge_spec (k := k) (r := r) (occ := q.occ) known
      have record := ordered_queue_only (o := .answer (.wait (refugeReason k.now m r q.occ)))
        (x := { v with request := some (.refuge r) }) out
      have listed : Order.answer (.wait (refugeReason k.now m r q.occ)) ∈
          (ordered (.answer (.wait (refugeReason k.now m r q.occ))) { v with request := some (.refuge r) }).queue :=
        mem_queue_of_accepts (p := .withdraw e named)
          ⟨found, fun c held _ => absurd (held.symm.trans free) (Option.some_ne_none c)⟩ (by simp [Order.kind]) out (by simp)
      rw [whole]
      refine ⟨others, fun n other => ?_, fun l => by rw [lanes], v.laneDirs, _, own, ?_, fun no => Bool.noConfusion no,
        fun _ free' open' => absurd ⟨free', open'⟩ available, fun _ _ => ⟨?_, ?_, ?_, listed⟩⟩
      · rw [cells, Floor.joinList, Table.look_upd_ne _ other]
      · rw [record]
      · rw [cells, Floor.joinList, Table.look_upd_self, cell, Option.map_some, alone]
        rfl
      · rw [record]
        exact free
      · rw [record]

/-- R37, R60: cells and lanes that nobody waits for are offered to nobody. -/
theorem offerReleased_quiet {k : Control} {f : Floor} {cs : List Nat}
    (cells : ∀ c ∈ cs, ∀ z, f.cells.look c = some z → z.waiters = [])
    (lanes : ∀ l r, f.lanes.look l = some r → r.waiters = []) : f.offerReleased k cs = f := by
  have offered : f.offerCells k cs = f := by
    unfold Floor.offerCells
    induction cs with
    | nil => rfl
    | cons c cs ih =>
      have first : f.offerCell k c = f := by
        cases known : f.cells.look c with
        | none => unfold Floor.offerCell; rw [known]
        | some z => exact offerCell_unavailable known (.inr (.inr (cells c List.mem_cons_self z known)))
      rw [List.foldl_cons, first]
      exact ih fun d listed => cells d (List.mem_cons_of_mem c listed)
  unfold Floor.offerReleased
  rw [offered]
  unfold Floor.offerLanes
  generalize ((List.range Config.laneCount).filter _) = ls
  induction ls with
  | nil => rfl
  | cons l ls ih =>
    have first : f.offerLane k l = f := by
      unfold Floor.offerLane
      cases known : f.lanes.look l with
      | none => rfl
      | some r => exact if_neg fun waits => waits.2.1 (lanes l r known)
    rw [List.foldl_cons, first, ih]

/-- R131 to R133: the stop on an embargoed current cell, for a machine with no refuge in hand. -/
theorem stopAt_embargoed {k : Control} {f : Floor} {m r : Nat} {x : Scrubber} {cancel : Bool} {z : Cell}
    (there : f.cells.look x.current = some z) (embargo : z.embargo ≠ 0) (names : z.refuge = some r)
    (free : x.refuge = none) (idle : x.request = none) :
    let given := (ascending x.ahead).filter fun c => !(x.ahead.contains r && decide (some r = some c))
    f.stopAt k m x cancel x.current none =
      (((stopGround k f m x none given).settleLegs k m cancel true).settleRefuge k m r (x.ahead.contains r)).offerReleased k
        ([] ++ given) := by
  have empty : x.refugeInHand = false := by
    unfold Scrubber.refugeInHand Scrubber.refugeWait
    rw [free, idle]
    rfl
  intro given
  unfold Floor.stopAt
  simp only [there, Option.map_some, embargo, Option.getD_some, ne_eq, not_false_eq_true, decide_true, empty, Bool.not_false,
    Bool.and_self, if_true, Option.bind_some, names]
  rfl

/-- R133: what the ACK leaves where the machine stops on an embargoed current cell. -/
theorem ack_embargoed {k : Control} {f : Floor} {m r : Nat} {x : Scrubber} {cancel e : Bool} {named : Option Nat} {z q : Cell}
    (nobody : NobodyWaits f) (classes : f.notices.keys = List.range Config.classCount)
    (within : f.cells.wf Config.cellCount = true) (known : f.machines.look m = some x) (found : x.state ≠ .lost)
    (out : x.outstanding = some (.withdraw e named)) (none' : ∀ o ∈ x.queue, o.kind ≠ 4)
    (once : (x.current :: x.ahead).Nodup) (free : x.refuge = none) (idle : x.request = none)
    (cell : f.cells.look x.current = some z) (embargo : z.embargo ≠ 0) (names : z.refuge = some r)
    (refuge : f.cells.look r = some q) :
    let g := ((f.ackWithdraw k m cancel x.current).clearOutstanding m).deliver m
    OthersKept m f g ∧
      (∀ n w, f.cells.look n = some w → n ≠ r → g.cells.look n = some
        { w with occ := if n ∈ x.ahead then givenUp k w else w.occ }) ∧
      ∃ u, g.machines.look m = some (nextOrder u) ∧ u.current = x.current ∧ u.ahead = [] ∧ u.active = none ∧ u.staged = none ∧
        u.withdrawal = none ∧
        (r ∈ x.ahead → g.cells.look r = some q ∧ u.refuge = some r ∧ u.request = none ∧
          Order.answer (.grant [r] true) ∈ u.queue) ∧
        (r ∉ x.ahead → q.occ = .free → q.embargo = 0 → g.cells.look r = some { q with occ := .held m } ∧
          u.refuge = some r ∧ u.request = none ∧ Order.answer (.grant [r] true) ∈ u.queue) ∧
        (r ∉ x.ahead → q.occ ≠ .free ∨ q.embargo ≠ 0 → g.cells.look r = some { q with waiters := [⟨m, true⟩] } ∧
          u.refuge = none ∧ u.request = some (.refuge r) ∧
          Order.answer (.wait (refugeReason k.now m r q.occ)) ∈ u.queue) := by
  intro g
  obtain ⟨fresh, unique⟩ := List.nodup_cons.1 once
  let given := (ascending x.ahead).filter fun c => !(x.ahead.contains r && decide (some r = some c))
  have still : completesAt x 0 = false := by
    unfold completesAt
    cases x.active <;> simp
  have acked : f.ackWithdraw k m cancel x.current = f.stopAt k m x cancel x.current none := by
    obtain ⟨j, stops, same⟩ := ackWithdraw_stops (k := k) (cancel := cancel) known once List.mem_cons_self
    rcases stops with ⟨rfl, -, -⟩ | ⟨p, -, index, -⟩
    · exact same
    · rw [List.idxOf_cons_self] at index
      cases index
  have stop := acked.trans (stopAt_embargoed (k := k) (m := m) (cancel := cancel) cell embargo names free idle)
  obtain ⟨others, waiters, keys, -, cells, ld, st, own, found', -⟩ := stopGround_spec (k := k) (given := given) known once
    (.inl ⟨rfl, rfl, rfl⟩) (fun no => by rw [still] at no; cases no) classes fun n _ => by simp
  rw [show (ascending x.ahead).filter (fun c => !(x.ahead.contains r && decide (some r = some c))) = given from rfl] at stop
  have away : r ∉ given := by
    intro listed
    obtain ⟨listed, kept⟩ := List.mem_filter.1 listed
    simp [(mem_ascending.1 listed).2] at kept
  have others' {n : Nat} (other : n ≠ r) (small : n < Config.cellCount) : n ∈ given ↔ n ∈ x.ahead := by
    show n ∈ (ascending x.ahead).filter _ ↔ _
    rw [List.mem_filter, mem_ascending]
    simp [Ne.symm other, small]
  clear_value given
  generalize stopGround k f m x none given = b at others waiters keys cells own stop
  obtain ⟨oL, ground, own', -⟩ := settleLegs_discards (k := k) (cancel := cancel) (embargoed := true) own rfl keys (.inr rfl)
  have ended : continued (stopped x ld st x.current 0 (completesAt x 0))
      (discarded (stopped x ld st x.current 0 (completesAt x 0))).withdrawal = none := by
    have empty : (stopped x ld st x.current 0 (completesAt x 0)).queuedWithdraw = none := (queuedWithdraw_eq_none _).2 none'
    unfold continued
    rw [empty]
  rw [ended] at own'
  have cellR : (b.settleLegs k m cancel true).cells.look r = some q := by
    rw [ground.1, cells, refuge, Option.map_some, if_neg away]
    simp
  obtain ⟨oR, cellsR, lanesR, ld', u, ownR, record, kept, grants, waits⟩ := settleRefuge_spec (k := k)
    (kept := x.ahead.contains r) own' cellR (nobody.1 r q refuge) (by exact fun lost => found' found (toIdle_lost _ lost))
    free idle out
  have quiet := ground.nobody (waiters.nobody nobody)
  generalize b.settleLegs k m cancel true = d at oL ground own' cellR oR cellsR lanesR ownR kept grants waits quiet stop
  have look {n : Nat} {w : Cell} (there : f.cells.look n = some w) (other : n ≠ r) :
      (d.settleRefuge k m r (x.ahead.contains r)).cells.look n =
        some { w with occ := if n ∈ x.ahead then givenUp k w else w.occ } := by
    have small : n < Config.cellCount := ((Table.wf_iff _ _).1 within).2 n (Table.mem_keys_of_look there)
    rw [cellsR n other, ground.1, cells, there, Option.map_some]
    by_cases beyond : n ∈ x.ahead
    · rw [if_pos ((others' other small).2 beyond), if_pos beyond]
    · rw [if_neg fun inside => beyond ((others' other small).1 inside), if_neg beyond]
      simp
  have unwaited : ∀ n ∈ ([] ++ given), ∀ w, (d.settleRefuge k m r (x.ahead.contains r)).cells.look n = some w →
      w.waiters = [] := by
    intro n inside w there
    have other : n ≠ r := by
      rintro rfl
      exact away (List.nil_append given ▸ inside)
    have known' : ∃ w', f.cells.look n = some w' := by
      have back := cellsR n other
      rw [ground.1, cells, there] at back
      cases look : f.cells.look n with
      | none => rw [look] at back; cases back
      | some w' => exact ⟨w', rfl⟩
    obtain ⟨w', known'⟩ := known'
    have same := congrArg Cell.waiters (Option.some.inj (there.symm.trans (look known' other)))
    exact same.trans (nobody.1 n w' known')
  have empty : ∀ l lane, (d.settleRefuge k m r (x.ahead.contains r)).lanes.look l = some lane → lane.waiters = [] := by
    intro l lane there
    have back := lanesR l
    rw [there] at back
    obtain ⟨lane', there', same⟩ := Option.map_eq_some_iff.1 back.symm
    exact same.symm.trans (quiet.2 l lane' there')
  rw [offerReleased_quiet unwaited empty] at stop
  have next := acts_nextOrder (d.settleRefuge k m r (x.ahead.contains r)) m
  obtain ⟨cells', -, -⟩ := nextOrder_floor (d.settleRefuge k m r (x.ahead.contains r)) m
  have same : g = ((d.settleRefuge k m r (x.ahead.contains r)).clearOutstanding m).deliver m := by
    show ((f.ackWithdraw k m cancel x.current).clearOutstanding m).deliver m = _
    rw [stop]
  rw [same, cells']
  exact ⟨othersKept_trans (othersKept_trans (othersKept_trans others oL) oR) next.others,
    fun n w there other => look there other, u, next.own ownR, (congrArg Scrubber.current record :),
    (congrArg Scrubber.ahead record :), (congrArg Scrubber.active record :), (congrArg Scrubber.staged record :),
    (congrArg Scrubber.withdrawal record :), fun inside => kept (by simpa using inside),
    fun outside => grants (by simpa using outside), fun outside => waits (by simpa using outside)⟩

/-! ### The obligation -/

/-- R132: what the queued WITHDRAW makes of the pending one. -/
theorem continued_eq (x : Scrubber) (v : Option Withdrawal) : continued x v =
    match x.queue.find? fun o => decide (o.kind = 4) with
    | some (.withdraw more refuge) => v.map fun w => { w with cancel := more, refuge := refuge }
    | _ => none := by
  unfold continued Scrubber.queuedWithdraw
  cases x.queue.find? fun o => decide (o.kind = 4) with
  | none => rfl
  | some o => cases o <;> rfl

/-- R79, R132: the state once a deferred completion ends. -/
theorem toIdle_afterKeep {a : MState} {w : Scrubber} (rests : Rests a w.state) :
    w.afterKeep.toIdle = if a = .halted ∨ a = .stoodDown then a else .idle := by
  rw [afterKeep_of_rests rests]
  split
  · next h => rcases h with rfl | rfl <;> rfl
  · split <;> rfl

/-- R81: whether a completion waits for the withdrawal, at the stop. -/
theorem stopped_deferred {x : Scrubber} {ld : Table Dir} {st : MState} {c i : Nat} {done : Bool}
    (withdraws : done = true → x.withdrawal ≠ none) :
    ((stopped x ld st c i done).withdrawal.any fun v => v.deferred) = (done || x.withdrawal.any fun w => w.deferred) := by
  unfold stopped
  cases pending : x.withdrawal with
  | none =>
    cases done
    · rfl
    · exact absurd pending (withdraws rfl)
  | some w => rfl

theorem stopped_pending {x : Scrubber} {ld : Table Dir} {st : MState} {c i : Nat} {done cancel : Bool} :
    (stopped x ld st c i done).withdrawal.map (fun v => { v with deferred := !cancel && v.deferred }) =
      x.withdrawal.map fun w => { w with deferred := !cancel && (done || x.withdrawal.any fun w => w.deferred) } := by
  unfold stopped
  cases x.withdrawal <;> rfl

/-- Settles O51: a stop on the route, off it, and under embargo. -/
theorem withdrawAcksSettleTheMachine : Obligations.WithdrawAcksSettleTheMachine := by
  refine ⟨?_, ?_⟩
  · intro slot s1 s0 decline x cancel named s turn tables nobody low high known found still out once m k c run queued goesOn
    obtain ⟨within, -, -, -, -, classes, -⟩ := tables
    have ran : run = _ := exec_ack_withdraw turn low high known found out
    refine ⟨fun off => ?_, fun inside z cell open' => ?_⟩
    · obtain ⟨fresh, beyond⟩ := not_or.1 (List.mem_cons.not.1 off)
      have whole : s.floor.ackWithdraw k m cancel c = (s.floor.unexpected k m c).settleWithdrawal m := by
        have nowhere : x.aheadPos c = none := by
          unfold Scrubber.aheadPos
          rw [List.findIdx?_eq_none_iff]
          exact fun a listed => decide_eq_false fun same => beyond (same ▸ listed)
        have there : s.floor.machines.look m = some x := known
        unfold Floor.ackWithdraw
        simp only [there, nowhere]
        exact if_neg (Ne.symm fresh)
      obtain ⟨others, y, own, record, queue⟩ := unexpected_spec (k := k) (c := c) known out
      have settles := (acts_settleWithdrawal (s.floor.unexpected k m c) m).trans (acts_nextOrder _ m)
      have ends : continued y y.withdrawal = continued x x.withdrawal := by
        unfold continued
        rw [queue, record]
        rfl
      have cell : reportedCell c = if c ≤ 511 then c else 512 := by
        unfold reportedCell
        by_cases small : c ≤ 511
        · rw [if_pos small]
          exact if_pos (Nat.lt_succ_of_le small)
        · rw [if_neg small]
          exact if_neg fun low => small (Nat.le_of_lt_succ low)
      rw [← whole] at settles
      refine ⟨_, nextOrder { y with withdrawal := continued y y.withdrawal }, ran, ⟨rfl, rfl, rfl, rfl, rfl, rfl⟩, ?_⟩
      generalize ((s.floor.ackWithdraw k m cancel c).clearOutstanding m).deliver m = g at settles
      exact ⟨othersKept_trans others settles.others, settles.own own, ends.trans (continued_eq _ _),
        (congrArg Scrubber.halts record :), (congrArg Scrubber.reported record :).trans (congrArg some cell),
        (congrArg Scrubber.current record :), (congrArg Scrubber.ahead record :), (congrArg Scrubber.active record :),
        (congrArg Scrubber.staged record :)⟩
    · intro i left beyond flow given wet completes active deferred resting recalled withdraws
      have done : completesAt x i = completes := rfl
      obtain ⟨others, cells, ld, st, u, f₀, own, noArrival, rests, record, cancelled, keeps, decides⟩ :=
        ack_stops (k := k) (cancel := cancel) nobody classes within known found out once inside cell open' withdraws
      rw [show (x.current :: x.ahead).idxOf c = i from rfl, done] at record cancelled keeps decides
      have fits := rests still
      have due : ((stopped x ld st c i completes).withdrawal.any fun v => v.deferred) = deferred :=
        stopped_deferred withdraws
      have pending : (stopped x ld st c i completes).withdrawal.map (fun v => { v with deferred := !cancel && v.deferred }) =
          x.withdrawal.map fun w => { w with deferred := !cancel && deferred } := stopped_pending
      have unqueued : (stopped x ld st c i completes).queuedWithdraw = none ↔ queued = none := queuedWithdraw_find x
      have low' (leg : Leg) : leg.promotable k (stopped x ld st c i completes) = leg.promotable k x := rfl
      rw [pending] at record
      rw [due, ne_eq, unqueued] at keeps
      rw [due, unqueued] at decides
      refine ⟨_, nextOrder u, ran, ⟨rfl, rfl, rfl, rfl, rfl, rfl⟩, ?_⟩
      generalize ((s.floor.ackWithdraw k m cancel c).clearOutstanding m).deliver m = g at others cells own cancelled keeps decides
      refine ⟨others, fun n w look => cells n w look, own, (congrArg Scrubber.current record :),
        (congrArg Scrubber.ahead record :), (congrArg Scrubber.progress record :), (congrArg Scrubber.halts record :),
        (congrArg Scrubber.refuge record :), (congrArg Scrubber.safeStops record :),
        (congrArg Scrubber.withdrawal record :).trans (continued_eq _ _), fun flagged => ?_, fun kept short => ?_,
        fun kept late ends => ?_⟩
      · obtain ⟨queue, none, none', state, notice⟩ := cancelled flagged
        exact ⟨congrArg (List.drop 1) queue, congrArg List.head? queue, none, none', state.trans (toIdle_of_rests fits), notice⟩
      · obtain ⟨queue, legs, staged, state, notices⟩ := keeps kept short
        refine ⟨congrArg (List.drop 1) queue, congrArg List.head? queue, legs, staged,
          state.trans (afterKeep_of_rests (w := stopped x ld st c i completes) fits), fun zero => notices.trans (noArrival zero)⟩
      · obtain ⟨held, follows⟩ := decides kept late ends
        refine ⟨fun bars => ?_, fun leg staged may => ?_⟩
        · obtain ⟨legs, staged, state, notice⟩ := held fun leg staged => (promotable_eq_false leg k x).2 (bars leg staged)
          exact ⟨legs, staged, state.trans (toIdle_afterKeep (w := stopped x ld st c i completes) fits), notice⟩
        · obtain ⟨legs, empty, listed, notice⟩ := follows leg staged ((promotable_iff leg k x).2 may)
          exact ⟨legs, empty, inHand_nextOrder listed, notice⟩
  · intro slot s1 s0 decline x cancel named z q r s turn tables nobody low high known found out none' once free idle m k given
      here cell embargo names other refuge
    obtain ⟨within, -, -, -, -, classes, -⟩ := tables
    have ran := exec_ack_withdraw turn low high known found out
    rw [← here] at ran
    obtain ⟨others, cells, u, own, current, ahead, active, staged, ended, kept, grants, waits⟩ :=
      ack_embargoed (k := k) (m := m) (cancel := cancel) nobody classes within known found out none' once free idle cell
        embargo names refuge
    refine ⟨_, nextOrder u, ran, ⟨rfl, rfl, rfl, rfl, rfl, rfl⟩, ?_⟩
    generalize ((s.floor.ackWithdraw k m cancel x.current).clearOutstanding m).deliver m = g at others cells own kept grants waits
    refine ⟨others, own, current, ahead, active, staged, ended, cells, fun inside => ?_, fun outside free' open' => ?_,
      fun outside bars => ?_⟩
    · obtain ⟨look, held, idle', listed⟩ := kept inside
      exact ⟨look, held, idle', inHand_nextOrder listed⟩
    · obtain ⟨look, held, idle', listed⟩ := grants outside free' open'
      exact ⟨look, held, idle', inHand_nextOrder listed⟩
    · obtain ⟨look, held, request, listed⟩ := waits outside bars
      refine ⟨look, held, request, _, inHand_nextOrder listed, fun n occ differ => ?_, fun e slow occ => ?_, fun e occ => ?_,
        fun n occ => ?_, fun occ => ?_⟩
      · rw [occ]
        exact if_neg differ
      all_goals
        rw [occ]
        rfl

end Sys2Proof.Laws
end

section
/-! ## Scenes: what the laws of holdings and waits read of a floor

A `Scene` keeps of the floor each machine's standing, legs and wait, who holds or blocks each cell, the wait lists and
the cells' places in lanes. The arbiter's, leg store's and supervisor's work is said here once as work on scenes; the
laws are then kept scene by scene, and nothing of orders, timers, lane directions, lines or notices stands in the way. -/

namespace Sys2Proof.Laws

open Sys2Proof Sys2Proof.Machine Sys2Proof.Safety

-- One theorem at a time, as in the tests above: side by side their threads' stacks take the memory.
set_option Elab.async false

/-! ### What is read -/

/-- The record with all but standing, cells, wait, withdrawal and legs blanked. -/
def bare (x : Scrubber) : Scrubber :=
  { Scrubber.enrolled 0 0 with
    state := x.state, halts := x.halts, current := x.current, ahead := x.ahead, refuge := x.refuge, request := x.request
    withdrawal := x.withdrawal, active := x.active, staged := x.staged }

/-- Who has a cell: `true` with its holder, `false` with the machine that blocks it. -/
def claimOf : Occupancy → Option (Bool × Nat)
  | .held n => some (true, n)
  | .blocked n => some (false, n)
  | _ => none

/-- What the laws of holdings and waits read of a floor. -/
@[ext] structure Scene where
  fleet : Nat → Option Scrubber
  claim : Nat → Option (Option (Bool × Nat))
  list : Nat → Option (List Waiter)
  queue : Nat → Option (List Nat)
  place : Nat → Option (Nat × Nat)

/-- The scene of a floor. -/
def scene (f : Floor) : Scene where
  fleet n := (f.machines.look n).map bare
  claim c := (f.cells.look c).map fun z => claimOf z.occ
  list c := (f.cells.look c).map fun z => z.waiters
  queue l := (f.lanes.look l).map fun r => r.waiters
  place c := f.laneOf c

/-! ### What changes -/

/-- Machine `m`'s record changes. -/
def Scene.recast (s : Scene) (m : Nat) (h : Scrubber → Scrubber) : Scene :=
  { s with fleet := fun n => if n = m then (s.fleet n).map h else s.fleet n }

/-- Cell `c` is claimed, or given up. -/
def Scene.occupy (s : Scene) (c : Nat) (k : Option (Bool × Nat)) : Scene :=
  { s with claim := fun d => if d = c then (s.claim d).map fun _ => k else s.claim d }

/-- The cells `cs` are claimed, or given up. -/
def Scene.occupyAll (s : Scene) (cs : List Nat) (k : Option (Bool × Nat)) : Scene :=
  { s with claim := fun d => if d ∈ cs then (s.claim d).map fun _ => k else s.claim d }

/-- Machine `m` leaves the list of the target. -/
def Scene.quit (s : Scene) (m : Nat) : Target → Scene
  | .cell c => { s with list := fun d => if d = c then (s.list d).map fun ws => ws.filter fun w => !decide (w.slot = m) else s.list d }
  | .lane l => { s with queue := fun j => if j = l then (s.queue j).map fun ws => ws.filter fun w => !decide (w = m) else s.queue j }

/-- Machine `m` joins the list of the target. -/
def Scene.join (s : Scene) (m : Nat) (refuge : Bool) : Target → Scene
  | .cell c => { s with list := fun d => if d = c then (s.list d).map fun ws => joinWaiters ws ⟨m, refuge⟩ else s.list d }
  | .lane l => { s with queue := fun j => if j = l then (s.queue j).map fun ws => ws ++ [m] else s.queue j }

/-- Machine `m` leaves its wait. -/
def Scene.leave (s : Scene) (m : Nat) : Scene :=
  match (s.fleet m).bind fun x => x.request with
  | none => s
  | some p => (s.quit m p.target).recast m fun x => { x with request := none }

/-! ### Records -/

@[simp] theorem bare_settle (x : Scrubber) (now limit : Nat) : bare (x.settle now limit) = bare x := by
  rw [settle_eq]
  rfl

@[simp] theorem bare_ordered (o : Order) (x : Scrubber) : bare (ordered o x) = bare x := by
  rw [ordered_self]
  rfl

@[simp] theorem bare_delivered (x : Scrubber) : bare (delivered x) = bare x := by
  unfold delivered
  split <;> rfl

@[simp] theorem bare_bare (x : Scrubber) : bare (bare x) = bare x := rfl

theorem scene_fleet {f : Floor} {m : Nat} {x : Scrubber} (known : f.machines.look m = some x) :
    (scene f).fleet m = some (bare x) := by
  show (f.machines.look m).map bare = _
  rw [known]
  rfl

/-! ### Work that leaves the scene -/

/-- Two floors with one scene but for the machines. -/
theorem scene_eq {f g : Floor} (machines : ∀ n, (g.machines.look n).map bare = (f.machines.look n).map bare)
    (cells : g.cells = f.cells) (lanes : ∀ l, (g.lanes.look l).map (fun r => r.waiters) = (f.lanes.look l).map fun r => r.waiters) :
    scene g = scene f := by
  unfold scene Floor.laneOf
  simp only [machines, cells, lanes]

theorem scene_beside {f g : Floor} (machines : g.machines = f.machines) (cells : g.cells = f.cells) (lanes : g.lanes = f.lanes) :
    scene g = scene f := scene_eq (fun n => by rw [machines]) cells fun l => by rw [lanes]

theorem bare_of_acts {m : Nat} {h : Scrubber → Scrubber} {f g : Floor} (acts : Acts m h f g) (same : ∀ x, bare (h x) = bare x)
    (n : Nat) : (g.machines.look n).map bare = (f.machines.look n).map bare := by
  rw [acts n]
  split
  · next here =>
    subst here
    rw [Option.map_map]
    exact congrArg (fun h => Option.map h (f.machines.look n)) (funext same)
  · rfl

@[simp] theorem scene_raise (k : Control) (f : Floor) (cls : NoticeClass) (s : Option Nat) (r : Option NoticeReason) :
    scene (f.raise k cls s r) = scene f := scene_beside (by simp) (by simp) (by simp)

@[simp] theorem scene_order (f : Floor) (m : Nat) (o : Order) : scene (f.order m o) = scene f :=
  scene_eq (bare_of_acts (acts_order f m o) (bare_ordered o)) (by simp) (by simp)

@[simp] theorem scene_deliver (f : Floor) (m : Nat) : scene (f.deliver m) = scene f :=
  scene_eq (bare_of_acts (acts_deliver f m) bare_delivered) (by simp) (by simp)

@[simp] theorem scene_clearOutstanding (f : Floor) (m : Nat) : scene (f.clearOutstanding m) = scene f :=
  scene_eq (bare_of_acts (Acts.of_upd (Floor.clearOutstanding_machines f m)) fun _ => rfl) rfl fun _ => rfl

@[simp] theorem scene_flushOrders (f : Floor) (m : Nat) : scene (f.flushOrders m) = scene f :=
  scene_eq (bare_of_acts (acts_flushOrders f m) fun _ => rfl) rfl fun _ => rfl

theorem scene_lanesWritten {m : Nat} {f g : Floor} (written : LanesWritten m f g) (cells : g.cells = f.cells)
    (waiters : SameWaiters f g) : scene g = scene f := by
  obtain ⟨ld, acts⟩ := written
  exact scene_eq (bare_of_acts acts fun _ => rfl) cells waiters.2

@[simp] theorem scene_enterLane (f : Floor) (m l : Nat) (d : Dir) : scene (f.enterLane m l d) = scene f :=
  scene_lanesWritten (lanesWritten_enterLane f m l d) (by simp) (sameWaiters_enterLane f m l d)

@[simp] theorem scene_place (f : Floor) (m c : Nat) : scene (f.place m c) = scene f :=
  scene_lanesWritten (lanesWritten_place f m c) (by simp) (sameWaiters_place f m c)

@[simp] theorem scene_quitLaneOf (f : Floor) (m c : Nat) : scene (f.quitLaneOf m c) = scene f :=
  scene_lanesWritten (lanesWritten_quitLaneOf f m c) (by simp) (sameWaiters_quitLaneOf f m c)

@[simp] theorem scene_modLine (f : Floor) (i : Nat) (h : Line → Line) : scene (f.modLine i h) = scene f :=
  scene_beside rfl rfl rfl

/-- A change of a record that the scene does not read. -/
theorem scene_modMachine_same (f : Floor) (m : Nat) {h : Scrubber → Scrubber} (same : ∀ x, bare (h x) = bare x) :
    scene (f.modMachine m h) = scene f := scene_eq (bare_of_acts (acts_modMachine f m h) same) rfl fun _ => rfl

/-- Cells with the same occupancies, wait lists and places. -/
theorem scene_each (f : Floor) (h : Nat → Cell → Cell)
    (same : ∀ c z, claimOf (h c z).occ = claimOf z.occ ∧ (h c z).waiters = z.waiters ∧ (h c z).lane = z.lane) :
    scene { f with cells := f.cells.each h } = scene f := by
  unfold scene Floor.laneOf
  have all {β : Type} (g : Cell → β) (kept : ∀ c z, g (h c z) = g z) (c : Nat) :
      ((f.cells.each h).look c).map g = (f.cells.look c).map g := by
    rw [Table.look_each, Option.map_map]
    exact congrArg (fun p => Option.map p (f.cells.look c)) (funext (kept c))
  have places (c : Nat) : (((f.cells.each h).look c).bind fun z => z.lane) = (f.cells.look c).bind fun z => z.lane := by
    rw [Table.look_each]
    cases f.cells.look c with
    | none => rfl
    | some z => exact (same c z).2.2
  have claims := all (fun z => claimOf z.occ) fun c z => (same c z).1
  have lists := all (fun z => z.waiters) fun c z => (same c z).2.1
  simp only [claims, lists, places]

/-! ### Work on the scene -/

theorem scene_modMachine (f : Floor) (m : Nat) {h g : Scrubber → Scrubber} (same : ∀ x, bare (h x) = g (bare x)) :
    scene (f.modMachine m h) = (scene f).recast m g := by
  unfold scene Scene.recast
  have fleet (n : Nat) : (((f.modMachine m h).machines.look n).map bare) =
      if n = m then ((f.machines.look n).map bare).map g else (f.machines.look n).map bare := by
    rw [acts_modMachine f m h n]
    split
    · next here =>
      subst here
      rw [Option.map_map, Option.map_map]
      exact congrArg (fun p => Option.map p (f.machines.look n)) (funext same)
    · rfl
  simp only [fleet]
  rfl

theorem scene_modSettled (k : Control) (f : Floor) (m : Nat) {h g : Scrubber → Scrubber} (same : ∀ x, bare (h x) = g (bare x)) :
    scene (f.modSettled k m h) = (scene f).recast m g :=
  scene_modMachine f m fun x => (bare_settle _ _ _).trans (same x)

theorem scene_setOcc (f : Floor) (c : Nat) (o : Occupancy) : scene (f.setOcc c o) = (scene f).occupy c (claimOf o) := by
  have cells (d : Nat) := setOcc_look f c d o
  unfold scene Scene.occupy Floor.laneOf
  have claims (d : Nat) : ((f.setOcc c o).cells.look d).map (fun z => claimOf z.occ) =
      if d = c then ((f.cells.look d).map fun z => claimOf z.occ).map fun _ => claimOf o
      else (f.cells.look d).map fun z => claimOf z.occ := by
    rw [cells]
    split
    · cases f.cells.look d <;> rfl
    · rfl
  have lists (d : Nat) : ((f.setOcc c o).cells.look d).map (fun z => z.waiters) = (f.cells.look d).map fun z => z.waiters :=
    (sameWaiters_setOcc f c o).1 d
  have places (d : Nat) : (((f.setOcc c o).cells.look d).bind fun z => z.lane) = (f.cells.look d).bind fun z => z.lane := by
    rw [cells]
    split
    · cases f.cells.look d <;> rfl
    · rfl
  simp only [claims, lists, places, setOcc_machines, setOcc_lanes]

theorem scene_quitList (f : Floor) (m : Nat) (t : Target) : scene (f.quitList m t) = (scene f).quit m t := by
  cases t with
  | cell c =>
    unfold scene Scene.quit Floor.laneOf Floor.quitList
    have look (d : Nat) := Table.look_upd f.cells c d
      fun z => { z with waiters := z.waiters.filter fun w => !decide (w.slot = m) }
    simp only [look]
    congr 1 <;> funext d <;> by_cases here : d = c <;> simp only [here, if_true, if_false]
    all_goals cases f.cells.look c <;> rfl
  | lane l =>
    unfold scene Scene.quit Floor.laneOf Floor.quitList
    have look (j : Nat) := Table.look_upd f.lanes l j fun r => { r with waiters := r.waiters.filter fun w => !decide (w = m) }
    simp only [look]
    congr 1
    funext j
    by_cases here : j = l <;> simp only [here, if_true, if_false]
    cases f.lanes.look l <;> rfl

theorem scene_joinList (f : Floor) (m : Nat) (refuge : Bool) (t : Target) :
    scene (f.joinList m refuge t) = (scene f).join m refuge t := by
  cases t with
  | cell c =>
    unfold scene Scene.join Floor.laneOf Floor.joinList
    have look (d : Nat) := Table.look_upd f.cells c d fun z => { z with waiters := joinWaiters z.waiters ⟨m, refuge⟩ }
    simp only [look]
    congr 1 <;> funext d <;> by_cases here : d = c <;> simp only [here, if_true, if_false]
    all_goals cases f.cells.look c <;> rfl
  | lane l =>
    unfold scene Scene.join Floor.laneOf Floor.joinList
    have look (j : Nat) := Table.look_upd f.lanes l j fun r => { r with waiters := r.waiters ++ [m] }
    simp only [look]
    congr 1
    funext j
    by_cases here : j = l <;> simp only [here, if_true, if_false]
    cases f.lanes.look l <;> rfl

theorem scene_leaveWait (f : Floor) (m : Nat) : scene (f.leaveWait m) = (scene f).leave m := by
  have same : ((scene f).fleet m).bind (fun x => x.request) = (f.machines.look m).bind fun x => x.request := by
    show ((f.machines.look m).map bare).bind _ = _
    cases f.machines.look m <;> rfl
  unfold Floor.leaveWait Scene.leave
  rw [same]
  cases (f.machines.look m).bind fun x => x.request with
  | none => rfl
  | some p =>
    show scene ((f.quitList m p.target).modMachine m fun x => { x with request := none }) = _
    rw [scene_modMachine _ _ (g := fun x => { x with request := none }) fun _ => rfl, scene_quitList]

end Sys2Proof.Laws
end

section
/-! ## The law of a scene, and one machine's part of it

`Lawful` is the laws of holdings and waits read off a scene. Work about one machine `m` is followed with `At`: all the
others keep their part, and `m`'s record, cells and wait stand as named, whether or not they fit one another just then.
Where they fit again the law stands (`At.close`). -/

namespace Sys2Proof.Laws

open Sys2Proof Sys2Proof.Machine Sys2Proof.Safety

-- One theorem at a time, as in the tests above: side by side their threads' stacks take the memory.
set_option Elab.async false

/-! ### The law -/

/-- What a machine's record says of itself: standing, legs, holding and wait. `p` says that the part is in STANDBY, `D` which
cells are defined. -/
structure Fit (p : Prop) (D : Set Nat) (x : Scrubber) : Prop where
  halted : x.state = .halted → x.halts.isEmpty = false
  halts : x.halts.isEmpty = false → x.state = .halted ∨ x.state = .lost ∨ x.state = .stoodDown
  idle : x.state = .idle → x.ahead = []
  pending : x.withdrawal.isSome = true → x.state ≠ .waiting ∧ x.state ≠ .lost
  deferred : (x.withdrawal.any fun w => w.deferred) = true → x.active = none ∧ x.ahead = []
  legless : x.active = none → x.ahead ≠ [] →
    ((x.withdrawal.any fun w => w.cancel) = true ∧ x.staged = none) ∨ x.halts.position = true ∨
      x.state = .stoodDown ∨ x.state = .lost
  down : x.state = .stoodDown → x.active = none ∧ x.staged = none
  active : ∀ a, x.active = some a → NoReturn a.leg.cells ∧ a.leg.cells[a.index]? = some x.current ∧
    a.index + x.ahead.length < a.leg.cells.length ∧ x.ahead = (a.leg.cells.drop (a.index + 1)).take x.ahead.length
  staged : ∀ leg, x.staged = some leg → NoReturn leg.cells ∧ 2 ≤ leg.cells.length ∧
    (leg.cells.head? = some x.anchor ∨
      (x.halts.position = true ∧ x.active = none ∧ (x.withdrawal.any fun w => w.deferred) = false))
  few : x.ahead.length ≤ 4
  refuge : x.refuge.isSome = true → x.ahead = [] ∧ x.active = none ∧ x.staged = none
  once : x.state ≠ .lost → (holding x).Nodup
  lost : x.state = .lost → x.refuge = none ∧ x.active = none ∧ x.staged = none
  waiting : x.state = .waiting ↔ ∃ count target, x.request = some (.ordinary count target)
  asks : ∀ count target, x.request = some (.ordinary count target) → 1 ≤ count ∧ count ≤ 4 ∧ x.remaining ≠ []
  seeks : ∀ c, x.request = some (.refuge c) →
    x.state ≠ .lost ∧ x.refuge = none ∧ x.ahead = [] ∧ x.active = none ∧ x.staged = none
  standby : p → x.active = none ∧ x.staged = none
  route : ∀ a, x.active = some a → ∀ c ∈ a.leg.cells, c ∈ D
  next : ∀ leg, x.staged = some leg → ∀ c ∈ leg.cells, c ∈ D

/-- The cells HELD by a machine with this record. -/
def heldBy (x : Scrubber) : Set Nat := { c | x.state ≠ .lost ∧ c ∈ holding x }

/-- The list on which a machine with this record stands, and as what. -/
def waitOf (x : Scrubber) : Option (Target × Bool) := x.request.map fun r => (r.target, x.refugeWait)

/-- Machine `m` has the cells `H` HELD and the cells `B` BLOCKED, and stands on the list `w`. -/
structure Station (s : Scene) (m : Nat) (H B : Set Nat) (w : Option (Target × Bool)) : Prop where
  holds : ∀ c, s.claim c = some (some (true, m)) ↔ c ∈ H
  blocks : ∀ c, s.claim c = some (some (false, m)) ↔ c ∈ B
  listed : ∀ c b, (∃ ws, s.list c = some ws ∧ ⟨m, b⟩ ∈ ws) ↔ w = some (.cell c, b)
  queued : ∀ l, (∃ ws, s.queue l = some ws ∧ m ∈ ws) ↔ w = some (.lane l, false)

/-- Machine `m`'s record, cells and wait fit one another; a slot that is ABSENT has none of them. -/
def Settled (p : Prop) (D : Set Nat) (s : Scene) (m : Nat) : Prop :=
  (s.fleet m = none → Station s m ∅ ∅ none) ∧
    ∀ x, s.fleet m = some x → Fit p D x ∧ ∃ B, (x.state ≠ .lost → B = ∅) ∧ Station s m (heldBy x) B (waitOf x)

/-- R23: the lists have each machine once, refuge entries first; the defined cells are `D`, and their lanes are defined. -/
structure Lists (D : Set Nat) (s : Scene) : Prop where
  cells : ∀ c ws, s.list c = some ws → (ws.map Waiter.slot).Nodup ∧ ws.Pairwise fun v w => w.refuge = true → v.refuge = true
  lanes : ∀ l ws, s.queue l = some ws → ws.Nodup
  claims : ∀ c, (s.claim c).isSome = true ↔ c ∈ D
  defined : ∀ c, (s.list c).isSome = true ↔ c ∈ D
  grounded : ∀ c l i, s.place c = some (l, i) → (s.queue l).isSome = true

/-- The laws of holdings and waits. -/
def Lawful (p : Prop) (D : Set Nat) (s : Scene) : Prop := (∀ m, Settled p D s m) ∧ Lists D s

/-- The others keep their part of the law; `m`'s record, cells and wait stand as named. -/
structure At (p : Prop) (D : Set Nat) (s : Scene) (m : Nat) (x : Scrubber) (H B : Set Nat) (w : Option (Target × Bool)) : Prop
    where
  others : ∀ n, n ≠ m → Settled p D s n
  lists : Lists D s
  record : s.fleet m = some x
  station : Station s m H B w

variable {p : Prop} {D : Set Nat} {s : Scene} {m : Nat} {x : Scrubber} {H B : Set Nat} {w : Option (Target × Bool)}

theorem Lawful.at (law : Lawful p D s) (known : s.fleet m = some x) :
    Fit p D x ∧ ∃ B, (x.state ≠ .lost → B = ∅) ∧ At p D s m x (heldBy x) B (waitOf x) := by
  obtain ⟨settled, lists⟩ := law
  obtain ⟨fit, B, empty, station⟩ := (settled m).2 x known
  exact ⟨fit, B, empty, fun n _ => settled n, lists, known, station⟩

theorem At.close (law : At p D s m x (heldBy x) B (waitOf x)) (fit : Fit p D x) (empty : x.state ≠ .lost → B = ∅) :
    Lawful p D s := by
  refine ⟨fun n => ?_, law.lists⟩
  by_cases here : n = m
  · subst here
    refine ⟨fun none => ?_, fun y known => ?_⟩
    · rw [law.record] at none
      cases none
    · rw [law.record] at known
      cases known
      exact ⟨fit, B, empty, law.station⟩
  · exact law.others n here

/-- A machine whose record, cells and lists are not touched keeps its part. -/
theorem Settled.of_same {t : Scene} {n : Nat} (law : Settled p D s n) (fleet : t.fleet n = s.fleet n)
    (station : ∀ H B w, Station s n H B w → Station t n H B w) : Settled p D t n := by
  unfold Settled
  rw [fleet]
  exact ⟨fun none => station _ _ _ (law.1 none), fun x known => by
    obtain ⟨fit, B, empty, there⟩ := law.2 x known
    exact ⟨fit, B, empty, station _ _ _ there⟩⟩

/-! ### Records -/

theorem At.recast (law : At p D s m x H B w) (h : Scrubber → Scrubber) : At p D (s.recast m h) m (h x) H B w where
  others n other := (law.others n other).of_same (if_neg other) fun _ _ _ there =>
    ⟨there.holds, there.blocks, there.listed, there.queued⟩
  lists := ⟨law.lists.cells, law.lists.lanes, law.lists.claims, law.lists.defined, law.lists.grounded⟩
  record := by
    show (if m = m then (s.fleet m).map h else s.fleet m) = _
    rw [if_pos rfl, law.record]
    rfl
  station := ⟨law.station.holds, law.station.blocks, law.station.listed, law.station.queued⟩

/-! ### Cells -/

/-- Cell `c` is defined, and nobody but `m` has it. -/
def Scene.Open (s : Scene) (m c : Nat) : Prop := ∃ k, s.claim c = some k ∧ ∀ b n, k = some (b, n) → n = m

theorem Scene.claim_occupyAll (s : Scene) (cs : List Nat) (k : Option (Bool × Nat)) (c : Nat) :
    (s.occupyAll cs k).claim c = if c ∈ cs then (s.claim c).map fun _ => k else s.claim c := rfl

/-- R19: cells that nobody else has go to `m`, or are given up by it. -/
theorem At.occupyAll (law : At p D s m x H B w) {cs : List Nat} {k : Option (Bool × Nat)} (open' : ∀ c ∈ cs, s.Open m c)
    (mine : ∀ b n, k = some (b, n) → n = m) {H' B' : Set Nat}
    (holds : ∀ c, c ∈ H' ↔ (c ∈ H ∧ c ∉ cs) ∨ (c ∈ cs ∧ k = some (true, m)))
    (blocks : ∀ c, c ∈ B' ↔ (c ∈ B ∧ c ∉ cs) ∨ (c ∈ cs ∧ k = some (false, m))) :
    At p D (s.occupyAll cs k) m x H' B' w where
  others n other := by
    have kept (b : Bool) (c : Nat) : (s.occupyAll cs k).claim c = some (some (b, n)) ↔ s.claim c = some (some (b, n)) := by
      rw [Scene.claim_occupyAll]
      split
      · next inside =>
        obtain ⟨k', claim, own⟩ := open' c inside
        rw [claim, Option.map_some]
        constructor
        · intro same
          exact absurd (mine b n (Option.some.inj same)) other
        · intro same
          exact absurd (own b n (Option.some.inj same)) other
      · rfl
    exact (law.others n other).of_same rfl fun _ _ _ there =>
      ⟨fun c => (kept true c).trans (there.holds c), fun c => (kept false c).trans (there.blocks c), there.listed, there.queued⟩
  lists := by
    refine ⟨law.lists.cells, law.lists.lanes, fun c => ?_, law.lists.defined, law.lists.grounded⟩
    rw [← law.lists.claims c, Scene.claim_occupyAll]
    split <;> simp
  record := law.record
  station := by
    have claims (b : Bool) (c : Nat) : (s.occupyAll cs k).claim c = some (some (b, m)) ↔
        (s.claim c = some (some (b, m)) ∧ c ∉ cs) ∨ (c ∈ cs ∧ k = some (b, m)) := by
      rw [Scene.claim_occupyAll]
      by_cases inside : c ∈ cs
      · obtain ⟨k', claim, -⟩ := open' c inside
        simp [inside, claim]
      · simp [inside]
    refine ⟨fun c => ?_, fun c => ?_, law.station.listed, law.station.queued⟩
    · rw [claims, holds, law.station.holds]
    · rw [claims, blocks, law.station.blocks]

/-- A cell that `m` has is open to it. -/
theorem At.open_of_mem (law : At p D s m x H B w) {c : Nat} (own : c ∈ H ∨ c ∈ B) : s.Open m c := by
  rcases own with held | blocked
  · exact ⟨_, (law.station.holds c).2 held, fun b n same => by cases same; rfl⟩
  · exact ⟨_, (law.station.blocks c).2 blocked, fun b n same => by cases same; rfl⟩

/-- R28: the cells of a span become HELD. -/
theorem At.hold (law : At p D s m x H ∅ w) {cs : List Nat} (open' : ∀ c ∈ cs, s.Open m c) :
    At p D (s.occupyAll cs (some (true, m))) m x (H ∪ { c | c ∈ cs }) ∅ w :=
  law.occupyAll open' (fun b n same => by cases same; rfl) (fun c => by
    simp only [Set.mem_union, Set.mem_ofPred_eq, and_true]; tauto) fun c => by simp

/-- R35: cells are given up. -/
theorem At.release (law : At p D s m x H B w) {cs : List Nat} (own : ∀ c ∈ cs, c ∈ H ∨ c ∈ B) :
    At p D (s.occupyAll cs none) m x (H \ { c | c ∈ cs }) (B \ { c | c ∈ cs }) w :=
  law.occupyAll (fun c inside => law.open_of_mem (own c inside)) (fun b n same => by cases same) (fun c => by simp) fun c => by simp

/-- R36: cells become BLOCKED. -/
theorem At.block (law : At p D s m x H B w) {cs : List Nat} (own : ∀ c ∈ cs, c ∈ H ∨ c ∈ B) :
    At p D (s.occupyAll cs (some (false, m))) m x (H \ { c | c ∈ cs }) (B ∪ { c | c ∈ cs }) w :=
  law.occupyAll (fun c inside => law.open_of_mem (own c inside)) (fun b n same => by cases same; rfl)
    (fun c => by simp) fun c => by simp only [Set.mem_union, Set.mem_ofPred_eq, and_true]; tauto

/-! ### Lists -/

theorem Scene.occupyAll_single (s : Scene) (c : Nat) (k : Option (Bool × Nat)) : s.occupyAll [c] k = s.occupy c k := by
  unfold Scene.occupyAll Scene.occupy
  simp only [List.mem_singleton]

/-- R24: `m` leaves the list it stands on. -/
theorem At.quit {t : Target} {b : Bool} (law : At p D s m x H B (some (t, b))) : At p D (s.quit m t) m x H B none := by
  cases t with
  | cell c =>
    have look (d : Nat) : (s.quit m (.cell c)).list d =
        if d = c then (s.list d).map fun ws => ws.filter fun w => !decide (w.slot = m) else s.list d := rfl
    have member (n : Nat) (b : Bool) (d : Nat) : (∃ ws, (s.quit m (.cell c)).list d = some ws ∧ ⟨n, b⟩ ∈ ws) ↔
        (∃ ws, s.list d = some ws ∧ ⟨n, b⟩ ∈ ws) ∧ ¬ (d = c ∧ n = m) := by
      rw [look]
      split
      · next here =>
        subst here
        cases s.list d with
        | none => simp
        | some ws => simp [List.mem_filter]
      · next here => simp [here]
    refine ⟨fun n other => (law.others n other).of_same rfl fun _ _ _ there =>
      ⟨there.holds, there.blocks, fun d b => (member n b d).trans ?_, there.queued⟩, ⟨fun d ws known => ?_, law.lists.lanes,
        law.lists.claims, fun d => ?_, law.lists.grounded⟩, law.record, law.station.holds, law.station.blocks,
        fun d e => ?_, fun l => ?_⟩
    · rw [there.listed]
      simp [other]
    · rw [look] at known
      split at known
      · obtain ⟨ws', old, rfl⟩ := Option.map_eq_some_iff.1 known
        obtain ⟨once, first⟩ := law.lists.cells d ws' old
        exact ⟨once.sublist (List.filter_sublist.map _), first.sublist List.filter_sublist⟩
      · exact law.lists.cells d ws known
    · rw [look, ← law.lists.defined]
      split <;> simp
    · rw [member, law.station.listed]
      simp only [Option.some.injEq, Prod.mk.injEq, Target.cell.injEq, and_true, reduceCtorEq, iff_false, not_and, not_not]
      exact fun same => same.1.symm
    · rw [show (s.quit m (.cell c)).queue l = s.queue l from rfl, law.station.queued]
      simp
  | lane j =>
    have look (l : Nat) : (s.quit m (.lane j)).queue l =
        if l = j then (s.queue l).map fun ws => ws.filter fun w => !decide (w = m) else s.queue l := rfl
    have member (n : Nat) (l : Nat) : (∃ ws, (s.quit m (.lane j)).queue l = some ws ∧ n ∈ ws) ↔
        (∃ ws, s.queue l = some ws ∧ n ∈ ws) ∧ ¬ (l = j ∧ n = m) := by
      rw [look]
      split
      · next here =>
        subst here
        cases s.queue l with
        | none => simp
        | some ws => simp [List.mem_filter]
      · next here => simp [here]
    refine ⟨fun n other => (law.others n other).of_same rfl fun _ _ _ there =>
      ⟨there.holds, there.blocks, there.listed, fun l => (member n l).trans ?_⟩, ⟨law.lists.cells, fun l ws known => ?_,
        law.lists.claims, law.lists.defined, fun c l i place => ?_⟩, law.record, law.station.holds, law.station.blocks,
        fun d e => ?_, fun l => ?_⟩
    · rw [there.queued]
      simp [other]
    · rw [look] at known
      split at known
      · obtain ⟨ws', old, rfl⟩ := Option.map_eq_some_iff.1 known
        exact (law.lists.lanes l ws' old).filter _
      · exact law.lists.lanes l ws known
    · have known := law.lists.grounded c l i place
      rw [look]
      split
      · simpa using known
      · exact known
    · rw [show (s.quit m (.lane j)).list d = s.list d from rfl, law.station.listed]
      simp
    · rw [member, law.station.queued]
      simp only [Option.some.injEq, Prod.mk.injEq, Target.lane.injEq, and_true, reduceCtorEq, iff_false, not_and, not_not]
      exact fun same => same.1.symm

/-- R24: `m` leaves its wait. -/
theorem At.leave (law : At p D s m x H B (waitOf x)) : At p D (s.leave m) m { x with request := none } H B none := by
  unfold Scene.leave
  rw [law.record, Option.bind_some]
  cases request : x.request with
  | none =>
    have same : { x with request := none } = x := by rw [← request]
    have still : waitOf x = none := by unfold waitOf; rw [request]; rfl
    rw [same, ← still]
    exact law
  | some r =>
    have waits : waitOf x = some (r.target, x.refugeWait) := by unfold waitOf; rw [request]; rfl
    rw [waits] at law
    exact law.quit.recast _

theorem mem_joinWaiters {ws : List Waiter} {v w : Waiter} : v ∈ joinWaiters ws w ↔ v ∈ ws ∨ v = w := by
  unfold joinWaiters
  split
  · have whole : v ∈ ws ↔ v ∈ ws.takeWhile (fun u => u.refuge) ∨ v ∈ ws.dropWhile fun u => u.refuge := by
      rw [← List.mem_append, List.takeWhile_append_dropWhile]
    rw [whole, List.mem_append, List.mem_cons]
    tauto
  · rw [List.mem_append, List.mem_singleton]

theorem joinWaiters_perm (ws : List Waiter) (w : Waiter) : (joinWaiters ws w).Perm (w :: ws) := by
  unfold joinWaiters
  split
  · exact List.perm_middle.trans (by rw [List.takeWhile_append_dropWhile])
  · exact List.perm_append_singleton w ws

/-- R23: refuge entries stay first. -/
theorem joinWaiters_first {ws : List Waiter} (w : Waiter) (first : ws.Pairwise fun v u => u.refuge = true → v.refuge = true) :
    (joinWaiters ws w).Pairwise fun v u => u.refuge = true → v.refuge = true := by
  unfold joinWaiters
  split
  · next refuge =>
    refine List.pairwise_append.2 ⟨first.sublist (List.takeWhile_sublist _), List.pairwise_cons.2
      ⟨fun _ _ _ => refuge, first.sublist (List.dropWhile_sublist _)⟩, fun v inside _ _ _ => ?_⟩
    exact List.mem_takeWhile_imp inside
  · next ordinary =>
    refine List.pairwise_append.2 ⟨first, List.pairwise_singleton _ _, fun v _ u here refuge => ?_⟩
    cases List.mem_singleton.1 here
    exact absurd refuge ordinary

/-- The target of a wait is defined. -/
def Scene.Known (s : Scene) : Target → Prop
  | .cell c => (s.list c).isSome = true
  | .lane l => (s.queue l).isSome = true

/-- R23: `m`, on no list, joins one. -/
theorem At.join {t : Target} {b : Bool} (law : At p D s m x H B none) (target : s.Known t) (refuge : b = true → ∃ c, t = .cell c) :
    At p D (s.join m b t) m x H B (some (t, b)) := by
  cases t with
  | cell c =>
    obtain ⟨old, there⟩ := Option.isSome_iff_exists.1 target
    have off (e : Bool) : ⟨m, e⟩ ∉ old := fun inside => by
      have listed := (law.station.listed c e).1 ⟨old, there, inside⟩
      cases listed
    have look (d : Nat) : (s.join m b (.cell c)).list d =
        if d = c then (s.list d).map fun ws => joinWaiters ws ⟨m, b⟩ else s.list d := rfl
    have member (n : Nat) (e : Bool) (d : Nat) : (∃ ws, (s.join m b (.cell c)).list d = some ws ∧ ⟨n, e⟩ ∈ ws) ↔
        (∃ ws, s.list d = some ws ∧ ⟨n, e⟩ ∈ ws) ∨ (d = c ∧ n = m ∧ e = b) := by
      rw [look]
      split
      · next here =>
        subst here
        rw [there]
        simp [mem_joinWaiters]
      · next here => simp [here]
    refine ⟨fun n other => (law.others n other).of_same rfl fun _ _ _ there =>
      ⟨there.holds, there.blocks, fun d b => (member n b d).trans ?_, there.queued⟩, ⟨fun d ws known => ?_, law.lists.lanes,
        law.lists.claims, fun d => ?_, law.lists.grounded⟩, law.record, law.station.holds, law.station.blocks,
        fun d e => ?_, fun l => ?_⟩
    · rw [there.listed]
      simp [other]
    · rw [look] at known
      split at known
      · next here =>
        subst here
        obtain ⟨ws', same, rfl⟩ := Option.map_eq_some_iff.1 known
        cases there.symm.trans same
        obtain ⟨once, first⟩ := law.lists.cells d old there
        refine ⟨((joinWaiters_perm old ⟨m, b⟩).map _).nodup_iff.2 ?_, joinWaiters_first _ first⟩
        refine List.nodup_cons.2 ⟨fun inside => ?_, once⟩
        obtain ⟨⟨n, e⟩, inside, same⟩ := List.mem_map.1 inside
        cases same
        exact off e inside
      · exact law.lists.cells d ws known
    · rw [look, ← law.lists.defined]
      split <;> simp
    · rw [member, law.station.listed]
      simp only [reduceCtorEq, false_or, Option.some.injEq, Prod.mk.injEq, Target.cell.injEq, true_and]
      exact ⟨fun ⟨a, b⟩ => ⟨a.symm, b.symm⟩, fun ⟨a, b⟩ => ⟨a.symm, b.symm⟩⟩
    · rw [show (s.join m b (.cell c)).queue l = s.queue l from rfl, law.station.queued]
      simp
  | lane j =>
    obtain rfl : b = false := by
      cases b with
      | false => rfl
      | true =>
        obtain ⟨c, same⟩ := refuge rfl
        cases same
    obtain ⟨old, there⟩ := Option.isSome_iff_exists.1 target
    have off : m ∉ old := fun inside => by
      have listed := (law.station.queued j).1 ⟨old, there, inside⟩
      cases listed
    have look (l : Nat) : (s.join m false (.lane j)).queue l =
        if l = j then (s.queue l).map fun ws => ws ++ [m] else s.queue l := rfl
    have member (n : Nat) (l : Nat) : (∃ ws, (s.join m false (.lane j)).queue l = some ws ∧ n ∈ ws) ↔
        (∃ ws, s.queue l = some ws ∧ n ∈ ws) ∨ (l = j ∧ n = m) := by
      rw [look]
      split
      · next here =>
        subst here
        rw [there]
        simp
      · next here => simp [here]
    refine ⟨fun n other => (law.others n other).of_same rfl fun _ _ _ there =>
      ⟨there.holds, there.blocks, there.listed, fun l => (member n l).trans ?_⟩, ⟨law.lists.cells, fun l ws known => ?_,
        law.lists.claims, law.lists.defined, fun c l i place => ?_⟩, law.record, law.station.holds, law.station.blocks,
        fun d e => ?_, fun l => ?_⟩
    · rw [there.queued]
      simp [other]
    · rw [look] at known
      split at known
      · next here =>
        subst here
        obtain ⟨ws', same, rfl⟩ := Option.map_eq_some_iff.1 known
        cases there.symm.trans same
        refine List.nodup_append.2 ⟨law.lists.lanes l old there, List.nodup_singleton m, fun a inside b here same => ?_⟩
        cases List.mem_singleton.1 here
        exact off (same ▸ inside)
      · exact law.lists.lanes l ws known
    · have known := law.lists.grounded c l i place
      rw [look]
      split
      · simpa using known
      · exact known
    · rw [show (s.join m false (.lane j)).list d = s.list d from rfl, law.station.listed]
      simp
    · rw [member, law.station.queued]
      simp only [reduceCtorEq, false_or, Option.some.injEq, Prod.mk.injEq, Target.lane.injEq, and_true]
      exact ⟨Eq.symm, Eq.symm⟩

/-! ### A machine that is not LOST -/

theorem heldBy_of_ne (found : x.state ≠ .lost) : heldBy x = { c | c ∈ holding x } := by
  ext c
  exact ⟨fun held => held.2, fun held => ⟨found, held⟩⟩

theorem Lawful.own (law : Lawful p D s) (known : s.fleet m = some x) (found : x.state ≠ .lost) :
    Fit p D x ∧ At p D s m x { c | c ∈ holding x } ∅ (waitOf x) := by
  obtain ⟨fit, B, empty, stands⟩ := law.at known
  rw [heldBy_of_ne found, empty found] at stands
  exact ⟨fit, stands⟩

theorem At.closes (law : At p D s m x H ∅ w) (fit : Fit p D x) (found : x.state ≠ .lost) (holds : H = { c | c ∈ holding x })
    (waits : w = waitOf x) : Lawful p D s := by
  subst holds waits
  rw [← heldBy_of_ne found] at law
  exact law.close fit fun _ => rfl

/-- A change of one record that leaves its cells and its wait. -/
theorem Lawful.amend (law : Lawful p D s) (m : Nat) (g : Scrubber → Scrubber)
    (fits : ∀ x, s.fleet m = some x → Fit p D x → Fit p D (g x) ∧ holding (g x) = holding x ∧
      ((g x).state = .lost ↔ x.state = .lost) ∧ waitOf (g x) = waitOf x) : Lawful p D (s.recast m g) := by
  cases known : s.fleet m with
  | none =>
    have same : s.recast m g = s := by
      refine Scene.ext (funext fun n => ?_) rfl rfl rfl rfl
      show (if n = m then (s.fleet n).map g else s.fleet n) = _
      split
      · next here => rw [here, known]; rfl
      · rfl
    rw [same]
    exact law
  | some x =>
    obtain ⟨fit, B, empty, stands⟩ := law.at known
    obtain ⟨fit, cells, lost, waits⟩ := fits x known fit
    have held : heldBy (g x) = heldBy x := by
      unfold heldBy
      simp only [cells, ne_eq, lost]
    have after := stands.recast g
    rw [← held, ← waits] at after
    exact after.close fit fun found => empty fun is => found (lost.2 is)

end Sys2Proof.Laws
end

section
/-! ## How a record goes on fitting

Each lemma takes one change of a record that the concourse's work makes, and says when the record fits afterwards. -/

namespace Sys2Proof.Laws

open Sys2Proof Sys2Proof.Machine Sys2Proof.Safety

-- One theorem at a time, as in the tests above: side by side their threads' stacks take the memory.
set_option Elab.async false

/-! ### Waits -/

/-- R24: the record without its ordinary request; a refuge wait is kept. -/
def quieted (x : Scrubber) : Scrubber :=
  { x with
    request := match x.request with
      | some (.ordinary _ _) => none
      | r => r }

/-- R30: the state of a machine that has left an ordinary wait, if it stood on one. -/
def calm (x : Scrubber) : MState := if x.state = .waiting then x.resting else x.state

section
variable {p : Prop} {D : Set Nat} {x : Scrubber}

theorem Fit.request_cases (fit : Fit p D x) :
    (x.state = .waiting ∧ ∃ count target, x.request = some (.ordinary count target)) ∨
      x.state ≠ .waiting ∧ ∀ count target, x.request ≠ some (.ordinary count target) := by
  by_cases waits : x.state = .waiting
  · exact .inl ⟨waits, fit.waiting.1 waits⟩
  · exact .inr ⟨waits, fun count target asked => waits (fit.waiting.2 ⟨count, target, asked⟩)⟩

theorem quieted_of_ordinary {count : Nat} {t : Target} (asked : x.request = some (.ordinary count t)) :
    quieted x = { x with request := none } := by
  unfold quieted
  rw [asked]

theorem quieted_of_free (free : ∀ count target, x.request ≠ some (.ordinary count target)) : quieted x = x := by
  unfold quieted
  split
  · next count target asked => exact absurd asked (free count target)
  · rfl

theorem resting_ne (x : Scrubber) {t : MState} (idle : t ≠ .idle) (running : t ≠ .running) : x.resting ≠ t := by
  unfold Scrubber.resting
  split
  · exact idle.symm
  · exact running.symm

theorem ahead_of_resting (is : x.resting = .idle) : x.ahead = [] := by
  unfold Scrubber.resting at is
  split at is
  · next none => exact none
  · cases is

/-- R27, R81: what stands of a machine that waits for cells of its leg. -/
theorem Fit.of_waiting (fit : Fit p D x) (waits : x.state = .waiting) :
    x.withdrawal = none ∧ x.halts.isEmpty = true ∧ x.remaining ≠ [] ∧ (∃ a, x.active = some a) ∧ x.refuge = none := by
  obtain ⟨count, target, asked⟩ := fit.waiting.1 waits
  obtain ⟨-, -, more⟩ := fit.asks count target asked
  have drives : ∃ a, x.active = some a := by
    unfold Scrubber.remaining at more
    cases active : x.active with
    | none => rw [active] at more; exact absurd rfl more
    | some a => exact ⟨a, rfl⟩
  refine ⟨?_, ?_, more, drives, ?_⟩
  · cases pending : x.withdrawal with
    | none => rfl
    | some w => exact absurd waits (fit.pending (by rw [pending]; rfl)).1
  · cases empty : x.halts.isEmpty with
    | true => rfl
    | false => rcases fit.halts empty with is | is | is <;> rw [is] at waits <;> cases waits
  · obtain ⟨a, active⟩ := drives
    cases held : x.refuge with
    | none => rfl
    | some r =>
      obtain ⟨-, none, -⟩ := fit.refuge (by rw [held]; rfl)
      rw [active] at none
      cases none

/-- R24, R30: a machine that leaves its ordinary wait rests. -/
theorem Fit.quieted (fit : Fit p D x) : Fit p D { quieted x with state := calm x } := by
  rcases fit.request_cases with ⟨waits, count, target, asked⟩ | ⟨other, free⟩
  · obtain ⟨unpending, unhalted, more, ⟨a, active⟩, unsheltered⟩ := fit.of_waiting waits
    have rests : calm x = x.resting := if_pos waits
    rw [quieted_of_ordinary asked, rests]
    have found : x.state ≠ .lost := fun is => by rw [is] at waits; cases waits
    exact { fit with
      halted := fun is => absurd is (resting_ne x nofun nofun)
      halts := fun some => by rw [unhalted] at some; cases some
      idle := ahead_of_resting
      pending := fun some => by rw [unpending] at some; cases some
      legless := fun none => by rw [active] at none; cases none
      down := fun is => absurd is (resting_ne x nofun nofun)
      once := fun _ => fit.once found
      lost := fun is => absurd is (resting_ne x nofun nofun)
      waiting := ⟨fun is => absurd is (resting_ne x nofun nofun), fun ⟨_, _, asks⟩ => by cases asks⟩
      asks := nofun
      seeks := nofun }
  · have rests : calm x = x.state := if_neg other
    rw [quieted_of_free free, rests]
    exact fit

/-- A change of state alone, for a machine that does not wait and is not LOST. -/
theorem Fit.move (fit : Fit p D x) (found : x.state ≠ .lost) (other : x.state ≠ .waiting) (t : MState) (kept : t ≠ .lost)
    (calm : t ≠ .waiting) (halted : t = .halted → x.halts.isEmpty = false)
    (halts : x.halts.isEmpty = false → t = .halted ∨ t = .stoodDown) (idle : t = .idle → x.ahead = [])
    (down : t = .stoodDown → x.active = none ∧ x.staged = none)
    (stays : x.state = .stoodDown → t = .stoodDown ∨ x.ahead = []) : Fit p D { x with state := t } :=
  have free (P : Prop) (asked : ∃ count target, x.request = some (.ordinary count target)) : P :=
    absurd (fit.waiting.2 asked) other
  { fit with
    halted := halted
    halts := fun some => (halts some).imp_right .inr
    idle := idle
    pending := fun some => ⟨calm, kept⟩
    legless := fun none some => by
      rcases fit.legless none some with cancelled | astray | is | is
      · exact .inl cancelled
      · exact .inr (.inl astray)
      · rcases stays is with down | here
        · exact .inr (.inr (.inl down))
        · exact absurd here some
      · exact absurd is found
    down := down
    once := fun _ => fit.once found
    lost := fun is => absurd is kept
    waiting := ⟨fun is => absurd is calm, fun asked => free _ asked⟩
    seeks := fun c asked => ⟨kept, (fit.seeks c asked).2⟩ }

end

/-! ### Spans -/

/-- R71: six cells in a row are different cells. -/
theorem NoReturn.nodup_window {cells : List Nat} (apart : NoReturn cells) (i : Nat) {n : Nat} (few : n ≤ 6) :
    ((cells.drop i).take n).Nodup := by
  refine List.nodup_iff_getElem?_ne_getElem?.2 fun a b before inside same => ?_
  have short : b < n := by
    rw [List.length_take] at inside
    omega
  rw [List.getElem?_take_of_lt (by omega), List.getElem?_take_of_lt short, List.getElem?_drop, List.getElem?_drop] at same
  have there : i + b < cells.length := by
    rw [List.length_take, List.length_drop] at inside
    omega
  rw [List.getElem?_eq_getElem there] at same
  exact apart (i + a) (i + b) _ (by omega) (by omega) same (List.getElem?_eq_getElem there)

section
variable {p : Prop} {D : Set Nat} {x : Scrubber} {a : ActiveLeg}

/-- R68: the holding of a machine with a leg is a stretch of it. -/
theorem holding_eq_window (here : a.leg.cells[a.index]? = some x.current) (n : Nat)
    (ahead : x.ahead = (a.leg.cells.drop (a.index + 1)).take n) (unsheltered : x.refuge = none) :
    holding x = (a.leg.cells.drop a.index).take (n + 1) := by
  obtain ⟨inside, same⟩ := List.getElem?_eq_some_iff.1 here
  rw [List.drop_eq_getElem_cons inside, same, List.take_succ_cons, ← ahead]
  unfold holding
  rw [unsheltered]
  simp

/-- R73: the ahead list with a span at its end is the stretch of the leg that follows the current cell. -/
theorem Fit.ahead_span (fit : Fit p D x) (drives : x.active = some a) (count : Nat) :
    (x.ahead ++ x.span count).length ≤ 4 ∧ a.index + (x.ahead ++ x.span count).length < a.leg.cells.length ∧
      x.ahead ++ x.span count = (a.leg.cells.drop (a.index + 1)).take (x.ahead ++ x.span count).length := by
  obtain ⟨-, -, inside, ahead⟩ := fit.active a drives
  have few := fit.few
  have whole : x.ahead ++ x.span count =
      (a.leg.cells.drop (a.index + 1)).take (x.ahead.length + min count (4 - x.ahead.length)) := by
    rw [List.take_add, ← ahead, span_of_active drives count, List.drop_drop,
      show a.index + 1 + x.ahead.length = a.index + x.ahead.length + 1 by omega]
  have length := congrArg List.length whole
  rw [List.length_take, List.length_drop] at length
  refine ⟨by omega, by omega, ?_⟩
  rw [length, ← List.length_drop, ← List.take_eq_take_min]
  exact whole

theorem Fit.unsheltered (fit : Fit p D x) (drives : x.active = some a) : x.refuge = none := by
  cases held : x.refuge with
  | none => rfl
  | some r =>
    obtain ⟨-, none, -⟩ := fit.refuge (by rw [held]; rfl)
    rw [drives] at none
    cases none

/-- R28: the span joins the ahead list. -/
theorem Fit.granted (fit : Fit p D x) (drives : x.active = some a) (unpending : x.withdrawal = none)
    (unhalted : x.halts.isEmpty = true) (free : x.request = none) (count : Nat) :
    Fit p D { x with ahead := x.ahead ++ x.span count, state := .running } := by
  obtain ⟨few, inside, ahead⟩ := fit.ahead_span drives count
  obtain ⟨apart, here, -, -⟩ := fit.active a drives
  have still (P : Prop) (none : x.active = none) : P := by rw [drives] at none; cases none
  exact { fit with
    halted := nofun
    halts := fun some => by rw [unhalted] at some; cases some
    idle := nofun
    pending := fun some => by rw [unpending] at some; cases some
    deferred := fun some => by rw [unpending] at some; cases some
    legless := fun none => still _ none
    down := nofun
    active := fun b is => by
      cases drives.symm.trans is
      exact ⟨apart, here, inside, ahead⟩
    few := few
    refuge := fun some => still _ (fit.refuge some).2.1
    once := fun _ => by
      rw [holding_eq_window (x := { x with ahead := x.ahead ++ x.span count, state := .running }) here _ ahead
        (fit.unsheltered drives)]
      exact NoReturn.nodup_window apart _ (by omega)
    lost := nofun
    waiting := ⟨nofun, fun ⟨_, _, asks⟩ => by rw [free] at asks; cases asks⟩
    asks := fun _ _ asks => by rw [free] at asks; cases asks
    seeks := fun _ asks => by rw [free] at asks; cases asks }

/-- R29: the machine waits for a span. -/
theorem Fit.waits (fit : Fit p D x) (found : x.state ≠ .lost) (unpending : x.withdrawal = none)
    (unhalted : x.halts.isEmpty = true) {count : Nat} (some' : 1 ≤ count) (few : count ≤ 4) (more : x.remaining ≠ [])
    (drives : x.active = some a) (t : Target) :
    Fit p D { x with request := some (.ordinary count t), state := .waiting } := by
  have still (P : Prop) (none : x.active = none) : P := by rw [drives] at none; cases none
  exact { fit with
    halted := nofun
    halts := fun some => by rw [unhalted] at some; cases some
    idle := nofun
    pending := fun some => by rw [unpending] at some; cases some
    legless := fun none => still _ none
    down := nofun
    once := fun _ => fit.once found
    lost := nofun
    waiting := ⟨fun _ => ⟨_, _, rfl⟩, fun _ => rfl⟩
    asks := fun count target asks => by cases asks; exact ⟨some', few, more⟩
    seeks := nofun }

end

/-! ### Halts -/

theorem isEmpty_write_true (h : Halts) (r : HaltReason) : (h.write true r).isEmpty = false := by
  cases r <;> simp [Halts.write, Halts.isEmpty]

theorem position_write_true {h : Halts} {r : HaltReason} (astray : h.position = true) : (h.write true r).position = true := by
  cases r <;> simp [Halts.write, astray]

theorem position_write_false {h : Halts} {r : HaltReason} (other : r ≠ .position) : (h.write false r).position = h.position := by
  cases r with
  | position => exact absurd rfl other
  | _ => rfl

theorem isEmpty_of_write_false {h : Halts} {r : HaltReason} (some : (h.write false r).isEmpty = false) : h.isEmpty = false := by
  unfold Halts.isEmpty at some ⊢
  cases r <;> simp only [Halts.write, Bool.false_or, Bool.or_false, Bool.not_eq_false', Bool.or_eq_true] at some ⊢ <;> tauto

theorem isEmpty_of_position {h : Halts} (astray : h.position = true) : h.isEmpty = false := by
  unfold Halts.isEmpty
  rw [astray]
  simp

theorem isEmpty_of_has {h : Halts} {r : HaltReason} (has : h.has r = true) : h.isEmpty = false := by
  cases r <;> simp only [Halts.has] at has <;> simp [Halts.isEmpty, has]

section
variable {p : Prop} {D : Set Nat} {x : Scrubber}

/-- R115: one more reason, for a machine whose state stands. -/
theorem Fit.haltMore (fit : Fit p D x) (r : HaltReason) (stays : x.state = .halted ∨ x.state = .lost ∨ x.state = .stoodDown) :
    Fit p D { x with halts := x.halts.write true r } :=
  { fit with
    halted := fun _ => isEmpty_write_true _ _
    halts := fun _ => stays
    legless := fun none some => by
      rcases fit.legless none some with cancelled | astray | is
      · exact .inl cancelled
      · exact .inr (.inl (position_write_true astray))
      · exact .inr (.inr is)
    staged := fun leg next => by
      obtain ⟨apart, long, start⟩ := fit.staged leg next
      exact ⟨apart, long, start.imp_right fun ⟨astray, rest⟩ => ⟨position_write_true astray, rest⟩⟩ }

/-- R115: the first reason halts a machine that does not wait. -/
theorem Fit.haltNew (fit : Fit p D x) (r : HaltReason) (found : x.state ≠ .lost) (up : x.state ≠ .stoodDown)
    (other : x.state ≠ .waiting) : Fit p D { x with halts := x.halts.write true r, state := .halted } :=
  have free (P : Prop) (asked : ∃ count target, x.request = some (.ordinary count target)) : P :=
    absurd (fit.waiting.2 asked) other
  { fit with
    halted := fun _ => isEmpty_write_true _ _
    halts := fun _ => .inl rfl
    idle := nofun
    pending := fun _ => ⟨nofun, nofun⟩
    legless := fun none some => by
      rcases fit.legless none some with cancelled | astray | is | is
      · exact .inl cancelled
      · exact .inr (.inl (position_write_true astray))
      · exact absurd is up
      · exact absurd is found
    down := nofun
    staged := fun leg next => by
      obtain ⟨apart, long, start⟩ := fit.staged leg next
      exact ⟨apart, long, start.imp_right fun ⟨astray, rest⟩ => ⟨position_write_true astray, rest⟩⟩
    once := fun _ => fit.once found
    lost := nofun
    waiting := ⟨nofun, fun asked => free _ asked⟩
    seeks := fun c asked => ⟨nofun, (fit.seeks c asked).2⟩ }

/-- R116: a reason goes, and the state stands; POSITION goes only with the ahead cells and the staged leg. -/
theorem Fit.unhalt (fit : Fit p D x) {r : HaltReason} (astray : r = .position → x.ahead = [] ∧ x.staged = none)
    (still : x.state = .halted → (x.halts.write false r).isEmpty = false) :
    Fit p D { x with halts := x.halts.write false r } :=
  { fit with
    halted := still
    halts := fun some => fit.halts (isEmpty_of_write_false some)
    legless := fun none some => by
      rcases fit.legless none some with cancelled | position | is
      · exact .inl cancelled
      · exact .inr (.inl ((position_write_false fun same => some (astray same).1).trans position))
      · exact .inr (.inr is)
    staged := fun leg next => by
      obtain ⟨apart, long, start⟩ := fit.staged leg next
      refine ⟨apart, long, start.imp_right fun ⟨position, rest⟩ => ⟨?_, rest⟩⟩
      refine (position_write_false fun same => ?_).trans position
      have none := (astray same).2
      rw [none] at next
      cases next }

theorem resumed_ne (x : Scrubber) {t : MState} (idle : t ≠ .idle) (running : t ≠ .running) : x.resumed ≠ t := by
  unfold Scrubber.resumed
  split
  · exact running.symm
  · exact idle.symm

theorem ahead_of_resumed (is : x.resumed = .idle) : x.ahead = [] := by
  unfold Scrubber.resumed at is
  split at is
  · cases is
  · next none => exact Classical.byContradiction fun some => none (.inr some)

/-- R116: the last reason goes, and the machine resumes. -/
theorem Fit.resumed (fit : Fit p D x) {r : HaltReason} (astray : r = .position → x.ahead = [] ∧ x.staged = none)
    (halted : x.state = .halted) (last : (x.halts.write false r).isEmpty = true) :
    Fit p D { x with halts := x.halts.write false r, state := x.resumed } :=
  have gone (other : r ≠ .position) (position : x.halts.position = true) (P : Prop) : P := by
    have some := isEmpty_of_position ((position_write_false other).trans position)
    rw [last] at some
    cases some
  have free (P : Prop) (asked : ∃ count target, x.request = some (.ordinary count target)) : P := by
    have is := fit.waiting.2 asked
    rw [halted] at is
    cases is
  { fit with
    halted := fun is => absurd is (resumed_ne x nofun nofun)
    halts := fun some => by rw [last] at some; cases some
    idle := ahead_of_resumed
    pending := fun _ => ⟨resumed_ne x nofun nofun, resumed_ne x nofun nofun⟩
    legless := fun none some => by
      rcases fit.legless none some with cancelled | position | is | is
      · exact .inl cancelled
      · exact gone (fun same => some (astray same).1) position _
      all_goals
        rw [halted] at is
        cases is
    down := fun is => absurd is (resumed_ne x nofun nofun)
    staged := fun leg next => by
      obtain ⟨apart, long, start⟩ := fit.staged leg next
      refine ⟨apart, long, start.imp_right fun ⟨position, _⟩ => gone (fun same => ?_) position _⟩
      have none := (astray same).2
      rw [none] at next
      cases next
    once := fun _ => fit.once (by rw [halted]; nofun)
    lost := fun is => absurd is (resumed_ne x nofun nofun)
    waiting := ⟨fun is => absurd is (resumed_ne x nofun nofun), fun asked => free _ asked⟩
    seeks := fun c asked => ⟨resumed_ne x nofun nofun, (fit.seeks c asked).2⟩ }

end

end Sys2Proof.Laws
end

section
/-! ## How a record goes on fitting: legs, arrivals, withdrawals -/

namespace Sys2Proof.Laws

open Sys2Proof Sys2Proof.Machine Sys2Proof.Safety

-- One theorem at a time, as in the tests above: side by side their threads' stacks take the memory.
set_option Elab.async false

section
variable {p : Prop} {D : Set Nat} {x : Scrubber}

/-- A machine with no leg does not wait for cells of one. -/
theorem Fit.not_waiting (fit : Fit p D x) (legless : x.active = none) : x.state ≠ .waiting := fun waits => by
  obtain ⟨-, -, -, ⟨a, drives⟩, -⟩ := fit.of_waiting waits
  rw [legless] at drives
  cases drives

theorem Fit.not_ordinary (fit : Fit p D x) (other : x.state ≠ .waiting) (P : Prop)
    (asked : ∃ count target, x.request = some (.ordinary count target)) : P := absurd (fit.waiting.2 asked) other

theorem toIdle_ne {t u : MState} (idle : u ≠ .idle) (halted : u ≠ .halted) (down : u ≠ .stoodDown) (lost : u ≠ .lost) :
    t.toIdle ≠ u := by
  cases t with
  | halted => exact halted.symm
  | stoodDown => exact down.symm
  | lost => exact lost.symm
  | _ => exact idle.symm

@[simp] theorem toIdle_eq_halted {t : MState} : t.toIdle = .halted ↔ t = .halted := by cases t <;> simp [MState.toIdle]

@[simp] theorem toIdle_eq_stoodDown {t : MState} : t.toIdle = .stoodDown ↔ t = .stoodDown := by
  cases t <;> simp [MState.toIdle]

@[simp] theorem toIdle_eq_lost {t : MState} : t.toIdle = .lost ↔ t = .lost := by cases t <;> simp [MState.toIdle]

/-! ### Legs -/

/-- R79: a machine with no cell ahead becomes IDLE. -/
theorem Fit.toIdle (fit : Fit p D x) (here : x.ahead = []) (other : x.state ≠ .waiting) :
    Fit p D { x with state := x.state.toIdle } :=
  { fit with
    halted := fun is => fit.halted (toIdle_eq_halted.1 is)
    halts := fun some => (fit.halts some).imp toIdle_eq_halted.2 (.imp toIdle_eq_lost.2 toIdle_eq_stoodDown.2)
    idle := fun _ => here
    pending := fun some => ⟨toIdle_ne nofun nofun nofun nofun, fun is => (fit.pending some).2 (toIdle_eq_lost.1 is)⟩
    legless := fun _ some => absurd here some
    down := fun is => fit.down (toIdle_eq_stoodDown.1 is)
    once := fun found => fit.once fun is => found (toIdle_eq_lost.2 is)
    lost := fun is => fit.lost (toIdle_eq_lost.1 is)
    waiting := ⟨fun is => absurd is (toIdle_ne nofun nofun nofun nofun), fit.not_ordinary other _⟩
    seeks := fun c asked => ⟨fun is => (fit.seeks c asked).1 (toIdle_eq_lost.1 is), (fit.seeks c asked).2⟩ }

/-- R78: the staged leg becomes active. -/
theorem Fit.promoted (fit : Fit p D x) (legless : x.active = none) (here : x.ahead = []) (settled : x.withdrawal = none)
    {leg : Leg} (next : x.staged = some leg) (start : leg.cells.head? = some x.current) :
    Fit p D { x with active := some ⟨leg, 0⟩, staged := none } :=
  have still (P : Prop) (none : x.staged = none) : P := by rw [next] at none; cases none
  { fit with
    deferred := fun some => by rw [settled] at some; cases some
    legless := nofun
    down := fun is => still _ (fit.down is).2
    active := fun a is => by
      cases is
      obtain ⟨apart, long, -⟩ := fit.staged leg next
      refine ⟨apart, ?_, ?_, ?_⟩
      · rw [← start, List.head?_eq_getElem?]
      · show 0 + x.ahead.length < _
        rw [here]
        show 0 + 0 < leg.cells.length
        omega
      · show x.ahead = _
        rw [here]
        rfl
    staged := nofun
    refuge := fun some => still _ (fit.refuge some).2.2
    lost := fun is => still _ (fit.lost is).2.2
    asks := fun count target asked => absurd (fit.waiting.2 ⟨count, target, asked⟩) (fit.not_waiting legless)
    seeks := fun c asked => still _ (fit.seeks c asked).2.2.2.2
    standby := fun is => still _ (fit.standby is).2
    route := fun a is => by
      cases is
      exact fit.next leg next
    next := nofun }

/-- R82: the staged leg is discarded. -/
theorem Fit.unstaged (fit : Fit p D x) : Fit p D { x with staged := none } :=
  { fit with
    legless := fun none some => (fit.legless none some).imp_left fun ⟨cancelled, _⟩ => ⟨cancelled, rfl⟩
    down := fun is => ⟨(fit.down is).1, rfl⟩
    staged := nofun
    refuge := fun some => ⟨(fit.refuge some).1, (fit.refuge some).2.1, rfl⟩
    lost := fun is => ⟨(fit.lost is).1, (fit.lost is).2.1, rfl⟩
    seeks := fun c asked => by
      obtain ⟨found, unsheltered, here, legless, -⟩ := fit.seeks c asked
      exact ⟨found, unsheltered, here, legless, rfl⟩
    standby := fun is => ⟨(fit.standby is).1, rfl⟩
    next := nofun }

/-- R72: a leg that passed the checks is staged. -/
theorem Fit.loaded (fit : Fit p D x) (night : ¬ p) (found : x.state ≠ .lost) (up : x.state ≠ .stoodDown)
    (keeps : (x.withdrawal.any fun w => w.cancel) = false) (unsheltered : x.refugeInHand = false) {leg : Leg}
    (apart : NoReturn leg.cells) (long : 2 ≤ leg.cells.length) (start : leg.cells.head? = some x.anchor)
    (defined : ∀ c ∈ leg.cells, c ∈ D) : Fit p D { x with staged := some leg } :=
  { fit with
    legless := fun none some => by
      rcases fit.legless none some with ⟨cancelled, -⟩ | rest
      · rw [keeps] at cancelled
        cases cancelled
      · exact .inr rest
    down := fun is => absurd is up
    staged := fun leg' is => by
      cases is
      exact ⟨apart, long, .inl start⟩
    refuge := fun some => by
      unfold Scrubber.refugeInHand at unsheltered
      rw [some] at unsheltered
      cases unsheltered
    lost := fun is => absurd is found
    seeks := fun c asked => by
      unfold Scrubber.refugeInHand Scrubber.refugeWait at unsheltered
      rw [asked] at unsheltered
      simp at unsheltered
    standby := fun is => absurd is night
    next := fun leg' is => by
      cases is
      exact defined }

/-! ### Arrivals -/

theorem getElem?_ahead {a : ActiveLeg} (fit : Fit p D x) (drives : x.active = some a) {j : Nat} (pos : j < x.ahead.length) :
    a.leg.cells[a.index + (j + 1)]? = some (x.ahead.getD j x.current) := by
  obtain ⟨-, -, inside, ahead⟩ := fit.active a drives
  rw [List.getD_eq_getElem?_getD, ahead, List.getElem?_take_of_lt pos, List.getElem?_drop,
    show a.index + (j + 1) = a.index + 1 + j by omega, List.getElem?_eq_getElem (by omega)]
  rfl

theorem arrivedAt_state (x : Scrubber) (j : Nat) {t : MState} (running : t ≠ .running) :
    (x.arrivedAt j).state = t → x.state = t := by
  show (if x.state = .stalled then .running else x.state) = t → _
  split
  · exact fun is => absurd is.symm running
  · exact id

theorem arrivedAt_state_eq {j : Nat} {t : MState} (stalled : t ≠ .stalled) (is : x.state = t) : (x.arrivedAt j).state = t := by
  show (if x.state = .stalled then .running else x.state) = t
  rw [is, if_neg stalled]

theorem remaining_arrivedAt (x : Scrubber) {j : Nat} (pos : j < x.ahead.length) : (x.arrivedAt j).remaining = x.remaining := by
  unfold Scrubber.remaining Scrubber.arrivedAt
  cases x.active with
  | none => rfl
  | some a =>
    simp only [Option.map_some, List.length_drop]
    congr 1
    omega

/-- R74: the cells kept at an arrival. -/
theorem holding_arrivedAt (x : Scrubber) {j : Nat} (pos : j < x.ahead.length) :
    holding x = x.leftBehind j ++ holding (x.arrivedAt j) := by
  refine congrArg (x.current :: ·) ?_
  show x.ahead ++ _ = x.ahead.take j ++ x.ahead.getD j x.current :: (x.ahead.drop (j + 1) ++ _)
  rw [← List.cons_append, ← List.append_assoc, List.getD_eq_getElem?_getD, List.getElem?_eq_getElem pos, Option.getD_some,
    ← List.drop_eq_getElem_cons pos, List.take_append_drop]
  rfl

/-- R74: an accepted arrival. -/
theorem Fit.arrivedAt (fit : Fit p D x) (found : x.state ≠ .lost) {j : Nat} (pos : j < x.ahead.length) :
    Fit p D (x.arrivedAt j) :=
  have some : x.ahead ≠ [] := List.ne_nil_of_length_pos (by omega)
  have unsheltered : x.refuge.isSome ≠ true := fun held => some (fit.refuge held).1
  { fit with
    halted := fun is => fit.halted (arrivedAt_state x j nofun is)
    halts := fun halted => by
      rcases fit.halts halted with is | is | is
      · exact .inl (arrivedAt_state_eq nofun is)
      · exact .inr (.inl (arrivedAt_state_eq nofun is))
      · exact .inr (.inr (arrivedAt_state_eq nofun is))
    idle := fun is => absurd (fit.idle (arrivedAt_state x j nofun is)) some
    pending := fun pending => ⟨fun is => (fit.pending pending).1 (arrivedAt_state x j nofun is),
      fun is => (fit.pending pending).2 (arrivedAt_state x j nofun is)⟩
    deferred := fun deferred => absurd (fit.deferred deferred).2 some
    legless := fun legless _ => by
      rcases fit.legless (Option.map_eq_none_iff.1 legless) some with cancelled | astray | is | is
      · exact .inl cancelled
      · exact .inr (.inl astray)
      · exact .inr (.inr (.inl (arrivedAt_state_eq nofun is)))
      · exact .inr (.inr (.inr (arrivedAt_state_eq nofun is)))
    down := fun is => by
      obtain ⟨legless, unstaged⟩ := fit.down (arrivedAt_state x j nofun is)
      exact ⟨Option.map_eq_none_iff.2 legless, unstaged⟩
    active := fun b is => by
      obtain ⟨a, drives, rfl⟩ := Option.map_eq_some_iff.1 is
      obtain ⟨apart, -, inside, ahead⟩ := fit.active a drives
      have length : (x.arrivedAt j).ahead.length = x.ahead.length - (j + 1) := List.length_drop
      refine ⟨apart, getElem?_ahead fit drives pos, ?_, ?_⟩
      · rw [length]
        show a.index + (j + 1) + (x.ahead.length - (j + 1)) < a.leg.cells.length
        omega
      · rw [length]
        show x.ahead.drop (j + 1) = (a.leg.cells.drop (a.index + (j + 1) + 1)).take _
        rw [ahead, List.drop_take, List.drop_drop, ← ahead, show a.index + 1 + (j + 1) = a.index + (j + 1) + 1 by omega]
    staged := fun leg next => by
      obtain ⟨apart, long, start⟩ := fit.staged leg next
      refine ⟨apart, long, ?_⟩
      cases drives : x.active with
      | some a =>
        have kept : (x.arrivedAt j).anchor = x.anchor := by
          unfold Scrubber.anchor Scrubber.arrivedAt
          rw [drives]
          show List.getLastD _ _ = List.getLastD _ _
          have long : a.leg.cells ≠ [] := by
            obtain ⟨-, -, inside, -⟩ := fit.active a drives
            exact List.ne_nil_of_length_pos (by omega)
          rw [List.getLastD_eq_getLast?, List.getLastD_eq_getLast?, List.getLast?_eq_some_getLast long]
          rfl
        rw [kept]
        refine start.imp_right fun ⟨_, legless, _⟩ => ?_
        rw [drives] at legless
        cases legless
      | none =>
        refine .inr ⟨?_, Option.map_eq_none_iff.2 drives, ?_⟩
        · rcases fit.legless drives some with ⟨-, none⟩ | astray | is | is
          · cases none.symm.trans next
          · exact astray
          · cases (fit.down is).2.symm.trans next
          · exact absurd is found
        · cases deferred : x.withdrawal.any fun w => w.deferred with
          | false => exact deferred
          | true => exact absurd (fit.deferred deferred).2 some
    few := by
      show (x.ahead.drop (j + 1)).length ≤ 4
      rw [List.length_drop]
      have := fit.few
      omega
    refuge := fun held => absurd held unsheltered
    once := fun _ => by
      have once := fit.once found
      rw [holding_arrivedAt x pos] at once
      exact (List.nodup_append.1 once).2.1
    lost := fun is => absurd (arrivedAt_state x j (t := .lost) nofun is) found
    waiting := by
      refine Iff.trans ⟨arrivedAt_state x j (t := .waiting) nofun, arrivedAt_state_eq (t := .waiting) nofun⟩ fit.waiting
    asks := fun count target asked => by
      rw [remaining_arrivedAt x pos]
      exact fit.asks count target asked
    seeks := fun c asked => absurd (fit.seeks c asked).2.2.1 some
    standby := fun is => ⟨Option.map_eq_none_iff.2 (fit.standby is).1, (fit.standby is).2⟩
    route := fun b is => by
      obtain ⟨a, drives, rfl⟩ := Option.map_eq_some_iff.1 is
      exact fit.route a drives }

/-! ### Completion -/

/-- R76: at its leg's last cell a machine has no cell ahead, and a staged leg begins where it stands. -/
theorem Fit.of_legDone (fit : Fit p D x) (done : x.legDone = true) :
    (∃ a, x.active = some a) ∧ x.ahead = [] ∧ x.state ≠ .waiting ∧ x.anchor = x.current := by
  unfold Scrubber.legDone at done
  cases drives : x.active with
  | none =>
    rw [drives] at done
    cases done
  | some a =>
    rw [drives] at done
    have last : a.index + 1 = a.leg.cells.length := of_decide_eq_true done
    obtain ⟨-, here, inside, -⟩ := fit.active a drives
    have none : x.ahead = [] := List.eq_nil_of_length_eq_zero (by omega)
    refine ⟨⟨a, rfl⟩, none, fun waits => ?_, ?_⟩
    · obtain ⟨-, -, more, -⟩ := fit.of_waiting waits
      refine more ?_
      rw [remaining_of_active drives, List.drop_eq_nil_iff]
      omega
    · unfold Scrubber.anchor
      rw [drives]
      show a.leg.cells.getLastD x.current = x.current
      rw [List.getLastD_eq_getLast?, List.getLast?_eq_getElem?, show a.leg.cells.length - 1 = a.index by omega, here]
      rfl

/-- R68: a leg staged behind an active one begins at the anchor. -/
theorem Fit.start_of_active (fit : Fit p D x) {a : ActiveLeg} (drives : x.active = some a) {leg : Leg}
    (next : x.staged = some leg) : leg.cells.head? = some x.anchor := by
  obtain ⟨-, -, start⟩ := fit.staged leg next
  refine start.resolve_right fun ⟨_, legless, _⟩ => ?_
  cases legless.symm.trans drives

/-- R76: the active leg is done. -/
theorem Fit.completed (fit : Fit p D x) (done : x.legDone = true) : Fit p D { x with active := none } := by
  obtain ⟨⟨a, drives⟩, here, other, anchor⟩ := fit.of_legDone done
  exact { fit with
    deferred := fun deferred => ⟨rfl, here⟩
    legless := fun _ some => absurd here some
    down := fun is => ⟨rfl, (fit.down is).2⟩
    active := nofun
    staged := fun leg next => by
      obtain ⟨apart, long, -⟩ := fit.staged leg next
      exact ⟨apart, long, .inl ((fit.start_of_active drives next).trans (congrArg some anchor))⟩
    refuge := fun some => ⟨(fit.refuge some).1, rfl, (fit.refuge some).2.2⟩
    lost := fun is => ⟨(fit.lost is).1, rfl, (fit.lost is).2.2⟩
    asks := fun count target asked => absurd (fit.waiting.2 ⟨count, target, asked⟩) other
    seeks := fun c asked => by
      obtain ⟨-, -, -, legless, -⟩ := fit.seeks c asked
      rw [drives] at legless
      cases legless
    standby := fun is => ⟨rfl, (fit.standby is).2⟩
    route := nofun }

/-- R81: the decision on the next leg waits for the withdrawal. -/
theorem Fit.deferring (fit : Fit p D x) (legless : x.active = none) (here : x.ahead = [])
    (start : ∀ leg, x.staged = some leg → leg.cells.head? = some x.current) :
    Fit p D { x with withdrawal := x.withdrawal.map fun w => { w with deferred := true } } :=
  { fit with
    pending := fun some => fit.pending (by simpa using some)
    deferred := fun _ => ⟨legless, here⟩
    legless := fun _ some => absurd here some
    staged := fun leg next => by
      obtain ⟨apart, long, -⟩ := fit.staged leg next
      refine ⟨apart, long, .inl ?_⟩
      have anchor : x.anchor = x.current := by
        unfold Scrubber.anchor
        rw [legless]
      exact (start leg next).trans (congrArg some anchor.symm) }

/-! ### Withdrawals -/

theorem mergeWithdrawal_deferred (cancel : Bool) (refuge : Option Nat) (w : Option Withdrawal) :
    (mergeWithdrawal cancel refuge w).deferred = w.any fun w => w.deferred := by
  cases w <;> rfl

theorem mergeWithdrawal_cancel (cancel : Bool) (refuge : Option Nat) (w : Option Withdrawal) :
    (mergeWithdrawal cancel refuge w).cancel = ((w.any fun w => w.cancel) || cancel) := by
  cases w <;> simp [mergeWithdrawal]

/-- R126: one more WITHDRAW. -/
theorem Fit.withdrawing (fit : Fit p D x) (found : x.state ≠ .lost) (other : x.state ≠ .waiting) (cancel : Bool)
    (refuge : Option Nat) : Fit p D { x with withdrawal := some (mergeWithdrawal cancel refuge x.withdrawal) } :=
  have deferred : (mergeWithdrawal cancel refuge x.withdrawal).deferred = true → (x.withdrawal.any fun w => w.deferred) = true :=
    fun is => (mergeWithdrawal_deferred _ _ _).symm.trans is
  { fit with
    pending := fun _ => ⟨other, found⟩
    deferred := fun is => fit.deferred (deferred is)
    legless := fun none some => (fit.legless none some).imp_left fun ⟨cancelled, unstaged⟩ =>
      ⟨(mergeWithdrawal_cancel _ _ _).trans (by rw [cancelled]; rfl), unstaged⟩
    staged := fun leg next => by
      obtain ⟨apart, long, start⟩ := fit.staged leg next
      exact ⟨apart, long, start.imp_right fun ⟨astray, legless, plain⟩ =>
        ⟨astray, legless, (mergeWithdrawal_deferred _ _ _).trans plain⟩⟩ }

/-- R84: the legs are dropped, and the ahead cells are given up under the cancel flag. -/
theorem Fit.declined (fit : Fit p D x) (found : x.state ≠ .lost) (other : x.state ≠ .waiting) (some' : x.ahead ≠ [])
    (refuge : Option Nat) :
    Fit p D { x with active := none, staged := none, withdrawal := some (mergeWithdrawal true refuge x.withdrawal) } :=
  { fit with
    pending := fun _ => ⟨other, found⟩
    deferred := fun is => absurd (fit.deferred ((mergeWithdrawal_deferred _ _ _).symm.trans is)).2 some'
    legless := fun _ _ => .inl ⟨(mergeWithdrawal_cancel _ _ _).trans (Bool.or_true _), rfl⟩
    down := fun _ => ⟨rfl, rfl⟩
    active := nofun
    staged := nofun
    refuge := fun held => absurd (fit.refuge held).1 some'
    lost := fun is => absurd is found
    asks := fun count target asked => absurd (fit.waiting.2 ⟨count, target, asked⟩) other
    seeks := fun c asked => absurd (fit.seeks c asked).2.2.1 some'
    standby := fun _ => ⟨rfl, rfl⟩
    route := nofun
    next := nofun }

/-- The legs are dropped, where no cell is ahead. -/
theorem Fit.legsDropped (fit : Fit p D x) (other : x.state ≠ .waiting) (here : x.ahead = []) :
    Fit p D { x with active := none, staged := none } :=
  { fit with
    deferred := fun _ => ⟨rfl, here⟩
    legless := fun _ some => absurd here some
    down := fun _ => ⟨rfl, rfl⟩
    active := nofun
    staged := nofun
    refuge := fun _ => ⟨here, rfl, rfl⟩
    lost := fun is => ⟨(fit.lost is).1, rfl, rfl⟩
    asks := fun count target asked => absurd (fit.waiting.2 ⟨count, target, asked⟩) other
    seeks := fun c asked => ⟨(fit.seeks c asked).1, (fit.seeks c asked).2.1, here, rfl, rfl⟩
    standby := fun _ => ⟨rfl, rfl⟩
    route := nofun
    next := nofun }

/-- R132: the pending withdrawal ends or goes on; ahead cells without a leg need another ground. -/
theorem Fit.settling (fit : Fit p D x) (w : Option Withdrawal) (pending : w.isSome = true → x.withdrawal.isSome = true)
    (deferred : (w.any fun w => w.deferred) = true → (x.withdrawal.any fun w => w.deferred) = true)
    (ground : x.ahead = [] ∨ x.halts.position = true) : Fit p D { x with withdrawal := w } :=
  { fit with
    pending := fun some => fit.pending (pending some)
    deferred := fun is => fit.deferred (deferred is)
    legless := fun _ some => ground.elim (absurd · some) fun astray => .inr (.inl astray)
    staged := fun leg next => by
      obtain ⟨apart, long, start⟩ := fit.staged leg next
      refine ⟨apart, long, start.imp_right fun ⟨astray, legless, plain⟩ => ⟨astray, legless, ?_⟩⟩
      show (w.any fun w => w.deferred) = false
      cases is : w.any fun w => w.deferred with
      | false => rfl
      | true => exact (deferred is).symm.trans plain }

/-- R131: the ahead cells beyond the stop cell are given up. -/
theorem Fit.aheadGiven (fit : Fit p D x) (other : x.state ≠ .waiting) : Fit p D { x with ahead := [] } :=
  { fit with
    idle := fun _ => rfl
    deferred := fun is => ⟨(fit.deferred is).1, rfl⟩
    legless := fun _ some => absurd rfl some
    active := fun a drives => by
      obtain ⟨apart, here, inside, -⟩ := fit.active a drives
      refine ⟨apart, here, ?_, rfl⟩
      show a.index + 0 < _
      omega
    few := Nat.zero_le _
    refuge := fun held => ⟨rfl, (fit.refuge held).2⟩
    once := fun found => by
      have once := fit.once found
      refine once.sublist ?_
      exact .cons_cons _ (List.sublist_append_right _ _)
    asks := fun count target asked => absurd (fit.waiting.2 ⟨count, target, asked⟩) other
    seeks := fun c asked => by
      obtain ⟨found, unsheltered, -, rest⟩ := fit.seeks c asked
      exact ⟨found, unsheltered, rfl, rest⟩ }

/-- R132: the state of a machine whose legs are kept, with no cell ahead. -/
theorem Fit.keeping (fit : Fit p D x) (other : x.state ≠ .waiting) (here : x.ahead = []) :
    Fit p D { x with state := x.afterKeep } := by
  unfold Scrubber.afterKeep
  by_cases works : x.state = .running ∨ x.state = .stalled ∨ x.state = .idle
  · rw [if_pos works]
    have no {t : MState} (a : t ≠ .running) (b : t ≠ .stalled) (c : t ≠ .idle) : x.state ≠ t := fun is => by
      rw [is] at works
      rcases works with w | w | w
      · exact a w
      · exact b w
      · exact c w
    refine fit.move (no nofun nofun nofun) other _ ?_ ?_ ?_ (fun some => ?_) (fun _ => here) ?_
      (fun is => absurd is (no nofun nofun nofun))
    · split <;> exact nofun
    · split <;> exact nofun
    · split <;> exact nofun
    · rcases fit.halts some with is | is | is
      all_goals exact absurd is (no nofun nofun nofun)
    · split <;> exact nofun
  · rw [if_neg works]
    exact fit

/-! ### Refuges -/

/-- R26: a cell the machine does not hold becomes its refuge. -/
theorem Fit.sheltered (fit : Fit p D x) (here : x.ahead = []) (legless : x.active = none) (unstaged : x.staged = none)
    (free : x.request = none) (found : x.state ≠ .lost) {c : Nat} (other : c ≠ x.current) :
    Fit p D { x with refuge := some c } :=
  { fit with
    refuge := fun _ => ⟨here, legless, unstaged⟩
    once := fun _ => by
      show (x.current :: x.ahead ++ [c]).Nodup
      rw [here]
      simpa using Ne.symm other
    lost := fun is => absurd is found
    seeks := fun c asked => by rw [free] at asked; cases asked }

/-- R135: the machine stands on its refuge. -/
theorem Fit.arrivedRefuge (fit : Fit p D x) {r : Nat} (held : x.refuge = some r) :
    Fit p D { x with current := r, refuge := none } := by
  obtain ⟨here, legless, unstaged⟩ := fit.refuge (by rw [held]; rfl)
  exact { fit with
    active := fun a drives => by rw [legless] at drives; cases drives
    staged := fun leg next => by rw [unstaged] at next; cases next
    refuge := nofun
    once := fun _ => by
      show (r :: x.ahead ++ []).Nodup
      rw [here]
      simp
    lost := fun is => ⟨rfl, (fit.lost is).2⟩
    seeks := fun c asked => by
      have none := (fit.seeks c asked).2.1
      rw [held] at none
      cases none }

/-- R133: the machine waits for its refuge. -/
theorem Fit.seeking (fit : Fit p D x) (found : x.state ≠ .lost) (other : x.state ≠ .waiting) (here : x.ahead = [])
    (legless : x.active = none) (unstaged : x.staged = none) (unsheltered : x.refuge = none) (r : Nat) :
    Fit p D { x with request := some (.refuge r) } :=
  { fit with
    waiting := ⟨fun is => absurd is other, fun ⟨_, _, asks⟩ => by cases asks⟩
    asks := nofun
    seeks := fun _ _ => ⟨found, unsheltered, here, legless, unstaged⟩ }

/-- A refuge wait ends. -/
theorem Fit.unseeking (fit : Fit p D x) (other : x.state ≠ .waiting) : Fit p D { x with request := none } :=
  { fit with
    waiting := ⟨fun is => absurd is other, fun ⟨_, _, asks⟩ => by cases asks⟩
    asks := nofun
    seeks := nofun }

/-! ### The supervisor -/

/-- R110: the record of a LOST machine. -/
theorem Fit.losing (fit : Fit p D x) :
    Fit p D { x with
      refuge := none, withdrawal := none, active := none, staged := none, state := .lost, request := none } where
  halted := nofun
  halts _ := .inr (.inl rfl)
  idle := nofun
  pending := nofun
  deferred := nofun
  legless _ _ := .inr (.inr (.inr rfl))
  down := nofun
  active := nofun
  staged := nofun
  few := fit.few
  refuge := nofun
  once found := absurd rfl found
  lost _ := ⟨rfl, rfl, rfl⟩
  waiting := ⟨nofun, fun ⟨_, _, asks⟩ => by cases asks⟩
  asks := nofun
  seeks := nofun
  standby _ := ⟨rfl, rfl⟩
  route := nofun
  next := nofun

/-- R119: the record of a machine stood down, which does not wait. -/
theorem Fit.standing (fit : Fit p D x) (found : x.state ≠ .lost) (other : x.state ≠ .waiting) :
    Fit p D { x with active := none, staged := none, state := .stoodDown } :=
  { fit with
    halted := nofun
    halts := fun _ => .inr (.inr rfl)
    idle := nofun
    pending := fun _ => ⟨nofun, nofun⟩
    deferred := fun is => ⟨rfl, (fit.deferred is).2⟩
    legless := fun _ _ => .inr (.inr (.inl rfl))
    down := fun _ => ⟨rfl, rfl⟩
    active := nofun
    staged := nofun
    refuge := fun held => ⟨(fit.refuge held).1, rfl, rfl⟩
    once := fun _ => fit.once found
    lost := nofun
    waiting := ⟨nofun, fit.not_ordinary other _⟩
    asks := fun count target asked => absurd (fit.waiting.2 ⟨count, target, asked⟩) other
    seeks := fun c asked => ⟨nofun, (fit.seeks c asked).2.1, (fit.seeks c asked).2.2.1, rfl, rfl⟩
    standby := fun _ => ⟨rfl, rfl⟩
    route := nofun
    next := nofun }

/-- R123: the record of a machine placed afresh on `c`, with no withdrawal pending. -/
theorem fit_restored (p : Prop) (D : Set Nat) (x : Scrubber) (c : Nat) (settled : x.withdrawal = none) :
    Fit p D { x with
      current := c, ahead := [], refuge := none, active := none, staged := none, request := none
      state := if x.halts.isEmpty then .idle else .halted } := by
  have state {t : MState} (idle : t ≠ .idle) (halted : t ≠ .halted) : (if x.halts.isEmpty then MState.idle else .halted) ≠ t := by
    split
    · exact idle.symm
    · exact halted.symm
  exact {
    halted := fun is => by
      cases empty : x.halts.isEmpty with
      | false => rfl
      | true =>
        rw [empty] at is
        cases is
    halts := fun some => .inl (by rw [some]; rfl)
    idle := fun _ => rfl
    pending := fun some => by rw [settled] at some; cases some
    deferred := fun some => by rw [settled] at some; cases some
    legless := fun _ some => absurd rfl some
    down := fun is => absurd is (state nofun nofun)
    active := nofun
    staged := nofun
    few := Nat.zero_le _
    refuge := nofun
    once := fun _ => List.nodup_singleton c
    lost := fun is => absurd is (state nofun nofun)
    waiting := ⟨fun is => absurd is (state nofun nofun), fun ⟨_, _, asks⟩ => by cases asks⟩
    asks := nofun
    seeks := nofun
    standby := fun _ => ⟨rfl, rfl⟩
    route := nofun
    next := nofun }

/-- R105: the record at enrolment. -/
theorem fit_enrolled (p : Prop) (D : Set Nat) (rank dock : Nat) : Fit p D (bare (Scrubber.enrolled rank dock)) where
  halted := nofun
  halts := nofun
  idle _ := rfl
  pending := nofun
  deferred := nofun
  legless _ some := absurd rfl some
  down := nofun
  active := nofun
  staged := nofun
  few := Nat.zero_le _
  refuge := nofun
  once _ := List.nodup_singleton dock
  lost := nofun
  waiting := ⟨nofun, nofun⟩
  asks := nofun
  seeks := nofun
  standby _ := ⟨rfl, rfl⟩
  route := nofun
  next := nofun

end

end Sys2Proof.Laws
end

section
/-! ## The work of the floor, said on scenes -/

namespace Sys2Proof.Laws

open Sys2Proof Sys2Proof.Machine Sys2Proof.Safety

-- One theorem at a time, as in the tests above: side by side their threads' stacks take the memory.
set_option Elab.async false

/-! ### Cells -/

theorem Scene.occupyAll_nil (s : Scene) (k : Option (Bool × Nat)) : s.occupyAll [] k = s := by
  unfold Scene.occupyAll
  simp only [List.not_mem_nil, if_false]

theorem Scene.occupyAll_cons (s : Scene) (c : Nat) (cs : List Nat) (k : Option (Bool × Nat)) :
    s.occupyAll (c :: cs) k = (s.occupy c k).occupyAll cs k := by
  unfold Scene.occupyAll Scene.occupy
  refine Scene.ext rfl (funext fun d => ?_) rfl rfl rfl
  by_cases here : d = c <;> by_cases inside : d ∈ cs <;> simp [here, inside]
  all_goals cases s.claim c <;> simp

/-- Cells claimed or given up one after the other. -/
theorem scene_foldl {op : Floor → Nat → Floor} {k : Option (Bool × Nat)} (each : ∀ f c, scene (op f c) = (scene f).occupy c k)
    (cs : List Nat) (f : Floor) : scene (cs.foldl op f) = (scene f).occupyAll cs k := by
  induction cs generalizing f with
  | nil => exact (Scene.occupyAll_nil _ _).symm
  | cons c cs ih => rw [List.foldl_cons, ih, each, Scene.occupyAll_cons]

theorem claimOf_guardOcc (k : Control) (f : Floor) (c : Nat) : claimOf (f.guardOcc k c) = none := by
  have free (b : Prop) [Decidable b] (t : Nat) : claimOf (if b then .free else .guarded t) = none := by
    split <;> rfl
  exact free _ _

theorem scene_release (k : Control) (m : Nat) (f : Floor) (c : Nat) : scene (f.release k m c) = (scene f).occupy c none := by
  unfold Floor.release
  rw [scene_quitLaneOf, scene_setOcc, claimOf_guardOcc]

theorem scene_releaseWet (k : Control) (m flow : Nat) (f : Floor) (c : Nat) :
    scene (f.releaseWet k m flow c) = (scene f).occupy c none := by
  unfold Floor.releaseWet
  split
  · next none =>
    refine Scene.ext rfl (funext fun d => ?_) rfl rfl rfl
    show (scene f).claim d = if d = c then _ else _
    split
    · next here =>
      subst here
      show Option.map _ _ = Option.map _ (Option.map _ _)
      rw [none]
      rfl
    · rfl
  · next z known =>
    have washed (g : Floor) (h : Nat → Cell → Cell) (same : ∀ d z, claimOf (h d z).occ = claimOf z.occ ∧
        (h d z).waiters = z.waiters ∧ (h d z).lane = z.lane) : scene { g with cells := g.cells.upd c (h c) } = scene g := by
      rw [Table.upd_eq_each]
      refine scene_each g (fun d z => if d = c then h c z else z) fun d z => ?_
      split
      · exact same c z
      · exact ⟨rfl, rfl, rfl⟩
    have wet : scene (f.setOcc c (.wet (k.now + (dryingAnswer k.drying z.floorClass flow).1 * 1000)
        (dryingAnswer k.drying z.floorClass flow).2)) = (scene f).occupy c none := scene_setOcc f c _
    dsimp only
    split
    · rw [scene_raise]
      exact (washed _ (fun _ y => { y with washes := bumpTo 255 y.washes, lastWashed := some k.clock })
        fun _ _ => ⟨rfl, rfl, rfl⟩).trans ((scene_quitLaneOf _ _ _).trans wet)
    · exact (washed _ (fun _ y => { y with washes := bumpTo 255 y.washes, lastWashed := some k.clock })
        fun _ _ => ⟨rfl, rfl, rfl⟩).trans ((scene_quitLaneOf _ _ _).trans wet)

theorem scene_releaseBehind (k : Control) (m flow : Nat) (f : Floor) (c : Nat) :
    scene (f.releaseBehind k m flow c) = (scene f).occupy c none := by
  unfold Floor.releaseBehind
  split
  · exact scene_release k m f c
  · exact scene_releaseWet k m flow f c

theorem scene_releases (k : Control) (m : Nat) (cs : List Nat) (f : Floor) :
    scene (cs.foldl (Floor.release k m) f) = (scene f).occupyAll cs none := scene_foldl (scene_release k m) cs f

theorem scene_takeSpan (m : Nat) (f : Floor) (q : Nat) (cs : List Nat) :
    scene (Floor.takeSpan m f q cs) = (scene f).occupyAll cs (some (true, m)) := by
  induction cs generalizing f q with
  | nil => exact (Scene.occupyAll_nil _ _).symm
  | cons c cs ih =>
    rw [Scene.occupyAll_cons]
    unfold Floor.takeSpan
    rw [ih]
    congr 1
    have held : scene (f.setOcc c (.held m)) = (scene f).occupy c (some (true, m)) := scene_setOcc f c (.held m)
    split
    · rw [scene_enterLane, held]
    · exact held

theorem scene_blockCells (f : Floor) (m : Nat) : scene (f.blockCells m) =
    (scene f).occupyAll (f.cells.keysWhere fun c => decide (c.occ = .held m)) (some (false, m)) :=
  scene_foldl (op := fun g c => g.setOcc c (.blocked m)) (fun g c => scene_setOcc g c (.blocked m)) _ f

/-! ### One machine's part -/

section
variable {p : Prop} {D : Set Nat} {f : Floor} {m : Nat} {x : Scrubber} {H B : Set Nat} {w : Option (Target × Bool)}

theorem At.modMachine (law : At p D (scene f) m x H B w) (g : Scrubber → Scrubber)
    (same : ∀ y, bare (g y) = g (bare y)) : At p D (scene (f.modMachine m g)) m (g x) H B w := by
  rw [scene_modMachine f m same]
  exact law.recast g

theorem At.modSettled (law : At p D (scene f) m x H B w) (k : Control) (g : Scrubber → Scrubber)
    (same : ∀ y, bare (g y) = g (bare y)) : At p D (scene (f.modSettled k m g)) m (g x) H B w := by
  rw [scene_modSettled k f m same]
  exact law.recast g

/-- A change of a record that the scene does not read. -/
theorem At.beside (law : At p D (scene f) m x H B w) {h : Scrubber → Scrubber} (same : ∀ y, bare (h y) = bare y) :
    At p D (scene (f.modMachine m h)) m x H B w := by
  rw [scene_modMachine_same f m same]
  exact law

theorem lawful_ite {c : Prop} [Decidable c] {g : Floor} (yes : Lawful p D (scene f)) (no : Lawful p D (scene g)) :
    Lawful p D (scene (if c then f else g)) := by
  split
  · exact yes
  · exact no

theorem At.order (law : At p D (scene f) m x H B w) (o : Order) : At p D (scene (f.order m o)) m x H B w := by
  rw [scene_order]
  exact law

theorem At.raise (law : At p D (scene f) m x H B w) (k : Control) (cls : NoticeClass) (s : Option Nat) (r : Option NoticeReason) :
    At p D (scene (f.raise k cls s r)) m x H B w := by
  rw [scene_raise]
  exact law

/-- The record behind the scene. -/
theorem At.known (law : At p D (scene f) m x H B w) : ∃ y, f.machines.look m = some y ∧ bare y = x :=
  Option.map_eq_some_iff.1 law.record

theorem At.leaveWait (law : At p D (scene f) m x H B (waitOf x)) :
    At p D (scene (f.leaveWait m)) m { x with request := none } H B none := by
  rw [scene_leaveWait]
  exact law.leave

theorem At.leaveOrdinary (law : At p D (scene f) m x H B (waitOf x)) :
    At p D (scene (f.leaveOrdinary m)) m (quieted x) H B (waitOf (quieted x)) := by
  obtain ⟨y, known, rfl⟩ := law.known
  unfold Floor.leaveOrdinary
  rw [known, Option.bind_some]
  split
  · next count t asked =>
    rw [quieted_of_ordinary (x := bare y) asked]
    exact law.leaveWait
  · next free =>
    rw [quieted_of_free (x := bare y) fun count target asked => free count target asked]
    exact law

theorem calm_ne {t : MState} (idle : t ≠ .idle) (running : t ≠ .running) (other : x.state ≠ t) : calm x ≠ t := by
  unfold calm
  split
  · exact resting_ne x idle running
  · exact other

theorem calm_ne_waiting (x : Scrubber) : calm x ≠ .waiting := by
  unfold calm
  split
  · exact resting_ne x nofun nofun
  · next other => exact other

/-- A change of one record that leaves its cells and its wait. -/
theorem lawful_modMachine (law : Lawful p D (scene f)) (m : Nat) {h : Scrubber → Scrubber} (g : Scrubber → Scrubber)
    (same : ∀ y, bare (h y) = g (bare y))
    (fits : ∀ x, f.machines.look m = some x → Fit p D (bare x) → Fit p D (g (bare x)) ∧ holding (g (bare x)) = holding (bare x) ∧
      ((g (bare x)).state = .lost ↔ x.state = .lost) ∧ waitOf (g (bare x)) = waitOf (bare x)) :
    Lawful p D (scene (f.modMachine m h)) := by
  rw [scene_modMachine f m same]
  refine law.amend m g fun x known fit => ?_
  obtain ⟨y, there, rfl⟩ := Option.map_eq_some_iff.1 known
  exact fits y there fit

theorem lawful_modSettled (law : Lawful p D (scene f)) (k : Control) (m : Nat) {h : Scrubber → Scrubber} (g : Scrubber → Scrubber)
    (same : ∀ y, bare (h y) = g (bare y))
    (fits : ∀ x, f.machines.look m = some x → Fit p D (bare x) → Fit p D (g (bare x)) ∧ holding (g (bare x)) = holding (bare x) ∧
      ((g (bare x)).state = .lost ↔ x.state = .lost) ∧ waitOf (g (bare x)) = waitOf (bare x)) :
    Lawful p D (scene (f.modSettled k m h)) :=
  lawful_modMachine law m g (fun y => (bare_settle _ _ _).trans (same y)) fits

/-! ### Halts -/

theorem lawful_addHalt (law : Lawful p D (scene f)) (k : Control) (r : HaltReason) (m : Nat) :
    Lawful p D (scene (f.addHalt k r m)) := by
  unfold Floor.addHalt
  split
  · exact law
  next x known =>
  have more (stays : x.state = .halted ∨ x.state = .lost ∨ x.state = .stoodDown) :
      Lawful p D (scene (f.modMachine m fun y => { y with halts := y.halts.write true r })) :=
    lawful_modMachine law m (fun y => { y with halts := y.halts.write true r }) (fun _ => rfl) fun y there fit => by
      cases known.symm.trans there
      exact ⟨fit.haltMore r stays, rfl, .rfl, rfl⟩
  split
  · exact law
  split
  · next empty =>
    have halts : Lawful p D (scene (if x.state = .lost ∨ x.state = .stoodDown then
        f.modMachine m fun y => { y with halts := y.halts.write true r }
        else ((f.modMachine m fun y => { y with halts := y.halts.write true r }).leaveOrdinary m).modSettled k m
          fun y => { y with state := .halted })) := by
      split
      · next stays => exact more (.inr stays)
      · next works =>
        obtain ⟨found, up⟩ := not_or.1 works
        obtain ⟨fit, stands⟩ := law.own (scene_fleet known) found
        have halted := ((stands.modMachine (fun y => { y with halts := y.halts.write true r }) fun _ => rfl).leaveOrdinary).modSettled
          k (fun y => { y with state := .halted }) fun _ => rfl
        exact halted.closes (fit.quieted.haltNew r (calm_ne nofun nofun found) (calm_ne nofun nofun up) (calm_ne_waiting _))
          nofun rfl rfl
    exact lawful_ite halts (by rw [scene_order]; exact halts)
  · next some =>
    obtain ⟨fit, -⟩ := law.at (scene_fleet known)
    exact more (fit.halts (Bool.not_eq_true _ ▸ some))

/-! ### Promotion -/

/-- R78: a promotion of the staged leg, which begins where the machine stands. -/
theorem lawful_promote (law : Lawful p D (scene f)) (k : Control) {m : Nat} {x : Scrubber} (known : f.machines.look m = some x)
    (legless : x.active = none) (here : x.ahead = []) (settled : x.withdrawal = none) {leg : Leg} (next : x.staged = some leg)
    (start : leg.cells.head? = some x.current) (tell : Bool) : Lawful p D (scene (f.promote k m leg tell)) := by
  have promoted : Lawful p D (scene (f.modMachine m fun y => { y with active := some ⟨leg, 0⟩, staged := none })) :=
    lawful_modMachine law m (fun y => { y with active := some ⟨leg, 0⟩, staged := none }) (fun _ => rfl) fun y there fit => by
      cases known.symm.trans there
      exact ⟨fit.promoted legless here settled next start, rfl, .rfl, rfl⟩
  unfold Floor.promote
  split
  · rw [scene_raise, scene_order]
    exact promoted
  · rw [scene_order]
    exact promoted

theorem lawful_attempt (law : Lawful p D (scene f)) (k : Control) (tell : Bool) (m : Nat) :
    Lawful p D (scene (f.attempt k tell m)) := by
  unfold Floor.attempt
  split
  · exact law
  next x known =>
  split
  · exact law
  next leg next =>
  split
  · next ready =>
    obtain ⟨ready, -⟩ := Bool.and_eq_true_iff.1 ready
    unfold Scrubber.readyToPromote at ready
    simp only [Bool.and_eq_true, decide_eq_true_eq, Option.isNone_iff_eq_none] at ready
    obtain ⟨⟨idle, legless⟩, settled⟩ := ready
    obtain ⟨fit, -⟩ := law.at (scene_fleet known)
    have start : leg.cells.head? = some x.current := by
      obtain ⟨-, -, start⟩ := fit.staged leg next
      have anchor : (bare x).anchor = x.current := by
        unfold Scrubber.anchor
        rw [show (bare x).active = none from legless]
        rfl
      rw [anchor] at start
      refine start.resolve_right fun ⟨astray, _⟩ => ?_
      rcases fit.halts (isEmpty_of_position astray) with is | is | is
      all_goals cases idle.symm.trans is
    exact lawful_promote law k known legless (fit.idle idle) settled next start tell
  · exact law

theorem lawful_endLeg (law : Lawful p D (scene f)) (k : Control) {m : Nat} {x : Scrubber} (known : f.machines.look m = some x)
    (here : x.ahead = []) (other : x.state ≠ .waiting) (r : NoticeReason) : Lawful p D (scene (f.endLeg k m r)) := by
  unfold Floor.endLeg
  rw [scene_raise]
  refine lawful_modSettled law k m (fun y => { y with state := y.state.toIdle }) (fun _ => rfl) fun y there fit => ?_
  cases known.symm.trans there
  exact ⟨fit.toIdle here other, rfl, toIdle_eq_lost, rfl⟩

/-- R76 to R79: the decision on the next leg. -/
theorem lawful_decidePromotion (law : Lawful p D (scene f)) (k : Control) {m : Nat} {x : Scrubber}
    (known : f.machines.look m = some x) (legless : x.active = none) (here : x.ahead = []) (settled : x.withdrawal = none)
    (start : ∀ leg, x.staged = some leg → leg.cells.head? = some x.current) :
    Lawful p D (scene (f.decidePromotion k m)) := by
  obtain ⟨fit, -⟩ := law.at (scene_fleet known)
  have other : x.state ≠ .waiting := fit.not_waiting legless
  unfold Floor.decidePromotion
  rw [known]
  cases next : x.staged with
  | none =>
    simp only [next]
    exact lawful_endLeg law k known here other _
  | some leg =>
    simp only [next]
    exact lawful_ite (lawful_promote law k known legless here settled next (start leg next) true)
      (lawful_endLeg law k known here other _)

end

end Sys2Proof.Laws
end

section
/-! ## Spans, offers and requests keep the law of the scene -/

namespace Sys2Proof.Laws

open Sys2Proof Sys2Proof.Machine Sys2Proof.Safety

-- One theorem at a time, as in the tests above: side by side their threads' stacks take the memory.
set_option Elab.async false

/-! ### The cells of a span -/

theorem own_of_failingRow {k : Control} {f : Floor} {m q c : Nat} {taken : List (Nat × Dir)}
    (grantable : f.failingRow k m q c taken = none) : ∃ z, f.cells.look c = some z ∧ (z.occ = .free ∨ z.occ = .held m) := by
  cases known : f.cells.look c with
  | none =>
    unfold Floor.failingRow at grantable
    rw [known] at grantable
    cases grantable
  | some z =>
    obtain ⟨wet, guarded, blocked, held⟩ := failingRow_taken (k := k) (m := m) (p := q) (taken := taken) known
    refine ⟨z, rfl, ?_⟩
    cases occ : z.occ with
    | free => exact .inl rfl
    | wet t slow => cases grantable.symm.trans (wet t slow occ)
    | guarded t => cases grantable.symm.trans (guarded t occ)
    | blocked n => cases grantable.symm.trans (blocked n occ)
    | held n =>
      by_cases mine : n = m
      · exact .inr (by rw [mine])
      · cases grantable.symm.trans (held n occ mine)

theorem scene_claim {f : Floor} {c : Nat} {z : Cell} (known : f.cells.look c = some z) :
    (scene f).claim c = some (claimOf z.occ) := by
  show (f.cells.look c).map _ = _
  rw [known]
  rfl

theorem open_of_own {f : Floor} {m c : Nat} {z : Cell} (known : f.cells.look c = some z)
    (own : z.occ = .free ∨ z.occ = .held m) : (scene f).Open m c := by
  refine ⟨_, scene_claim known, fun b n same => ?_⟩
  rcases own with occ | occ <;> rw [occ] at same <;> cases same
  rfl

/-- R28: nobody else has a cell of a grantable span. -/
theorem open_of_firstFail {k : Control} {f : Floor} {m : Nat} {cs : List Nat} {q : Nat} {taken : List (Nat × Dir)}
    (fits : f.firstFail k m q cs taken = none) : ∀ c ∈ cs, (scene f).Open m c := by
  induction cs generalizing q taken with
  | nil => exact fun c inside => nomatch inside
  | cons d cs ih =>
    unfold Floor.firstFail at fits
    split at fits
    · cases fits
    · cases fits
    · next row =>
      obtain ⟨z, known, own⟩ := own_of_failingRow row
      intro c inside
      rcases List.mem_cons.1 inside with rfl | inside
      · exact open_of_own known own
      · exact ih fits c inside

section
variable {p : Prop} {D : Set Nat} {f : Floor} {m : Nat} {x y : Scrubber} {H B : Set Nat} {w : Option (Target × Bool)}

theorem Lists.known_cell {s : Scene} (lists : Lists D s) {c : Nat} (defined : c ∈ D) : s.Known (.cell c) :=
  (lists.defined c).2 defined

/-- R29: the target of a wait is defined. -/
theorem known_of_firstFail {k : Control} (lists : Lists D (scene f)) {cs : List Nat} (defined : ∀ c ∈ cs, c ∈ D) {q : Nat}
    {taken : List (Nat × Dir)} {t : Target} {r : WaitReason} (fails : f.firstFail k m q cs taken = some (t, r)) :
    (scene f).Known t := by
  induction cs generalizing q taken with
  | nil => cases fails
  | cons c cs ih =>
    unfold Floor.firstFail at fails
    have cell := lists.known_cell (defined c List.mem_cons_self)
    split at fails
    · cases fails
      cases place : f.laneOf c with
      | none => exact cell
      | some li => exact lists.grounded c li.1 li.2 place
    · cases fails
      exact cell
    · exact ih (fun d inside => defined d (List.mem_cons_of_mem _ inside)) fails

/-! ### Grants and waits -/

/-- R27: a record past rows 1 to 5, its wait left. -/
structure Asking (p : Prop) (D : Set Nat) (y : Scrubber) (count : Nat) : Prop where
  fit : Fit p D { y with state := y.resting }
  drives : ∃ a, y.active = some a
  unpending : y.withdrawal = none
  unhalted : y.halts.isEmpty = true
  free : y.request = none
  some' : 1 ≤ count
  few : count ≤ 4
  more : y.remaining ≠ []

theorem Asking.defined {count : Nat} (asking : Asking p D y count) : ∀ c ∈ y.span count, c ∈ D := by
  obtain ⟨a, drives⟩ := asking.drives
  intro c inside
  rw [span_of_active drives] at inside
  exact asking.fit.route a drives c (List.mem_of_mem_drop (List.mem_of_mem_take inside))

/-- R28: the span is granted. -/
theorem lawful_grant {count : Nat} (stands : At p D (scene f) m y { c | c ∈ holding y } ∅ none) (asking : Asking p D y count)
    (k : Control) (x : Scrubber) (fits : ∀ c ∈ y.span count, (scene f).Open m c) :
    Lawful p D (scene (f.grant k m x (y.span count))) := by
  obtain ⟨a, drives⟩ := asking.drives
  have held := stands.hold fits
  rw [← scene_takeSpan m f x.lastHeld] at held
  have granted := (held.modSettled k (fun z => { z with ahead := z.ahead ++ y.span count, state := .running })
    fun _ => rfl).order (.answer (.grant (x.ahead ++ y.span count) false))
  refine granted.closes (asking.fit.granted drives asking.unpending asking.unhalted asking.free count) nofun ?_ ?_
  · ext c
    show c ∈ holding y ∨ c ∈ y.span count ↔ c ∈ y.current :: (y.ahead ++ y.span count) ++ y.refuge.toList
    unfold holding
    simp only [List.cons_append, List.mem_cons, List.mem_append]
    tauto
  · unfold waitOf
    rw [asking.free]
    rfl

/-- R29, R32: the wait begins, or is refused. -/
theorem lawful_beginWait {count : Nat} (stands : At p D (scene f) m y { c | c ∈ holding y } ∅ none)
    (asking : Asking p D y count) (k : Control) {t : Target} (known : (scene f).Known t) (r : WaitReason) :
    Lawful p D (scene (f.beginWait k m count t r)) := by
  unfold Floor.beginWait
  refine lawful_ite ?_ ?_
  · have rests := ((stands.modSettled k (fun z => { z with state := z.resting }) fun _ => rfl).order
      (.answer (.refused .cycle))).raise k .cycle (some m) (some .waitRefused)
    refine rests.closes asking.fit (resting_ne y nofun nofun) rfl ?_
    unfold waitOf
    rw [asking.free]
    rfl
  · obtain ⟨a, drives⟩ := asking.drives
    have joined := stands.join (b := false) known nofun
    rw [← scene_joinList] at joined
    have waits := (joined.modSettled k (fun z => { z with request := some (.ordinary count t), state := .waiting })
      fun _ => rfl).order (.answer (.wait r))
    exact waits.closes (asking.fit.waits (resting_ne y nofun nofun) asking.unpending asking.unhalted asking.some' asking.few
      asking.more drives t) nofun rfl rfl

/-! ### Requests -/

/-- R27: past rows 1 to 5 the machine runs or is idle, drives a leg with cells left and has no withdrawal. -/
theorem past_rows {k : Control} (row : x.earlyAnswer k = none) : (x.state = .running ∨ x.state = .idle ∨ x.state = .waiting) ∧
    x.withdrawal = none ∧ (∃ a, x.active = some a) ∧ x.remaining ≠ [] := by
  by_cases barred : Barred k x
  · cases (earlyAnswer_barred barred).symm.trans row
  by_cases found : x.state = .lost
  · unfold Scrubber.earlyAnswer at row
    rw [if_pos (by simp [found])] at row
    cases row
  rw [earlyAnswer_open barred found] at row
  refine ⟨?_, ?_⟩
  · unfold Barred at barred
    cases is : x.state <;> simp_all
  split at row
  · cases row
  next settled =>
  split at row
  · cases row
  next drives =>
  split at row
  · cases row
  next more =>
  exact ⟨by simpa using settled, Option.ne_none_iff_exists'.1 (by simpa using drives), more⟩

/-- R27: a machine past rows 1 to 5 that does not wait. -/
theorem Fit.asking (fit : Fit p D x) {k : Control} (row : x.earlyAnswer k = none) (other : x.state ≠ .waiting) {count : Nat}
    (some' : 1 ≤ count) (few : count ≤ 4) : Asking p D x count := by
  obtain ⟨works, settled, ⟨a, drives⟩, more⟩ := past_rows row
  have no {t : MState} (running : t ≠ .running) (idle : t ≠ .idle) (waiting : t ≠ .waiting) : x.state ≠ t := fun is => by
    rw [is] at works
    rcases works with w | w | w
    · exact running w
    · exact idle w
    · exact waiting w
  have unhalted : x.halts.isEmpty = true := by
    cases empty : x.halts.isEmpty with
    | true => rfl
    | false =>
      rcases fit.halts empty with is | is | is
      all_goals exact absurd is (no nofun nofun nofun)
  refine ⟨?_, ⟨a, drives⟩, settled, unhalted, ?_, some', few, more⟩
  · refine fit.move (no nofun nofun nofun) other _ (resting_ne x nofun nofun) (resting_ne x nofun nofun)
      (fun is => absurd is (resting_ne x nofun nofun)) (fun some => ?_) ahead_of_resting
      (fun is => absurd is (resting_ne x nofun nofun)) fun is => absurd is (no nofun nofun nofun)
    rw [unhalted] at some
    cases some
  · cases asked : x.request with
    | none => rfl
    | some r =>
      cases r with
      | ordinary count t => exact absurd (fit.waiting.2 ⟨count, t, asked⟩) other
      | refuge c =>
        obtain ⟨-, -, -, legless, -⟩ := fit.seeks c asked
        cases legless.symm.trans drives

theorem lawful_decideRequest (law : Lawful p D (scene f)) (k : Control) {m count : Nat} (some' : 1 ≤ count) (few : count ≤ 4)
    (other : ∀ y, (scene f).fleet m = some y → y.state ≠ .waiting) : Lawful p D (scene (f.decideRequest k m count)) := by
  unfold Floor.decideRequest
  split
  · exact law
  next x known =>
  split
  · rw [scene_order]
    exact law
  next row =>
  have here := scene_fleet known
  obtain ⟨works, -⟩ := past_rows row
  have found : (bare x).state ≠ .lost := fun is => by
    rw [show x.state = .lost from is] at works
    simp at works
  obtain ⟨fit, stands⟩ := law.own here found
  have asking : Asking p D (bare x) count := fit.asking (k := k) row (other _ here) some' few
  have free : waitOf (bare x) = none := by
    unfold waitOf
    rw [asking.free]
    rfl
  rw [free] at stands
  split
  · next fits => exact lawful_grant stands asking k x (open_of_firstFail fits)
  · next t r fails => exact lawful_beginWait stands asking k (known_of_firstFail law.2 asking.defined fails) r

/-- R30: the wait is left before a new request. -/
theorem lawful_dropWait (law : Lawful p D (scene f)) (k : Control) (m : Nat) : Lawful p D (scene (f.dropWait k m)) ∧
    ∀ y, (scene (f.dropWait k m)).fleet m = some y → y.state ≠ .waiting := by
  unfold Floor.dropWait
  split
  · next x known =>
    split
    · next waits =>
      obtain ⟨fit, stands⟩ := law.own (scene_fleet known) fun is => by cases waits.symm.trans is
      have rests := stands.leaveWait.modSettled k (fun y => { y with state := y.resting }) fun _ => rfl
      obtain ⟨count, t, asked⟩ := fit.waiting.1 waits
      have settled := fit.quieted
      rw [quieted_of_ordinary (x := bare x) asked, show calm (bare x) = x.resting from if_pos waits] at settled
      refine ⟨rests.closes settled (resting_ne x nofun nofun) rfl rfl, fun y there => ?_⟩
      cases rests.record.symm.trans there
      exact resting_ne x nofun nofun
    · next other =>
      refine ⟨law, fun y there => ?_⟩
      cases (scene_fleet known).symm.trans there
      exact other
  · next unknown =>
    refine ⟨law, fun y there => ?_⟩
    obtain ⟨z, known, -⟩ := Option.map_eq_some_iff.1 there
    cases unknown.symm.trans known

theorem lawful_request (law : Lawful p D (scene f)) (k : Control) (m : Nat) {count : Nat} (some' : 1 ≤ count) (few : count ≤ 4) :
    Lawful p D (scene (f.request k m count)) := by
  obtain ⟨dropped, other⟩ := lawful_dropWait law k m
  exact lawful_decideRequest dropped k some' few other

/-! ### Offers -/

theorem lawful_examine (law : Lawful p D (scene f)) (k : Control) (m : Nat) : Lawful p D (scene (f.examine k m).1) := by
  unfold Floor.examine
  split
  · exact law
  next x known =>
  split
  · next count t asked =>
    obtain ⟨whole, -⟩ := law.at (scene_fleet known)
    have waits : x.state = .waiting := whole.waiting.2 ⟨count, t, asked⟩
    obtain ⟨fit, stands⟩ := law.own (scene_fleet known) fun is => by cases waits.symm.trans is
    obtain ⟨settled, unhalted, more, drives, -⟩ := fit.of_waiting waits
    obtain ⟨some', few, -⟩ := fit.asks count t asked
    have rests := fit.quieted
    rw [quieted_of_ordinary (x := bare x) asked, show calm (bare x) = x.resting from if_pos waits] at rests
    have asking : Asking p D { bare x with request := none } count := ⟨rests, drives, settled, unhalted, rfl, some', few, more⟩
    have left := stands.leaveWait
    have span : x.span count = Scrubber.span { bare x with request := none } count := rfl
    have held : holding (bare x) = holding { bare x with request := none } := rfl
    rw [held] at left
    generalize { bare x with request := none } = y at asking left span
    dsimp only
    rw [span]
    generalize f.leaveWait m = g at left
    split
    · next fits => exact lawful_grant left asking k x (open_of_firstFail fits)
    · next t' r fails =>
      dsimp only
      exact lawful_beginWait left asking k (known_of_firstFail left.lists asking.defined fails) r
  · exact law

theorem lawful_examineAll (k : Control) (ms : List Nat) (law : Lawful p D (scene f)) : Lawful p D (scene (f.examineAll k ms)) := by
  induction ms generalizing f with
  | nil => exact law
  | cons m ms ih =>
    have examined := lawful_examine law k m
    unfold Floor.examineAll
    split
    · next g found =>
      rw [found] at examined
      exact examined
    · next g found =>
      rw [found] at examined
      exact ih examined

/-- R26: a cell that nobody has is granted as refuge to a machine that holds its current cell alone and waits for none. -/
theorem lawful_grantRefuge (stands : At p D (scene f) m y { c | c ∈ holding y } ∅ none) (fit : Fit p D y)
    (found : y.state ≠ .lost) (here : y.ahead = []) (legless : y.active = none) (unstaged : y.staged = none)
    (unsheltered : y.refuge = none) (free : y.request = none) {c : Nat} (unclaimed : (scene f).claim c = some none) :
    Lawful p D (scene (f.grantRefuge m c)) := by
  have open' : (scene f).Open m c := ⟨_, unclaimed, nofun⟩
  have other : c ≠ y.current := fun same => by
    have held := (stands.station.holds c).2 (by
      show c ∈ y.current :: y.ahead ++ y.refuge.toList
      rw [same]
      exact List.mem_cons_self)
    cases unclaimed.symm.trans held
  have held := stands.hold (cs := [c]) fun d inside => by
    cases List.mem_singleton.1 inside
    exact open'
  rw [Scene.occupyAll_single, ← show claimOf (.held m) = some (true, m) from rfl, ← scene_setOcc,
    ← scene_place _ m c] at held
  have sheltered := (held.modMachine (fun z => { z with refuge := some c }) fun _ => rfl).order (.answer (.grant [c] true))
  refine sheltered.closes (fit.sheltered here legless unstaged free found other) found ?_ ?_
  · ext d
    show d ∈ holding y ∨ d ∈ [c] ↔ d ∈ y.current :: y.ahead ++ [c]
    unfold holding
    rw [here, unsheltered]
    simp
  · unfold waitOf
    rw [free]
    rfl

theorem scene_list {c : Nat} {z : Cell} (known : f.cells.look c = some z) : (scene f).list c = some z.waiters := by
  show (f.cells.look c).map _ = _
  rw [known]
  rfl

/-- R23: the machine of a refuge entry waits for the cell as its refuge. -/
theorem Lawful.seeks_of_listed {s : Scene} (law : Lawful p D s) {c n : Nat} {ws : List Waiter} (list : s.list c = some ws)
    (inside : ⟨n, true⟩ ∈ ws) : ∃ x, s.fleet n = some x ∧ x.request = some (.refuge c) := by
  obtain ⟨absent, present⟩ := law.1 n
  cases known : s.fleet n with
  | none =>
    have listed := ((absent known).listed c true).1 ⟨ws, list, inside⟩
    cases listed
  | some x =>
    obtain ⟨fit, B, -, station⟩ := present x known
    have listed := (station.listed c true).1 ⟨ws, list, inside⟩
    refine ⟨x, rfl, ?_⟩
    unfold waitOf at listed
    cases asked : x.request with
    | none =>
      rw [asked] at listed
      cases listed
    | some r =>
      cases r with
      | ordinary count t =>
        have none : x.refugeWait = false := by
          unfold Scrubber.refugeWait
          rw [asked]
        rw [none] at listed
        simp at listed
      | refuge d =>
        rw [asked] at listed
        simp only [Option.map_some, Option.some.injEq, Prod.mk.injEq] at listed
        cases listed.1
        rfl

theorem Scene.claim_leave (s : Scene) (m : Nat) : (s.leave m).claim = s.claim := by
  unfold Scene.leave
  split
  · rfl
  · next r asked => cases r.target <;> rfl

theorem lawful_offerTo (law : Lawful p D (scene f)) (k : Control) {c : Nat} {z : Cell} (known : f.cells.look c = some z)
    (free : z.occ = .free) : Lawful p D (scene (f.offerTo k c z)) := by
  unfold Floor.offerTo
  split
  · next w found =>
    have inside := List.mem_of_find?_eq_some found
    have refuge : w.refuge = true := List.find?_some (p := fun w : Waiter => w.refuge) found
    obtain ⟨n, r⟩ := w
    cases refuge
    obtain ⟨x, there, asked⟩ := law.seeks_of_listed (scene_list known) inside
    obtain ⟨whole, -⟩ := law.at there
    obtain ⟨found, unsheltered, here, legless, unstaged⟩ := whole.seeks c asked
    obtain ⟨fit, stands⟩ := law.own there found
    have left := stands.leaveWait
    have unclaimed : (scene (f.leaveWait n)).claim c = some none := by
      rw [scene_leaveWait, Scene.claim_leave, scene_claim known, free]
      rfl
    exact lawful_grantRefuge left (fit.unseeking (fit.not_waiting legless)) found here legless unstaged unsheltered rfl unclaimed
  · exact lawful_ite law (lawful_examineAll k _ law)

theorem lawful_offerCell (law : Lawful p D (scene f)) (k : Control) (c : Nat) : Lawful p D (scene (f.offerCell k c)) := by
  unfold Floor.offerCell
  split
  · exact law
  next z known =>
  split
  · next available => exact lawful_offerTo law k known available.1
  · exact law

theorem lawful_offerLane (law : Lawful p D (scene f)) (k : Control) (l : Nat) : Lawful p D (scene (f.offerLane k l)) := by
  unfold Floor.offerLane
  split
  · exact law
  · exact lawful_ite (lawful_examineAll k _ law) law

/-- Work that keeps the law, done one item after the other. -/
theorem lawful_foldl {β : Type} {op : Floor → β → Floor}
    (each : ∀ f b, Lawful p D (scene f) → Lawful p D (scene (op f b))) (bs : List β) (law : Lawful p D (scene f)) :
    Lawful p D (scene (bs.foldl op f)) := by
  induction bs generalizing f with
  | nil => exact law
  | cons b bs ih => exact ih (each f b law)

theorem lawful_offerCells (law : Lawful p D (scene f)) (k : Control) (cs : List Nat) :
    Lawful p D (scene (f.offerCells k cs)) := lawful_foldl (fun _ c law => lawful_offerCell law k c) cs law

theorem lawful_offerReleased (law : Lawful p D (scene f)) (k : Control) (cs : List Nat) :
    Lawful p D (scene (f.offerReleased k cs)) :=
  lawful_foldl (fun _ l law => lawful_offerLane law k l) _ (lawful_offerCells law k cs)

end

end Sys2Proof.Laws
end

section
/-! ## Arrivals, legs and withdrawals keep the law of the scene -/

namespace Sys2Proof.Laws

open Sys2Proof Sys2Proof.Machine Sys2Proof.Safety

-- One theorem at a time, as in the tests above: side by side their threads' stacks take the memory.
set_option Elab.async false

section
variable {p : Prop} {D : Set Nat} {f : Floor} {m : Nat} {x y : Scrubber} {H B : Set Nat} {w : Option (Target × Bool)}

/-- A change of a record that the scene does not read. -/
theorem lawful_beside (law : Lawful p D (scene f)) (m : Nat) {h : Scrubber → Scrubber} (same : ∀ y, bare (h y) = bare y) :
    Lawful p D (scene (f.modMachine m h)) := by
  rw [scene_modMachine_same f m same]
  exact law

/-! ### Completion -/

theorem lawful_completeLeg (law : Lawful p D (scene f)) (k : Control) (known : f.machines.look m = some x)
    (done : x.legDone = true) : Lawful p D (scene (f.completeLeg k m)) := by
  obtain ⟨fit, -⟩ := law.at (scene_fleet known)
  obtain ⟨⟨a, drives⟩, here, other, anchor⟩ := fit.of_legDone done
  have after : Lawful p D (scene (f.modMachine m fun y => { y with safeStops := 0, active := none })) :=
    lawful_modMachine law m (fun y => { y with active := none }) (fun _ => rfl) fun y there fit => by
      cases known.symm.trans there
      exact ⟨fit.completed done, rfl, .rfl, rfl⟩
  have own := (acts_modMachine f m fun y => { y with safeStops := 0, active := none }).own known
  have start (leg : Leg) (next : x.staged = some leg) : leg.cells.head? = some x.current :=
    (fit.start_of_active drives next).trans (congrArg some anchor)
  unfold Floor.completeLeg
  dsimp only
  rw [own, Option.bind_some]
  cases pending : x.withdrawal with
  | none => exact lawful_decidePromotion after k own rfl here pending start
  | some v =>
    refine lawful_modSettled after k m (fun y => { y with
      state := y.state.toIdle, withdrawal := y.withdrawal.map fun w => { w with deferred := true } }) (fun _ => rfl)
      fun y there fit => ?_
    cases own.symm.trans there
    exact ⟨(fit.deferring rfl here start).toIdle here other, rfl, toIdle_eq_lost, rfl⟩

/-! ### Arrivals -/

theorem lawful_acceptArrival (law : Lawful p D (scene f)) (k : Control) (known : f.machines.look m = some x)
    (found : x.state ≠ .lost) {j : Nat} (pos : j < x.ahead.length) : Lawful p D (scene (f.acceptArrival k m x j)) := by
  obtain ⟨fit, stands⟩ := law.own (scene_fleet known) found
  have split' := holding_arrivedAt (bare x) pos
  have left := stands.release (cs := x.leftBehind j) fun c inside => .inl (by
    show c ∈ holding (bare x)
    rw [split']
    exact List.mem_append_left _ inside)
  rw [← scene_foldl (scene_releaseBehind k m ((x.active.map fun a => a.leg.flow).getD 0)), Set.empty_sdiff] at left
  have arrived := left.modSettled k (fun y => y.arrivedAt j) fun _ => rfl
  have kept : Lawful p D (scene (((x.leftBehind j).foldl
      (Floor.releaseBehind k m ((x.active.map fun a => a.leg.flow).getD 0)) f).modSettled k m fun y => y.arrivedAt j)) := by
    refine arrived.closes (fit.arrivedAt found pos) (fun is => found (arrivedAt_state (bare x) j nofun is)) ?_ rfl
    have once := fit.once found
    rw [split', List.nodup_append] at once
    ext c
    show c ∈ holding (bare x) ∧ c ∉ x.leftBehind j ↔ c ∈ holding ((bare x).arrivedAt j)
    rw [split', List.mem_append]
    exact ⟨fun ⟨either, off⟩ => either.resolve_left off, fun inside =>
      ⟨.inr inside, fun behind => once.2.2 c behind c inside rfl⟩⟩
  obtain ⟨y, own, same⟩ := arrived.known
  unfold Floor.acceptArrival
  dsimp only
  split
  · next done =>
    refine lawful_completeLeg kept k own ?_
    have legs : (bare y).legDone = (x.arrivedAt j).legDone := by
      rw [same]
      rfl
    exact legs.trans done
  · exact kept

theorem lawful_refugeArrival (law : Lawful p D (scene f)) (k : Control) (known : f.machines.look m = some x)
    (found : x.state ≠ .lost) {r : Nat} (held : x.refuge = some r) : Lawful p D (scene (f.refugeArrival k m x r)) := by
  obtain ⟨fit, stands⟩ := law.own (scene_fleet known) found
  obtain ⟨here, -⟩ := fit.refuge (by rw [show (bare x).refuge = some r from held]; rfl)
  have cells : holding (bare x) = [x.current, r] := by
    show x.current :: x.ahead ++ x.refuge.toList = _
    rw [show x.ahead = [] from here, held]
    rfl
  have once := fit.once found
  rw [cells] at once
  have left := stands.release (cs := [x.current]) fun c inside => .inl (by
    show c ∈ holding (bare x)
    rw [cells]
    exact List.mem_cons.2 (.inl (List.mem_singleton.1 inside)))
  rw [Scene.occupyAll_single, ← scene_release k m, Set.empty_sdiff] at left
  have arrived := left.modMachine (fun y => { y with current := r, refuge := none }) fun _ => rfl
  unfold Floor.refugeArrival
  refine lawful_offerReleased ?_ k _
  refine arrived.closes (fit.arrivedRefuge held) found ?_ rfl
  ext c
  show c ∈ holding (bare x) ∧ c ∉ [x.current] ↔ c ∈ r :: x.ahead ++ []
  rw [cells, show x.ahead = [] from here]
  simp only [List.mem_cons, List.not_mem_nil, or_false, List.cons_append, List.nil_append]
  have other : x.current ≠ r := by simpa using once
  exact ⟨fun ⟨either, off⟩ => either.resolve_left off, fun is => ⟨.inr is, fun same => other (same.symm.trans is)⟩⟩

theorem lawful_unexpected (law : Lawful p D (scene f)) (k : Control) (m c : Nat) : Lawful p D (scene (f.unexpected k m c)) := by
  unfold Floor.unexpected
  rw [scene_raise]
  have reported : Lawful p D (scene (f.modMachine m fun x => { x with reported := some (reportedCell c) })) :=
    lawful_beside law m fun _ => rfl
  exact lawful_addHalt reported k _ m

theorem aheadPos_lt {c j : Nat} (found : x.aheadPos c = some j) : j < x.ahead.length := by
  unfold Scrubber.aheadPos at found
  obtain ⟨inside, -⟩ := List.findIdx?_eq_some_iff_getElem.1 found
  exact inside

theorem lawful_arrival (law : Lawful p D (scene f)) (k : Control) (known : f.machines.look m = some x) (found : x.state ≠ .lost)
    (c : Nat) : Lawful p D (scene (f.arrival k m c)) := by
  unfold Floor.arrival
  rw [known]
  dsimp only
  split
  · next j pos => exact lawful_offerReleased (lawful_acceptArrival law k known found (aheadPos_lt pos)) k _
  · split
    · next held => exact lawful_refugeArrival law k known found held
    · exact lawful_ite (lawful_beside law m fun _ => rfl) (lawful_unexpected law k m c)

theorem lawful_arrive (law : Lawful p D (scene f)) (k : Control) (known : f.machines.look m = some x) (found : x.state ≠ .lost)
    (c : Nat) {count : Nat} (few : count ≤ 4) : Lawful p D (scene (f.arrive k m c count)) := by
  have arrived := lawful_arrival law k known found c
  unfold Floor.arrive
  dsimp only
  split
  · exact arrived
  · next some' => exact lawful_request arrived k m (Nat.pos_of_ne_zero some') few

/-! ### Withdrawals -/

/-- R128: the record once a withdrawal has started. -/
def withdrawn (cancel : Bool) (refuge : Option Nat) (x : Scrubber) : Scrubber :=
  { quieted x with
    state := if x.state = .waiting then .running else x.state
    withdrawal := some (mergeWithdrawal cancel refuge x.withdrawal) }

/-- R128: the withdrawal of a machine that waits exactly where its state says so. -/
theorem At.startWithdrawal (law : At p D (scene f) m x H B (waitOf x)) (found : x.state ≠ .lost)
    (waits : x.state = .waiting ↔ ∃ count target, x.request = some (.ordinary count target)) (k : Control) (cancel : Bool)
    (refuge : Option Nat) : At p D (scene (f.startWithdrawal k cancel refuge m)) m (withdrawn cancel refuge x) H B
      (waitOf (withdrawn cancel refuge x)) := by
  obtain ⟨y, known, rfl⟩ := law.known
  unfold Floor.startWithdrawal
  rw [known]
  dsimp only
  rw [if_neg (show ¬ y.state = .lost from found)]
  have merged (g : Floor) (z : Scrubber) (stands : At p D (scene g) m z H B (waitOf z)) :
      At p D (scene ((g.modMachine m fun y => { y with withdrawal := some (mergeWithdrawal cancel refuge y.withdrawal) }).order m
        (.withdraw cancel refuge))) m { z with withdrawal := some (mergeWithdrawal cancel refuge z.withdrawal) } H B (waitOf z) :=
    (stands.modMachine (fun y => { y with withdrawal := some (mergeWithdrawal cancel refuge y.withdrawal) }) fun _ => rfl).order _
  by_cases is : y.state = .waiting
  · obtain ⟨count, target, asked⟩ := waits.1 is
    have running := law.leaveWait.modSettled k (fun y => { y with state := .running }) fun _ => rfl
    have record : withdrawn cancel refuge (bare y) = { bare y with
        request := none, state := .running, withdrawal := some (mergeWithdrawal cancel refuge y.withdrawal) } := by
      unfold withdrawn
      rw [quieted_of_ordinary (x := bare y) asked, if_pos (show (bare y).state = .waiting from is)]
      rfl
    rw [record, if_pos is]
    exact merged _ _ running
  · have record : withdrawn cancel refuge (bare y) =
        { bare y with withdrawal := some (mergeWithdrawal cancel refuge y.withdrawal) } := by
      unfold withdrawn
      rw [quieted_of_free (x := bare y) fun count target asked => is (waits.2 ⟨count, target, asked⟩),
        if_neg (show (bare y).state ≠ .waiting from is)]
      rfl
    rw [record, if_neg is]
    exact merged _ _ law

/-- The state of a machine whose withdrawal starts: RUNNING where it waited. -/
theorem Fit.quietedRunning (fit : Fit p D x) :
    Fit p D { Laws.quieted x with state := if x.state = .waiting then .running else x.state } := by
  by_cases waits : x.state = .waiting
  · obtain ⟨settled, unhalted, -, ⟨a, drives⟩, -⟩ := fit.of_waiting waits
    have rests : calm x = x.resting := if_pos waits
    have quiet := fit.quieted
    rw [rests] at quiet
    rw [if_pos waits]
    exact quiet.move (resting_ne _ nofun nofun) (resting_ne _ nofun nofun) .running nofun nofun nofun
      (fun some => by
        have some : x.halts.isEmpty = false := some
        rw [unhalted] at some
        cases some) nofun nofun fun is => absurd is (resting_ne x nofun nofun)
  · have quiet := fit.quieted
    rw [show calm x = x.state from if_neg waits] at quiet
    rw [if_neg waits]
    exact quiet

theorem running_ne {t : MState} (running : t ≠ .running) (other : x.state ≠ t) :
    (if x.state = .waiting then MState.running else x.state) ≠ t := by
  split
  · exact running.symm
  · exact other

theorem running_ne_waiting (x : Scrubber) : (if x.state = .waiting then MState.running else x.state) ≠ .waiting := by
  split
  · nofun
  · next other => exact other

theorem Fit.withdrawn (fit : Fit p D x) (found : x.state ≠ .lost) (cancel : Bool) (refuge : Option Nat) :
    Fit p D (Laws.withdrawn cancel refuge x) :=
  fit.quietedRunning.withdrawing (running_ne nofun found) (running_ne_waiting x) cancel refuge

theorem lawful_startWithdrawal (law : Lawful p D (scene f)) (k : Control) (cancel : Bool) (refuge : Option Nat) (m : Nat) :
    Lawful p D (scene (f.startWithdrawal k cancel refuge m)) := by
  cases known : f.machines.look m with
  | none =>
    unfold Floor.startWithdrawal
    rw [known]
    exact law
  | some x =>
    by_cases lost : x.state = .lost
    · unfold Floor.startWithdrawal
      rw [known]
      dsimp only
      rw [if_pos lost]
      exact law
    · obtain ⟨fit, stands⟩ := law.own (scene_fleet known) lost
      exact (stands.startWithdrawal lost fit.waiting k cancel refuge).closes (fit.withdrawn lost cancel refuge)
        (running_ne nofun lost) rfl rfl

theorem calm_toIdle (x : Scrubber) : (calm x).toIdle = x.state.toIdle := by
  unfold calm
  split
  · next waits =>
    rw [waits]
    unfold Scrubber.resting
    split <;> rfl
  · rfl

/-- R84: a declined leg. -/
theorem lawful_decline (law : Lawful p D (scene f)) (k : Control) (known : f.machines.look m = some x) (found : x.state ≠ .lost)
    (tag : Nat) (cells : List Nat) : Lawful p D (scene (f.decline k m tag cells)) := by
  unfold Floor.decline
  rw [known]
  dsimp only
  split
  · obtain ⟨fit, stands⟩ := law.own (scene_fleet known) found
    have dropped := ((stands.modMachine (fun y => { y with active := none }) fun _ => rfl).raise k .legAborted (some m)
      (some .declined)).modMachine (fun y => { y with staged := none }) fun _ => rfl
    split
    · next here =>
      have idle := dropped.leaveOrdinary.modSettled k (fun y => { y with state := y.state.toIdle }) fun _ => rfl
      have rests := (fit.quieted.legsDropped (calm_ne_waiting _) here).toIdle here (calm_ne_waiting _)
      have state : (calm (bare x)).toIdle = x.state.toIdle := calm_toIdle (bare x)
      dsimp only at rests
      rw [state] at rests
      exact idle.closes rests (fun is => found (toIdle_eq_lost.1 is)) rfl rfl
    · next some' =>
      have goes := dropped.startWithdrawal found fit.waiting k true none
      exact goes.closes (fit.quietedRunning.declined (running_ne nofun found) (running_ne_waiting _) some' none)
        (running_ne nofun found) rfl rfl
  · exact law

end

end Sys2Proof.Laws
end

section
/-! ## The acknowledgement of a WITHDRAW keeps the law of the scene -/

namespace Sys2Proof.Laws

open Sys2Proof Sys2Proof.Machine Sys2Proof.Safety

-- One theorem at a time, as in the tests above: side by side their threads' stacks take the memory.
set_option Elab.async false

section
variable {p : Prop} {D : Set Nat} {f : Floor} {m : Nat} {x y : Scrubber} {H B : Set Nat} {w : Option (Target × Bool)}

/-! ### The pending withdrawal -/

theorem continued_isSome {v : Option Withdrawal} (some' : (continued y v).isSome = true) : v.isSome = true := by
  unfold continued at some'
  split at some'
  · cases some'
  · simpa using some'

theorem continued_deferred {v : Option Withdrawal} (deferred : ((continued y v).any fun w => w.deferred) = true) :
    (v.any fun w => w.deferred) = true := by
  unfold continued at deferred
  split at deferred
  · cases deferred
  · cases v <;> exact deferred

/-- R132: the pending withdrawal ends, or goes on with the flags of the queued order. -/
theorem At.settleWithdrawal (law : At p D (scene f) m x H B w) : ∃ v, At p D (scene (f.settleWithdrawal m)) m
      { x with withdrawal := v } H B w ∧ (v.isSome = true → x.withdrawal.isSome = true) ∧
      ((v.any fun w => w.deferred) = true → (x.withdrawal.any fun w => w.deferred) = true) := by
  obtain ⟨y, known, rfl⟩ := law.known
  refine ⟨continued y y.withdrawal, ?_, continued_isSome, continued_deferred⟩
  have same : scene (f.settleWithdrawal m) = scene (f.modMachine m fun z => { z with withdrawal := continued y y.withdrawal }) := by
    refine scene_eq (fun n => ?_) rfl fun _ => rfl
    rw [acts_settleWithdrawal f m n, acts_modMachine f m (fun z => { z with withdrawal := continued y y.withdrawal }) n]
    split
    · rw [known]
      rfl
    · rfl
  rw [same]
  exact law.modMachine (fun z => { z with withdrawal := continued y y.withdrawal }) fun _ => rfl

/-- R132: the legs are discarded, and the pending withdrawal ends or goes on. -/
theorem At.settleLegs (law : At p D (scene f) m x H B w) (k : Control) {cancel embargoed : Bool}
    (drops : (cancel || embargoed) = true) : ∃ v, At p D (scene (f.settleLegs k m cancel embargoed)) m
      { x with active := none, staged := none, state := x.state.toIdle, withdrawal := v } H B w ∧
      (v.isSome = true → x.withdrawal.isSome = true) ∧ (v.any fun w => w.deferred) = false := by
  obtain ⟨y, known, rfl⟩ := law.known
  have dropped := law.modSettled k (fun y => { y with
    active := none, staged := none, state := y.state.toIdle
    withdrawal := y.withdrawal.map fun w => { w with deferred := false } }) fun _ => rfl
  have gone : At p D (scene (f.discardLegs k m (if embargoed then .embargo else .cancelled))) m (discarded (bare y)) H B w := by
    unfold Floor.discardLegs
    rw [known]
    dsimp only
    split
    · exact dropped.raise k _ _ _
    · exact dropped
  obtain ⟨v, settled, pending, deferred⟩ := gone.settleWithdrawal
  have plain : ((y.withdrawal.map fun w => { w with deferred := false }).any fun w => w.deferred) = false := by
    cases y.withdrawal <;> rfl
  refine ⟨v, ?_, fun some' => ?_, ?_⟩
  · unfold Floor.settleLegs
    rw [if_pos drops]
    exact settled
  · have there := pending some'
    unfold discarded at there
    simpa using there
  · cases is : v.any fun w => w.deferred with
    | false => rfl
    | true => exact (deferred is).symm.trans plain

theorem Fit.legsSettled (fit : Fit p D x) (other : x.state ≠ .waiting) (here : x.ahead = []) {v : Option Withdrawal}
    (pending : v.isSome = true → x.withdrawal.isSome = true) (plain : (v.any fun w => w.deferred) = false) :
    Fit p D { x with active := none, staged := none, state := x.state.toIdle, withdrawal := v } :=
  ((fit.legsDropped other here).toIdle here other).settling v pending (fun is => by rw [plain] at is; cases is) (.inl here)

/-- R132: legs and withdrawal of a machine at its stop cell. -/
theorem lawful_settleLegs (law : Lawful p D (scene f)) (k : Control) (known : f.machines.look m = some x)
    (found : x.state ≠ .lost) (other : x.state ≠ .waiting) (here : x.ahead = []) (cancel embargoed : Bool) :
    Lawful p D (scene (f.settleLegs k m cancel embargoed)) := by
  obtain ⟨fit, stands⟩ := law.own (scene_fleet known) found
  by_cases drops : (cancel || embargoed) = true
  · obtain ⟨v, settled, pending, plain⟩ := stands.settleLegs k drops
    exact settled.closes (fit.legsSettled other here pending plain) (fun is => found (toIdle_eq_lost.1 is)) rfl rfl
  · have keeps := fit.keeping other here
    have kept := stands.modSettled k (fun x => { x with state := x.afterKeep }) fun _ => rfl
    have stays : (bare x).afterKeep ≠ .lost := by
      unfold Scrubber.afterKeep
      split
      · split <;> nofun
      · exact found
    obtain ⟨v, settled, pending, deferred⟩ := kept.settleWithdrawal
    have rests : Lawful p D (scene ((f.modSettled k m fun x => { x with state := x.afterKeep }).settleWithdrawal m)) :=
      settled.closes (keeps.settling v pending deferred (.inl here)) stays rfl rfl
    obtain ⟨u, own, record⟩ := settled.known
    obtain ⟨t, mid, middle⟩ := kept.known
    unfold Floor.settleLegs
    rw [if_neg drops]
    dsimp only
    rw [mid, own, Option.bind_some, Option.bind_some]
    split
    · next follows =>
      obtain ⟨was, ended⟩ := Bool.and_eq_true_iff.1 follows
      have was : ((bare x).withdrawal.any fun w => w.deferred) = true := by
        have same := congrArg Scrubber.withdrawal middle
        rw [show t.withdrawal = x.withdrawal from same] at was
        exact was
      obtain ⟨legless, -⟩ := fit.deferred was
      refine lawful_decidePromotion rests k own ?_ ?_ (Option.isNone_iff_eq_none.1 ended) fun leg next => ?_
      · exact (congrArg Scrubber.active record).trans legless
      · exact (congrArg Scrubber.ahead record).trans here
      · have staged : (bare x).staged = some leg := (congrArg Scrubber.staged record).symm.trans next
        obtain ⟨-, -, start⟩ := fit.staged leg staged
        rw [show u.current = x.current from (congrArg Scrubber.current record :)]
        have anchor : (bare x).anchor = x.current := by
          unfold Scrubber.anchor
          rw [legless]
          rfl
        rw [anchor] at start
        refine start.resolve_right fun ⟨_, _, plain⟩ => ?_
        rw [was] at plain
        cases plain
    · exact rests

/-! ### The refuge of an embargoed stop cell -/

/-- R133: the machine waits for its refuge. -/
theorem lawful_waitForRefuge (stands : At p D (scene f) m x { c | c ∈ holding x } ∅ none) (fit : Fit p D x)
    (found : x.state ≠ .lost) (other : x.state ≠ .waiting) (here : x.ahead = []) (legless : x.active = none)
    (unstaged : x.staged = none) (unsheltered : x.refuge = none) (k : Control) {r : Nat} {z : Cell}
    (known : f.cells.look r = some z) (occ : Occupancy) : Lawful p D (scene (f.waitForRefuge k m r occ)) := by
  have target : (scene f).Known (.cell r) := by
    show ((scene f).list r).isSome = true
    rw [scene_list known]
    rfl
  have joined := stands.join (b := true) target fun _ => ⟨r, rfl⟩
  rw [← scene_joinList] at joined
  have seeks := joined.modMachine (fun x => { x with request := some (.refuge r) }) fun _ => rfl
  have law : Lawful p D (scene ((f.joinList m true (.cell r)).modMachine m fun x => { x with request := some (.refuge r) })) :=
    seeks.closes (fit.seeking found other here legless unstaged unsheltered r) found rfl rfl
  unfold Floor.waitForRefuge
  rw [scene_order]
  exact lawful_ite (by rw [scene_raise]; exact law) law

/-- R131 to R133: what follows the arrival at the stop cell, `beyond` the ahead cells left. -/
def stopRest (k : Control) (m : Nat) (cancel : Bool) (s : Nat) (inHand : Bool) (beyond : List Nat) (g : Floor) : Floor × List Nat :=
  let stop := g.cells.look s
  let embargoed := (stop.map fun c => decide (c.embargo ≠ 0)).getD false
  let refuge : Option Nat := if embargoed && !inHand then stop.bind Cell.refuge else none
  let kept := (refuge.map fun r => beyond.contains r).getD false
  let given := (ascending beyond).filter fun c => !(kept && decide (refuge = some c))
  let g := given.foldl (Floor.release k m) g
  let g := g.modSettled k m fun y => { y with ahead := [] }
  let g := g.settleLegs k m cancel embargoed
  let g := match refuge with
    | some r => g.settleRefuge k m r kept
    | none => g
  (g, given)

theorem stopAt_eq (k : Control) (f : Floor) (m : Nat) (x : Scrubber) (cancel : Bool) (s : Nat) (j : Option Nat) :
    ∃ cs, f.stopAt k m x cancel s j =
      (stopRest k m cancel s x.refugeInHand (j.elim x.ahead fun j => x.ahead.drop (j + 1)) (stopArrival k f m x j)).1.offerReleased
        k cs := by
  cases j with
  | none =>
    refine ⟨[] ++ (stopRest k m cancel s x.refugeInHand x.ahead f).2, ?_⟩
    unfold Floor.stopAt stopRest stopArrival
    dsimp only [Option.elim] <;> rfl
  | some j =>
    refine ⟨x.leftBehind j ++ (stopRest k m cancel s x.refugeInHand (x.ahead.drop (j + 1)) (f.acceptArrival k m x j)).2, ?_⟩
    unfold Floor.stopAt stopRest stopArrival
    dsimp only [Option.elim] <;> rfl

/-! ### The stop -/

theorem Fit.holding_at_stop (fit : Fit p D x) (found : x.state ≠ .lost) (c : Nat) :
    c ∈ holding x ∧ c ∉ x.ahead ↔ c ∈ x.current :: [] ++ x.refuge.toList := by
  have once := fit.once found
  unfold holding at once ⊢
  rw [List.cons_append, List.nodup_cons, List.nodup_append] at once
  obtain ⟨fresh, -, -, apart⟩ := once
  simp only [List.cons_append, List.mem_cons, List.mem_append, List.nil_append] at fresh ⊢
  constructor
  · rintro ⟨is | inside | held, off⟩
    · exact .inl is
    · exact absurd inside off
    · exact .inr held
  · rintro (is | held)
    · exact ⟨.inl is, fun inside => fresh (.inl (is ▸ inside))⟩
    · exact ⟨.inr (.inr held), fun inside => apart c inside c held rfl⟩

/-- R131: cells ahead are given up, and the ahead list is emptied. -/
theorem At.stopRelease (law : At p D (scene f) m x { c | c ∈ holding x } ∅ w) (k : Control) {given : List Nat}
    (inside : ∀ c ∈ given, c ∈ x.ahead) :
    At p D (scene ((given.foldl (Floor.release k m) f).modSettled k m fun y => { y with ahead := [] })) m
      { x with ahead := [] } ({ c | c ∈ holding x } \ { c | c ∈ given }) ∅ w := by
  have left := law.release (cs := given) fun c here => .inl (by
    show c ∈ x.current :: x.ahead ++ x.refuge.toList
    exact List.mem_append_left _ (List.mem_cons_of_mem _ (inside c here)))
  rw [← scene_releases k m, Set.empty_sdiff] at left
  exact left.modSettled k (fun y => { y with ahead := [] }) fun _ => rfl

/-- R133: the refuge of an embargoed stop cell, none of whose cells ahead is kept. -/
theorem lawful_settleRefuge (stands : At p D (scene f) m x { c | c ∈ holding x } ∅ none) (fit : Fit p D x)
    (found : x.state ≠ .lost) (other : x.state ≠ .waiting) (here : x.ahead = []) (legless : x.active = none)
    (unstaged : x.staged = none) (unsheltered : x.refuge = none) (free : x.request = none) (k : Control) (r : Nat) :
    Lawful p D (scene (f.settleRefuge k m r false)) := by
  unfold Floor.settleRefuge
  split
  · exact stands.closes fit found rfl (by unfold waitOf; rw [free]; rfl)
  next z known =>
  rw [if_neg Bool.false_ne_true]
  split
  · next available =>
    refine lawful_grantRefuge stands fit found here legless unstaged unsheltered free ?_
    rw [scene_claim known, available.1]
    rfl
  · exact lawful_waitForRefuge stands fit found other here legless unstaged unsheltered k known _

/-- R133: a cell ahead that is still HELD is kept as the refuge. -/
theorem lawful_keepRefuge {r : Nat} (stands : At p D (scene f) m x { c | c = x.current ∨ c = r } ∅ none) (fit : Fit p D x)
    (found : x.state ≠ .lost) (here : x.ahead = []) (legless : x.active = none) (unstaged : x.staged = none)
    (free : x.request = none) (other : r ≠ x.current) (k : Control) : Lawful p D (scene (f.settleRefuge k m r true)) := by
  have held := (stands.station.holds r).2 (.inr rfl)
  obtain ⟨z, cell, -⟩ := Option.map_eq_some_iff.1 held
  unfold Floor.settleRefuge
  rw [cell]
  dsimp only
  rw [if_pos rfl]
  have sheltered := (stands.modMachine (fun y => { y with refuge := some r }) fun _ => rfl).order (.answer (.grant [r] true))
  refine sheltered.closes (fit.sheltered here legless unstaged free found other) found ?_ ?_
  · ext c
    show c = x.current ∨ c = r ↔ c ∈ x.current :: x.ahead ++ [r]
    rw [here]
    simp
  · unfold waitOf
    rw [free]
    rfl

theorem lawful_stopRest (law : Lawful p D (scene f)) (small : ∀ c ∈ D, c < Config.cellCount) (known : f.machines.look m = some x)
    (found : x.state ≠ .lost) (pending : x.withdrawal.isSome = true) (k : Control) (cancel : Bool) (s : Nat) :
    Lawful p D (scene (stopRest k m cancel s x.refugeInHand x.ahead f).1) := by
  obtain ⟨fit, stands⟩ := law.own (scene_fleet known) found
  have other : x.state ≠ .waiting := (fit.pending pending).1
  have listed (c : Nat) : c ∈ ascending x.ahead ↔ c ∈ x.ahead := by
    rw [mem_ascending]
    refine ⟨And.right, fun inside => ⟨small c ?_, inside⟩⟩
    rw [← stands.lists.claims]
    have held := (stands.station.holds c).2 (show c ∈ x.current :: x.ahead ++ x.refuge.toList from
      List.mem_append_left _ (List.mem_cons_of_mem _ inside))
    rw [held]
    rfl
  have whole (c : Nat) : c ∈ holding (bare x) ∧ c ∉ ascending x.ahead ↔ c ∈ x.current :: [] ++ x.refuge.toList := by
    rw [listed]
    exact fit.holding_at_stop found c
  unfold stopRest
  dsimp only
  generalize (Option.map (fun c : Cell => decide (c.embargo ≠ 0)) (f.cells.look s)).getD false = e
  generalize named : (if (e && !x.refugeInHand) = true then (f.cells.look s).bind Cell.refuge else none) = refuge
  cases refuge with
  | none =>
    have given : (ascending x.ahead).filter (fun c => !((Option.map (fun r => x.ahead.contains r) none).getD false &&
        decide (none = some c))) = ascending x.ahead := by simp
    rw [given]
    have left := stands.stopRelease k fun c inside => (listed c).1 inside
    have law := left.closes (fit.aheadGiven other) found (Set.ext whole) rfl
    obtain ⟨y, own, record⟩ := left.known
    refine lawful_settleLegs law k own ?_ ?_ (congrArg Scrubber.ahead record) cancel e
    · exact fun is => found ((congrArg Scrubber.state record).symm.trans is)
    · exact fun is => other ((congrArg Scrubber.state record).symm.trans is)
  | some r =>
    have cond : (e && !x.refugeInHand) = true := by
      by_contra no
      rw [if_neg no] at named
      cases named
    obtain ⟨embargoed, hand⟩ := Bool.and_eq_true_iff.1 cond
    have hand : x.refuge.isSome = false ∧ x.refugeWait = false := by simpa [Scrubber.refugeInHand] using hand
    have unsheltered : x.refuge = none := by simpa using hand.1
    have free : (bare x).request = none := by
      cases asked : x.request with
      | none => exact asked
      | some q =>
        cases q with
        | ordinary count t => exact absurd (fit.waiting.2 ⟨count, t, asked⟩) other
        | refuge c =>
          have none := hand.2
          unfold Scrubber.refugeWait at none
          rw [asked] at none
          cases none
    have unlisted : waitOf (bare x) = none := by
      unfold waitOf
      rw [free]
      rfl
    rw [unlisted] at stands
    have drops : (cancel || e) = true := by rw [embargoed, Bool.or_true]
    by_cases inside : r ∈ x.ahead
    · have kept : (Option.map (fun r => x.ahead.contains r) (some r)).getD false = true := List.contains_iff_mem.2 inside
      rw [kept]
      have left := stands.stopRelease k (given := (ascending x.ahead).filter fun c => !(true && decide (some r = some c)))
        fun c here => (listed c).1 (List.mem_filter.1 here).1
      obtain ⟨v, settled, pends, plain⟩ := left.settleLegs k drops
      have fits := (fit.aheadGiven other).legsSettled other rfl pends plain
      have elsewhere : r ≠ x.current := fun same => by
        have once := fit.once found
        have fresh := (List.nodup_cons.1 once).1
        exact fresh (List.mem_append_left _ (show x.current ∈ x.ahead from same ▸ inside))
      have cells : ({ c | c ∈ holding (bare x) } \
          { c | c ∈ (ascending x.ahead).filter fun c => !(true && decide (some r = some c)) }) =
            { c | c = x.current ∨ c = r } := by
        ext c
        have stop := fit.holding_at_stop found c
        rw [show (bare x).refuge = none from unsheltered] at stop
        have stop : c ∈ holding (bare x) ∧ c ∉ x.ahead ↔ c = x.current := stop.trans (by simp; rfl)
        rw [Set.mem_sdiff, Set.mem_ofPred_eq, Set.mem_ofPred_eq, Set.mem_ofPred_eq, List.mem_filter, listed]
        by_cases same : c = r
        · subst same
          have member : c ∈ holding (bare x) := List.mem_append_left _ (List.mem_cons_of_mem _ inside)
          simp [member]
        · have keeps : (!(true && decide (some r = some c))) = true := by simp [Ne.symm same]
          rw [keeps, and_iff_left rfl, stop, or_iff_left same]
      rw [cells] at settled
      exact lawful_keepRefuge settled fits (fun is => found (toIdle_eq_lost.1 is)) rfl rfl rfl free elsewhere k
    · have kept : (Option.map (fun r => x.ahead.contains r) (some r)).getD false = false :=
        Bool.eq_false_iff.2 fun has => inside (List.contains_iff_mem.1 has)
      rw [kept]
      have given : (ascending x.ahead).filter (fun c => !(false && decide (some r = some c))) = ascending x.ahead := by simp
      rw [given]
      have left := stands.stopRelease k fun c here => (listed c).1 here
      obtain ⟨v, settled, pends, plain⟩ := left.settleLegs k drops
      have fits := (fit.aheadGiven other).legsSettled other rfl pends plain
      have cells : ({ c | c ∈ holding (bare x) } \ { c | c ∈ ascending x.ahead }) = { c | c ∈ x.current :: [] ++ x.refuge.toList } :=
        Set.ext whole
      rw [cells] at settled
      exact lawful_settleRefuge settled fits (fun is => found (toIdle_eq_lost.1 is)) (toIdle_ne nofun nofun nofun nofun) rfl rfl
        rfl unsheltered free k r

/-- R131: the record once the machine has arrived at the stop cell, where it had to. -/
theorem stopArrival_record {k : Control} {i c : Nat} {j : Option Nat} (known : f.machines.look m = some x)
    (found : x.state ≠ .lost) (pending : x.withdrawal.isSome = true) (stops : StopsAt x j i c) :
    ∃ y, (stopArrival k f m x j).machines.look m = some y ∧ y.ahead = j.elim x.ahead (fun j => x.ahead.drop (j + 1)) ∧
      y.state ≠ .lost ∧ y.withdrawal.isSome = true ∧ y.refugeInHand = x.refugeInHand := by
  rcases stops with ⟨rfl, -, -⟩ | ⟨j, rfl, -, here⟩
  · exact ⟨x, known, rfl, found, pending, rfl⟩
  · obtain ⟨-, -, ld, st, q, own, stays, -⟩ := acceptArrival_spec (k := k) known here fun _ none => by
      rw [none] at pending
      cases pending
    refine ⟨_, own, rfl, stays found, ?_, rfl⟩
    show (Option.map _ x.withdrawal).isSome = true
    simpa using pending

theorem lawful_stopAt (law : Lawful p D (scene f)) (small : ∀ c ∈ D, c < Config.cellCount) (known : f.machines.look m = some x)
    (found : x.state ≠ .lost) (pending : x.withdrawal.isSome = true) (k : Control) (cancel : Bool) {i c : Nat} {j : Option Nat}
    (stops : StopsAt x j i c) : Lawful p D (scene (f.stopAt k m x cancel c j)) := by
  obtain ⟨y, own, beyond, found', pending', hand⟩ := stopArrival_record (k := k) known found pending stops
  have arrived : Lawful p D (scene (stopArrival k f m x j)) := by
    rcases stops with ⟨rfl, -, -⟩ | ⟨j, rfl, -, here⟩
    · exact law
    · exact lawful_acceptArrival law k known found (List.getElem?_eq_some_iff.1 here).1
  obtain ⟨cs, whole⟩ := stopAt_eq k f m x cancel c j
  rw [whole, ← beyond, ← hand]
  exact lawful_offerReleased (lawful_stopRest arrived small own found' pending' k cancel c) k cs

/-! ### The acknowledgement -/

theorem lawful_ackWithdraw (law : Lawful p D (scene f)) (small : ∀ c ∈ D, c < Config.cellCount)
    (known : f.machines.look m = some x) (found : x.state ≠ .lost) (pending : x.withdrawal.isSome = true) {o : Order}
    (out : x.outstanding = some o) (k : Control) (cancel : Bool) (s : Nat) :
    Lawful p D (scene (f.ackWithdraw k m cancel s)) := by
  unfold Floor.ackWithdraw
  rw [known]
  dsimp only
  split
  · next j pos =>
    obtain ⟨inside, here, -⟩ := List.findIdx?_eq_some_iff_getElem.1 pos
    have here : x.ahead[j]? = some s := by
      rw [List.getElem?_eq_getElem inside]
      exact congrArg some (of_decide_eq_true here)
    exact lawful_stopAt law small known found pending k cancel (.inr ⟨j, rfl, rfl, here⟩)
  · split
    · next here => exact lawful_stopAt law small known found pending k cancel (.inl ⟨rfl, rfl, here.symm⟩)
    · obtain ⟨-, y, own, record, -⟩ := unexpected_spec (k := k) (c := s) known out
      have law := lawful_unexpected law k m s
      have astray : (bare y).halts.position = true := congrArg (fun z : Scrubber => z.halts.position) record
      have lost : y.state ≠ .lost := by
        obtain ⟨fit, -⟩ := law.at (scene_fleet own)
        exact (fit.pending ((congrArg (fun z : Scrubber => z.withdrawal.isSome) record).trans pending)).2
      obtain ⟨fit, stands⟩ := law.own (scene_fleet own) lost
      obtain ⟨v, settled, pends, deferred⟩ := stands.settleWithdrawal
      exact settled.closes (fit.settling v pends deferred (.inr astray)) lost rfl rfl

theorem lawful_ack (law : Lawful p D (scene f)) (small : ∀ c ∈ D, c < Config.cellCount) (known : f.machines.look m = some x)
    (found : x.state ≠ .lost)
    (pledge : (x.queue ++ x.outstanding.toList).any isWithdraw = true → x.withdrawal.isSome = true) (k : Control)
    (kind stop : Nat) (declined : Bool) : Lawful p D (scene (f.ack k m kind stop declined)) := by
  unfold Floor.ack
  rw [known, Option.bind_some]
  split
  · next o out =>
    have stray : scene { f with fleetCounters := { f.fleetCounters with strayAcks := bump f.fleetCounters.strayAcks } } = scene f :=
      scene_beside rfl rfl rfl
    refine lawful_ite ?_ (by rw [stray]; exact law)
    rw [scene_deliver, scene_clearOutstanding]
    cases o with
    | leg tag flow homing cells =>
      exact lawful_ite (lawful_decline law k known found tag cells) law
    | withdraw cancel named =>
      refine lawful_ackWithdraw law small known found (pledge ?_) out k cancel stop
      rw [out, List.any_append]
      exact Bool.or_true _
    | answer a => exact law
    | motion b => exact law
  · rw [scene_beside rfl rfl rfl]
    exact law

end

end Sys2Proof.Laws
end

section
/-! ## The rest of the work on machines, cells and lines keeps the law of the scene -/

namespace Sys2Proof.Laws

open Sys2Proof Sys2Proof.Machine Sys2Proof.Safety

-- One theorem at a time, as in the tests above: side by side their threads' stacks take the memory.
set_option Elab.async false

/-! ### The cells of a machine -/

theorem look_of_mem_keysWhere {α : Type} {t : Table α} {q : α → Bool} (once : t.keys.Nodup) {k : Nat} :
    k ∈ t.keysWhere q ↔ ∃ v, t.look k = some v ∧ q v = true := by
  cases known : t.look k with
  | some v => rw [mem_keysWhere once q known]; simp
  | none =>
    refine ⟨fun inside => ?_, fun ⟨_, here, _⟩ => by cases here⟩
    obtain ⟨e, listed, rfl⟩ := List.mem_map.1 inside
    exact absurd (List.mem_map.2 ⟨e, (List.mem_filter.1 listed).1, rfl⟩) ((Table.look_eq_none _ _).1 known)

theorem claimOf_eq_iff {o : Occupancy} {b : Bool} {n : Nat} :
    claimOf o = some (b, n) ↔ (b = true ∧ o = .held n) ∨ (b = false ∧ o = .blocked n) := by
  cases o <;> cases b <;> simp [claimOf]

theorem mem_held_iff {f : Floor} (once : f.cells.keys.Nodup) {m c : Nat} :
    c ∈ (f.cells.keysWhere fun z => decide (z.occ = .held m)) ↔ (scene f).claim c = some (some (true, m)) := by
  rw [look_of_mem_keysWhere once]
  show _ ↔ (f.cells.look c).map (fun z => claimOf z.occ) = _
  rw [Option.map_eq_some_iff]
  refine exists_congr fun z => and_congr_right fun _ => ?_
  rw [claimOf_eq_iff, decide_eq_true_eq]
  simp

theorem mem_cellsOf_claim {f : Floor} (once : f.cells.keys.Nodup) {m c : Nat} :
    c ∈ f.cellsOf m ↔ ∃ b, (scene f).claim c = some (some (b, m)) := by
  unfold Floor.cellsOf
  rw [look_of_mem_keysWhere once]
  show _ ↔ ∃ b, (f.cells.look c).map (fun z => claimOf z.occ) = _
  cases f.cells.look c with
  | none => simp
  | some z => simp [claimOf_eq_iff, ownedBy_eq, or_comm]

section
variable {p : Prop} {D : Set Nat} {f : Floor} {m : Nat} {x y : Scrubber} {H B : Set Nat} {w : Option (Target × Bool)}

/-! ### Halts, legs -/

theorem lawful_removeHalt (law : Lawful p D (scene f)) (k : Control) (r : HaltReason) (m : Nat)
    (astray : r = .position → ∀ x, f.machines.look m = some x → x.ahead = [] ∧ x.staged = none) :
    Lawful p D (scene (f.removeHalt k r m)) := by
  unfold Floor.removeHalt
  split
  · exact law
  next x known =>
  split
  swap
  · exact law
  next has =>
  obtain ⟨fit, -⟩ := law.at (scene_fleet known)
  have stays (still : x.state = .halted → (x.halts.write false r).isEmpty = false) :
      Lawful p D (scene (f.modMachine m fun y => { y with halts := y.halts.write false r })) :=
    lawful_modMachine law m (fun y => { y with halts := y.halts.write false r }) (fun _ => rfl) fun y there fit => by
      cases known.symm.trans there
      exact ⟨fit.unhalt (fun same => astray same x known) still, rfl, .rfl, rfl⟩
  dsimp only
  split
  · next last =>
    split
    · next lost => exact stays fun is => by cases lost.symm.trans is
    next found =>
    split
    · next down =>
      rw [scene_order]
      exact stays fun is => by cases down.symm.trans is
    next up =>
    have halted : x.state = .halted := by
      rcases fit.halts (isEmpty_of_has has) with is | is | is
      · exact is
      · exact absurd is found
      · exact absurd is up
    refine lawful_attempt ?_ k true m
    obtain ⟨fit, stands⟩ := law.own (scene_fleet known) found
    have resumes := ((stands.modMachine (fun y => { y with halts := y.halts.write false r }) fun _ => rfl).order
      (.motion true)).modSettled k (fun y => { y with state := y.resumed }) fun _ => rfl
    exact resumes.closes (fit.resumed (fun same => astray same x known) halted last) (resumed_ne (bare x) nofun nofun) rfl rfl
  · next some' => exact stays fun _ => Bool.not_eq_true _ ▸ some'

theorem lawful_cancelLeg (law : Lawful p D (scene f)) (k : Control) (m : Nat) (withdraw : Bool) :
    Lawful p D (scene (f.cancelLeg k m withdraw)) := by
  have dropped : Lawful p D (scene (f.modMachine m fun x => { x with staged := none })) :=
    lawful_modMachine law m (fun y => { y with staged := none }) (fun _ => rfl) fun y _ fit => ⟨fit.unstaged, rfl, .rfl, rfl⟩
  unfold Floor.cancelLeg
  exact lawful_ite (lawful_startWithdrawal dropped k true none m) dropped

/-- R72: a leg that passed the checks is staged, and its promotion attempted. -/
theorem lawful_loadLeg (law : Lawful p D (scene f)) (k : Control) (known : f.machines.look m = some x) (night : ¬ p)
    (found : x.state ≠ .lost) (up : x.state ≠ .stoodDown) (keeps : (x.withdrawal.any fun w => w.cancel) = false)
    (unsheltered : x.refugeInHand = false) {leg : Leg} (apart : NoReturn leg.cells) (long : 2 ≤ leg.cells.length)
    (start : leg.cells.head? = some x.anchor) (defined : ∀ c ∈ leg.cells, c ∈ D) :
    Lawful p D (scene (f.loadLeg k m leg)) := by
  unfold Floor.loadLeg
  refine lawful_attempt ?_ k false m
  refine lawful_modMachine law m (fun y => { y with staged := some leg }) (fun _ => rfl) fun y there fit => ?_
  cases known.symm.trans there
  exact ⟨fit.loaded night found up keeps unsheltered apart long start defined, rfl, .rfl, rfl⟩

/-! ### Loss -/

theorem lawful_lose (law : Lawful p D (scene f)) (once : f.cells.keys.Nodup) (k : Control) (known : f.machines.look m = some x)
    (source : NoticeReason) : Lawful p D (scene (f.lose k m source)) := by
  obtain ⟨fit, B, -, stands⟩ := law.at (scene_fleet known)
  have held (c : Nat) : c ∈ (f.cells.keysWhere fun z => decide (z.occ = .held m)) ↔ c ∈ heldBy (bare x) :=
    (mem_held_iff once).trans (stands.station.holds c)
  have blocked := stands.block fun c inside => .inl ((held c).1 inside)
  rw [← scene_blockCells] at blocked
  have left := blocked.leaveWait
  rw [← scene_flushOrders] at left
  have gone := (left.modSettled k (fun y => { y with
    refuge := none, withdrawal := none, active := none, staged := none, state := .lost }) fun _ => rfl)
  have lost : Lawful p D (scene ((((f.blockCells m).leaveWait m).flushOrders m).modSettled k m fun x => { x with
      refuge := none, withdrawal := none, active := none, staged := none, beaconTimer := none, state := .lost })) := by
    rw [scene_modSettled k _ m (g := fun y => { y with
      refuge := none, withdrawal := none, active := none, staged := none, state := .lost }) fun _ => rfl]
    rw [scene_modSettled k _ m (g := fun y => { y with
      refuge := none, withdrawal := none, active := none, staged := none, state := .lost }) fun _ => rfl] at gone
    have none : (heldBy (bare x) \ { c | c ∈ f.cells.keysWhere fun z => decide (z.occ = .held m) }) =
        heldBy { bare x with
          refuge := none, withdrawal := none, active := none, staged := none, state := .lost, request := none } := by
      ext c
      exact ⟨fun ⟨inside, off⟩ => absurd ((held c).2 inside) off, fun is => absurd rfl is.1⟩
    rw [none] at gone
    exact gone.close fit.losing fun found => absurd rfl found
  unfold Floor.lose
  rw [scene_raise]
  exact lost

theorem lawful_countMiss (law : Lawful p D (scene f)) (once : f.cells.keys.Nodup) (k : Control) (m : Nat)
    (source : NoticeReason) : Lawful p D (scene (f.countMiss k m source)) := by
  have missed : Lawful p D (scene (f.modMachine m fun x => { x with misses := x.misses + 1 })) :=
    lawful_beside law m fun _ => rfl
  unfold Floor.countMiss
  dsimp only
  split
  · exact missed
  · next x known => exact lawful_ite (lawful_lose missed once k known source) missed

/-! ### Records and timers -/

theorem lawful_recordSupplies (law : Lawful p D (scene f)) (k : Control) (m battery water : Nat) :
    Lawful p D (scene (f.recordSupplies k m battery water)) := by
  unfold Floor.recordSupplies
  split
  · exact law
  · next x known =>
    have recorded : Lawful p D (scene (f.modMachine m fun y => { y with
      battery := some battery, water := some water, low := lowFlag k.timing battery water x.low })) :=
      lawful_beside law m fun _ => rfl
    exact lawful_ite (lawful_attempt recorded k true m) recorded

theorem lawful_beacon (law : Lawful p D (scene f)) (once : f.cells.keys.Nodup) (k : Control) (m battery water : Nat) :
    Lawful p D (scene (f.beacon k m battery water)) := by
  have heard : Lawful p D (scene (f.modMachine m fun y => { y with
      misses := 0, lastBeacon := some k.now, beaconTimer := some (k.now + k.timing.beaconInterval * 1000) })) :=
    lawful_beside law m fun _ => rfl
  have early : Lawful p D (scene (f.modMachine m fun y => { y with earlyBeacons := bump y.earlyBeacons })) :=
    lawful_beside law m fun _ => rfl
  unfold Floor.beacon
  split
  · exact law
  · exact lawful_ite (lawful_recordSupplies law k m battery water)
      (lawful_ite (lawful_recordSupplies heard k m battery water) (lawful_countMiss early once k m _))

theorem lawful_standDown (law : Lawful p D (scene f)) (k : Control) (known : f.machines.look m = some x)
    (found : x.state ≠ .lost) (code : Nat) : Lawful p D (scene (f.standDown k m code)) := by
  obtain ⟨fit, stands⟩ := law.own (scene_fleet known) found
  have down := stands.leaveOrdinary.modSettled k (fun y => { y with active := none, staged := none, state := .stoodDown })
    fun _ => rfl
  unfold Floor.standDown
  rw [scene_raise]
  exact down.closes (fit.quieted.standing (calm_ne nofun nofun found) (calm_ne_waiting _)) nofun rfl rfl

theorem lawful_faultStop (law : Lawful p D (scene f)) (k : Control) (known : f.machines.look m = some x)
    (found : x.state ≠ .lost) (code : Nat) : Lawful p D (scene (f.faultStop k m code)) := by
  have counted : Lawful p D (scene (f.modMachine m fun y => { y with
      safeStops := bumpTo 15 x.safeStops, lastFault := some code })) := lawful_beside law m fun _ => rfl
  have own := (acts_modMachine f m fun y => { y with safeStops := bumpTo 15 x.safeStops, lastFault := some code }).own known
  unfold Floor.faultStop
  rw [known]
  refine lawful_ite counted (lawful_ite (lawful_standDown counted k own found code) ?_)
  rw [scene_raise]
  exact lawful_addHalt counted k .machine m

theorem lawful_restart (law : Lawful p D (scene f)) (k : Control) (m : Nat) : Lawful p D (scene (f.restart k m)) := by
  unfold Floor.restart
  split
  · exact law
  · exact lawful_ite law (lawful_removeHalt law k .machine m nofun)

theorem lawful_frameSent (law : Lawful p D (scene f)) (k : Control) (m : Nat) : Lawful p D (scene (f.frameSent k m)) := by
  unfold Floor.frameSent
  refine lawful_ite ?_ law
  rw [scene_modMachine_same (h := fun x => { x with replyWindow := some (k.now + k.timing.replyWindow) }) _ m fun _ => rfl,
    scene_beside rfl rfl rfl]
  exact law

theorem lawful_replyExpiry (law : Lawful p D (scene f)) (once : f.cells.keys.Nodup) (k : Control) (m : Nat) :
    Lawful p D (scene (f.replyExpiry k m)) := by
  have stopped : Lawful p D (scene (f.modMachine m fun x => { x with replyWindow := none })) := lawful_beside law m fun _ => rfl
  have counted : Lawful p D (scene (if k.mode = .standby then f.modMachine m fun x => { x with replyWindow := none }
      else (f.modMachine m fun x => { x with replyWindow := none }).countMiss k m .reply)) :=
    lawful_ite stopped (lawful_countMiss stopped once k m _)
  unfold Floor.replyExpiry
  dsimp only
  generalize (if k.mode = .standby then f.modMachine m fun x => { x with replyWindow := none }
      else (f.modMachine m fun x => { x with replyWindow := none }).countMiss k m .reply) = g at counted ⊢
  split
  · rw [scene_beside rfl rfl rfl]
    exact counted
  · exact counted

theorem lawful_beaconExpiry (law : Lawful p D (scene f)) (once : f.cells.keys.Nodup) (k : Control) (m : Nat) :
    Lawful p D (scene (f.beaconExpiry k m)) := by
  have restarted : Lawful p D (scene (f.modMachine m fun x => { x with
      beaconTimer := some (k.now + k.timing.beaconInterval * 1000) })) := lawful_beside law m fun _ => rfl
  exact lawful_countMiss restarted once k m _

/-- R114: a machine that runs or waits becomes STALLED. -/
theorem lawful_stall (law : Lawful p D (scene f)) (k : Control) (known : f.machines.look m = some x)
    (works : x.state = .running ∨ x.state = .waiting) : Lawful p D (scene (f.stall k m)) := by
  have no {t : MState} (a : t ≠ .running) (b : t ≠ .waiting) : x.state ≠ t := fun is => by
    rw [is] at works
    exact works.elim a b
  obtain ⟨fit, stands⟩ := law.own (scene_fleet known) (no nofun nofun)
  have stalls := stands.leaveOrdinary.modSettled k (fun y => { y with state := .stalled }) fun _ => rfl
  unfold Floor.stall
  rw [scene_raise]
  refine stalls.closes (fit.quieted.move (calm_ne nofun nofun (no nofun nofun)) (calm_ne_waiting _) .stalled nofun nofun nofun
    (fun some => ?_) nofun nofun fun is => absurd is (calm_ne nofun nofun (no nofun nofun))) nofun rfl rfl
  rcases fit.halts some with is | is | is
  all_goals exact absurd is (no nofun nofun)

/-! ### Cells and lines -/

/-- R20: an interval that runs out. -/
theorem lawful_freeCell (law : Lawful p D (scene f)) (k : Control) {c : Nat} {z : Cell} (known : f.cells.look c = some z)
    (unclaimed : claimOf z.occ = none) : Lawful p D (scene (f.freeCell k c)) := by
  unfold Floor.freeCell
  refine lawful_offerCell ?_ k c
  have same : (scene f).occupy c (claimOf .free) = scene f := by
    refine Scene.ext rfl (funext fun d => ?_) rfl rfl rfl
    show (if d = c then ((scene f).claim d).map fun _ => claimOf .free else (scene f).claim d) = _
    split
    · next here =>
      rw [here, scene_claim known, unclaimed]
      rfl
    · rfl
  rw [scene_setOcc, same]
  exact law

theorem lawful_modLine (law : Lawful p D (scene f)) (i : Nat) (h : Line → Line) : Lawful p D (scene (f.modLine i h)) := by
  rw [scene_modLine]
  exact law

theorem lawful_each (law : Lawful p D (scene f)) (h : Nat → Cell → Cell)
    (same : ∀ c z, claimOf (h c z).occ = claimOf z.occ ∧ (h c z).waiters = z.waiters ∧ (h c z).lane = z.lane) :
    Lawful p D (scene { f with cells := f.cells.each h }) := by
  rw [scene_each f h same]
  exact law

theorem lawful_withdrawRaised (law : Lawful p D (scene f)) (k : Control) (raised : List Nat) (m : Nat) :
    Lawful p D (scene (f.withdrawRaised k raised m)) := by
  unfold Floor.withdrawRaised
  split
  · exact law
  · exact lawful_ite law (lawful_ite (lawful_startWithdrawal law k true _ m) (lawful_startWithdrawal law k false none m))

theorem lawful_startEmbargo (law : Lawful p D (scene f)) (k : Control) (i : Nat) : Lawful p D (scene (f.startEmbargo k i)) := by
  have raised := lawful_each law (fun _ c => if c.inBand i then { c with embargo := c.embargo + 1 } else c) fun c z => by
    split <;> exact ⟨rfl, rfl, rfl⟩
  exact lawful_modLine (lawful_foldl (fun _ m law => lawful_withdrawRaised law k _ m) _ raised) i _

theorem lawful_endEmbargo (law : Lawful p D (scene f)) (k : Control) (i : Nat) : Lawful p D (scene (f.endEmbargo k i)) := by
  have lowered := lawful_each law (fun _ c => if c.inBand i then { c with embargo := c.embargo - 1 } else c) fun c z => by
    split <;> exact ⟨rfl, rfl, rfl⟩
  exact lawful_offerCells (lawful_modLine lowered i _) k _

theorem lawful_startIfQuiet (law : Lawful p D (scene f)) (k : Control) (i : Nat) : Lawful p D (scene (f.startIfQuiet k i)) := by
  unfold Floor.startIfQuiet
  split
  · exact law
  · exact lawful_ite (lawful_startEmbargo law k i) law

theorem lawful_endIfInForce (law : Lawful p D (scene f)) (k : Control) (i : Nat) :
    Lawful p D (scene (f.endIfInForce k i)) := by
  unfold Floor.endIfInForce
  split
  · exact law
  · exact lawful_ite law (lawful_endEmbargo law k i)

theorem lawful_activeEdge (law : Lawful p D (scene f)) (k : Control) (i : Nat) : Lawful p D (scene (f.activeEdge k i)) := by
  unfold Floor.activeEdge
  split
  · exact law
  · exact lawful_ite (lawful_modLine law i _) (lawful_ite (lawful_startEmbargo law k i) (lawful_modLine law i _))

theorem lawful_inactiveEdge (law : Lawful p D (scene f)) (k : Control) (i : Nat) :
    Lawful p D (scene (f.inactiveEdge k i)) := by
  unfold Floor.inactiveEdge
  split
  · exact law
  · refine lawful_ite ?_ (lawful_ite (lawful_endIfInForce law k i) (lawful_modLine law i _))
    refine lawful_ite (lawful_modLine (lawful_modLine law i _) i _) (lawful_ite ?_ ?_)
    · rw [scene_raise]
      exact lawful_modLine (lawful_modLine law i _) i _
    · exact lawful_startIfQuiet (lawful_modLine (lawful_modLine law i _) i _) k i

theorem lawful_stuckLine (law : Lawful p D (scene f)) (k : Control) (i : Nat) : Lawful p D (scene (f.stuckLine k i)) := by
  unfold Floor.stuckLine
  rw [scene_raise]
  exact lawful_modLine (lawful_startIfQuiet (lawful_modLine law i _) k i) i _

theorem lawful_sampleLine (law : Lawful p D (scene f)) (k : Control) (i : Nat) (flow : Bool) :
    Lawful p D (scene (f.sampleLine k i flow)) := by
  unfold Floor.sampleLine
  split
  · exact law
  · next l known =>
    refine lawful_ite ?_ law
    have sampled := lawful_modLine law i fun r => { r with
      counter := (filterSample l.cfg.threshold l.counter l.level (l.cfg.rawActive flow)).1
      level := (filterSample l.cfg.threshold l.counter l.level (l.cfg.rawActive flow)).2 }
    refine lawful_ite (lawful_ite ?_ sampled) (lawful_ite (lawful_activeEdge sampled k i) (lawful_inactiveEdge sampled k i))
    unfold Floor.countPulse
    split
    · exact sampled
    · split
      · exact sampled
      · exact lawful_ite (lawful_stuckLine sampled k i) (lawful_modLine sampled i _)

theorem lawful_activeEdgeEvent (law : Lawful p D (scene f)) (k : Control) (i : Nat) :
    Lawful p D (scene (f.activeEdgeEvent k i)) := by
  unfold Floor.activeEdgeEvent
  split
  · exact law
  · exact lawful_ite (lawful_activeEdge (lawful_modLine law i _) k i) law

theorem lawful_inactiveEdgeEvent (law : Lawful p D (scene f)) (k : Control) (i : Nat) :
    Lawful p D (scene (f.inactiveEdgeEvent k i)) := by
  unfold Floor.inactiveEdgeEvent
  split
  · exact law
  · exact lawful_ite (lawful_inactiveEdge (lawful_modLine law i _) k i) law

theorem lawful_stuckEvent (law : Lawful p D (scene f)) (k : Control) (i : Nat) (flow : Bool) :
    Lawful p D (scene (f.stuckEvent k i flow)) := by
  unfold Floor.stuckEvent
  split
  · exact law
  · exact lawful_ite (lawful_ite (lawful_stuckLine (lawful_modLine law i _) k i) law) law

theorem lawful_setupLine (law : Lawful p D (scene f)) (k : Control) (i : Nat) (cfg : LineConfig) :
    Lawful p D (scene (f.setupLine k i cfg)) :=
  lawful_modLine (lawful_endIfInForce (lawful_modLine law i _) k i) i _

theorem lawful_breach (law : Lawful p D (scene f)) (k : Control) (i : Nat) : Lawful p D (scene (f.breach k i)) := by
  unfold Floor.breach
  rw [scene_raise]
  exact lawful_modLine law i _

theorem lawful_holdExpiry (law : Lawful p D (scene f)) (k : Control) (i : Nat) : Lawful p D (scene (f.holdExpiry k i)) :=
  lawful_endIfInForce (lawful_modLine law i _) k i

end

end Sys2Proof.Laws
end

section
/-! ## Placements, setting up and resets keep the law of the scene -/

namespace Sys2Proof.Laws

open Sys2Proof Sys2Proof.Machine Sys2Proof.Safety

-- One theorem at a time, as in the tests above: side by side their threads' stacks take the memory.
set_option Elab.async false

section
variable {p : Prop} {D : Set Nat} {f : Floor} {s t : Scene} {m : Nat} {x y : Scrubber} {H B : Set Nat}
  {w : Option (Target × Bool)}

/-! ### MACHINE RESTORE -/

/-- R34, R123: what a machine has beside cell `c` is given up, and it takes `c`. -/
theorem At.resettle (law : At p D (scene f) m x H B w) {others : List Nat} {c : Nat}
    (own : ∀ d, d ∈ others ↔ (d ∈ H ∨ d ∈ B) ∧ d ≠ c) (open' : (scene f).Open m c) (k : Control) :
    At p D (scene (((others.foldl (Floor.release k m) f).setOcc c (.held m)).place m c)) m x { d | d = c } ∅ w := by
  have left := law.release fun d inside => ((own d).1 inside).1
  rw [← scene_releases k m] at left
  have still : (scene (others.foldl (Floor.release k m) f)).Open m c := by
    obtain ⟨q, claim, mine⟩ := open'
    rw [scene_releases]
    unfold Scene.Open
    rw [Scene.claim_occupyAll, if_neg fun inside => ((own c).1 inside).2 rfl]
    exact ⟨q, claim, mine⟩
  have taken := left.occupyAll (cs := [c]) (k := some (true, m)) (H' := { d | d = c }) (B' := ∅)
    (fun d inside => by rw [List.mem_singleton.1 inside]; exact still) (fun b n same => by cases same; rfl)
    (fun d => by
      rw [Set.mem_ofPred_eq, Set.mem_sdiff, Set.mem_ofPred_eq, own, List.mem_singleton]
      by_cases same : d = c
      · simp [same]
      · simp [same]
        tauto)
    fun d => by
      rw [Set.mem_empty_iff_false, Set.mem_sdiff, Set.mem_ofPred_eq, own, List.mem_singleton]
      simp
      tauto
  rw [Scene.occupyAll_single, ← show claimOf (.held m) = some (true, m) from rfl, ← scene_setOcc, ← scene_place _ m c] at taken
  exact taken

theorem lawful_restore (law : Lawful p D (scene f)) (once : f.cells.keys.Nodup) (k : Control)
    (known : f.machines.look m = some x) (settled : x.withdrawal = none) {c : Nat} {z : Cell} (cell : f.cells.look c = some z)
    (fits : z.occ.ownedBy m = true ∨ z.occ = .free) : Lawful p D (scene (f.restore k m c)) := by
  obtain ⟨-, B, -, stands⟩ := law.at (scene_fleet known)
  have open' : (scene f).Open m c := by
    refine ⟨_, scene_claim cell, fun b n same => ?_⟩
    rw [ownedBy_eq, decide_eq_true_eq] at fits
    rcases fits with (occ | occ) | occ <;> rw [occ] at same <;> cases same <;> rfl
  have left := stands.leaveWait
  have still : (scene (f.leaveWait m)).Open m c := by
    unfold Scene.Open
    rw [scene_leaveWait, Scene.claim_leave]
    exact open'
  have own (d : Nat) : d ∈ f.otherCells m c ↔ (d ∈ heldBy (bare x) ∨ d ∈ B) ∧ d ≠ c := by
    unfold Floor.otherCells
    rw [List.mem_filter, mem_cellsOf_claim once, ← stands.station.holds, ← stands.station.blocks]
    simp only [Bool.not_eq_true', decide_eq_false_iff_not, Bool.exists_bool]
    tauto
  have placed := (left.resettle own still k).modSettled k (fun y => { y with
    current := c, ahead := [], refuge := none, active := none, staged := none
    state := if y.halts.isEmpty then .idle else .halted }) fun _ => rfl
  have same : scene ((((((f.otherCells m c).foldl (Floor.release k m) (f.leaveWait m)).setOcc c (.held m)).place m c).modSettled k m
      fun x => x.restored k c)) = scene (((((f.otherCells m c).foldl (Floor.release k m) (f.leaveWait m)).setOcc c
        (.held m)).place m c).modSettled k m fun y => { y with
          current := c, ahead := [], refuge := none, active := none, staged := none
          state := if y.halts.isEmpty then .idle else .halted }) := by
    rw [scene_modSettled k _ m (g := fun y => { y with
      current := c, ahead := [], refuge := none, active := none, staged := none
      state := if y.halts.isEmpty then .idle else .halted }) fun _ => rfl]
    rw [scene_modSettled k _ m (g := fun y => { y with
      current := c, ahead := [], refuge := none, active := none, staged := none
      state := if y.halts.isEmpty then .idle else .halted }) fun _ => rfl]
  rw [← same] at placed
  have found : (if x.halts.isEmpty then MState.idle else .halted) ≠ .lost := by split <;> nofun
  have restored := placed.closes (fit_restored p D (bare x) c settled) found (by ext d; exact List.mem_singleton.symm) rfl
  obtain ⟨y, own', record⟩ := placed.known
  have freed := lawful_removeHalt restored k .position m fun _ z there => by
    cases own'.symm.trans there
    exact ⟨congrArg Scrubber.ahead record, congrArg Scrubber.staged record⟩
  unfold Floor.restore
  refine lawful_offerReleased ?_ k _
  split
  · exact lawful_ite freed (lawful_startWithdrawal freed k true _ m)
  · exact freed

/-! ### Machines that come and go -/

/-- R106: a machine that has no cell and stands on no list leaves its slot. -/
theorem At.depart (law : At p D s m x ∅ ∅ none) (gone : t.fleet m = none) (others : ∀ n, n ≠ m → t.fleet n = s.fleet n)
    (claim : t.claim = s.claim) (list : t.list = s.list) (queue : t.queue = s.queue) (place : t.place = s.place) :
    Lawful p D t := by
  have stays {n : Nat} {H B : Set Nat} {w : Option (Target × Bool)} (there : Station s n H B w) : Station t n H B w := by
    refine ⟨?_, ?_, ?_, ?_⟩
    · rw [claim]; exact there.holds
    · rw [claim]; exact there.blocks
    · rw [list]; exact there.listed
    · rw [queue]; exact there.queued
  refine ⟨fun n => ?_, ?_⟩
  · by_cases here : n = m
    · subst here
      refine ⟨fun _ => stays law.station, fun y known => ?_⟩
      rw [gone] at known
      cases known
    · exact (law.others n here).of_same (others n here) fun _ _ _ => stays
  · obtain ⟨cells, lanes, claims, defined, grounded⟩ := law.lists
    refine ⟨?_, ?_, ?_, ?_, ?_⟩
    · rw [list]; exact cells
    · rw [queue]; exact lanes
    · rw [claim]; exact claims
    · rw [list]; exact defined
    · rw [place, queue]; exact grounded

theorem lawful_withdraw (law : Lawful p D (scene f)) (once : f.cells.keys.Nodup) (k : Control)
    (known : f.machines.look m = some x) : Lawful p D (scene (f.withdraw k m)) := by
  obtain ⟨-, B, -, stands⟩ := law.at (scene_fleet known)
  have left := stands.leaveWait
  rw [← scene_flushOrders] at left
  have mine (c : Nat) : c ∈ f.cellsOf m ↔ c ∈ heldBy (bare x) ∨ c ∈ B := by
    rw [mem_cellsOf_claim once, ← stands.station.holds, ← stands.station.blocks, Bool.exists_bool]
    exact or_comm
  have released := left.release (cs := f.cellsOf m) fun c inside => (mine c).1 inside
  have nothing : (heldBy (bare x) \ { c | c ∈ f.cellsOf m }) = ∅ ∧ (B \ { c | c ∈ f.cellsOf m }) = ∅ :=
    ⟨Set.sdiff_eq_empty.2 fun c inside => (mine c).2 (.inl inside), Set.sdiff_eq_empty.2 fun c inside => (mine c).2 (.inr inside)⟩
  rw [nothing.1, nothing.2, ← scene_releases k m] at released
  unfold Floor.withdraw
  refine lawful_offerReleased ?_ k _
  refine released.depart ?_ (fun n other => ?_) rfl rfl rfl rfl
  · show (Table.look (Table.del _ m) m).map bare = none
    rw [Table.look_del, if_pos rfl]
    rfl
  · show (Table.look (Table.del _ m) n).map bare = _
    rw [Table.look_del, if_neg other]
    rfl

/-- R105: a machine enrolled on a cell that nobody has. -/
theorem lawful_enroll (law : Lawful p D (scene f)) (absent : f.machines.look m = none) (rank : Nat) {dock : Nat} {z : Cell}
    (known : f.cells.look dock = some z) (free : z.occ = .free) : Lawful p D (scene (f.enroll m rank dock)) := by
  let g : Floor := { f with machines := f.machines.put m (Scrubber.enrolled rank dock) }
  have own : g.machines.look m = some (Scrubber.enrolled rank dock) := by
    show (f.machines.put m _).look m = _
    rw [Table.look_put, if_pos rfl]
  have arrived : At p D (scene g) m (bare (Scrubber.enrolled rank dock)) ∅ ∅ none := by
    obtain ⟨settled, lists⟩ := law
    have none : (scene f).fleet m = none := by
      show (f.machines.look m).map bare = _
      rw [absent]
      rfl
    have station := (settled m).1 none
    refine ⟨fun n other => (settled n).of_same ?_ fun _ _ _ there => ⟨there.holds, there.blocks, there.listed, there.queued⟩,
      ⟨lists.cells, lists.lanes, lists.claims, lists.defined, lists.grounded⟩, scene_fleet own,
      ⟨station.holds, station.blocks, station.listed, station.queued⟩⟩
    show ((f.machines.put m _).look n).map bare = _
    rw [Table.look_put, if_neg other]
    rfl
  have held := arrived.hold (cs := [dock]) fun d inside => by
    rw [List.mem_singleton.1 inside]
    exact open_of_own (f := g) known (.inl free)
  rw [Scene.occupyAll_single, ← show claimOf (.held m) = some (true, m) from rfl, ← scene_setOcc, ← scene_place _ m dock] at held
  have whole : f.enroll m rank dock = (g.setOcc dock (.held m)).place m dock := by
    unfold Floor.enroll Floor.dockMachine
    show (match g.machines.look m with | some x => _ | none => _) = _
    rw [own]
    rfl
  rw [whole]
  refine held.closes (fit_enrolled p D rank dock) nofun ?_ rfl
  ext c
  show c ∈ (∅ : Set Nat) ∨ c ∈ [dock] ↔ c ∈ [dock]
  simp

end

end Sys2Proof.Laws
end

section
/-! ## Setting up and resets keep the law of the scene -/

namespace Sys2Proof.Laws

open Sys2Proof Sys2Proof.Machine Sys2Proof.Safety

-- One theorem at a time, as in the tests above: side by side their threads' stacks take the memory.
set_option Elab.async false

section
variable {p q : Prop} {D E : Set Nat} {f : Floor} {s t : Scene} {m : Nat} {x y : Scrubber}

/-! ### The map -/

/-- R69, R85: a machine with no leg fits any map. -/
theorem Fit.redefine (fit : Fit p D x) (night : p) (E : Set Nat) : Fit p E x :=
  { fit with
    route := fun a drives => by cases (fit.standby night).1.symm.trans drives
    next := fun leg next => by cases (fit.standby night).2.symm.trans next }

/-- R69: only in STANDBY is more asked. -/
theorem Fit.weaken (fit : Fit p D x) (stays : q → p) : Fit q D x := { fit with standby := fun is => fit.standby (stays is) }

/-- The machines stand, and so do who has a cell and who stands on a list. -/
theorem Lawful.redefine (law : Lawful p D s) (fleet : t.fleet = s.fleet) (fits : ∀ x, Fit p D x → Fit q E x)
    (claims : ∀ c b n, t.claim c = some (some (b, n)) ↔ s.claim c = some (some (b, n)))
    (lists : ∀ c v, (∃ ws, t.list c = some ws ∧ v ∈ ws) ↔ ∃ ws, s.list c = some ws ∧ v ∈ ws)
    (queues : ∀ l n, (∃ ws, t.queue l = some ws ∧ n ∈ ws) ↔ ∃ ws, s.queue l = some ws ∧ n ∈ ws) (whole : Lists E t) :
    Lawful q E t := by
  have stays {n : Nat} {H B : Set Nat} {w : Option (Target × Bool)} (there : Station s n H B w) : Station t n H B w :=
    ⟨fun c => (claims c true n).trans (there.holds c), fun c => (claims c false n).trans (there.blocks c),
      fun c b => (lists c ⟨n, b⟩).trans (there.listed c b), fun l => (queues l n).trans (there.queued l)⟩
  refine ⟨fun n => ?_, whole⟩
  obtain ⟨absent, present⟩ := law.1 n
  unfold Settled
  rw [fleet]
  refine ⟨fun none => stays (absent none), fun x known => ?_⟩
  obtain ⟨fit, B, empty, there⟩ := present x known
  exact ⟨fits x fit, B, empty, stays there⟩

theorem Lawful.weaken (law : Lawful p D s) (stays : q → p) : Lawful q D s :=
  law.redefine rfl (fun _ fit => fit.weaken stays) (fun _ _ _ => .rfl) (fun _ _ => .rfl) (fun _ _ => .rfl) law.2

/-- R8: nobody has or waits for a cell that an accepted entry names. -/
def EntryIdle (f : Floor) (e : CellEntry) : Prop := ∀ z, f.cells.look e.number = some z → z.occ = .free ∧ z.waiters = []

/-- What an entry makes of the cells' records: those of other cells stand, and its own is undefined, or idle as it was. -/
theorem applyEntry_cells {e : CellEntry} (idle : EntryIdle f e) (c : Nat) :
    (c ≠ e.number → (f.applyEntry e).cells.look c = f.cells.look c) ∧
      (c = e.number → ∀ z, (f.applyEntry e).cells.look c = some z →
        z.occ = .free ∧ z.waiters = [] ∧ (z.lane = none ∨ z.lane = f.laneOf c)) := by
  refine ⟨applyEntry_look_ne, ?_⟩
  rintro rfl z known
  rw [applyEntry_look] at known
  split at known
  · cases known
  · cases known
    cases old : f.cells.look e.number with
    | none => exact ⟨rfl, rfl, .inl rfl⟩
    | some z =>
      obtain ⟨free, alone⟩ := idle z old
      exact ⟨free, alone, .inr (laneOf_eq_lane old).symm⟩

/-- A cell that is not defined, or is FREE with nobody waiting, is nobody's. -/
theorem idle_cell {c : Nat} (idle : ∀ z, f.cells.look c = some z → z.occ = .free ∧ z.waiters = []) :
    (∀ b n, (scene f).claim c ≠ some (some (b, n))) ∧ ∀ ws, (scene f).list c = some ws → ws = [] := by
  constructor
  · intro b n claim
    obtain ⟨z, known, claim⟩ := Option.map_eq_some_iff.1 claim
    rw [(idle z known).1] at claim
    cases claim
  · intro ws list
    obtain ⟨z, known, list⟩ := Option.map_eq_some_iff.1 list
    exact list.symm.trans (idle z known).2

theorem lawful_applyEntry (law : Lawful p D (scene f)) (night : p) {e : CellEntry} (idle : EntryIdle f e) :
    Lawful p { c | ((f.applyEntry e).cells.look c).isSome = true } (scene (f.applyEntry e)) := by
  have cells := applyEntry_cells idle
  have frame := applyEntry_frame f e
  have machines : (f.applyEntry e).machines = f.machines := (congrArg Floor.machines frame :)
  have lanes : (f.applyEntry e).lanes = f.lanes := (congrArg Floor.lanes frame :)
  have was := idle_cell idle
  have becomes : (∀ b n, (scene (f.applyEntry e)).claim e.number ≠ some (some (b, n))) ∧
      ∀ ws, (scene (f.applyEntry e)).list e.number = some ws → ws = [] :=
    idle_cell fun z known => by
      obtain ⟨free, alone, -⟩ := (cells e.number).2 rfl z known
      exact ⟨free, alone⟩
  have elsewhere {c : Nat} (other : c ≠ e.number) : (scene (f.applyEntry e)).claim c = (scene f).claim c ∧
      (scene (f.applyEntry e)).list c = (scene f).list c := by
    have same := (cells c).1 other
    exact ⟨congrArg (Option.map fun z : Cell => claimOf z.occ) same, congrArg (Option.map fun z : Cell => z.waiters) same⟩
  have queue : (scene (f.applyEntry e)).queue = (scene f).queue := by
    show (fun l => ((f.applyEntry e).lanes.look l).map _) = _
    rw [lanes]
    rfl
  refine law.redefine ?_ (fun _ fit => fit.redefine night _) (fun c b n => ?_) (fun c v => ?_) (fun l n => by rw [queue]) ?_
  · show (fun n => ((f.applyEntry e).machines.look n).map bare) = _
    rw [machines]
    rfl
  · by_cases here : c = e.number
    · subst here
      exact iff_of_false (becomes.1 b n) (was.1 b n)
    · rw [(elsewhere here).1]
  · by_cases here : c = e.number
    · subst here
      refine iff_of_false ?_ ?_
      · rintro ⟨ws, list, inside⟩
        rw [becomes.2 ws list] at inside
        cases inside
      · rintro ⟨ws, list, inside⟩
        rw [was.2 ws list] at inside
        cases inside
    · rw [(elsewhere here).2]
  · refine ⟨fun c ws list => ?_, by rw [queue]; exact law.2.lanes, fun c => ?_, fun c => ?_, fun c l i place => ?_⟩
    · by_cases here : c = e.number
      · subst here
        rw [becomes.2 ws list]
        exact ⟨List.nodup_nil, .nil⟩
      · rw [(elsewhere here).2] at list
        exact law.2.cells c ws list
    · exact Bool.eq_iff_iff.1 Option.isSome_map
    · exact Bool.eq_iff_iff.1 Option.isSome_map
    · rw [queue]
      obtain ⟨z, known, lane⟩ := Option.bind_eq_some_iff.1 place
      by_cases here : c = e.number
      · obtain ⟨-, -, none | same⟩ := (cells c).2 here z known
        · cases lane.symm.trans none
        · exact law.2.grounded c l i (same.symm.trans lane)
      · rw [(cells c).1 here] at known
        exact law.2.grounded c l i ((laneOf_eq_lane known).trans lane)

theorem entryIdle_applyEntry {e d : CellEntry} (idle : EntryIdle f e) (rest : EntryIdle f d) :
    EntryIdle (f.applyEntry e) d := fun z known => by
  by_cases here : d.number = e.number
  · obtain ⟨free, alone, -⟩ := (applyEntry_cells idle d.number).2 here z known
    exact ⟨free, alone⟩
  · rw [(applyEntry_cells idle d.number).1 here] at known
    exact rest z known

/-- CELL DEFINE: cells that nobody has or waits for are defined afresh or taken from the map. -/
theorem lawful_cellDefine (es : List CellEntry) (law : Lawful p D (scene f)) (night : p) (idle : ∀ e ∈ es, EntryIdle f e) :
    ∃ E, Lawful p E (scene (es.foldl Floor.applyEntry f)) := by
  induction es generalizing f D with
  | nil => exact ⟨D, law⟩
  | cons e es ih =>
    have first := idle e List.mem_cons_self
    exact ih (lawful_applyEntry law night first) fun d inside =>
      entryIdle_applyEntry first (idle d (List.mem_cons_of_mem _ inside))

/-- LANE DEFINE: a lane that nobody waits for is defined afresh or taken from the map. -/
theorem lawful_laneDefine (law : Lawful p D (scene f)) {l : Nat} {cs : List Nat} (ok : LaneAccepted f l cs) :
    Lawful p D (scene (f.defineLane l cs)) := by
  have joined (c : Nat) : (f.defineLane l cs).cells.look c =
      (f.cells.look c).map fun z => z.joinLane l (cs.findIdx? fun m => decide (m = c)) := by
    rw [defineLane_cells, Table.look_each]
  have waiters (z : Cell) (position : Option Nat) : (z.joinLane l position).waiters = z.waiters := by
    unfold Cell.joinLane
    cases position with
    | some i => rfl
    | none => exact (apply_ite Cell.waiters _ _ _).trans (ite_self _)
  have claim : (scene (f.defineLane l cs)).claim = (scene f).claim := by
    funext c
    show ((f.defineLane l cs).cells.look c).map _ = _
    rw [joined, Option.map_map]
    exact congrArg (fun h => Option.map h (f.cells.look c)) (funext fun z => congrArg claimOf (joinLane_occ z l _))
  have list : (scene (f.defineLane l cs)).list = (scene f).list := by
    funext c
    show ((f.defineLane l cs).cells.look c).map _ = _
    rw [joined, Option.map_map]
    exact congrArg (fun h => Option.map h (f.cells.look c)) (funext fun z => waiters z _)
  have queue (k : Nat) : (scene (f.defineLane l cs)).queue k = if k = l then (if cs = [] then none else some [])
      else (scene f).queue k := by
    show ((f.defineLane l cs).lanes.look k).map _ = _
    rw [lanes_defineLane]
    split
    · split <;> rfl
    · rfl
  have empty (ws : List Nat) (here : (scene f).queue l = some ws) : ws = [] := by
    obtain ⟨r, known, same⟩ := Option.map_eq_some_iff.1 here
    exact same.symm.trans (ok.idle r known).2
  refine law.redefine rfl (fun _ fit => fit) (fun c b n => by rw [claim]) (fun c v => by rw [list]) (fun k n => ?_) ?_
  · rw [queue]
    split
    · next here =>
      subst here
      refine iff_of_false ?_ ?_
      · rintro ⟨ws, known, inside⟩
        split at known <;> cases known
        cases inside
      · rintro ⟨ws, known, inside⟩
        rw [empty ws known] at inside
        cases inside
    · rfl
  · refine ⟨by rw [list]; exact law.2.cells, fun k ws known => ?_, by rw [claim]; exact law.2.claims,
      by rw [list]; exact law.2.defined, fun c k i there => ?_⟩
    · rw [queue] at known
      split at known
      · split at known <;> cases known
        exact List.nodup_nil
      · exact law.2.lanes k ws known
    · have place : (view (f.defineLane l cs)).placeOf c = some (k, i) := (laneOf_eq _ _).symm.trans there
      rw [placeOf_defineLane ok] at place
      rw [queue]
      split at place
      · next here =>
        subst here
        rw [if_pos rfl, if_neg fun none => by rw [none] at place; cases place]
        rfl
      · next other =>
        rw [if_neg other]
        exact law.2.grounded c k i ((laneOf_eq _ _).trans place)

/-! ### FLEET RESET and FULL RESET -/

theorem homeOcc_eq_held {f : Floor} (once : f.machines.keys.Nodup) {n m : Nat} :
    claimOf (homeOcc (fitOf f) n) = some (true, m) ↔ ∃ x, (fitOf f).look m = some x ∧ x.dock = n := by
  unfold homeOcc
  cases found : (fitOf f).find? fun e => decide (e.2.dock = n) with
  | none =>
    refine iff_of_false nofun ?_
    rintro ⟨x, known, dock⟩
    have off := List.find?_eq_none.1 found (m, x) (Table.mem_of_look known)
    exact off (decide_eq_true dock)
  | some e =>
    have inside := List.mem_of_find?_eq_some found
    have dock : e.2.dock = n := of_decide_eq_true (List.find?_some (p := fun e : Nat × Scrubber => decide (e.2.dock = n)) found)
    have known : (fitOf f).look e.1 = some e.2 := Table.look_of_mem (fitOf_nodup once) inside
    constructor
    · intro held
      cases held
      exact ⟨e.2, known, dock⟩
    · rintro ⟨x, listed, there⟩
      have same : e.1 = m := same_slot_of_dock (e := (m, x)) inside (Table.mem_of_look listed) (dock.trans there.symm)
      rw [← same]
      rfl

theorem homeOcc_not_blocked {es : Table Scrubber} {n m : Nat} : claimOf (homeOcc es n) ≠ some (false, m) := by
  unfold homeOcc
  cases es.find? fun e => decide (e.2.dock = n) <;> nofun

/-- FLEET RESET: every machine whose dock is its own stands on it, and nobody waits. -/
theorem lawful_fleetReset (once : f.machines.keys.Nodup) (lists : Lists D (scene f)) (k : Control) :
    Lawful p D (scene (f.fleetReset k)) := by
  have fleet (n : Nat) : (scene (f.fleetReset k)).fleet n = ((fitOf f).look n).map fun x => bare (Scrubber.enrolled x.rank x.dock) := by
    show ((f.fleetReset k).machines.look n).map bare = _
    rw [fleetReset_machines k once, Option.map_map]
    rfl
  have claim (c : Nat) : (scene (f.fleetReset k)).claim c = (f.cells.look c).map fun _ => claimOf (homeOcc (fitOf f) c) := by
    show ((f.fleetReset k).cells.look c).map _ = _
    rw [fleetReset_cells k once, Option.map_map]
    rfl
  have list (c : Nat) : (scene (f.fleetReset k)).list c = (f.cells.look c).map fun _ => [] := by
    show ((f.fleetReset k).cells.look c).map _ = _
    rw [fleetReset_cells k once, Option.map_map]
    rfl
  have queue (l : Nat) : (scene (f.fleetReset k)).queue l = (f.lanes.look l).map fun _ => [] := by
    show ((f.fleetReset k).lanes.look l).map _ = _
    rw [fleetReset_lanes k once, Option.map_map]
    rfl
  have place (c : Nat) : (scene (f.fleetReset k)).place c = (scene f).place c := by
    show ((f.fleetReset k).cells.look c).bind _ = (f.cells.look c).bind _
    rw [fleetReset_cells k once]
    cases f.cells.look c <;> rfl
  have nobody (c : Nat) (v : Waiter) : ¬ ∃ ws, (scene (f.fleetReset k)).list c = some ws ∧ v ∈ ws := by
    rintro ⟨ws, known, inside⟩
    rw [list] at known
    obtain ⟨-, -, rfl⟩ := Option.map_eq_some_iff.1 known
    cases inside
  have nobody' (l n : Nat) : ¬ ∃ ws, (scene (f.fleetReset k)).queue l = some ws ∧ n ∈ ws := by
    rintro ⟨ws, known, inside⟩
    rw [queue] at known
    obtain ⟨-, -, rfl⟩ := Option.map_eq_some_iff.1 known
    cases inside
  have blocked (c n : Nat) : (scene (f.fleetReset k)).claim c ≠ some (some (false, n)) := fun is => by
    rw [claim] at is
    obtain ⟨-, -, is⟩ := Option.map_eq_some_iff.1 is
    exact homeOcc_not_blocked is
  have held (c n : Nat) : (scene (f.fleetReset k)).claim c = some (some (true, n)) ↔
      ∃ x, (fitOf f).look n = some x ∧ x.dock = c := by
    rw [claim, Option.map_eq_some_iff, ← homeOcc_eq_held once]
    refine ⟨fun ⟨_, _, is⟩ => is, fun is => ?_⟩
    obtain ⟨x, known, dock⟩ := (homeOcc_eq_held once).1 is
    obtain ⟨z, cell, -⟩ := (dockFit_iff f n x.dock).1 (List.mem_filter.1 (Table.mem_of_look known)).2
    exact ⟨z, dock ▸ cell, is⟩
  have station {n : Nat} {H : Set Nat} (holds : ∀ c, c ∈ H ↔ ∃ x, (fitOf f).look n = some x ∧ x.dock = c) :
      Station (scene (f.fleetReset k)) n H ∅ none :=
    ⟨fun c => (held c n).trans (holds c).symm, fun c => iff_of_false (blocked c n) id,
      fun c b => iff_of_false (nobody c _) nofun, fun l => iff_of_false (nobody' l n) nofun⟩
  refine ⟨fun n => ⟨fun absent => station fun c => iff_of_false id ?_, fun y known => ?_⟩, ?_⟩
  · rintro ⟨x, known, -⟩
    rw [fleet, known] at absent
    cases absent
  · rw [fleet] at known
    obtain ⟨x, listed, rfl⟩ := Option.map_eq_some_iff.1 known
    refine ⟨fit_enrolled p D _ _, ∅, fun _ => rfl, ?_⟩
    rw [heldBy_of_ne (x := bare (Scrubber.enrolled x.rank x.dock)) nofun]
    refine station fun c => ?_
    show c ∈ [x.dock] ↔ _
    rw [List.mem_singleton, listed]
    simp [eq_comm]
  · refine ⟨fun c ws known => ?_, fun l ws known => ?_, fun c => ?_, fun c => ?_, fun c l i there => ?_⟩
    · rw [list] at known
      obtain ⟨-, -, rfl⟩ := Option.map_eq_some_iff.1 known
      exact ⟨List.nodup_nil, .nil⟩
    · rw [queue] at known
      obtain ⟨-, -, rfl⟩ := Option.map_eq_some_iff.1 known
      exact List.nodup_nil
    · rw [claim, Option.isSome_map, ← lists.claims c]
      exact Bool.eq_iff_iff.1 Option.isSome_map.symm
    · rw [list, Option.isSome_map, ← lists.defined c]
      exact Bool.eq_iff_iff.1 Option.isSome_map.symm
    · rw [place] at there
      rw [queue, Option.isSome_map]
      have known := lists.grounded c l i there
      exact (Bool.eq_iff_iff.1 Option.isSome_map).1 known

/-- A floor with no map and no machine. -/
theorem lawful_empty (cells : ∀ c, f.cells.look c = none) (lanes : ∀ l, f.lanes.look l = none)
    (machines : ∀ n, f.machines.look n = none) : Lawful p ∅ (scene f) := by
  have fleet (n : Nat) : (scene f).fleet n = none := congrArg (Option.map bare) (machines n)
  have claim (c : Nat) : (scene f).claim c = none := congrArg (Option.map fun z : Cell => claimOf z.occ) (cells c)
  have list (c : Nat) : (scene f).list c = none := congrArg (Option.map fun z : Cell => z.waiters) (cells c)
  have queue (l : Nat) : (scene f).queue l = none := congrArg (Option.map fun r : Lane => r.waiters) (lanes l)
  have place (c : Nat) : (scene f).place c = none := congrArg (fun z : Option Cell => z.bind fun z => z.lane) (cells c)
  refine ⟨fun n => ⟨fun _ => ⟨fun c => ?_, fun c => ?_, fun c b => ?_, fun l => ?_⟩, fun x known => ?_⟩,
    fun c ws known => ?_, fun l ws known => ?_, fun c => ?_, fun c => ?_, fun c l i there => ?_⟩
  · rw [claim]
    exact iff_of_false nofun id
  · rw [claim]
    exact iff_of_false nofun id
  · refine iff_of_false (fun ⟨ws, known, _⟩ => ?_) nofun
    rw [list] at known
    cases known
  · refine iff_of_false (fun ⟨ws, known, _⟩ => ?_) nofun
    rw [queue] at known
    cases known
  · rw [fleet] at known
    cases known
  · rw [list] at known
    cases known
  · rw [queue] at known
    cases known
  · rw [claim]
    exact iff_of_false nofun id
  · rw [list]
    exact iff_of_false nofun id
  · rw [place] at there
    cases there

end

end Sys2Proof.Laws
end

section
/-! ## The laws of holdings and wait lists (O9, O10) -/

namespace Sys2Proof.Laws

open Sys2Proof Sys2Proof.Machine Sys2Proof.Safety

-- One theorem at a time, as in the tests above: side by side their threads' stacks take the memory.
set_option Elab.async false

/-! ### The checks of LEG LOAD -/

theorem of_ite_eq_none {α : Type} {c : Prop} [Decidable c] {a : α} {b : Option α} (none : (if c then some a else b) = none) :
    ¬ c ∧ b = .none := by
  by_cases here : c
  · rw [if_pos here] at none
    cases none
  · exact ⟨here, (if_neg here).symm.trans none⟩

/-- Table 5-3: codes 1 and 3 at one position. -/
theorem routeFaultAt_none {f : Floor} {m : Nat} {x : Scrubber} {cells : List Nat} {i : Nat}
    (passed : f.routeFaultAt m x cells i = none) :
    (i = 0 → cells.getD i 0 = x.anchor) ∧ cells.getD i 0 ∉ (cells.take i).drop (i - 5) := by
  unfold Floor.routeFaultAt at passed
  obtain ⟨start, passed⟩ := of_ite_eq_none passed
  obtain ⟨-, passed⟩ := of_ite_eq_none passed
  obtain ⟨fresh, -⟩ := of_ite_eq_none passed
  exact ⟨fun zero => Classical.byContradiction fun other => start ⟨zero, other⟩, fresh⟩

theorem routeFault_none {f : Floor} {m : Nat} {x : Scrubber} {cells : List Nat} (passed : f.routeFault m x cells = none)
    {i : Nat} (inside : i < cells.length) : f.routeFaultAt m x cells i = none := by
  unfold Floor.routeFault at passed
  have at_i := List.findSome?_eq_none_iff.1 passed i (List.mem_range.2 inside)
  exact Option.map_eq_none_iff.1 at_i

/-- R71: a route that passes the tests turns back on none of its last five cells. -/
theorem noReturn_of_routeFault {f : Floor} {m : Nat} {x : Scrubber} {cells : List Nat} (passed : f.routeFault m x cells = none) :
    NoReturn cells := by
  intro i j c before near first again
  obtain ⟨inside, here⟩ := List.getElem?_eq_some_iff.1 again
  obtain ⟨-, fresh⟩ := routeFaultAt_none (routeFault_none passed inside)
  rw [List.getD_eq_getElem?_getD, again, Option.getD_some] at fresh
  refine fresh (List.mem_of_getElem? (i := i - (j - 5)) ?_)
  rw [List.getElem?_drop, List.getElem?_take_of_lt (by omega), show j - 5 + (i - (j - 5)) = i by omega]
  exact first

theorem start_of_routeFault {f : Floor} {m : Nat} {x : Scrubber} {cells : List Nat} (passed : f.routeFault m x cells = none)
    (long : 2 ≤ cells.length) : cells.head? = some x.anchor := by
  have inside : 0 < cells.length := by omega
  obtain ⟨start, -⟩ := routeFaultAt_none (routeFault_none passed inside)
  have start := start rfl
  rw [List.getD_eq_getElem?_getD, List.getElem?_eq_getElem inside, Option.getD_some] at start
  rw [List.head?_eq_getElem?, List.getElem?_eq_getElem inside, start]

/-- Table 5-2: what a leg has passed that no check refuses. -/
theorem legFault_none {a : LegFields} {s : State} (passed : s.legFault a = none) : s.control.mode ≠ .standby ∧
    2 ≤ a.cells.length ∧ ∃ x, s.floor.machines.look a.slot = some x ∧ x.state ≠ .lost ∧ x.state ≠ .stoodDown ∧
      x.legBusy = false ∧ (∀ c ∈ a.cells, (s.floor.cells.look c).isSome = true) ∧
      s.floor.routeFault a.slot x a.cells = none := by
  unfold State.legFault at passed
  split at passed
  · cases passed
  next mode =>
  split at passed
  · cases passed
  next range =>
  have long : 2 ≤ a.cells.length := by
    have range : a.inRange = true := by simpa using range
    unfold LegFields.inRange at range
    simp only [Bool.and_eq_true, decide_eq_true_eq] at range
    exact range.1.1.1.1.2
  split at passed
  · cases passed
  next x known =>
  split at passed
  · cases passed
  next works =>
  split at passed
  · cases passed
  next idle =>
  split at passed
  · cases passed
  split at passed
  · cases passed
  next defined =>
  refine ⟨mode, long, x, known, fun is => works (.inl is), fun is => works (.inr is), by simpa using idle, fun c inside => ?_,
    Option.map_eq_none_iff.1 passed⟩
  have here := List.findIdx?_eq_none_iff.1 defined c inside
  simpa [Option.isSome_iff_ne_none] using here

theorem legBusy_false {x : Scrubber} (idle : x.legBusy = false) :
    (x.withdrawal.any fun w => w.cancel) = false ∧ x.refugeInHand = false := by
  unfold Scrubber.legBusy at idle
  simp only [Bool.or_eq_false_iff] at idle
  exact ⟨idle.1.2, idle.2⟩

/-! ### The checks of MACHINE RESTORE, and intervals -/

theorem restoreFault_none {m c : Nat} {s : State} (passed : s.restoreFault m c = none) :
    ∃ x z, s.floor.machines.look m = some x ∧ x.withdrawal = none ∧ s.floor.cells.look c = some z ∧
      (z.occ.ownedBy m = true ∨ z.occ = .free) := by
  obtain ⟨z, cell, fits⟩ := restorable_of_restoreFault passed
  unfold State.restoreFault at passed
  obtain ⟨-, passed⟩ := of_ite_eq_none passed
  split at passed
  · cases passed
  next x known =>
  obtain ⟨-, passed⟩ := of_ite_eq_none passed
  obtain ⟨settled, -⟩ := of_ite_eq_none passed
  exact ⟨x, z, known, by simpa using settled, cell, fits.imp_right And.left⟩

theorem unclaimed_of_runs {f : Floor} {c t : Nat} (runs : f.guardDeadline c = some t ∨ f.wetDeadline c = some t) :
    ∃ z, f.cells.look c = some z ∧ claimOf z.occ = none := by
  unfold Floor.guardDeadline Floor.wetDeadline at runs
  cases known : f.cells.look c with
  | none =>
    rw [known] at runs
    simp at runs
  | some z =>
    rw [known] at runs
    refine ⟨z, rfl, ?_⟩
    cases occ : z.occ <;> simp [occ, claimOf] at runs ⊢

/-! ### What stands together through a deed -/

/-- A change of every record that leaves its cells and its wait. -/
theorem lawful_fleet {p q : Prop} {D : Set Nat} {f g : Floor} (law : Lawful p D (scene g)) (h : Scrubber → Scrubber)
    (fleet : ∀ n, (f.machines.look n).map bare = ((g.machines.look n).map bare).map h) (cells : f.cells = g.cells)
    (lanes : f.lanes = g.lanes)
    (fits : ∀ x, (∃ n y, g.machines.look n = some y ∧ bare y = x) → Fit p D x → Fit q D (h x) ∧ holding (h x) = holding x ∧
      ((h x).state = .lost ↔ x.state = .lost) ∧ waitOf (h x) = waitOf x) : Lawful q D (scene f) := by
  have claim : (scene f).claim = (scene g).claim := by unfold scene; rw [cells]
  have list : (scene f).list = (scene g).list := by unfold scene; rw [cells]
  have queue : (scene f).queue = (scene g).queue := by unfold scene; rw [lanes]
  have place : (scene f).place = (scene g).place := by unfold scene Floor.laneOf; rw [cells]
  have stays {n : Nat} {H B : Set Nat} {w : Option (Target × Bool)} (there : Station (scene g) n H B w) :
      Station (scene f) n H B w := by
    refine ⟨?_, ?_, ?_, ?_⟩
    · rw [claim]; exact there.holds
    · rw [claim]; exact there.blocks
    · rw [list]; exact there.listed
    · rw [queue]; exact there.queued
  refine ⟨fun n => ?_, ?_⟩
  · obtain ⟨absent, present⟩ := law.1 n
    refine ⟨fun none => stays (absent ?_), fun x known => ?_⟩
    · exact Option.map_eq_none_iff.1 ((fleet n).symm.trans none)
    · obtain ⟨y, there, rfl⟩ := Option.map_eq_some_iff.1 ((fleet n).symm.trans known)
      obtain ⟨fit, B, empty, station⟩ := present y there
      obtain ⟨z, listed, same⟩ := Option.map_eq_some_iff.1 there
      obtain ⟨fit, held, lost, waits⟩ := fits y ⟨n, z, listed, same⟩ fit
      refine ⟨fit, B, fun found => empty fun is => found (lost.2 is), ?_⟩
      have cells : heldBy (h y) = heldBy y := by
        unfold heldBy
        simp only [held, ne_eq, lost]
      rw [cells, waits]
      exact stays station
  · obtain ⟨cells, lanes, claims, defined, grounded⟩ := law.2
    refine ⟨?_, ?_, ?_, ?_, ?_⟩
    · rw [list]; exact cells
    · rw [queue]; exact lanes
    · rw [claim]; exact claims
    · rw [list]; exact defined
    · rw [place, queue]; exact grounded

/-- The laws of the concourse as every deed keeps them: tables, progress timers, orders of a withdrawal, and the scene. -/
structure Concourse (s : State) : Prop where
  tables : TablesKept s
  progress : AllProgressKept s
  pledge : PledgeLaw (fun _ => false) s.floor
  lawful : ∃ D, Lawful (s.control.mode = .standby) D (scene s.floor)

theorem small_of_tables {s : State} (tables : TablesKept s) {p : Prop} {D : Set Nat} (law : Lawful p D (scene s.floor)) :
    ∀ c ∈ D, c < Config.cellCount := by
  intro c inside
  obtain ⟨claim, known⟩ := Option.isSome_iff_exists.1 ((law.2.claims c).2 inside)
  obtain ⟨z, cell, -⟩ := Option.map_eq_some_iff.1 known
  exact ((Table.wf_iff _ _).1 tables.1).2 c (Table.mem_keys_of_look cell)

theorem lawful_of_work {s : State} {g : Floor} {p : Prop} {D : Set Nat} (tables : TablesKept s) (progress : AllProgressKept s)
    (pledge : PledgeLaw (fun _ => false) s.floor) (night : p → s.control.mode = .standby) (law : Lawful p D (scene s.floor))
    (w : Work s g) : Lawful p D (scene g) := by
  have once := cells_nodup tables
  cases w with
  | raise cls subject reason => rw [scene_raise]; exact law
  | offerCell c => exact lawful_offerCell law _ c
  | offerLane l => exact lawful_offerLane law _ l
  | addHalt r m => exact lawful_addHalt law _ r m
  | removeHalt r m other => exact lawful_removeHalt law _ r m fun is => absurd is other
  | attempt m => exact lawful_attempt law _ true m
  | beginNight =>
    have cells := lawful_each law (fun _ c => { c with washes := 0, lastWashed := none }) fun _ _ => ⟨rfl, rfl, rfl⟩
    refine lawful_fleet cells (f := s.floor.beginNight s.control) id (fun n => ?_) rfl rfl fun x _ fit => ⟨fit, rfl, .rfl, rfl⟩
    show ((s.floor.machines.each fun _ x => x.beginNight s.control).look n).map bare = _
    rw [Table.look_each, Option.map_map, Option.map_id_fun]
    rfl
  | loadLeg a passed =>
    obtain ⟨mode, long, x, known, found, up, idle, defined, route⟩ := legFault_none passed
    obtain ⟨keeps, unsheltered⟩ := legBusy_false idle
    refine lawful_loadLeg law _ known (fun is => mode (night is)) found up keeps unsheltered (noReturn_of_routeFault route) long
      (start_of_routeFault route long) fun c inside => (law.2.claims c).1 ?_
    exact (Bool.eq_iff_iff.1 Option.isSome_map).2 (defined c inside)
  | cancelLeg m withdraw => exact lawful_cancelLeg law _ m withdraw
  | restore m c passed =>
    obtain ⟨x, z, known, settled, cell, fits⟩ := restoreFault_none passed
    exact lawful_restore law once _ known settled cell fits
  | heard m => exact lawful_beside law m fun _ => rfl
  | beacon m battery water => exact lawful_beacon law once _ m battery water
  | arrive m c count x known found few => exact lawful_arrive law _ known found c few
  | request m count some' few => exact lawful_request law _ m some' few
  | ack m kind stop declined x known found =>
    exact lawful_ack law (small_of_tables tables law) known found (fun any => pledge m x known any) _ kind stop declined
  | faultStop m code x known found => exact lawful_faultStop law _ known found code
  | restart m => exact lawful_restart law _ m
  | frameSent m => exact lawful_frameSent law _ m
  | replyExpiry m => exact lawful_replyExpiry law once _ m
  | beaconExpiry m => exact lawful_beaconExpiry law once _ m
  | stall m t runs =>
    obtain ⟨x, known, timer⟩ := Option.bind_eq_some_iff.1 runs
    have works := ((progress m x known).1 (by rw [timer]; rfl)).1
    exact lawful_stall law _ known works
  | freeCell c t runs =>
    obtain ⟨z, known, unclaimed⟩ := unclaimed_of_runs runs
    exact lawful_freeCell law _ known unclaimed
  | activeEdge i => exact lawful_activeEdgeEvent law _ i
  | inactiveEdge i => exact lawful_inactiveEdgeEvent law _ i
  | stuck i flow => exact lawful_stuckEvent law _ i flow
  | holdExpiry i => exact lawful_holdExpiry law _ i
  | breach i t => exact lawful_breach law _ i
  | sample i flow => exact lawful_sampleLine law _ i flow

/-! ### Every deed -/

/-- R113: the progress timers stand through floor work. -/
theorem progress_of_moved {calm : Prop} {f g : Floor} (moved : Moved calm f g)
    (law : ∀ m x, f.machines.look m = some x → ProgressKept x) : ∀ m x, g.machines.look m = some x → ProgressKept x := by
  intro m y known
  obtain ⟨x, old, move⟩ := moved.machines.back known
  exact move.progress (law m x old)

theorem deed_keeps_progress {s t : State} (tables : TablesKept s) (law : AllProgressKept s) (d : Deed s t) : AllProgressKept t := by
  have law : ∀ m x, s.floor.machines.look m = some x → ProgressKept x := law
  show ∀ m x, t.floor.machines.look m = some x → ProgressKept x
  cases d with
  | work w => exact progress_of_moved (moved_of_work w) law
  | control => exact law
  | ports => exact law
  | marks => exact law
  | evac => exact law
  | frames => exact law
  | fleetCount => exact law
  | misses g => exact each_keeps (P := ProgressKept) (h := fun _ x => { x with misses := g x }) (fun _ _ kept => kept) law
  | notices ceiling g =>
    dsimp only
    exact progress_of_moved (moved_sendAllDue (calm := True)
      { s.floor with ceiling := ceiling, notices := s.floor.notices.each g }) law
  | endNight => exact each_keeps (P := ProgressKept) (h := fun _ x => x.endNight) (fun _ _ kept => kept) law
  | cellDefine es =>
    rw [applyEntries_frame]
    exact law
  | laneDefine => exact law
  | lineSetup i cfg =>
    have ended := progress_of_moved (moved_endIfInForce s.control (s.floor.modLine i fun l => { l with cfg := cfg }) i) law
    exact ended
  | enroll m rank dock =>
    exact progress_of_moved (moved_dockMachine (calm := True) _ m)
      (put_keeps (P := ProgressKept) (by simp [ProgressKept, Scrubber.enrolled]) law)
  | withdraw m =>
    exact progress_of_moved (moved_offerReleased (calm := True) s.control _ _)
      (del_keeps (progress_of_moved (moved_withdrawReleases (calm := True) s.control s.floor m) law))
  | fleetReset =>
    intro m x known
    rw [show s.fleetReset.floor = s.floor.fleetReset s.control from rfl, fleetReset_machines _ (machines_nodup tables)] at known
    obtain ⟨y, -, rfl⟩ := Option.map_eq_some_iff.1 known
    simp [ProgressKept, Scrubber.enrolled]
  | fullReset => exact fun m x known => nomatch known
  | resetHeld => exact law
  | powerLoss => exact law

theorem deed_keeps_pledge {s t : State} (tables : TablesKept s) (law : PledgeLaw (fun _ => false) s.floor) (d : Deed s t) :
    PledgeLaw (fun _ => false) t.floor := by
  have none (rank dock : Nat) : (promised false (Scrubber.enrolled rank dock)).any isWithdraw = true →
      (Scrubber.enrolled rank dock).withdrawal.isSome = true := nofun
  cases d with
  | work w => exact (course_of_work w).pledge law
  | control => exact law
  | ports => exact law
  | marks => exact law
  | evac => exact law
  | frames => exact law
  | fleetCount => exact law
  | misses g =>
    exact each_keeps (P := fun x => (promised false x).any isWithdraw = true → x.withdrawal.isSome = true)
      (h := fun _ x => { x with misses := g x }) (fun _ _ kept => kept) law
  | notices ceiling g =>
    dsimp only
    exact (course_notices s.floor ceiling g).pledge law
  | endNight =>
    exact each_keeps (P := fun x => (promised false x).any isWithdraw = true → x.withdrawal.isSome = true)
      (h := fun _ x => x.endNight) (fun _ _ kept => kept) law
  | cellDefine es =>
    rw [applyEntries_frame]
    exact law
  | laneDefine => exact law
  | lineSetup i cfg => exact (course_setupLine _ _ i cfg).pledge law
  | enroll m rank dock z _ _ known _ zero => exact (course_enroll _ m rank dock known zero).pledge law
  | withdraw m => exact (course_withdraw _ _ m).pledge law
  | fleetReset =>
    intro m x known
    rw [show s.fleetReset.floor = s.floor.fleetReset s.control from rfl, fleetReset_machines _ (machines_nodup tables)] at known
    obtain ⟨y, -, rfl⟩ := Option.map_eq_some_iff.1 known
    exact none y.rank y.dock
  | fullReset => exact fun m x known => nomatch known
  | resetHeld => exact law
  | powerLoss => exact law

/-- R162: a machine at home loses its legs. -/
theorem Fit.nightOver {p : Prop} {D : Set Nat} {x : Scrubber} (fit : Fit p D x) (home : x.state = .lost ∨ x.state = .stoodDown ∨
    x.state = .idle) (q : Prop) : Fit q D { x with active := none, staged := none } := by
  have dropped : Fit p D { x with active := none, staged := none } := by
    rcases home with is | is | is
    · have same : { x with active := none, staged := none } = x := by
        obtain ⟨-, legless, unstaged⟩ := fit.lost is
        rw [← legless, ← unstaged]
      rw [same]
      exact fit
    · have same : { x with active := none, staged := none } = x := by
        obtain ⟨legless, unstaged⟩ := fit.down is
        rw [← legless, ← unstaged]
      rw [same]
      exact fit
    · exact fit.legsDropped (fun waits => by cases is.symm.trans waits) (fit.idle is)
  exact { dropped with standby := fun _ => ⟨rfl, rfl⟩ }

theorem home_of_none {f : Floor} (once : f.machines.keys.Nodup) (home : f.awayFromHome = none) {n : Nat} {x : Scrubber}
    (known : f.machines.look n = some x) : x.state = .lost ∨ x.state = .stoodDown ∨ x.state = .idle := by
  unfold Floor.awayFromHome at home
  have empty := List.head?_eq_none_iff.1 home
  have here : x.home = true := by
    by_contra away
    have inside := (mem_keysWhere once (fun x : Scrubber => !x.home) known).2 (by simpa using away)
    rw [empty] at inside
    cases inside
  unfold Scrubber.home at here
  simp only [Bool.or_eq_true, Bool.and_eq_true, decide_eq_true_eq] at here
  tauto

theorem scene_sendAllDue (f : Floor) : scene f.sendAllDue = scene f := by
  unfold Floor.sendAllDue
  generalize List.range Config.classCount = ns
  induction ns generalizing f with
  | nil => rfl
  | cons n ns ih => exact (ih _).trans (scene_beside (by simp) (by simp) (by simp))

theorem deed_keeps_lawful {s t : State} (c : Concourse s) (d : Deed s t) :
    ∃ D, Lawful (t.control.mode = .standby) D (scene t.floor) := by
  obtain ⟨tables, progress, pledge, D, law⟩ := c
  have once := cells_nodup tables
  cases d with
  | work w => exact ⟨D, lawful_of_work tables progress pledge id law w⟩
  | control k mode => exact ⟨D, law.weaken mode⟩
  | ports => exact ⟨D, law⟩
  | marks => exact ⟨D, law⟩
  | evac => exact ⟨D, law⟩
  | frames => exact ⟨D, law⟩
  | fleetCount => exact ⟨D, law⟩
  | misses g =>
    refine ⟨D, lawful_fleet law id (fun n => ?_) rfl rfl fun x _ fit => ⟨fit, rfl, .rfl, rfl⟩⟩
    show ((s.floor.machines.each fun _ x => { x with misses := g x }).look n).map bare = _
    rw [Table.look_each, Option.map_map, Option.map_id_fun]
    rfl
  | notices ceiling g =>
    refine ⟨D, ?_⟩
    dsimp only
    rw [scene_sendAllDue]
    exact law
  | endNight home =>
    refine ⟨D, lawful_fleet law (fun x => { x with active := none, staged := none }) (fun n => ?_) rfl rfl fun x old fit => ?_⟩
    · show ((s.floor.machines.each fun _ x => x.endNight).look n).map bare = _
      rw [Table.look_each, Option.map_map, Option.map_map]
      rfl
    · obtain ⟨n, y, known, rfl⟩ := old
      exact ⟨fit.nightOver (home_of_none (x := y) (machines_nodup tables) home known) _, rfl, .rfl, rfl⟩
  | cellDefine es mode passed =>
    exact lawful_cellDefine es law mode fun e inside z known =>
      (cellChecks_eq_none passed inside).2.2.2 z known
  | laneDefine l cs passed => exact ⟨D, lawful_laneDefine law (laneAccepted_of_laneChecks passed)⟩
  | lineSetup i cfg => exact ⟨D, lawful_setupLine law _ i cfg⟩
  | enroll m rank dock z _ absent known free => exact ⟨D, lawful_enroll law absent rank known free⟩
  | withdraw m x known => exact ⟨D, lawful_withdraw law once _ known⟩
  | fleetReset mode => exact ⟨D, lawful_fleetReset (machines_nodup tables) law.2 s.control⟩
  | fullReset => exact ⟨∅, lawful_empty (fun _ => rfl) (fun _ => rfl) fun _ => rfl⟩
  | resetHeld => exact ⟨D, law⟩
  | powerLoss => exact ⟨D, law⟩

theorem deed_keeps_concourse {s t : State} (c : Concourse s) (d : Deed s t) : Concourse t :=
  ⟨deed_keeps_tables c.tables d, deed_keeps_progress c.tables c.progress d, deed_keeps_pledge c.tables c.pledge d,
    deed_keeps_lawful c d⟩

/-! ### The statements -/

theorem claim_held_iff {f : Floor} {c m : Nat} :
    (scene f).claim c = some (some (true, m)) ↔ (f.cells.look c).map Cell.occ = some (.held m) := by
  show (f.cells.look c).map (fun z => claimOf z.occ) = _ ↔ _
  cases f.cells.look c with
  | none => simp
  | some z => simp [claimOf_eq_iff]

theorem claim_blocked_iff {f : Floor} {c m : Nat} :
    (scene f).claim c = some (some (false, m)) ↔ (f.cells.look c).map Cell.occ = some (.blocked m) := by
  show (f.cells.look c).map (fun z => claimOf z.occ) = _ ↔ _
  cases f.cells.look c with
  | none => simp
  | some z => simp [claimOf_eq_iff]

theorem waitOf_cell_iff {x : Scrubber} {c : Nat} {b : Bool} :
    waitOf x = some (.cell c, b) ↔ ∃ r, x.request = some r ∧ r.target = .cell c ∧ x.refugeWait = b := by
  unfold waitOf
  rw [Option.map_eq_some_iff]
  simp only [Prod.mk.injEq]

theorem waitOf_lane_iff {x : Scrubber} {l : Nat} :
    waitOf x = some (.lane l, false) ↔ ∃ count, x.request = some (.ordinary count (.lane l)) := by
  unfold waitOf Scrubber.refugeWait
  cases asked : x.request with
  | none => simp
  | some r => cases r <;> simp [Pending.target]

theorem listed_iff {f : Floor} {c : Nat} {v : Waiter} :
    (∃ ws, (scene f).list c = some ws ∧ v ∈ ws) ↔ ∃ z, f.cells.look c = some z ∧ v ∈ z.waiters := by
  show (∃ ws, (f.cells.look c).map (fun z => z.waiters) = some ws ∧ v ∈ ws) ↔ _
  cases f.cells.look c <;> simp

theorem queued_iff {f : Floor} {l n : Nat} :
    (∃ ws, (scene f).queue l = some ws ∧ n ∈ ws) ↔ ∃ r, f.lanes.look l = some r ∧ n ∈ r.waiters := by
  show (∃ ws, (f.lanes.look l).map (fun r => r.waiters) = some ws ∧ n ∈ ws) ↔ _
  cases f.lanes.look l <;> simp

theorem fleet_none_iff {f : Floor} {m : Nat} : (scene f).fleet m = none ↔ f.machines.look m = none := Option.map_eq_none_iff

/-- The laws of the concourse are what its deeds keep. -/
theorem concourse_of_laws {s : State} (laws : ConcourseLaws s) : Concourse s := by
  obtain ⟨tables, progress, ⟨routes, records, cells⟩, ⟨waits, lists, queues, listed, queued⟩, places, -, -⟩ := laws
  have holder {c m : Nat} (held : (s.floor.cells.look c).map Cell.occ = some (.held m)) :
      ∃ x, s.floor.machines.look m = some x ∧ x.state ≠ .lost := by
    obtain ⟨z, known, occ⟩ := Option.map_eq_some_iff.1 held
    exact (cells c z m known).1 occ
  have blocker {c m : Nat} (blocked : (s.floor.cells.look c).map Cell.occ = some (.blocked m)) :
      ∃ x, s.floor.machines.look m = some x ∧ x.state = .lost := by
    obtain ⟨z, known, occ⟩ := Option.map_eq_some_iff.1 blocked
    exact (cells c z m known).2 occ
  refine ⟨tables, progress, fun m x known any => ?_, { c | (s.floor.cells.look c).isSome = true }, fun m => ⟨?_, ?_⟩, ?_⟩
  · obtain ⟨⟨-, -, -, pledge, -⟩, -⟩ := records m x known
    exact pledge any
  · intro absent
    have absent := fleet_none_iff.1 absent
    refine ⟨fun c => iff_of_false (fun held => ?_) id, fun c => iff_of_false (fun blocked => ?_) id,
      fun c b => iff_of_false (fun there => ?_) nofun, fun l => iff_of_false (fun there => ?_) nofun⟩
    · obtain ⟨x, known, -⟩ := holder (claim_held_iff.1 held)
      cases absent.symm.trans known
    · obtain ⟨x, known, -⟩ := blocker (claim_blocked_iff.1 blocked)
      cases absent.symm.trans known
    · obtain ⟨x, r, known, -⟩ := (listed m c b).1 (listed_iff.1 there)
      cases absent.symm.trans known
    · obtain ⟨x, count, known, -⟩ := (queued m l).1 (queued_iff.1 there)
      cases absent.symm.trans known
  · intro y there
    obtain ⟨x, known, rfl⟩ := Option.map_eq_some_iff.1 there
    obtain ⟨⟨halted, halts, idle, -, pending, deferred, legless, down⟩, ⟨active, staged⟩, few, refuge, held, lost⟩ :=
      records m x known
    obtain ⟨waiting, asks, seeks⟩ := waits m x known
    obtain ⟨standby, route, next⟩ := routes m x known
    refine ⟨⟨halted, halts, idle, pending, deferred, legless, down, active, staged, few, refuge, fun found => (held found).1,
      lost, waiting, asks, seeks, standby, route, next⟩, { c | (scene s.floor).claim c = some (some (false, m)) },
      fun found => Set.eq_empty_iff_forall_notMem.2 fun c blocked => ?_, fun c => ?_, fun c => .rfl, fun c b => ?_, fun l => ?_⟩
    · obtain ⟨y, there, is⟩ := blocker (claim_blocked_iff.1 blocked)
      cases known.symm.trans there
      exact found is
    · rw [claim_held_iff]
      by_cases found : x.state = .lost
      · refine iff_of_false (fun blocked => ?_) fun inside => inside.1 found
        obtain ⟨y, there, not⟩ := holder blocked
        cases known.symm.trans there
        exact not found
      · rw [heldBy_of_ne (x := bare x) found]
        exact (held found).2 c
    · rw [listed_iff, listed, waitOf_cell_iff]
      simp only [known, Option.some.injEq]
      exact ⟨fun ⟨_, r, same, rest⟩ => ⟨r, same ▸ rest⟩, fun ⟨r, rest⟩ => ⟨x, r, rfl, rest⟩⟩
    · rw [queued_iff, queued, waitOf_lane_iff]
      simp only [known, Option.some.injEq]
      exact ⟨fun ⟨_, count, same, asked⟩ => ⟨count, same ▸ asked⟩, fun ⟨count, asked⟩ => ⟨x, count, rfl, asked⟩⟩
  · refine ⟨fun c ws there => ?_, fun l ws there => ?_, fun c => ?_, fun c => ?_, fun c l i place => ?_⟩
    · obtain ⟨z, known, rfl⟩ := Option.map_eq_some_iff.1 there
      exact lists c z known
    · obtain ⟨r, known, rfl⟩ := Option.map_eq_some_iff.1 there
      exact queues l r known
    · exact Bool.eq_iff_iff.1 Option.isSome_map
    · exact Bool.eq_iff_iff.1 Option.isSome_map
    · obtain ⟨r, known, -⟩ := (places c l i).1 place
      refine (Bool.eq_iff_iff.1 Option.isSome_map).2 ?_
      rw [known]
      rfl

theorem Concourse.fit {s : State} (c : Concourse s) : ∃ D, (∀ c, c ∈ D ↔ (s.floor.cells.look c).isSome = true) ∧
    ∀ m x, s.floor.machines.look m = some x → Fit (s.control.mode = .standby) D (bare x) ∧
      ∃ B, (x.state ≠ .lost → B = ∅) ∧ Station (scene s.floor) m (heldBy (bare x)) B (waitOf (bare x)) := by
  obtain ⟨-, -, -, D, settled, lists⟩ := c
  refine ⟨D, fun c => ?_, fun m x known => (settled m).2 _ (scene_fleet known)⟩
  rw [← lists.claims c]
  exact Bool.eq_iff_iff.1 Option.isSome_map

/-- R19, R36: the machine that has a cell. -/
theorem Concourse.holder {s : State} (c : Concourse s) {d : Nat} {b : Bool} {m : Nat}
    (claim : (scene s.floor).claim d = some (some (b, m))) :
    ∃ x, s.floor.machines.look m = some x ∧ (b = true ↔ x.state ≠ .lost) := by
  obtain ⟨-, -, -, D, settled, -⟩ := c
  cases known : s.floor.machines.look m with
  | none =>
    have station := (settled m).1 (fleet_none_iff.2 known)
    cases b with
    | true => exact absurd ((station.holds d).1 claim) id
    | false => exact absurd ((station.blocks d).1 claim) id
  | some x =>
    obtain ⟨-, B, empty, station⟩ := (settled m).2 _ (scene_fleet known)
    refine ⟨x, rfl, ?_⟩
    cases b with
    | true => exact iff_of_true rfl ((station.holds d).1 claim).1
    | false =>
      refine iff_of_false nofun fun found => ?_
      have inside := (station.blocks d).1 claim
      rw [empty found] at inside
      exact inside

theorem holdingsKept_of_concourse {s : State} (c : Concourse s) : HoldingsKept s := by
  obtain ⟨D, defined, fits⟩ := c.fit
  refine ⟨fun m x known => ?_, fun m x known => ?_, fun d z m known => ⟨fun held => ?_, fun blocked => ?_⟩⟩
  · obtain ⟨fit, -⟩ := fits m x known
    exact ⟨fit.standby, fun a drives d inside => (defined d).1 (fit.route a drives d inside),
      fun leg next d inside => (defined d).1 (fit.next leg next d inside)⟩
  · obtain ⟨fit, B, -, station⟩ := fits m x known
    refine ⟨⟨fit.halted, fit.halts, fit.idle, fun any => c.pledge m x known any, fit.pending, fit.deferred, fit.legless, fit.down⟩,
      ⟨fit.active, fit.staged⟩, fit.few, fit.refuge, fun found => ⟨fit.once found, fun d => ?_⟩, fit.lost⟩
    rw [← claim_held_iff, station.holds, heldBy_of_ne (x := bare x) found]
    rfl
  · obtain ⟨x, there, lost⟩ := c.holder (d := d) (b := true) (m := m) (by rw [scene_claim known, held]; rfl)
    exact ⟨x, there, lost.1 rfl⟩
  · obtain ⟨x, there, lost⟩ := c.holder (d := d) (b := false) (m := m) (by rw [scene_claim known, blocked]; rfl)
    exact ⟨x, there, Classical.byContradiction fun found => nomatch lost.2 found⟩

theorem waitsKept_of_concourse {s : State} (c : Concourse s) : WaitsKept s := by
  obtain ⟨D, -, fits⟩ := c.fit
  obtain ⟨-, -, -, E, settled, lists⟩ := c
  refine ⟨fun m x known => ?_, fun d z known => lists.cells d _ (scene_list known), fun l r known => ?_, fun m d b => ?_,
    fun m l => ?_⟩
  · obtain ⟨fit, -⟩ := fits m x known
    exact ⟨fit.waiting, fit.asks, fit.seeks⟩
  · refine lists.lanes l r.waiters ?_
    show (s.floor.lanes.look l).map _ = _
    rw [known]
    rfl
  · rw [← listed_iff]
    cases known : s.floor.machines.look m with
    | none =>
      rw [((settled m).1 (fleet_none_iff.2 known)).listed]
      simp
    | some x =>
      obtain ⟨-, B, -, station⟩ := fits m x known
      rw [station.listed, waitOf_cell_iff]
      simp only [Option.some.injEq]
      exact ⟨fun ⟨r, rest⟩ => ⟨x, r, rfl, rest⟩, fun ⟨_, r, same, rest⟩ => ⟨r, same ▸ rest⟩⟩
  · rw [← queued_iff]
    cases known : s.floor.machines.look m with
    | none =>
      rw [((settled m).1 (fleet_none_iff.2 known)).queued]
      simp
    | some x =>
      obtain ⟨-, B, -, station⟩ := fits m x known
      rw [station.queued, waitOf_lane_iff]
      simp only [Option.some.injEq]
      exact ⟨fun ⟨count, asked⟩ => ⟨x, count, rfl, asked⟩, fun ⟨_, count, same, asked⟩ => ⟨count, same ▸ asked⟩⟩

theorem step_keeps_concourse {s t : State} (laws : ConcourseLaws s) (e : step s = .next t) : Concourse t :=
  step_keeps_of_deeds (P := Concourse) (fun _ _ c => ⟨c.tables, c.progress, c.pledge, c.lawful⟩)
    (fun _ _ => deed_keeps_concourse) (concourse_of_laws laws) e

/-- Settles O9: cells, records, waits and lists are read off the floor as one scene, whose law says of each machine that its
cells and its wait are those its record names; every deed keeps that law machine by machine. -/
theorem stepsKeepTheHoldings : Obligations.StepsKeepTheHoldings := fun _ _ laws e =>
  holdingsKept_of_concourse (step_keeps_concourse laws e)

/-- Settles O10, by the law of the scene: the lists are the machines' waits. -/
theorem stepsKeepTheWaitLists : Obligations.StepsKeepTheWaitLists := fun _ _ laws e =>
  waitsKept_of_concourse (step_keeps_concourse laws e)

end Sys2Proof.Laws
end
